-- ==== Sys2Proof/Word.lean ====
section
/-! DEFINITION. The word types of the Kizbren 6120 (spec/00_scope.md, Conventions; R174; R185). -/

namespace Sys2Proof

/-- One byte of a frame payload or of a stored page. -/
abbrev Byte := BitVec 8

/-- A counter of the part: 32 bits wide (R174). -/
abbrev Counter := BitVec 32

/-- Sixteen condition flags, the flag of condition n at bit n (R110, R185; of a condition mask: log 31). -/
abbrev CondSet := BitVec 16

/-- An item sequence number: 4 bytes (R183). -/
abbrev Seq := BitVec 32

end Sys2Proof
end

