-- ==== Sys2Proof/Syntax.lean ====
section
/-! DEFINITION. The commands of the Kizbren 6120: one constructor for each row of spec/opcode_table.json, with the
fields of the frame or request it stands for (R183, R184, R187) or the unit or lane an internal event happens to. -/

namespace Sys2Proof

/-- The two links of the part. -/
inductive Port where
  | intake
  | exchange
  deriving DecidableEq, Repr

/-- The faces of an item. -/
inductive Face where
  | front
  | back
  deriving DecidableEq, Repr

/-- The operands of WRITE_MEMBER after the index, as the bytes carry them (R187). -/
structure MemberOperand where
  present : Byte
  status : Byte
  defaultProfile : Byte
  classMap : Vector Byte 8
  deriving DecidableEq, Repr

/-- The 32-byte profile record as a request carries it, before any check or clamp (R187). -/
structure ProfileOperand where
  valid : Byte
  outRes : BitVec 16
  initialBackground : Byte
  tq : Byte
  darkLimit : Byte
  lightLimit : Byte
  attackShift : Byte
  decayShift : Byte
  widthMin : BitVec 16
  widthMax : BitVec 16
  heightMin : BitVec 16
  heightMax : BitVec 16
  blackMin : BitVec 16
  blackMax : BitVec 16
  brightMin : Byte
  brightMax : Byte
  streakPermille : BitVec 16
  streakLimit : Byte
  budget : BitVec 24
  pairTolerance : Byte
  mask : CondSet
  deriving DecidableEq, Repr

/-- The operands of WRITE_DISPOSITION after the index (R187). -/
structure DescriptorOperand where
  present : Byte
  cls : Byte
  alternate : Byte
  code : Byte
  deriving DecidableEq, Repr

/-- The commands, in the order of spec/opcode_table.json. -/
inductive Instr where
  | powerOnReset
  | intakeCheckFailure
  | intakeStrayFrame (bytes : List Byte)
  | itemOpen (lane : Fin 16) (seq : Seq) (member : BitVec 16) (cls sides : Byte) (date : BitVec 32)
  | sideOpen (lane : Fin 16) (seq : Seq) (face : Byte) (resolution width height : BitVec 16)
  | sideData (lane : Fin 16) (seq : Seq) (firstRow rowCount : BitVec 16) (rows : List Byte)
  | sideClose (lane : Fin 16) (seq : Seq)
  | itemClose (lane : Fin 16) (seq : Seq)
  | mgmtRequest (port : Port) (payload : List Byte)
  | halt
  | go
  | exchangeCheckFailure
  | exchangeStrayFrame (bytes : List Byte)
  | stallExpiry (lane : Fin 16)
  | binding
  | outputRowComplete (ru : Fin 4)
  | sideEnd (ru : Fin 4)
  | recordStart
  | exchangeFrameSent
  | itemEndSent
  | itemNoticeSent
  | exchangeReplySent
  | intakeFrameStart
  | intakeFrameSent
  | readMember (port : Port) (tag : BitVec 16) (index : BitVec 16)
  | writeMember (port : Port) (tag : BitVec 16) (index : BitVec 16) (entry : MemberOperand)
  | readProfile (port : Port) (tag : BitVec 16) (index : Byte)
  | writeProfile (port : Port) (tag : BitVec 16) (index : Byte) (record : ProfileOperand)
  | readDisposition (port : Port) (tag : BitVec 16) (index : Byte)
  | writeDisposition (port : Port) (tag : BitVec 16) (index : Byte) (descriptor : DescriptorOperand)
  | readLaneField (port : Port) (tag : BitVec 16) (lane field : Byte)
  | writeLaneField (port : Port) (tag : BitVec 16) (lane field : Byte) (value : BitVec 32)
  | writeHeld (port : Port) (tag : BitVec 16) (lane : Byte) (value : BitVec 32)
  | writeEnabled (port : Port) (tag : BitVec 16) (lane : Byte) (value : BitVec 32)
  | writeXoffMark (port : Port) (tag : BitVec 16) (lane : Byte) (value : BitVec 32)
  | writeXonMark (port : Port) (tag : BitVec 16) (lane : Byte) (value : BitVec 32)
  | writeStallMs (port : Port) (tag : BitVec 16) (lane : Byte) (value : BitVec 32)
  | readSetting (port : Port) (tag : BitVec 16) (setting : Byte)
  | writeDispositionExtent (port : Port) (tag : BitVec 16) (value : BitVec 16)
  | writePageReserve (port : Port) (tag : BitVec 16) (value : BitVec 16)
  | writeResumeMargin (port : Port) (tag : BitVec 16) (value : BitVec 16)
  | readCounters (port : Port) (tag : BitVec 16) (group lane clear : Byte)
  | readIdentity (port : Port) (tag : BitVec 16)
  | setServiceState (port : Port) (tag : BitVec 16) (target : Byte)
  | resetLane (port : Port) (tag : BitVec 16) (lane : Byte)
  | resetEngine (port : Port) (tag : BitVec 16)
  | copyProfile (port : Port) (tag : BitVec 16) (source destination : Byte)
  | moveClass (port : Port) (tag : BitVec 16) (member : BitVec 16) (cls profile : Byte)
  | quiesceLane (port : Port) (tag : BitVec 16) (lane : Byte)
  | badRequest (port : Port) (payload : List Byte)
  | resetPinRelease
  deriving DecidableEq, Repr

end Sys2Proof
end

