-- ==== Sys2Proof/Decode.lean ====
section
/-! DEFINITION. Words and commands. spec/opcode_table.json gives no row any bits: the Kizbren 6120 is a block whose
commands arrive as frames and events, so no word of the table's bits spells one. The byte layouts of frames and
requests (R183, R184, R187) are read in Machine/Operands.lean. -/

namespace Sys2Proof

/-- The command that a word spells by the table's bits: none, for no row has bits. -/
def decodeTableWord (_nbits _w : Nat) : Option Instr := none

end Sys2Proof
end

