-- ==== Sys2Proof/Config.lean ====
section
/-! DEFINITION. What is fixed in the part (R175 and the capacities of the chapters), and the one free value. -/

namespace Sys2Proof.Config

/-- Part code (R175). -/
def partCode : Nat := 6120
/-- Revision code (R175). -/
def revisionCode : Nat := 1
/-- Number of lanes (R175). -/
def laneCount : Nat := 16
/-- Number of Reduction Units (R175). -/
def unitCount : Nat := 4
/-- Pages of the Side Store (R175). -/
def pageCount : Nat := 2048
/-- Bytes of a page (R175). -/
def pageSize : Nat := 65536
/-- Item records a lane list holds at most (R76). -/
def listCapacity : Nat := 8
/-- Capacity of the request queue (R166). -/
def requestCapacity : Nat := 8
/-- Capacity of each reply queue (R163, R151). -/
def replyCapacity : Nat := 8
/-- Capacity of the refusal queue (R163). -/
def refusalCapacity : Nat := 32
/-- Largest payload of a frame (R72, R183). -/
def maxPayload : Nat := 16384
/-- Body bytes of a whole SIDE_BODY frame (R148). -/
def bodyChunk : Nat := 8192
/-- The value at which the coder's count holds (R39). -/
def fullLenTop : Nat := 16777215
/-- A side is exhausted at this rework count (R122, R132). -/
def reworkLimit : Nat := 2

/-- DESIGN CHOICE (log 10), safe: the byte at an offset of a side's input pages that nothing has written.
The spec never reads one (R12, R69), so nothing constrains it. -/
opaque unwrittenByte : Nat → Byte

end Sys2Proof.Config
end

