-- ==== Sys2Proof/Machine/Bytes.lean ====
section
/-! DEFINITION. Byte order: fields of more than one byte are sent most significant byte first (spec/00_scope.md,
Conventions). -/

namespace Sys2Proof.Machine

/-- The bytes of a 2-byte field. -/
def be16 (x : BitVec 16) : List Byte := [x.extractLsb' 8 8, x.extractLsb' 0 8]

/-- The bytes of a 3-byte field. -/
def be24 (x : BitVec 24) : List Byte := [x.extractLsb' 16 8, x.extractLsb' 8 8, x.extractLsb' 0 8]

/-- The bytes of a 4-byte field. -/
def be32 (x : BitVec 32) : List Byte :=
  [x.extractLsb' 24 8, x.extractLsb' 16 8, x.extractLsb' 8 8, x.extractLsb' 0 8]

/-- A number in a 1-byte field. -/
def byteOf (n : Nat) : Byte := BitVec.ofNat 8 n

/-- A number in a 2-byte field. -/
def num16 (n : Nat) : List Byte := be16 (BitVec.ofNat 16 n)

/-- A number in a 3-byte field. -/
def num24 (n : Nat) : List Byte := be24 (BitVec.ofNat 24 n)

/-- A number in a 4-byte field. -/
def num32 (n : Nat) : List Byte := be32 (BitVec.ofNat 32 n)

/-- A flag field holds 01H for yes and 00H for no (R183). -/
def flagByte (b : Bool) : Byte := if b then 1 else 0

/-- The flag a byte holds; none for a byte that is neither 01H nor 00H. -/
def flagOf (b : Byte) : Option Bool := if b = 1 then some true else if b = 0 then some false else none

/-- A 2-byte field from its bytes. -/
def word16 (b1 b0 : Byte) : BitVec 16 := b1 ++ b0

/-- A 3-byte field from its bytes. -/
def word24 (b2 b1 b0 : Byte) : BitVec 24 := b2 ++ b1 ++ b0

/-- A 4-byte field from its bytes. -/
def word32 (b3 b2 b1 b0 : Byte) : BitVec 32 := b3 ++ b2 ++ b1 ++ b0

end Sys2Proof.Machine
end

