-- ==== Sys2Proof/Machine/Operands.lean ====
section
/-! DEFINITION. The byte layouts of what the part receives: management requests (R168, R187), item frames (R184), the
header of a received frame (R183) and the sorting of frames at each port (R71, R72, R154). -/

namespace Sys2Proof.Machine

/-- A management request whose payload passes checks 1 to 3 of R168, with its operands as carried (R187). -/
inductive Request where
  | readMember (index : BitVec 16)
  | writeMember (index : BitVec 16) (entry : MemberOperand)
  | readProfile (index : Byte)
  | writeProfile (index : Byte) (record : ProfileOperand)
  | readDisposition (index : Byte)
  | writeDisposition (index : Byte) (descriptor : DescriptorOperand)
  | readLaneField (lane field : Byte)
  | writeLaneField (lane field : Byte) (value : BitVec 32)
  | readSetting (setting : Byte)
  | writeSetting (setting : Byte) (value : BitVec 16)
  | readCounters (group lane clear : Byte)
  | readIdentity
  | setServiceState (target : Byte)
  | resetLane (lane : Byte)
  | resetEngine
  | copyProfile (source destination : Byte)
  | moveClass (member : BitVec 16) (cls profile : Byte)
  | quiesceLane (lane : Byte)
  deriving DecidableEq, Repr

/-! ### Lane field, setting and group numbers (R187, in the order of R75 and R174) -/

/-- The field number of HELD. -/
def fieldHeld : Byte := 5
/-- The field number of ENABLED. -/
def fieldEnabled : Byte := 6
/-- The field number of XOFF_MARK. -/
def fieldXoff : Byte := 7
/-- The field number of XON_MARK. -/
def fieldXon : Byte := 8
/-- The field number of STALL_MS. -/
def fieldStallMs : Byte := 9
/-- The setting number of DISPOSITION_EXTENT. -/
def settingExtent : Byte := 0
/-- The setting number of PAGE_RESERVE. -/
def settingReserve : Byte := 1
/-- The setting number of RESUME_MARGIN. -/
def settingMargin : Byte := 2

/-! ### Structured operands -/

/-- The 11 bytes of a member entry (R187). -/
def memberBytes (e : MemberOperand) : List Byte :=
  [e.present, e.status, e.defaultProfile] ++ e.classMap.toList

/-- A member entry from its 11 bytes. -/
def memberOperand? : List Byte → Option MemberOperand
  | [p, s, d, c0, c1, c2, c3, c4, c5, c6, c7] => some ⟨p, s, d, #v[c0, c1, c2, c3, c4, c5, c6, c7]⟩
  | _ => none

/-- The 32 bytes of a profile record (R187). -/
def profileBytes (r : ProfileOperand) : List Byte :=
  [r.valid] ++ be16 r.outRes
    ++ [r.initialBackground, r.tq, r.darkLimit, r.lightLimit, r.attackShift, r.decayShift]
    ++ be16 r.widthMin ++ be16 r.widthMax ++ be16 r.heightMin ++ be16 r.heightMax
    ++ be16 r.blackMin ++ be16 r.blackMax ++ [r.brightMin, r.brightMax]
    ++ be16 r.streakPermille ++ [r.streakLimit] ++ be24 r.budget ++ [r.pairTolerance] ++ be16 r.mask

/-- A profile record from its 32 bytes (R187). The places of the 16 flags in the 2 bytes of the condition mask are those of a
condition set (R185): DESIGN CHOICE, log 31. -/
def profileOperand? : List Byte → Option ProfileOperand
  | [v, o1, o0, ib, tq, dl, ll, at', de, w3, w2, w1, w0, h3, h2, h1, h0, k3, k2, k1, k0, bm, bx,
      s1, s0, sl, b2, b1, b0, pt, m1, m0] =>
    some { valid := v, outRes := word16 o1 o0, initialBackground := ib, tq := tq, darkLimit := dl, lightLimit := ll,
           attackShift := at', decayShift := de, widthMin := word16 w3 w2, widthMax := word16 w1 w0,
           heightMin := word16 h3 h2, heightMax := word16 h1 h0, blackMin := word16 k3 k2, blackMax := word16 k1 k0,
           brightMin := bm, brightMax := bx, streakPermille := word16 s1 s0, streakLimit := sl,
           budget := word24 b2 b1 b0, pairTolerance := pt, mask := word16 m1 m0 }
  | _ => none

/-- The 4 bytes of a descriptor (R187). -/
def descriptorBytes (d : DescriptorOperand) : List Byte := [d.present, d.cls, d.alternate, d.code]

/-! ### Requests and their payloads -/

/-- The request code of a request (R187). -/
def Request.code : Request → Byte
  | .readMember _ => 0x10
  | .writeMember _ _ => 0x11
  | .readProfile _ => 0x12
  | .writeProfile _ _ => 0x13
  | .readDisposition _ => 0x14
  | .writeDisposition _ _ => 0x15
  | .readLaneField _ _ => 0x16
  | .writeLaneField _ _ _ => 0x17
  | .readSetting _ => 0x18
  | .writeSetting _ _ => 0x19
  | .readCounters _ _ _ => 0x20
  | .readIdentity => 0x22
  | .setServiceState _ => 0x30
  | .resetLane _ => 0x32
  | .resetEngine => 0x34
  | .copyProfile _ _ => 0x40
  | .moveClass _ _ _ => 0x42
  | .quiesceLane _ => 0x44

/-- The operand bytes of a request (R187). -/
def Request.operands : Request → List Byte
  | .readMember i => be16 i
  | .writeMember i e => be16 i ++ memberBytes e
  | .readProfile i => [i]
  | .writeProfile i r => i :: profileBytes r
  | .readDisposition i => [i]
  | .writeDisposition i d => i :: descriptorBytes d
  | .readLaneField l f => [l, f]
  | .writeLaneField l f v => [l, f] ++ be32 v
  | .readSetting n => [n]
  | .writeSetting n v => n :: be16 v
  | .readCounters g l c => [g, l, c]
  | .readIdentity => []
  | .setServiceState t => [t]
  | .resetLane l => [l]
  | .resetEngine => []
  | .copyProfile s d => [s, d]
  | .moveClass m c p => be16 m ++ [c, p]
  | .quiesceLane l => [l]

/-- The payload of a MGMT_REQUEST that carries a request under a tag (R187). -/
def Request.payload (tag : BitVec 16) (r : Request) : List Byte := r.code :: be16 tag ++ r.operands

/-- Checks 2 and 3 of R168: the request that a code and its operand bytes name, if any. -/
def parseOperands (code : Byte) (ops : List Byte) : Option Request :=
  if code = 0x10 then
    match ops with
    | [i1, i0] => some (.readMember (word16 i1 i0))
    | _ => none
  else if code = 0x11 then
    match ops with
    | i1 :: i0 :: e => (memberOperand? e).map (.writeMember (word16 i1 i0))
    | _ => none
  else if code = 0x12 then
    match ops with
    | [i] => some (.readProfile i)
    | _ => none
  else if code = 0x13 then
    match ops with
    | i :: r => (profileOperand? r).map (.writeProfile i)
    | _ => none
  else if code = 0x14 then
    match ops with
    | [i] => some (.readDisposition i)
    | _ => none
  else if code = 0x15 then
    match ops with
    | [i, p, c, a, k] => some (.writeDisposition i ⟨p, c, a, k⟩)
    | _ => none
  else if code = 0x16 then
    match ops with
    | [l, f] => some (.readLaneField l f)
    | _ => none
  else if code = 0x17 then
    match ops with
    | [l, f, v3, v2, v1, v0] => some (.writeLaneField l f (word32 v3 v2 v1 v0))
    | _ => none
  else if code = 0x18 then
    match ops with
    | [n] => some (.readSetting n)
    | _ => none
  else if code = 0x19 then
    match ops with
    | [n, v1, v0] => some (.writeSetting n (word16 v1 v0))
    | _ => none
  else if code = 0x20 then
    match ops with
    | [g, l, c] => some (.readCounters g l c)
    | _ => none
  else if code = 0x22 then
    match ops with
    | [] => some .readIdentity
    | _ => none
  else if code = 0x30 then
    match ops with
    | [t] => some (.setServiceState t)
    | _ => none
  else if code = 0x32 then
    match ops with
    | [l] => some (.resetLane l)
    | _ => none
  else if code = 0x34 then
    match ops with
    | [] => some .resetEngine
    | _ => none
  else if code = 0x40 then
    match ops with
    | [s, d] => some (.copyProfile s d)
    | _ => none
  else if code = 0x42 then
    match ops with
    | [m1, m0, c, p] => some (.moveClass (word16 m1 m0) c p)
    | _ => none
  else if code = 0x44 then
    match ops with
    | [l] => some (.quiesceLane l)
    | _ => none
  else none

/-- What checks 1 to 3 of R168 find in a payload: a request under its tag, or a bad request with the tag to echo. -/
inductive Parsed where
  | bad (tag : BitVec 16)
  | request (tag : BitVec 16) (r : Request)
  deriving DecidableEq, Repr

/-- Checks 1 to 3 of R168. A payload with no whole request header is answered with tag 0. -/
def parseRequest : List Byte → Parsed
  | code :: t1 :: t0 :: ops =>
    match parseOperands code ops with
    | some r => .request (word16 t1 t0) r
    | none => .bad (word16 t1 t0)
  | _ => .bad 0

/-- A request that leaves every table, field, setting, counter and state as it found it (R169). READ_COUNTERS is one
only with its clear-after-read option no (00H). -/
def Request.isRead : Request → Bool
  | .readMember _ => true
  | .readProfile _ => true
  | .readDisposition _ => true
  | .readLaneField _ _ => true
  | .readSetting _ => true
  | .readCounters _ _ c => c == 0
  | .readIdentity => true
  | .writeMember _ _ => false
  | .writeProfile _ _ => false
  | .writeDisposition _ _ => false
  | .writeLaneField _ _ _ => false
  | .writeSetting _ _ => false
  | .setServiceState _ => false
  | .resetLane _ => false
  | .resetEngine => false
  | .copyProfile _ _ => false
  | .moveClass _ _ _ => false
  | .quiesceLane _ => false

/-! ### Reading a received frame's header (R183) -/

/-- A received frame: the fields of its header and the payload bytes it carries (R183). -/
structure RawFrame where
  type : Byte
  lane : Byte
  length : BitVec 16
  seq : Seq
  payload : List Byte
  deriving DecidableEq, Repr

/-- A port reads the header of a received frame from its first eight bytes: type, lane, payload length and item sequence,
most significant byte first; the payload follows (R183). Fewer bytes hold no header. -/
def readFrame? : List Byte → Option RawFrame
  | t :: l :: n1 :: n0 :: q3 :: q2 :: q1 :: q0 :: payload => some ⟨t, l, word16 n1 n0, word32 q3 q2 q1 q0, payload⟩
  | _ => none

/-- The bytes of a frame on a link: its header, then its payload (R183). -/
def RawFrame.bytes (f : RawFrame) : List Byte := [f.type, f.lane] ++ be16 f.length ++ be32 f.seq ++ f.payload

/-! ### Sorting received frames -/

/-- The header's payload length is the number of bytes carried and does not exceed 16384 (R72, R154). -/
def rawLengthGood (f : RawFrame) : Bool :=
  f.payload.length == f.length.toNat && decide (f.payload.length ≤ Config.maxPayload)

/-- What the Intake Port does with a frame that passes its check (R71, R72). -/
inductive IntakeSort where
  | stray
  | itemOpen (lane : Fin 16) (member : BitVec 16) (cls sides : Byte) (date : BitVec 32)
  | sideOpen (lane : Fin 16) (face : Byte) (resolution width height : BitVec 16)
  | sideData (lane : Fin 16) (firstRow rowCount : BitVec 16) (rows : List Byte)
  | sideClose (lane : Fin 16)
  | itemClose (lane : Fin 16)
  | request (payload : List Byte)
  deriving DecidableEq, Repr

/-- An item frame's lane, if it is 0 to 15 (R72). -/
def lane? (b : Byte) : Option (Fin 16) := if h : b.toNat < 16 then some ⟨b.toNat, h⟩ else none

/-- The sorting of an item frame on a lane by its type and payload layout (R72, R183, R184). -/
def sortItemFrame (type : Byte) (l : Fin 16) (payload : List Byte) : IntakeSort :=
  if type = 0x10 then
    match payload with
    | [m1, m0, c, n, d3, d2, d1, d0] => .itemOpen l (word16 m1 m0) c n (word32 d3 d2 d1 d0)
    | _ => .stray
  else if type = 0x11 then
    match payload with
    | [f, r1, r0, w1, w0, h1, h0] => .sideOpen l f (word16 r1 r0) (word16 w1 w0) (word16 h1 h0)
    | _ => .stray
  else if type = 0x12 then
    match payload with
    | f1 :: f0 :: c1 :: c0 :: rows => .sideData l (word16 f1 f0) (word16 c1 c0) rows
    | _ => .stray
  else if type = 0x13 then
    match payload with
    | [] => .sideClose l
    | _ => .stray
  else if type = 0x14 then
    match payload with
    | [] => .itemClose l
    | _ => .stray
  else .stray

/-- The sorting of a frame that passes the Intake Port's check (R71, R72, R183). -/
def sortIntake (f : RawFrame) : IntakeSort :=
  if rawLengthGood f then
    if f.type = 0x20 then .request f.payload
    else
      match lane? f.lane with
      | some l => sortItemFrame f.type l f.payload
      | none => .stray
  else .stray

/-- What the Exchange Port does with a frame that passes its check (R154). -/
inductive ExchangeSort where
  | stray
  | halt
  | go
  | request (payload : List Byte)
  deriving DecidableEq, Repr

/-- The sorting of a frame that passes the Exchange Port's check (R154, R183). -/
def sortExchange (f : RawFrame) : ExchangeSort :=
  if rawLengthGood f then
    if f.type = 0x20 then .request f.payload
    else if f.type = 0x40 then (if f.payload.isEmpty then .halt else .stray)
    else if f.type = 0x41 then (if f.payload.isEmpty then .go else .stray)
    else .stray
  else .stray

end Sys2Proof.Machine
end

