-- ==== Sys2Proof/Machine/State.lean ====
section
/-! DEFINITION. The state of the Kizbren 6120, block by block (spec/00_scope.md, Block overview), as plain data, and
its power-on values. -/

namespace Sys2Proof.Machine

/-! ### Names of states, conditions' causes and outcomes -/

/-- Lane states (R74). -/
inductive LaneState where
  | idle
  | opened
  | side
  | drain
  deriving DecidableEq, Repr

/-- Item states (R77, R187). -/
inductive ItemState where
  | receiving
  | reducing
  | awaitDispatch
  | rework
  | ready
  | emitting
  deriving DecidableEq, Repr

/-- Side states (R78). `cancelled` is the model's name for a side that a lane reset cancelled (R59), kept in its
record until the notice leaves (R139): DESIGN CHOICE, log 11. -/
inductive SideState where
  | storing
  | bound
  | reworkWait
  | done
  | notReduced
  | cancelled
  deriving DecidableEq, Repr

/-- The causes that end a side's input early (R78). -/
inductive Truncation where
  | stall
  | overrun
  | gap
  deriving DecidableEq, Repr

/-- Sub-states of a bound Reduction Unit (R13). -/
inductive SubState where
  | running
  | waitInput
  | finishing
  deriving DecidableEq, Repr

/-- The service state (R178). -/
inductive ServiceState where
  | standby
  | inService
  | draining
  deriving DecidableEq, Repr

/-- Member status (R101). -/
inductive MemberStatus where
  | suspended
  | active
  deriving DecidableEq, Repr

/-- Descriptor classes (R114, R187). -/
inductive DescriptorClass where
  | mark
  | divert
  | rework
  deriving DecidableEq, Repr

/-- Dispositions of a dispatch record (R125). -/
inductive Disposition where
  | none
  | mark
  | diverted
  | rework
  | withdrawn
  deriving DecidableEq, Repr

/-- Reason kinds of a dispatch record (R125). -/
inductive ReasonKind where
  | none
  | condition
  | dispatchFault
  | reworkExhausted
  | laneReset
  deriving DecidableEq, Repr

/-- Dispatch-fault kinds (R117). -/
inductive FaultKind where
  | none
  | beyondExtent
  | notPresent
  | reworkOnItem
  | altProfileInvalid
  deriving DecidableEq, Repr

/-! ### Tables (R101, R102, R114) -/

/-- A member entry. -/
structure MemberEntry where
  present : Bool
  status : MemberStatus
  defaultProfile : Fin 64
  classMap : Vector (Option (Fin 64)) 8
  deriving DecidableEq, Repr

/-- A profile record: the fields of the profile table of chapter 6, in its order. -/
structure Profile where
  valid : Bool
  outRes : Nat
  initialBackground : Nat
  tq : Nat
  darkLimit : Nat
  lightLimit : Nat
  attackShift : Nat
  decayShift : Nat
  widthMin : Nat
  widthMax : Nat
  heightMin : Nat
  heightMax : Nat
  blackMin : Nat
  blackMax : Nat
  brightMin : Nat
  brightMax : Nat
  streakPermille : Nat
  streakLimit : Nat
  budget : Nat
  pairTolerance : Nat
  mask : CondSet
  deriving DecidableEq, Repr

/-- A disposition descriptor. -/
structure Descriptor where
  present : Bool
  cls : DescriptorClass
  alternate : Fin 64
  code : Byte
  deriving DecidableEq, Repr

/-! ### Side and item records (R77, R78, R125) -/

/-- The scaling results of a side (R3). -/
structure ScalingResults where
  outRes : Nat
  resClamped : Bool
  outWidth : Nat
  outHeight : Nat
  deriving DecidableEq, Repr

/-- A side record (R78). `resultsDiscarded` is the model's own: a lane reset has discarded the scaling results of the record
(R17), whose fields stay as they stood (R139; log 11). `input` and `body` are the bytes written in the side's input pages and output pages, in page
list order; `inputPages` and `outputPages` are the lengths of the two page lists (log 9). -/
structure Side where
  face : Face
  inRes : Nat
  width : Nat
  height : Nat
  rowsStored : Nat
  inputClosed : Bool
  truncation : Option Truncation
  inputPages : Nat
  input : List Byte
  outputPages : Nat
  body : List Byte
  snapshot : Option Profile
  profileUsed : Fin 64
  reworkCount : Nat
  raised : CondSet
  potent : CondSet
  outRes : Nat
  resClamped : Bool
  outWidth : Nat
  outHeight : Nat
  resultsDiscarded : Bool
  blackPermille : Nat
  meanGrey : Nat
  streakColumns : Nat
  fullLen : Nat
  bodyLen : Nat
  boundUnit : Option (Fin 4)
  state : SideState
  deriving DecidableEq, Repr

/-- A dispatch record (R125). -/
structure Dispatch where
  disposition : Disposition
  reason : ReasonKind
  cited : Option (Fin 16)
  fault : FaultKind
  code : Byte
  markList : List Byte
  deriving DecidableEq, Repr

/-- An item record (R77). -/
structure Item where
  seq : Seq
  member : BitVec 16
  cls : Byte
  date : BitVec 32
  sidesDeclared : Nat
  profileIndex : Fin 64
  mask : CondSet
  front : Option Side
  back : Option Side
  raised : CondSet
  potent : CondSet
  state : ItemState
  dispatch : Dispatch
  deriving DecidableEq, Repr

/-! ### Lane contexts (R74, R93) -/

/-- The ten counters of a lane (R93). -/
structure LaneCounters where
  admitted : Counter
  refused : Counter
  emitted : Counter
  diverted : Counter
  withdrawn : Counter
  reworks : Counter
  stalls : Counter
  overruns : Counter
  stray : Counter
  late : Counter
  deriving DecidableEq, Repr

/-- A lane context (R74). -/
structure Lane where
  state : LaneState
  seq : Seq
  list : List Item
  active : Option Face
  paused : Bool
  held : Bool
  enabled : Bool
  xoff : Nat
  xon : Nat
  stallMs : Nat
  stallRunning : Bool
  stallRemaining : Nat
  lastTimedOut : Option Seq
  counters : LaneCounters
  deriving DecidableEq, Repr

/-- A side named by its lane, item sequence and face (R50). -/
structure SideRef where
  lane : Fin 16
  seq : Seq
  face : Face
  deriving DecidableEq, Repr

/-! ### Port counters and frames -/

/-- The five counters of a port (R73, R154). -/
structure PortCounters where
  framesIn : Counter
  checkFailures : Counter
  framesOut : Counter
  aborted : Counter
  stray : Counter
  deriving DecidableEq, Repr

/-- The frame types the part sends (R183). -/
inductive FrameType where
  | mgmtReply
  | pause
  | resume
  | stopAll
  | startAll
  | refusal
  | itemHead
  | sideHead
  | sideBody
  | itemEnd
  | itemNotice
  deriving DecidableEq, Repr

/-- A frame the part sends: its type, its header's lane and item sequence, and its payload (R183). -/
structure Frame where
  type : FrameType
  lane : Byte
  seq : Seq
  payload : List Byte
  deriving DecidableEq, Repr

/-- A flow frame waiting to be sent (R162). -/
inductive FlowFrame where
  | pause (lane : Fin 16)
  | resume (lane : Fin 16)
  | stopAll
  | startAll
  deriving DecidableEq, Repr

/-- A REFUSAL waiting to be sent (R99). -/
structure RefusalFrame where
  lane : Fin 16
  seq : Seq
  reason : Byte
  deriving DecidableEq, Repr

/-- The class of a frame in progress on the intake link (R163). -/
inductive TxClass where
  | flow
  | refusal
  | reply
  deriving DecidableEq, Repr

/-- A frame in progress on the intake link. -/
structure IntakeTx where
  cls : TxClass
  frame : Frame
  deriving DecidableEq, Repr

/-! ### Reduction Units (R50) -/

/-- What a BOUND Reduction Unit holds: the bound side, the sub-state and the state of the four stages. -/
structure Binding where
  ref : SideRef
  sub : SubState
  din : Nat
  dout : Nat
  outWidth : Nat
  declaredHeight : Nat
  finalHeight : Option Nat
  nextRow : Nat
  rowsConsumed : Nat
  background : List Nat
  tq : Nat
  darkLimit : Nat
  lightLimit : Nat
  attackShift : Nat
  decayShift : Nat
  effectiveBudget : Nat
  previousRow : Option (List Bool)
  fullLen : Nat
  bodyLen : Nat
  oversize : Bool
  writePos : Nat
  blackCount : Nat
  greySum : Nat
  columnBlack : List Nat
  deriving DecidableEq, Repr

/-- The Reduction Units (none is FREE) and the arbiter's two wait lists (R50, R52, R53). -/
structure Reduction where
  units : Vector (Option Binding) 4
  openWait : List SideRef
  reworkWait : List SideRef
  deriving DecidableEq, Repr

/-! ### The other blocks -/

/-- The Admission Unit's tables (R109). -/
structure Admission where
  members : Vector MemberEntry 1024
  profiles : Vector Profile 64
  deriving DecidableEq, Repr

/-- The Disposition Unit (R114, R116, R127). -/
structure DispositionUnit where
  descriptors : Vector Descriptor 16
  extent : Nat
  dispatchFaults : Counter
  reworkExhausted : Counter
  deriving DecidableEq, Repr

/-- The frames of a record in EMITTING (R141, R145). -/
inductive EmitPoint where
  | itemHead
  | sideHead (face : Face)
  | sideBody (face : Face) (offset : Nat)
  | itemEnd
  | itemNotice
  deriving DecidableEq, Repr

/-- The record in EMITTING and its frame in progress or next to start (R141). -/
structure Emission where
  lane : Fin 16
  seq : Seq
  next : EmitPoint
  deriving DecidableEq, Repr

/-- The Egress Scheduler and the Exchange Port (R141). A reply is held as its MGMT_REPLY payload. -/
structure Egress where
  roundRobin : Fin 16
  emission : Option Emission
  inProgress : Option Frame
  halted : Bool
  replies : List (List Byte)
  port : PortCounters
  deriving DecidableEq, Repr

/-- The Flow Control Unit (R160, R162, R163). A reply is held as its MGMT_REPLY payload. -/
structure Flow where
  globalStop : Bool
  globalStops : Counter
  flowQueue : List FlowFrame
  refusals : List RefusalFrame
  replies : List (List Byte)
  inProgress : Option IntakeTx
  deriving DecidableEq, Repr

/-- A request waiting in the request queue, with its port of arrival (R166). -/
structure RequestEntry where
  port : Port
  payload : List Byte
  deriving DecidableEq, Repr

/-- The Management Unit (R166, R173, R178). -/
structure Mgmt where
  requests : List RequestEntry
  service : ServiceState
  pageReserve : Nat
  resumeMargin : Nat
  overflow : Counter
  deriving DecidableEq, Repr

/-- The state of the part. `pending` is the model's own queue of waiting commands, first in first out (log 1);
`taking` says whether the part takes frames (R188, log 7). -/
structure State where
  taking : Bool
  intakePort : PortCounters
  lanes : Vector Lane 16
  admission : Admission
  freePages : Nat
  reduction : Reduction
  disposition : DispositionUnit
  egress : Egress
  flow : Flow
  mgmt : Mgmt
  pending : List Instr
  deriving DecidableEq, Repr

/-! ### Faults and refusals -/

/-- The part has no fault that stops it: every outcome the spec gives is a next state (a counter, a condition, a
refused item, a refused request). No constructor. -/
inductive Fault where
  deriving DecidableEq, Repr

/-- Refusals of a command. -/
inductive Refusal where
  /-- Raised by `exec` for a command that has no meaning in the model yet; safe. No arm uses it. -/
  | notModelled (mnemonic : String)
  deriving DecidableEq, Repr

/-! ### Power-on values -/

/-- All five counters 0 (R73). -/
def PortCounters.zero : PortCounters := ⟨0, 0, 0, 0, 0⟩

/-- All ten counters 0 (R94). -/
def LaneCounters.zero : LaneCounters := ⟨0, 0, 0, 0, 0, 0, 0, 0, 0, 0⟩

/-- A lane context at power-on (R94). -/
def Lane.reset : Lane :=
  { state := .idle, seq := 0, list := [], active := none, paused := false, held := false, enabled := true,
    xoff := 256, xon := 128, stallMs := 2000, stallRunning := false, stallRemaining := 0, lastTimedOut := none,
    counters := LaneCounters.zero }

/-- A member entry at power-on (R109). -/
def MemberEntry.reset : MemberEntry :=
  { present := false, status := .suspended, defaultProfile := 0, classMap := Vector.replicate 8 none }

/-- A profile record at power-on (R109). -/
def Profile.reset : Profile :=
  { valid := false, outRes := 100, initialBackground := 0, tq := 16, darkLimit := 0, lightLimit := 1,
    attackShift := 1, decayShift := 3, widthMin := 0, widthMax := 0, heightMin := 0, heightMax := 0,
    blackMin := 0, blackMax := 0, brightMin := 0, brightMax := 0, streakPermille := 500, streakLimit := 1,
    budget := 1024, pairTolerance := 0, mask := 0 }

/-- A descriptor at power-on (R128). -/
def Descriptor.reset : Descriptor := { present := false, cls := .mark, alternate := 0, code := 0 }

/-- All units FREE, both wait lists empty (R60). -/
def Reduction.reset : Reduction := { units := Vector.replicate 4 none, openWait := [], reworkWait := [] }

/-- The egress state at power-on (R141). -/
def Egress.reset : Egress :=
  { roundRobin := 0, emission := none, inProgress := none, halted := false, replies := [],
    port := PortCounters.zero }

/-- The flow state at power-on (R165). -/
def Flow.reset : Flow :=
  { globalStop := false, globalStops := 0, flowQueue := [], refusals := [], replies := [], inProgress := none }

/-- The Management Unit at power-on (R173, R182). -/
def Mgmt.reset : Mgmt :=
  { requests := [], service := .standby, pageReserve := 128, resumeMargin := 64, overflow := 0 }

/-- The part right after power-on reset, its reset pin released (R182 and the reset rule of each chapter; log 7). -/
def State.reset : State :=
  { taking := true
    intakePort := PortCounters.zero
    lanes := Vector.replicate 16 Lane.reset
    admission := { members := Vector.replicate 1024 MemberEntry.reset, profiles := Vector.replicate 64 Profile.reset }
    freePages := Config.pageCount
    reduction := Reduction.reset
    disposition :=
      { descriptors := Vector.replicate 16 Descriptor.reset, extent := 0, dispatchFaults := 0, reworkExhausted := 0 }
    egress := Egress.reset
    flow := Flow.reset
    mgmt := Mgmt.reset
    pending := [] }

end Sys2Proof.Machine
end

