-- ==== Sys2Proof/Machine/Flags.lean ====
section
/-! DEFINITION. The sixteen conditions (R110), condition sets, and potent conditions (R111). -/

namespace Sys2Proof.Machine

/-- A condition number, 0 to 15 (R110). -/
abbrev Condition := Fin 16

/-- Condition 0 (R86, R107). -/
def condInputOverrun : Condition := 0
/-- Condition 1 (R91). -/
def condInputStall : Condition := 1
/-- Condition 2 (R85, R87). -/
def condRowShort : Condition := 2
/-- Condition 3 (R84). -/
def condRowExcess : Condition := 3
/-- Condition 4 (R106). -/
def condProfileWithdrawn : Condition := 4
/-- Condition 5 (R44). -/
def condSizeSmall : Condition := 5
/-- Condition 6 (R44). -/
def condSizeLarge : Condition := 6
/-- Condition 7 (R44). -/
def condTooLight : Condition := 7
/-- Condition 8 (R44). -/
def condTooDark : Condition := 8
/-- Condition 9 (R44). -/
def condStreak : Condition := 9
/-- Condition 10 (R44). -/
def condBrightnessLow : Condition := 10
/-- Condition 11 (R44). -/
def condBrightnessHigh : Condition := 11
/-- Condition 12 (R38). -/
def condOversize : Condition := 12
/-- Condition 13, an item condition (R88). -/
def condSideMissing : Condition := 13
/-- Condition 14, an item condition (R113). -/
def condPairMismatch : Condition := 14
/-- Condition 15, an item condition (R98). -/
def condProfileFallback : Condition := 15

/-- The condition numbers in ascending order, the order of every walk (R110). -/
def allConditions : List Condition := [0, 1, 2, 3, 4, 5, 6, 7, 8, 9, 10, 11, 12, 13, 14, 15]

/-- An item condition (R110): 13, 14 or 15. -/
def isItemCondition (n : Condition) : Bool := decide (13 ≤ n.val)

/-- The set holds the condition. -/
def holds (c : CondSet) (n : Condition) : Bool := c.getLsbD n.val

/-- The set of one condition: the bit of weight 2 raised to its number (R185). -/
def single (n : Condition) : CondSet := 1#16 <<< n.val

/-- The set with the condition added; a set holds each condition at most once (R110). -/
def raise (n : Condition) (c : CondSet) : CondSet := c ||| single n

/-- The set with the condition removed. -/
def lower (n : Condition) (c : CondSet) : CondSet := c &&& ~~~(single n)

/-- The set with the condition added when the test holds. -/
def raiseIf (b : Bool) (n : Condition) (c : CondSet) : CondSet := if b then raise n c else c

/-- The potent members of a raised set: those whose flag in the governing mask is clear (R111).
That the flag of condition n is bit n of the mask, as in a condition set (R185), is the model's choice: DESIGN CHOICE, log 31. -/
def potentUnder (mask raised : CondSet) : CondSet := raised &&& ~~~mask

end Sys2Proof.Machine
end

