-- ==== Sys2Proof/Machine/Wire.lean ====
section
/-! DEFINITION. The frames the part sends, as the bytes on a link: frame codes and the eight-byte header (R183). -/

namespace Sys2Proof.Machine

/-- The type code of a frame the part sends (R183). -/
def FrameType.code : FrameType → Byte
  | .mgmtReply => 0x21
  | .pause => 0x30
  | .resume => 0x31
  | .stopAll => 0x32
  | .startAll => 0x33
  | .refusal => 0x34
  | .itemHead => 0x50
  | .sideHead => 0x51
  | .sideBody => 0x52
  | .itemEnd => 0x53
  | .itemNotice => 0x54

/-- The header that a port forms for a frame it sends: type, lane, payload length, item sequence (R183). -/
def Frame.header (f : Frame) : List Byte := [f.type.code, f.lane] ++ num16 f.payload.length ++ be32 f.seq

/-- A frame as it is sent: its header, then its payload (R183). -/
def Frame.bytes (f : Frame) : List Byte := f.header ++ f.payload

/-- The bytes of the frame in progress on the exchange link, none while the link is idle (R141). -/
def State.exchangeLink (s : State) : Option (List Byte) := s.egress.inProgress.map Frame.bytes

/-- The bytes of the frame in progress on the intake link, none while the link is idle (R163). -/
def State.intakeLink (s : State) : Option (List Byte) := s.flow.inProgress.map fun t => t.frame.bytes

end Sys2Proof.Machine
end

