-- ==== Sys2Proof/Machine/Ops.lean ====
section
/-! DEFINITION. The named operations over the state: counters, lanes, item records, side records, units, and the sums
over them (backlog, pages held). -/

namespace Sys2Proof.Machine

/-! ### Counters and lists -/

/-- A counter rises by 1 and holds at 4294967295 (R174). -/
def bump (c : Counter) : Counter := if c = 4294967295 then c else c + 1

/-- A list with the first entry that meets the test changed. -/
def modifyFirst {α : Type} (p : α → Bool) (f : α → α) : List α → List α
  | [] => []
  | x :: xs => if p x then f x :: xs else x :: modifyFirst p f xs

/-- The first entry with the test met taken out of a list. -/
def dropFirst {α : Type} (p : α → Bool) : List α → List α
  | [] => []
  | x :: xs => if p x then xs else x :: dropFirst p xs

/-- The whole number not less than a quotient (spec/00_scope.md, Arithmetic). -/
def ceilDiv (a b : Nat) : Nat := (a + b - 1) / b

/-- A value brought into a range. -/
def clampTo (lo hi v : Nat) : Nat := max lo (min v hi)

/-! ### Updates of one block -/

/-- The state with its lane contexts replaced. -/
def State.withLanes (s : State) (x : Vector Lane 16) : State := { s with lanes := x }
/-- The state with the Reduction Units and wait lists replaced. -/
def State.withReduction (s : State) (x : Reduction) : State := { s with reduction := x }
/-- The state with the tables of the Admission Unit replaced. -/
def State.withAdmission (s : State) (x : Admission) : State := { s with admission := x }
/-- The state with the Disposition Unit replaced. -/
def State.withDisposition (s : State) (x : DispositionUnit) : State := { s with disposition := x }
/-- The state with the egress state replaced. -/
def State.withEgress (s : State) (x : Egress) : State := { s with egress := x }
/-- The state with the flow state replaced. -/
def State.withFlow (s : State) (x : Flow) : State := { s with flow := x }
/-- The state with the Management Unit replaced. -/
def State.withMgmt (s : State) (x : Mgmt) : State := { s with mgmt := x }
/-- The state with the intake port counters replaced. -/
def State.withIntakePort (s : State) (x : PortCounters) : State := { s with intakePort := x }
/-- The state with the free page count replaced, and nothing else. -/
def State.withFree (s : State) (n : Nat) : State := { s with freePages := n }
/-- The state with the taking of frames switched. -/
def State.withTaking (s : State) (b : Bool) : State := { s with taking := b }

/-! ### Lanes -/

/-- A lane's context. -/
def State.lane (s : State) (l : Fin 16) : Lane := s.lanes[l.val]

/-- The state with one lane's context replaced. -/
def State.setLane (s : State) (l : Fin 16) (c : Lane) : State := s.withLanes (s.lanes.set l.val c)

/-- The state with one lane's context changed. -/
def State.modLane (s : State) (l : Fin 16) (f : Lane → Lane) : State := s.setLane l (f (s.lane l))

/-- The state with one lane's counters changed. -/
def State.countLane (s : State) (l : Fin 16) (f : LaneCounters → LaneCounters) : State :=
  s.modLane l fun c => { c with counters := f c.counters }

/-- The numbers of the lanes, ascending. -/
def allLanes : List (Fin 16) := [0, 1, 2, 3, 4, 5, 6, 7, 8, 9, 10, 11, 12, 13, 14, 15]

/-- The numbers of the units, ascending. -/
def allUnits : List (Fin 4) := [0, 1, 2, 3]

/-- The faces, FRONT before BACK. -/
def allFaces : List Face := [.front, .back]

/-! ### Item and side records -/

/-- An item's side record for a face, if present. -/
def Item.side (i : Item) : Face → Option Side
  | .front => i.front
  | .back => i.back

/-- An item with its side record for a face replaced. -/
def Item.setSide (i : Item) (f : Face) (x : Option Side) : Item :=
  match f with
  | .front => { i with front := x }
  | .back => { i with back := x }

/-- An item with its side record for a face changed, if present. -/
def Item.modSide (i : Item) (f : Face) (g : Side → Side) : Item := i.setSide f ((i.side f).map g)

/-- An item's side records, FRONT first. -/
def Item.sides (i : Item) : List Side := i.front.toList ++ i.back.toList

/-- An item with every side record changed. -/
def Item.mapSides (i : Item) (g : Side → Side) : Item := { i with front := i.front.map g, back := i.back.map g }

/-- The record of a sequence in a lane's list, if any (R76). -/
def Lane.item? (c : Lane) (q : Seq) : Option Item := c.list.find? fun i => i.seq == q

/-- A lane with the record of a sequence changed. -/
def Lane.modItem (c : Lane) (q : Seq) (f : Item → Item) : Lane :=
  { c with list := modifyFirst (fun i => i.seq == q) f c.list }

/-- A lane's item record, if any. -/
def State.item? (s : State) (l : Fin 16) (q : Seq) : Option Item := (s.lane l).item? q

/-- The state with one item record changed. -/
def State.modItem (s : State) (l : Fin 16) (q : Seq) (f : Item → Item) : State := s.modLane l fun c => c.modItem q f

/-- The side record a reference names, if any. -/
def State.side? (s : State) (r : SideRef) : Option Side := (s.item? r.lane r.seq).bind fun i => i.side r.face

/-- The state with one side record changed. -/
def State.modSide (s : State) (r : SideRef) (g : Side → Side) : State :=
  s.modItem r.lane r.seq fun i => i.modSide r.face g

/-- The dispatch record of an item that is still to be judged for the first time (R125). R125 sets the fields but the
disposition with some dispositions only and gives no value otherwise: that they hold none, 0 and the empty list then (the
exchange reason code 0 with disposition none or MARK among them) is the model's choice, DESIGN CHOICE, log 27. -/
def Dispatch.fresh : Dispatch :=
  { disposition := .none, reason := .none, cited := none, fault := .none, code := 0, markList := [] }

/-! ### Units -/

/-- What a unit holds: none when FREE. -/
def State.unit (s : State) (u : Fin 4) : Option Binding := s.reduction.units[u.val]

/-- The state with one unit's content replaced. -/
def State.setUnit (s : State) (u : Fin 4) (b : Option Binding) : State :=
  s.withReduction { s.reduction with units := s.reduction.units.set u.val b }

/-! ### Pages held (R70) -/

/-- The pages a side record holds. -/
def Side.pages (x : Side) : Nat := x.inputPages + x.outputPages

/-- The scaling results that a side record holds, as every block reads them: the four fields of the record (R3). Once a lane
reset has discarded them the record holds none (R17), and they read as those of a side that was never bound (log 11). -/
def Side.results (x : Side) : ScalingResults :=
  if x.resultsDiscarded then ⟨0, false, 0, 0⟩ else ⟨x.outRes, x.resClamped, x.outWidth, x.outHeight⟩

/-- The pages of an optional side record. -/
def optPages : Option Side → Nat
  | none => 0
  | some x => x.pages

/-- The pages an item record holds. -/
def Item.pages (i : Item) : Nat := optPages i.front + optPages i.back

/-- The pages of the item records of a list. -/
def listPages : List Item → Nat
  | [] => 0
  | i :: is => i.pages + listPages is

/-- PAGES_HELD of a lane (R70). -/
def Lane.pages (c : Lane) : Nat := listPages c.list

/-- The sum of PAGES_HELD over the lanes (R70). -/
def State.pagesHeld (s : State) : Nat := (s.lanes.toList.map Lane.pages).sum

/-! ### Backlog (R156) -/

/-- Rows consumed of a side: those of the unit it is bound to, 0 for a side that is not bound (R16). -/
def State.rowsConsumed (s : State) (x : Side) : Nat :=
  match x.boundUnit with
  | none => 0
  | some u =>
    match s.unit u with
    | none => 0
    | some b => b.rowsConsumed

/-- What a side adds to its lane's backlog (R156). -/
def State.sideBacklog (s : State) (x : Side) : Nat :=
  match x.state with
  | .storing => x.rowsStored
  | .bound => x.rowsStored - s.rowsConsumed x
  | .reworkWait => 0
  | .done => 0
  | .notReduced => 0
  | .cancelled => 0

/-- The backlog of a lane, in rows (R156). -/
def State.backlog (s : State) (l : Fin 16) : Nat :=
  ((s.lane l).list.map fun i => (i.sides.map s.sideBacklog).sum).sum

/-! ### Port counters -/

/-- A frame passed the Intake Port's check (R71). -/
def countIntakeIn (s : State) : State :=
  s.withIntakePort { s.intakePort with framesIn := bump s.intakePort.framesIn }

/-- The Intake Port discarded a frame as stray (R72). -/
def countIntakeStray (s : State) : State :=
  s.withIntakePort { s.intakePort with stray := bump s.intakePort.stray }

/-- The Intake Port sent a frame whole (R73). -/
def countIntakeOut (s : State) : State :=
  s.withIntakePort { s.intakePort with framesOut := bump s.intakePort.framesOut }

/-- The state with the exchange port counters changed. -/
def modExchangePort (f : PortCounters → PortCounters) (s : State) : State :=
  s.withEgress { s.egress with port := f s.egress.port }

/-- A frame passed the Exchange Port's check (R154). -/
def countExchangeIn (s : State) : State := modExchangePort (fun p => { p with framesIn := bump p.framesIn }) s

/-- The Exchange Port discarded a frame as stray (R154). -/
def countExchangeStray (s : State) : State := modExchangePort (fun p => { p with stray := bump p.stray }) s

/-- The Exchange Port sent a frame whole (R154). -/
def countExchangeOut (s : State) : State := modExchangePort (fun p => { p with framesOut := bump p.framesOut }) s

end Sys2Proof.Machine
end

