-- ==== Sys2Proof/Machine/Flow.lean ====
section
/-! DEFINITION. Flow control: paused flags, the global stop and the intake transmit side (spec/10_flow_control.md). -/

namespace Sys2Proof.Machine

/-! ### Flow frames and the flow queue (R162) -/

/-- Two flow frames have the same scope: the same lane, or both the whole intake (R162). -/
def sameScope : FlowFrame → FlowFrame → Bool
  | .pause a, .pause b => a == b
  | .pause a, .resume b => a == b
  | .resume a, .pause b => a == b
  | .resume a, .resume b => a == b
  | .stopAll, .stopAll => true
  | .stopAll, .startAll => true
  | .startAll, .stopAll => true
  | .startAll, .startAll => true
  | .pause _, .stopAll => false
  | .pause _, .startAll => false
  | .resume _, .stopAll => false
  | .resume _, .startAll => false
  | .stopAll, .pause _ => false
  | .stopAll, .resume _ => false
  | .startAll, .pause _ => false
  | .startAll, .resume _ => false

/-- A flow queue with a frame queued: a waiting frame of the same scope is removed, and the new one joins the tail
(R162). -/
def enqueueFlow (f : FlowFrame) (q : List FlowFrame) : List FlowFrame := q.filter (fun g => !sameScope f g) ++ [f]

/-- A flow frame is queued for the intake transmit side (R162). -/
def queueFlow (f : FlowFrame) (s : State) : State :=
  s.withFlow { s.flow with flowQueue := enqueueFlow f s.flow.flowQueue }

/-- A flow frame as it is sent (R162, R183). -/
def flowWire : FlowFrame → Frame
  | .pause l => { type := .pause, lane := byteOf l.val, seq := 0, payload := [] }
  | .resume l => { type := .resume, lane := byteOf l.val, seq := 0, payload := [] }
  | .stopAll => { type := .stopAll, lane := 255, seq := 0, payload := [] }
  | .startAll => { type := .startAll, lane := 255, seq := 0, payload := [] }

/-- A REFUSAL as it is sent: lane, item sequence and reason code, under the lane and item sequence 0 (R99, R183). -/
def refusalWire (r : RefusalFrame) : Frame :=
  { type := .refusal, lane := byteOf r.lane.val, seq := 0, payload := byteOf r.lane.val :: be32 r.seq ++ [r.reason] }

/-- A MGMT_REPLY as it is sent: lane 255 and item sequence 0 (R170, R183). -/
def replyWire (payload : List Byte) : Frame := { type := .mgmtReply, lane := 255, seq := 0, payload := payload }

/-! ### The lane paused flag (R157) -/

/-- What the comparison of a backlog b and an occupancy n with a lane's marks makes of its paused flag (R157). -/
def pausedBy (c : Lane) (b n : Nat) : Bool :=
  if c.xoff ≤ b ∨ n = 8 then true
  else if b ≤ c.xon ∧ n ≤ 7 then false
  else c.paused

/-- The Flow Control Unit evaluates a lane's paused flag, and queues PAUSE or RESUME when it changes (R157). R156 asks for
an evaluation in every event that changes a lane's backlog or occupancy and leaves open how often one event evaluates that
changes them twice; where each operation of the model calls this is the model's choice: DESIGN CHOICE, log 28. -/
def evalPaused (l : Fin 16) (s : State) : State :=
  let c := s.lane l
  let p := pausedBy c (s.backlog l) c.list.length
  if p = c.paused then s
  else queueFlow (if p then .pause l else .resume l) (s.setLane l { c with paused := p })

/-! ### The global stop (R160) -/

/-- The Flow Control Unit evaluates the global stop flag, and queues STOP_ALL or START_ALL when it changes (R160). -/
def evalStop (s : State) : State :=
  if s.freePages < s.mgmt.pageReserve then
    if s.flow.globalStop then s
    else queueFlow .stopAll (s.withFlow { s.flow with globalStop := true, globalStops := bump s.flow.globalStops })
  else if s.mgmt.pageReserve + s.mgmt.resumeMargin ≤ s.freePages then
    if s.flow.globalStop then queueFlow .startAll (s.withFlow { s.flow with globalStop := false })
    else s
  else s

/-- The free page count changes, and the Flow Control Unit sees it (R61). -/
def setFree (n : Nat) (s : State) : State := evalStop (s.withFree n)

/-- Pages leave the free pool. -/
def takePages (n : Nat) (s : State) : State := if n = 0 then s else setFree (s.freePages - n) s

/-- Pages return to the free pool. -/
def returnPages (n : Nat) (s : State) : State := if n = 0 then s else setFree (s.freePages + n) s

/-! ### The intake transmit side (R163) -/

/-- With no frame in progress, the next waiting frame starts: flow frames first, then REFUSAL frames, then replies. A
flow frame leaves the flow queue as it starts (log 8); a REFUSAL and a reply leave theirs when they have been sent. -/
def startIntakeFrame (s : State) : State :=
  match s.flow.inProgress with
  | some _ => s
  | none =>
    match s.flow.flowQueue with
    | f :: rest => s.withFlow { s.flow with flowQueue := rest, inProgress := some ⟨.flow, flowWire f⟩ }
    | [] =>
      match s.flow.refusals with
      | r :: _ => s.withFlow { s.flow with inProgress := some ⟨.refusal, refusalWire r⟩ }
      | [] =>
        match s.flow.replies with
        | p :: _ => s.withFlow { s.flow with inProgress := some ⟨.reply, replyWire p⟩ }
        | [] => s

/-- A REFUSAL is handed over: it joins the refusal queue unless the queue holds 32 (R99, R163). -/
def queueRefusal (r : RefusalFrame) (s : State) : State :=
  if s.flow.refusals.length < Config.refusalCapacity then
    s.withFlow { s.flow with refusals := s.flow.refusals ++ [r] }
  else s

end Sys2Proof.Machine
end

