-- ==== Sys2Proof/Machine/Scaler.lean ====
section
/-! DEFINITION. The scaler (spec/01_scaling.md): ratio, output geometry, area weights, scaled grey, and the choice of a
bound unit's sub-state. -/

namespace Sys2Proof.Machine

/-- The ratio Din/Dout of an input and an output resolution, clamped to 1/1 (R1, R2). -/
def ratio (rin rout : Nat) : Nat × Nat :=
  if rin < rout then (1, 1) else (rin / Nat.gcd rin rout, rout / Nat.gcd rin rout)

/-- RES_CLAMPED (R2). -/
def isClamped (rin rout : Nat) : Bool := decide (rin < rout)

/-- The output resolution a side record carries (R2). -/
def reportedRes (rin rout : Nat) : Nat := if rin < rout then rin else rout

/-- An output extent: the whole output spans that an input extent covers (R4, R5, R6). -/
def outExtent (din dout extent : Nat) : Nat := extent * dout / din

/-- The first input pixel that output pixel j needs (R7, R12). -/
def firstNeeded (din dout j : Nat) : Nat := j * din / dout

/-- One past the last input pixel that output pixel j needs (R7, R12). -/
def endNeeded (din dout j : Nat) : Nat := ceilDiv ((j + 1) * din) dout

/-- The weight of input pixel i in output pixel j: the overlap of their spans (R7). -/
def weight (din dout i j : Nat) : Nat := min ((i + 1) * dout) ((j + 1) * din) - max (i * dout) (j * din)

/-- The input pixels that output pixel j needs: those of non-zero weight (R7, R9), and so also a last one that lies partly to
the right of the last whole output span. R4 says that such a pixel is not read, R7 and R9 give it a weight in the sum, and
the model follows R7 and R9: DESIGN CHOICE, log 29. -/
def neededPixels (din dout j : Nat) : List Nat :=
  List.range' (firstNeeded din dout j) (endNeeded din dout j - firstNeeded din dout j)

/-- Input pixel (x, r) of the side's stored input (R8). A byte that nothing has written is the free value of log 10. -/
def inputPixel (x : Side) (r col : Nat) : Nat :=
  let off := r * x.width + col
  (x.input[off]?.getD (Config.unwrittenByte off)).toNat

/-- The weighted sum S of output pixel (j, k) (R9). -/
def weightedSum (din dout : Nat) (px : Nat → Nat → Nat) (j k : Nat) : Nat :=
  ((neededPixels din dout k).map fun r =>
    ((neededPixels din dout j).map fun c => px r c * weight din dout c j * weight din dout r k).sum).sum

/-- The scaled grey of a weighted sum (R10). -/
def greyOf (din sum : Nat) : Nat := (2 * sum + din * din) / (2 * (din * din))

/-- The scaled grey values of output row k, from column 0 (R11). -/
def greyRow (din dout outWidth : Nat) (px : Nat → Nat → Nat) (k : Nat) : List Nat :=
  (List.range outWidth).map fun j => greyOf din (weightedSum din dout px j k)

/-- The needed rows of output row k are all stored (R12). -/
def rowReady (din dout k rowsStored : Nat) : Bool := decide (endNeeded din dout k ≤ rowsStored)

/-- T of R13: the final output height if it is set, or the declared output height. -/
def Binding.target (b : Binding) : Nat := b.finalHeight.getD b.declaredHeight

/-- The sub-state that the table of R13 gives. -/
def chooseSub (b : Binding) (rowsStored : Nat) (inputClosed : Bool) : SubState :=
  if b.nextRow < b.target then
    if rowReady b.din b.dout b.nextRow rowsStored then .running else .waitInput
  else if inputClosed then .finishing else .waitInput

/-- Rows consumed once an output row has completed and k is the next output row (R16). -/
def consumedAt (b : Binding) (k rowsStored : Nat) : Nat :=
  if k < b.target then firstNeeded b.din b.dout k else rowsStored

/-- Rows were stored for the bound side (R14, R16): a waiting unit tests row k again, or, with every declared output
row produced, follows the rows stored. -/
def Binding.rowsArrived (b : Binding) (rowsStored : Nat) : Binding :=
  match b.sub with
  | .waitInput =>
    if b.nextRow < b.declaredHeight then { b with sub := chooseSub b rowsStored false }
    else { b with rowsConsumed := rowsStored }
  | .running => b
  | .finishing => b

/-- The input of the bound side closes (R6, R15, R16): the final output height is set; a waiting unit goes by R13, and
consumes every stored row when no output row is left. -/
def Binding.inputCloses (b : Binding) (rowsStored : Nat) : Binding :=
  let b' := { b with finalHeight := some (outExtent b.din b.dout rowsStored) }
  match b.sub with
  | .waitInput =>
    { b' with
      sub := chooseSub b' rowsStored true
      rowsConsumed := if b'.nextRow < b'.target then b'.rowsConsumed else rowsStored }
  | .running => b'
  | .finishing => b'

end Sys2Proof.Machine
end

