-- ==== Sys2Proof/Machine/Converter.lean ====
section
/-! DEFINITION. The bitonal converter (spec/02_bitonal_conversion.md). A colour is a Bool: true is black. -/

namespace Sys2Proof.Machine

/-- The five parameters the converter copies at a binding (R19). -/
structure ConvertParams where
  tq : Nat
  darkLimit : Nat
  lightLimit : Nat
  attackShift : Nat
  decayShift : Nat
  deriving DecidableEq, Repr

/-- The parameters a bound unit holds. -/
def Binding.params (b : Binding) : ConvertParams := ⟨b.tq, b.darkLimit, b.lightLimit, b.attackShift, b.decayShift⟩

/-- The column background array at a binding (R20). -/
def initialArray (outWidth initialBackground : Nat) : List Nat := List.replicate outWidth (initialBackground * 16)

/-- The relative threshold of a column (R23). -/
def threshold (tq bg : Nat) : Nat := bg * tq / 64

/-- The colour of a pixel of grey g over background bg: true is black (R22). -/
def isBlack (p : ConvertParams) (bg g : Nat) : Bool :=
  if g ≤ p.darkLimit then true
  else if p.lightLimit ≤ g then false
  else decide (16 * g < threshold p.tq bg)

/-- A white pixel moves its column's background toward V (R25). -/
def moveBackground (p : ConvertParams) (bg v : Nat) : Nat :=
  if bg ≤ v then bg + (v - bg) / 2 ^ p.attackShift else bg - (bg - v) / 2 ^ p.decayShift

/-- The background of a column after its pixel of grey g is decided (R24, R25). -/
def nextBackground (p : ConvertParams) (bg g : Nat) : Nat :=
  if isBlack p bg g then bg else moveBackground p bg (16 * g)

/-- The colours of a row of greys over the column background array (R21, R27). -/
def convertRow (p : ConvertParams) (bgs gs : List Nat) : List Bool := List.zipWith (isBlack p) bgs gs

/-- The column background array after a row of greys is decided (R21). -/
def nextBackgrounds (p : ConvertParams) (bgs gs : List Nat) : List Nat := List.zipWith (nextBackground p) bgs gs

end Sys2Proof.Machine
end

