-- ==== Sys2Proof/Machine/Coder.lean ====
section
/-! DEFINITION. The row coder (spec/03_row_coding_and_side_measures.md, R32 to R40; byte values of R186). -/

namespace Sys2Proof.Machine

/-- The header byte of a RUNS row (R186). -/
def headerRuns : Byte := 0
/-- The header byte of a REPEAT row (R186). -/
def headerRepeat : Byte := 1
/-- The header byte of a WHITE row (R186). -/
def headerWhite : Byte := 2

/-- The run lengths of a row, n pixels of colour `cur` standing before it. -/
def runsFrom (cur : Bool) (n : Nat) : List Bool → List Nat
  | [] => [n]
  | p :: ps => if p = cur then runsFrom cur (n + 1) ps else n :: runsFrom p 1 ps

/-- The runs of a row, alternating from white (R35). -/
def runs (row : List Bool) : List Nat := runsFrom false 0 row

/-- The one or two bytes of a run (R36). -/
def codeRun (n : Nat) : List Byte := if n < 128 then [byteOf n] else [byteOf (128 + n / 256), byteOf (n % 256)]

/-- A coded row: its header by the first case of R34, then its runs (R35, R36). -/
def codeRow (previous : Option (List Bool)) (row : List Bool) : List Byte :=
  if row.all (fun p => !p) then [headerWhite]
  else if previous = some row then [headerRepeat]
  else headerRuns :: (runs row).flatMap codeRun

/-- The coder's counts and what has been written of the body. -/
structure CoderState where
  fullLen : Nat
  bodyLen : Nat
  oversize : Bool
  writePos : Nat
  body : List Byte
  deriving DecidableEq, Repr

/-- One coded byte is appended: counted, and written while the budget holds it (R37, R38, R39). -/
def appendByte (budget : Nat) (c : CoderState) (x : Byte) : CoderState :=
  let full := min (c.fullLen + 1) Config.fullLenTop
  if c.oversize then { c with fullLen := full }
  else if full ≤ budget then
    { c with fullLen := full, bodyLen := full, writePos := c.writePos + 1, body := c.body ++ [x] }
  else { c with fullLen := full, bodyLen := 0, oversize := true }

/-- The bytes of a coded row are appended in order (R37). -/
def appendBytes (budget : Nat) (c : CoderState) (bytes : List Byte) : CoderState :=
  bytes.foldl (appendByte budget) c

/-- The effective budget of a binding (R33). -/
def effectiveBudget (budget outputPages : Nat) : Nat := min budget (outputPages * Config.pageSize)

end Sys2Proof.Machine
end

