-- ==== Sys2Proof/Machine/Measure.lean ====
section
/-! DEFINITION. The measure block (spec/03_row_coding_and_side_measures.md, R41 to R44). -/

namespace Sys2Proof.Machine

/-- The number of black pixels of a row. -/
def blackIn (row : List Bool) : Nat := (row.filter id).length

/-- The column black counts after a row (R41). -/
def countColumns (counts : List Nat) (row : List Bool) : List Nat :=
  List.zipWith (fun n p => if p then n + 1 else n) counts row

/-- The three figures of a side (R42, R43). -/
structure Figures where
  blackPermille : Nat
  meanGrey : Nat
  streakColumns : Nat
  deriving DecidableEq, Repr

/-- The figures of a side of outWidth by outHeight pixels (R42, R43). -/
def figures (outWidth outHeight blackCount greySum : Nat) (columns : List Nat) (streakPermille : Nat) : Figures :=
  if outWidth * outHeight = 0 then ⟨0, 0, 0⟩
  else
    { blackPermille := blackCount * 1000 / (outWidth * outHeight)
      meanGrey := greySum / (outWidth * outHeight)
      streakColumns := (columns.filter fun n => decide (outHeight * streakPermille ≤ n * 1000)).length }

/-- The conditions that the side-end tests of R44 add to a raised set. -/
def sideEndTests (p : Profile) (outWidth outHeight : Nat) (f : Figures) (c : CondSet) : CondSet :=
  raiseIf (decide (outWidth < p.widthMin ∨ outHeight < p.heightMin)) condSizeSmall
    (raiseIf (decide (p.widthMax < outWidth ∨ p.heightMax < outHeight)) condSizeLarge
      (raiseIf (decide (f.blackPermille < p.blackMin)) condTooLight
        (raiseIf (decide (p.blackMax < f.blackPermille)) condTooDark
          (raiseIf (decide (p.streakLimit ≤ f.streakColumns)) condStreak
            (raiseIf (decide (f.meanGrey < p.brightMin)) condBrightnessLow
              (raiseIf (decide (p.brightMax < f.meanGrey)) condBrightnessHigh c))))))

end Sys2Proof.Machine
end

