-- ==== Sys2Proof/Machine/Reduction.lean ====
section
/-! DEFINITION. The Reduction Units and the unit arbiter (spec/04_reduction_units_and_the_side_store.md, R50 to R58):
bindings, completed output rows, side ends. -/

namespace Sys2Proof.Machine

/-! ### Bindings (R54, R56) -/

/-- A unit set up for a side from its record, the stages in order, before its sub-state is chosen (R56: R1 to R6,
R19, R20, R32, R33). -/
def setUpBinding (r : SideRef) (x : Side) (p : Profile) : Binding :=
  let dd := ratio x.inRes p.outRes
  let wout := outExtent dd.1 dd.2 x.width
  { ref := r
    sub := .waitInput
    din := dd.1
    dout := dd.2
    outWidth := wout
    declaredHeight := outExtent dd.1 dd.2 x.height
    finalHeight := if x.inputClosed then some (outExtent dd.1 dd.2 x.rowsStored) else none
    nextRow := 0
    rowsConsumed := 0
    background := initialArray wout p.initialBackground
    tq := p.tq
    darkLimit := p.darkLimit
    lightLimit := p.lightLimit
    attackShift := p.attackShift
    decayShift := p.decayShift
    effectiveBudget := effectiveBudget p.budget x.outputPages
    previousRow := none
    fullLen := 0
    bodyLen := 0
    oversize := false
    writePos := 0
    blackCount := 0
    greySum := 0
    columnBlack := List.replicate wout 0 }

/-- What a unit holds right after a binding, its sub-state chosen by R13. -/
def newBinding (r : SideRef) (x : Side) (p : Profile) : Binding :=
  let b := setUpBinding r x p
  { b with sub := chooseSub b x.rowsStored x.inputClosed }

/-- The side record at its binding to a unit: the scaling results are written (R3), an earlier body is no longer part
of the side (R32), and the record names the unit (R50). -/
def boundSide (u : Fin 4) (p : Profile) (b : Binding) (x : Side) : Side :=
  { x with
    outRes := reportedRes x.inRes p.outRes
    resClamped := isClamped x.inRes p.outRes
    outWidth := b.outWidth
    outHeight := b.finalHeight.getD x.outHeight
    resultsDiscarded := false
    body := []
    boundUnit := some u
    state := .bound }

/-- The FREE unit with the lowest number, if any (R54). -/
def freeUnit? (s : State) : Option (Fin 4) := allUnits.find? fun u => (s.unit u).isNone

/-- The side that the next grant takes, if any: rework waiters first (R54). -/
def waitingSide? (s : State) : Option SideRef :=
  match s.reduction.reworkWait with
  | r :: _ => some r
  | [] => s.reduction.openWait.head?

/-- The wait lists with that side taken out. -/
def popWaiting (s : State) : State :=
  match s.reduction.reworkWait with
  | _ :: rest => s.withReduction { s.reduction with reworkWait := rest }
  | [] => s.withReduction { s.reduction with openWait := s.reduction.openWait.tail }

/-- A unit and a side are bound (R56). A rework binding raises the lane's backlog, so its paused flag is evaluated
(R135, R156). A reference that names no reducible record binds nothing (log 19). -/
def bindSide (u : Fin 4) (r : SideRef) (s : State) : State :=
  match s.side? r with
  | none => s
  | some x =>
    match x.snapshot with
    | none => s
    | some p =>
      let b := newBinding r x p
      let s1 := (s.setUnit u (some b)).modSide r (boundSide u p b)
      if x.state = .reworkWait then evalPaused r.lane s1 else s1

/-- One grant of the arbiter, if a unit is FREE and a side waits (R54). -/
def grant (s : State) : State :=
  match freeUnit? s with
  | none => s
  | some u =>
    match waitingSide? s with
    | none => s
    | some r => bindSide u r (popWaiting s)

/-- The number of sides in the two wait lists. -/
def waitingCount (s : State) : Nat := s.reduction.openWait.length + s.reduction.reworkWait.length

/-- Grants, one after another; `fuel` bounds their number. -/
def grantUpTo : Nat → State → State
  | 0, s => s
  | fuel + 1, s => grantUpTo fuel (grant s)

/-- The arbiter repeats the grant while a unit is FREE and a side waits (R54): each grant takes a side from a list, and a
grant that cannot be made changes nothing. -/
def grantAll (s : State) : State := grantUpTo (waitingCount s) s

/-! ### A completed output row (R11, R13, R16, R27, R37, R41) -/

/-- The greys of the output row in progress. -/
def rowGreys (x : Side) (b : Binding) : List Nat := greyRow b.din b.dout b.outWidth (inputPixel x) b.nextRow

/-- The colours of the output row in progress. -/
def rowColours (x : Side) (b : Binding) : List Bool := convertRow b.params b.background (rowGreys x b)

/-- The coder after the output row in progress is appended. -/
def rowCoded (x : Side) (b : Binding) : CoderState :=
  appendBytes b.effectiveBudget ⟨b.fullLen, b.bodyLen, b.oversize, b.writePos, x.body⟩
    (codeRow b.previousRow (rowColours x b))

/-- The unit after its output row completes, before rows consumed and the sub-state are set. -/
def rowStages (x : Side) (b : Binding) : Binding :=
  let c := rowCoded x b
  { b with
    nextRow := b.nextRow + 1
    background := nextBackgrounds b.params b.background (rowGreys x b)
    previousRow := some (rowColours x b)
    fullLen := c.fullLen
    bodyLen := c.bodyLen
    oversize := c.oversize
    writePos := c.writePos
    blackCount := b.blackCount + blackIn (rowColours x b)
    greySum := b.greySum + (rowGreys x b).sum
    columnBlack := countColumns b.columnBlack (rowColours x b) }

/-- The unit after its output row completes (R13, R16). -/
def rowDone (x : Side) (b : Binding) : Binding :=
  let b1 := rowStages x b
  { b1 with
    rowsConsumed := consumedAt b1 b1.nextRow x.rowsStored
    sub := chooseSub b1 x.rowsStored x.inputClosed }

/-- The side record after an output row: the bytes written, and OVERSIZE at the first crossing (R38). -/
def rowRecorded (b : Binding) (x : Side) : Side :=
  let c := rowCoded x b
  { x with body := c.body, raised := raiseIf (c.oversize && !b.oversize) condOversize x.raised }

/-- A unit in RUNNING completes its output row, and the lane's paused flag is evaluated (R13, R156). -/
def completeRow (u : Fin 4) (s : State) : State :=
  match s.unit u with
  | none => s
  | some b =>
    match b.sub with
    | .waitInput => s
    | .finishing => s
    | .running =>
      match s.side? b.ref with
      | none => s
      | some x =>
        evalPaused b.ref.lane ((s.setUnit u (some (rowDone x b))).modSide b.ref (rowRecorded b))

/-! ### Side end (R42 to R45, R58) -/

/-- The figures that the measure block forms at side end. -/
def endFigures (b : Binding) (p : Profile) : Figures :=
  figures b.outWidth (b.finalHeight.getD 0) b.blackCount b.greySum b.columnBlack p.streakPermille

/-- The raised set after the side-end tests, by the limits of the snapshot (R44). -/
def endRaised (b : Binding) (x : Side) : CondSet :=
  match x.snapshot with
  | none => x.raised
  | some p => sideEndTests p b.outWidth (b.finalHeight.getD 0) (endFigures b p) x.raised

/-- The figures of a side at its end; a record without a snapshot is never bound (R106). -/
def endFiguresOf (b : Binding) (x : Side) : Figures :=
  match x.snapshot with
  | none => ⟨0, 0, 0⟩
  | some p => endFigures b p

/-- The side record at side end: the results, and DONE, in one step (R45, R58). -/
def sideEnded (b : Binding) (x : Side) : Side :=
  let f := endFiguresOf b x
  { x with
    blackPermille := f.blackPermille
    meanGrey := f.meanGrey
    streakColumns := f.streakColumns
    fullLen := b.fullLen
    bodyLen := b.bodyLen
    raised := endRaised b x
    boundUnit := none
    state := .done }

end Sys2Proof.Machine
end

