-- ==== Sys2Proof/Machine/Disposition.lean ====
section
/-! DEFINITION. The Disposition Unit (spec/07_conditions_and_dispositions.md) and the rework procedure
(spec/08_rework.md): the evaluation of a complete item, its dispatch, and the release of a hold. -/

namespace Sys2Proof.Machine

/-! ### Raised and potent sets (R111 to R113) -/

/-- The mask that governs a side's conditions: its snapshot's, or the item mask for a side with no snapshot (R111). -/
def sideMask (i : Item) (x : Side) : CondSet :=
  match x.snapshot with
  | some p => p.mask
  | none => i.mask

/-- The pair width tolerance of a side's current snapshot. -/
def pairTolerance (x : Side) : Option Nat := x.snapshot.map Profile.pairTolerance

/-- PAIR_MISMATCH holds: both sides present and DONE, with widths that differ by more than the FRONT's tolerance
(R113). -/
def pairMismatch (i : Item) : Bool :=
  match i.front, i.back with
  | some f, some b =>
    match pairTolerance f with
    | some t =>
      decide (f.state = .done ∧ b.state = .done
        ∧ t < max f.results.outWidth b.results.outWidth - min f.results.outWidth b.results.outWidth)
    | none => false
  | some _, none => false
  | none, _ => false

/-- The item-level raised set with PAIR_MISMATCH found anew, for an item of two sides declared (R113). -/
def raisedAnew (i : Item) : CondSet :=
  if i.sidesDeclared = 2 then
    if pairMismatch i then raise condPairMismatch i.raised else lower condPairMismatch i.raised
  else i.raised

/-- A side with its potent set formed anew (R112). -/
def formSideSet (i : Item) (x : Side) : Side := { x with potent := potentUnder (sideMask i x) x.raised }

/-- The item with its sets formed for an evaluation (R112, R113). -/
def formSets (i : Item) : Item :=
  { i with
    raised := raisedAnew i
    potent := potentUnder i.mask (raisedAnew i)
    front := i.front.map (formSideSet i)
    back := i.back.map (formSideSet i) }

/-! ### The walk and its tests (R117, R118) -/

/-- The condition is potent on the side. -/
def sidePotent (n : Condition) (x : Option Side) : Bool :=
  match x with
  | none => false
  | some y => holds y.potent n

/-- The walk: the potent conditions in ascending number, the FRONT's before the BACK's (R118, step 1). -/
def walk (i : Item) : List Condition :=
  allConditions.flatMap fun n =>
    (if sidePotent n i.front then [n] else []) ++ (if sidePotent n i.back then [n] else [])
      ++ (if holds i.potent n then [n] else [])

/-- The descriptor at a condition's index. -/
def descriptorOf (d : DispositionUnit) (n : Condition) : Descriptor := d.descriptors[n.val]

/-- The first fault case of R117 that holds for a potent condition, if any. -/
def faultOf (d : DispositionUnit) (profiles : Vector Profile 64) (n : Condition) : FaultKind :=
  let e := descriptorOf d n
  if d.extent ≤ n.val then .beyondExtent
  else if e.present = false then .notPresent
  else if e.cls = .rework ∧ isItemCondition n = true then .reworkOnItem
  else if e.cls = .rework ∧ profiles[e.alternate.val].valid = false then .altProfileInvalid
  else .none

/-- A condition whose descriptor is of a class. -/
def hasClass (d : DispositionUnit) (k : DescriptorClass) (n : Condition) : Bool := decide ((descriptorOf d n).cls = k)

/-- The chosen condition of a side: its lowest-numbered potent REWORK condition (R122). -/
def chosen (d : DispositionUnit) (x : Option Side) : Option Condition :=
  allConditions.find? fun n => sidePotent n x && hasClass d .rework n

/-- A side that cannot be reworked again: its count is already 2, or it was never reduced (R122). -/
def isExhausted (x : Side) : Bool := decide (x.state = .notReduced ∨ Config.reworkLimit ≤ x.reworkCount)

/-- The chosen condition of a side that is affected and exhausted. -/
def exhaustedChoice (d : DispositionUnit) (x : Option Side) : Option Condition :=
  match x with
  | none => none
  | some y => if isExhausted y then chosen d x else none

/-- What the steps 2 to 5 of an evaluation decide (R118). -/
inductive Verdict where
  | fault (n : Condition) (k : FaultKind)
  | divert (n : Condition)
  | exhausted (n : Condition)
  | rework (front back : Option Condition)
  | mark
  deriving DecidableEq, Repr

/-- The lower of two optional condition numbers. -/
def lowerOf : Option Condition → Option Condition → Option Condition
  | none, b => b
  | some a, none => some a
  | some a, some b => if b < a then some b else some a

/-- The verdict on an item whose sets are formed (R118, R120 to R123). -/
def judge (d : DispositionUnit) (profiles : Vector Profile 64) (i : Item) : Verdict :=
  match (walk i).find? fun n => decide (faultOf d profiles n ≠ .none) with
  | some n => .fault n (faultOf d profiles n)
  | none =>
    match (walk i).find? fun n => hasClass d .divert n with
    | some n => .divert n
    | none =>
      match lowerOf (exhaustedChoice d i.front) (exhaustedChoice d i.back) with
      | some n => .exhausted n
      | none =>
        match chosen d i.front, chosen d i.back with
        | none, none => .mark
        | some f, b => .rework (some f) b
        | none, some b => .rework none (some b)

/-! ### Dispatch (R66, R123, R124, R125) -/

/-- A side whose input pages have returned to the pool (R66). -/
def dropInput (x : Side) : Side := { x with inputPages := 0, input := [] }

/-- A side whose pages have all returned to the pool (R67, R68). -/
def dropPages (x : Side) : Side := { x with inputPages := 0, input := [], outputPages := 0, body := [] }

/-- The mark list: one code for each condition number potent on the item or on a side (R123). -/
def markList (d : DispositionUnit) (i : Item) : List Byte :=
  (allConditions.filter fun n => sidePotent n i.front || sidePotent n i.back || holds i.potent n).map
    fun n => (descriptorOf d n).code

/-- An item dispatched by MARK (R123). -/
def markedItem (d : DispositionUnit) (i : Item) : Item :=
  { i.mapSides dropInput with
    state := .ready
    dispatch := { Dispatch.fresh with disposition := .mark, markList := markList d i } }

/-- An item diverted as a notice (R124). -/
def divertedItem (reason : ReasonKind) (n : Condition) (k : FaultKind) (code : Byte) (i : Item) : Item :=
  { i.mapSides dropPages with
    state := .ready
    dispatch :=
      { disposition := .diverted, reason := reason, cited := some n, fault := k, code := code, markList := [] } }

/-- A side taken through the rework procedure under the alternate profile of its chosen condition (R130 to R134). -/
def reworkSide (d : DispositionUnit) (profiles : Vector Profile 64) (n : Condition) (x : Side) : Side :=
  let alt := (descriptorOf d n).alternate
  let p := profiles[alt.val]
  { x with
    raised := 0
    potent := 0
    reworkCount := x.reworkCount + 1
    snapshot := some { p with budget := effectiveBudget p.budget x.outputPages }
    profileUsed := alt
    state := .reworkWait }

/-- A side with the rework procedure made on it when it has a chosen condition. -/
def reworkIf (d : DispositionUnit) (profiles : Vector Profile 64) (n : Option Condition) (x : Option Side) :
    Option Side :=
  match n with
  | none => x
  | some m => x.map (reworkSide d profiles m)

/-- An item whose affected sides are sent to rework (R125, R130). -/
def reworkedItem (d : DispositionUnit) (profiles : Vector Profile 64) (f b : Option Condition) (i : Item) : Item :=
  { i with
    front := reworkIf d profiles f i.front
    back := reworkIf d profiles b i.back
    state := .rework
    dispatch := { Dispatch.fresh with disposition := .rework } }

/-- An item record is replaced, and the pages it no longer holds return to the pool. -/
def replaceItem (l : Fin 16) (old new : Item) (s : State) : State :=
  returnPages (old.pages - new.pages) (s.modItem l old.seq fun _ => new)

/-- A side sent to rework joins the tail of the rework wait list, and the lane's reworks counter rises (R53, R130). -/
def joinRework (r : SideRef) (s : State) : State :=
  (s.withReduction { s.reduction with reworkWait := s.reduction.reworkWait ++ [r] }).countLane r.lane
    fun c => { c with reworks := bump c.reworks }

/-- The side joins when it has a chosen condition. -/
def joinReworkIf (n : Option Condition) (r : SideRef) (s : State) : State :=
  match n with
  | none => s
  | some _ => joinRework r s

/-- The Disposition Unit's dispatch-faults counter rises (R127). -/
def countFault (s : State) : State :=
  s.withDisposition { s.disposition with dispatchFaults := bump s.disposition.dispatchFaults }

/-- The Disposition Unit's rework-exhausted counter rises (R127). -/
def countExhausted (s : State) : State :=
  s.withDisposition { s.disposition with reworkExhausted := bump s.disposition.reworkExhausted }

/-- An evaluation's verdict is carried out on an item whose sets are formed (R120 to R124, R130). -/
def dispatch (l : Fin 16) (i : Item) (v : Verdict) (s : State) : State :=
  match v with
  | .fault n k => replaceItem l i (divertedItem .dispatchFault n k 0 i) (countFault s)
  | .divert n => replaceItem l i (divertedItem .condition n .none (descriptorOf s.disposition n).code i) s
  | .exhausted n =>
    replaceItem l i (divertedItem .reworkExhausted n .none (descriptorOf s.disposition n).code i) (countExhausted s)
  | .rework f b =>
    grantAll (joinReworkIf b ⟨l, i.seq, .back⟩ (joinReworkIf f ⟨l, i.seq, .front⟩
      (replaceItem l i (reworkedItem s.disposition s.admission.profiles f b i) s)))
  | .mark => replaceItem l i (markedItem s.disposition i) s

/-- The Disposition Unit evaluates an item (R118). -/
def evaluate (l : Fin 16) (q : Seq) (s : State) : State :=
  match s.item? l q with
  | none => s
  | some i => dispatch l (formSets i) (judge s.disposition s.admission.profiles (formSets i)) s

/-! ### Completion and hold (R118, R119) -/

/-- A side that counts as done for the completion of its item. -/
def sideSettled (x : Side) : Bool := decide (x.state = .done ∨ x.state = .notReduced)

/-- A closed item whose every side record is DONE or NOT_REDUCED, and which is being reduced or reworked (R118). -/
def isComplete (i : Item) : Bool := decide (i.state = .reducing ∨ i.state = .rework) && i.sides.all sideSettled

/-- The Disposition Unit is handed a complete item: with the lane held it waits, else it is evaluated (R118). -/
def completeItem (l : Fin 16) (q : Seq) (s : State) : State :=
  if (s.lane l).held then s.modItem l q fun i => { i with state := .awaitDispatch } else evaluate l q s

/-- The Lane Assembler checks whether an item is complete (R58, R77). -/
def checkComplete (l : Fin 16) (q : Seq) (s : State) : State :=
  match s.item? l q with
  | none => s
  | some i => if isComplete i then completeItem l q s else s

/-- The sequences of a lane's items in AWAIT_DISPATCH, in list order (R119). -/
def awaiting (c : Lane) : List Seq := (c.list.filter fun i => decide (i.state = .awaitDispatch)).map Item.seq

/-- A write of HELD (R119): a release evaluates the lane's items in AWAIT_DISPATCH from the head. -/
def writeHeld (l : Fin 16) (v : Bool) (s : State) : State :=
  if (s.lane l).held = v then s
  else if v then s.modLane l fun c => { c with held := true }
  else (awaiting (s.lane l)).foldl (fun t q => evaluate l q t) (s.modLane l fun c => { c with held := false })

end Sys2Proof.Machine
end

