-- ==== Sys2Proof/Machine/Lanes.lean ====
section
/-! DEFINITION. The Lane Assembler (spec/05_lanes_and_item_assembly.md): taking the frames of a lane, closing sides and
items, the stall timer. Admission of an item and opening of a side stand in Machine/Admission.lean. -/

namespace Sys2Proof.Machine

/-! ### The stall timer (R90) -/

/-- The timer restarts with the setting; a setting of 0 leaves it disabled (R90). -/
def restartTimer (c : Lane) : Lane :=
  if c.stallMs = 0 then c else { c with stallRunning := true, stallRemaining := c.stallMs }

/-- The timer stops with remaining 0 (R90). -/
def stopTimer (c : Lane) : Lane := { c with stallRunning := false, stallRemaining := 0 }

/-- One millisecond of a running timer passes (R90; log 1). -/
def tickLane (c : Lane) : Lane := if c.stallRunning then { c with stallRemaining := c.stallRemaining - 1 } else c

/-! ### Discarded frames (R79, R93) -/

/-- An item frame of the lane is discarded as stray. -/
def strayOn (l : Fin 16) (s : State) : State := s.countLane l fun c => { c with stray := bump c.stray }

/-- An item frame of the lane is discarded as late. -/
def lateOn (l : Fin 16) (s : State) : State := s.countLane l fun c => { c with late := bump c.late }

/-- A side of the lane met overrun (R86). -/
def overrunOn (l : Fin 16) (s : State) : State := s.countLane l fun c => { c with overruns := bump c.overruns }

/-! ### Closing a side's input (R6, R15, R78) -/

/-- The output height that a bound side's record takes when its input closes (R15). -/
def closedHeight (b : Binding) (x : Side) : Side := { x with outHeight := b.finalHeight.getD x.outHeight }

/-- The bound unit of a side sees its input close, and the lane's paused flag is evaluated (R15, R156). -/
def unitSeesClose (r : SideRef) (x : Side) (s : State) : State :=
  match x.boundUnit with
  | none => s
  | some u =>
    match s.unit u with
    | none => s
    | some b =>
      let b' := b.inputCloses x.rowsStored
      evalPaused r.lane ((s.setUnit u (some b')).modSide r (closedHeight b'))

/-- A side's input closes, unless it is closed already (R6, R87). -/
def closeInput (r : SideRef) (s : State) : State :=
  match s.side? r with
  | none => s
  | some x =>
    if x.inputClosed then s
    else unitSeesClose r x (s.modSide r fun y => { y with inputClosed := true })

/-- A side is truncated: its cause and condition are recorded and its input closes (R85, R86, R91). -/
def truncateSide (r : SideRef) (t : Truncation) (n : Condition) (s : State) : State :=
  closeInput r (s.modSide r fun y => { y with truncation := some t, raised := raise n y.raised })

/-- ROW_SHORT at a close: not NOT_REDUCED, no truncation cause, fewer rows than declared (R87). -/
def closesShort (x : Side) : Bool :=
  decide (x.state ≠ .notReduced ∧ x.truncation = none ∧ x.rowsStored < x.height)

/-- The side the lane's active face names. -/
def activeRef (l : Fin 16) (c : Lane) (f : Face) : SideRef := ⟨l, c.seq, f⟩

/-- The active side closes, and the lane enters OPEN (R87). -/
def closeSide (l : Fin 16) (s : State) : State :=
  match (s.lane l).active with
  | none => s
  | some f =>
    let r := activeRef l (s.lane l) f
    let s1 := closeInput r (s.modSide r fun y => { y with raised := raiseIf (closesShort y) condRowShort y.raised })
    s1.modLane l fun c => { c with state := .opened, active := none }

/-! ### Closing an item (R88) -/

/-- The number of side records an item holds. -/
def sidesHeld (i : Item) : Nat := i.sides.length

/-- An item at its close: SIDE_MISSING, and out of RECEIVING (R88). -/
def closedItem (i : Item) : Item :=
  { i with
    raised := raiseIf (decide (sidesHeld i < i.sidesDeclared)) condSideMissing i.raised
    state := .reducing }

/-- A lane whose item has closed: IDLE, no sequence, the timer stopped (R88). -/
def idleLane (c : Lane) : Lane := { stopTimer c with state := .idle, seq := 0, active := none }

/-- The open item closes: the lane is IDLE, and a complete item passes to the Disposition Unit (R88). -/
def closeItem (l : Fin 16) (s : State) : State :=
  let q := (s.lane l).seq
  checkComplete l q ((s.modItem l q closedItem).modLane l idleLane)

/-! ### SIDE_DATA (R83 to R86) -/

/-- Rows of a frame that stand below the declared height (R84). -/
def keptRows (x : Side) (count : Nat) : Nat := min count (x.height - x.rowsStored)

/-- Input pages a side needs beyond those it holds once rows are kept (R62). -/
def pagesNeeded (x : Side) (kept : Nat) : Nat :=
  ceilDiv ((x.rowsStored + kept) * x.width) Config.pageSize - x.inputPages

/-- A side with rows kept from a frame (R62, R84). -/
def storedSide (kept count : Nat) (rows : List Byte) (pages : Nat) (x : Side) : Side :=
  { x with
    rowsStored := x.rowsStored + kept
    inputPages := x.inputPages + pages
    input := x.input ++ rows.take (kept * x.width)
    raised := raiseIf (decide (kept < count)) condRowExcess x.raised }

/-- The bound unit of a side sees rows stored (R14). -/
def unitSeesRows (x : Side) (rowsStored : Nat) (s : State) : State :=
  match x.boundUnit with
  | none => s
  | some u =>
    match s.unit u with
    | none => s
    | some b => s.setUnit u (some (b.rowsArrived rowsStored))

/-- Rows that continue a side are stored, or meet overrun (R84, R86). The lane's paused flag is evaluated once, after the
bound unit has seen the rows: rows stored and at once consumed at the bottom edge (R16) do not show in between (R156 leaves
it open: DESIGN CHOICE, log 28). -/
def storeRows (r : SideRef) (x : Side) (count : Nat) (rows : List Byte) (s : State) : State :=
  let kept := keptRows x count
  let need := pagesNeeded x kept
  if s.freePages < need then overrunOn r.lane (truncateSide r .overrun condInputOverrun s)
  else
    evalPaused r.lane
      (unitSeesRows x (x.rowsStored + kept) (takePages need (s.modSide r (storedSide kept count rows need))))

/-- A SIDE_DATA is tested against the active side, in the order of R83. -/
def takeRows (r : SideRef) (x : Side) (first count : Nat) (rows : List Byte) (s : State) : State :=
  if x.inputClosed then s
  else if count = 0 ∨ rows.length ≠ count * x.width then strayOn r.lane s
  else if first < x.rowsStored then strayOn r.lane s
  else if x.height ≤ first then s.modSide r fun y => { y with raised := raise condRowExcess y.raised }
  else if x.rowsStored < first then truncateSide r .gap condRowShort s
  else storeRows r x count rows s

/-! ### Taking a matching frame by lane state (R79, R81 to R89) -/

/-- A SIDE_DATA that matches the lane. -/
def takeSideData (l : Fin 16) (first count : Nat) (rows : List Byte) (s : State) : State :=
  match (s.lane l).state with
  | .idle => s
  | .drain => s
  | .opened => strayOn l s
  | .side =>
    match (s.lane l).active with
    | none => s
    | some f =>
      match s.side? (activeRef l (s.lane l) f) with
      | none => s
      | some x => takeRows (activeRef l (s.lane l) f) x first count rows s

/-- A SIDE_CLOSE that matches the lane (R87). -/
def takeSideClose (l : Fin 16) (s : State) : State :=
  match (s.lane l).state with
  | .idle => s
  | .drain => s
  | .opened => strayOn l s
  | .side => closeSide l s

/-- A drain ends (R89). -/
def endDrain (l : Fin 16) (s : State) : State := s.modLane l idleLane

/-- The lane's active side and open item close, or its drain ends, as far as there is one (R80, R88, R89). -/
def closeAll (l : Fin 16) (s : State) : State :=
  match (s.lane l).state with
  | .idle => s
  | .drain => endDrain l s
  | .opened => closeItem l s
  | .side => closeItem l (closeSide l s)

/-- An ITEM_CLOSE that matches the lane (R88, R89). -/
def takeItemClose (l : Fin 16) (s : State) : State := closeAll l s

/-- An item frame other than ITEM_OPEN matches the lane (R79). -/
def isMatch (c : Lane) (q : Seq) : Bool := decide (c.state ≠ .idle ∧ c.seq = q)

/-- In OPEN and SIDE a matching frame restarts the stall timer (R79, R90). -/
def matchTimer (c : Lane) : Lane :=
  match c.state with
  | .idle => c
  | .drain => c
  | .opened => restartTimer c
  | .side => restartTimer c

/-- An item frame of sequence 0 is stray; one that matches restarts the timer and is taken; any other is late or stray
(R79). R92 calls every later frame of the last timed-out sequence late, R79 makes it a match where it is the current sequence
too, and the model follows R79: DESIGN CHOICE, log 30. -/
def withMatch (l : Fin 16) (q : Seq) (taken : State → State) (s : State) : State :=
  if q = 0 then strayOn l s
  else if isMatch (s.lane l) q then taken (s.modLane l matchTimer)
  else if (s.lane l).lastTimedOut = some q then lateOn l s
  else strayOn l s

/-! ### Stall expiry (R91) -/

/-- The active side of a lane in SIDE is truncated with INPUT_STALL if its input is open, and the lane enters OPEN. -/
def stallSide (l : Fin 16) (s : State) : State :=
  match (s.lane l).active with
  | none => s
  | some f =>
    let r := activeRef l (s.lane l) f
    let s1 :=
      match s.side? r with
      | none => s
      | some x => if x.inputClosed then s else truncateSide r .stall condInputStall s
    s1.modLane l fun c => { c with state := .opened, active := none }

/-- The stall expires: the side is truncated, the item closed, the sequence recorded, stalls counted (R91). -/
def expireStall (l : Fin 16) (s : State) : State :=
  let q := (s.lane l).seq
  (closeItem l (stallSide l s)).modLane l fun c =>
    { c with lastTimedOut := some q, counters := { c.counters with stalls := bump c.counters.stalls } }

/-- The stall timer of the lane has run out: it is running with no time left, and the lane is OPEN or SIDE (R74, R90). A
frame taken first restarts the timer, so the expiry does not happen (R92; log 6). -/
def canExpire (c : Lane) : Bool :=
  c.stallRunning && decide (c.stallRemaining = 0) && decide (c.state = .opened ∨ c.state = .side)

end Sys2Proof.Machine
end

