-- ==== Sys2Proof/Machine/Admission.lean ====
section
/-! DEFINITION. The Admission Unit (spec/06_admission_and_profile_resolution.md): the nine checks of an ITEM_OPEN, the
resolution of a profile, the snapshot and reservation of a side. -/

namespace Sys2Proof.Machine

/-! ### The admission checks (R96, R100) -/

/-- The outcome of the admission checks: the refusal reason code, or the resolved profile and whether it came by the
default profile. -/
inductive AdmissionResult where
  | refused (reason : Byte)
  | admitted (profile : Fin 64) (fallback : Bool)
  deriving DecidableEq, Repr

/-- The member entry of a member number, if the number is at most 1023 (R96, check 6). -/
def memberEntry? (a : Admission) (m : BitVec 16) : Option MemberEntry :=
  if h : m.toNat < 1024 then some (a.members[m.toNat]'h) else none

/-- A present member entry (R96, check 6). -/
def presentMember? (a : Admission) (m : BitVec 16) : Option MemberEntry :=
  (memberEntry? a m).filter MemberEntry.present

/-- A class from 0 to 7 (R96, check 8). -/
def class? (c : Byte) : Option (Fin 8) := if h : c.toNat < 8 then some ⟨c.toNat, h⟩ else none

/-- The resolved profile, and whether it is the default profile (R100). -/
def resolveProfile (e : MemberEntry) (c : Fin 8) : Fin 64 × Bool :=
  match e.classMap[c.val] with
  | some p => (p, false)
  | none => (e.defaultProfile, true)

/-- Checks 6 to 9 of R96. -/
def checkItem (a : Admission) (m : BitVec 16) (c : Byte) : AdmissionResult :=
  match presentMember? a m with
  | none => .refused 7
  | some e =>
    match e.status with
    | .suspended => .refused 8
    | .active =>
      match class? c with
      | none => .refused 9
      | some k =>
        if (a.profiles[(resolveProfile e k).1.val]).valid then
          .admitted (resolveProfile e k).1 (resolveProfile e k).2
        else .refused 10

/-- The nine checks of R96, in order. -/
def checkAdmission (s : State) (l : Fin 16) (q : Seq) (m : BitVec 16) (c n : Byte) : AdmissionResult :=
  match s.mgmt.service with
  | .standby => .refused 1
  | .draining => .refused 2
  | .inService =>
    if (s.lane l).enabled = false then .refused 3
    else if Config.listCapacity ≤ (s.lane l).list.length then .refused 4
    else if ((s.lane l).item? q).isSome then .refused 5
    else if n ≠ 1 ∧ n ≠ 2 then .refused 6
    else checkItem s.admission m c

/-! ### Admission and refusal (R80, R98, R99) -/

/-- The record of an admitted item (R77, R98). -/
def freshItem (q : Seq) (m : BitVec 16) (c n : Byte) (date : BitVec 32) (p : Fin 64) (mask : CondSet)
    (fallback : Bool) : Item :=
  { seq := q, member := m, cls := c, date := date, sidesDeclared := n.toNat, profileIndex := p, mask := mask,
    front := none, back := none, raised := raiseIf fallback condProfileFallback 0, potent := 0, state := .receiving,
    dispatch := Dispatch.fresh }

/-- The lane of an admitted item: the record at the tail, OPEN, the timer started, admitted counted (R80). -/
def admittedLane (i : Item) (c : Lane) : Lane :=
  { restartTimer c with
    list := c.list ++ [i]
    state := .opened
    seq := i.seq
    active := none
    counters := { c.counters with admitted := bump c.counters.admitted } }

/-- An item is admitted, and the lane's paused flag is evaluated (R80, R156). -/
def admitItem (l : Fin 16) (i : Item) (s : State) : State := evalPaused l (s.modLane l (admittedLane i))

/-- The lane of a refused item: DRAIN with the refused sequence, the timer stopped, refused counted (R80). -/
def refusedLane (q : Seq) (c : Lane) : Lane :=
  { stopTimer c with
    state := .drain
    seq := q
    active := none
    counters := { c.counters with refused := bump c.counters.refused } }

/-- An item is refused: a REFUSAL is handed over, and the lane drains (R80, R99). -/
def refuseItem (l : Fin 16) (q : Seq) (reason : Byte) (s : State) : State :=
  queueRefusal ⟨l, q, reason⟩ (s.modLane l (refusedLane q))

/-- An ITEM_OPEN goes to the Admission Unit, its lane IDLE (R80, R96). -/
def admission (l : Fin 16) (q : Seq) (m : BitVec 16) (c n : Byte) (date : BitVec 32) (s : State) : State :=
  match checkAdmission s l q m c n with
  | .refused reason => refuseItem l q reason s
  | .admitted p fallback => admitItem l (freshItem q m c n date p (s.admission.profiles[p.val]).mask fallback) s

/-- An ITEM_OPEN is taken for a lane (R79, R80). The paused flag is evaluated at the close of what was open and again at the
admission (R156; log 28). -/
def takeItemOpen (l : Fin 16) (q : Seq) (m : BitVec 16) (c n : Byte) (date : BitVec 32) (s : State) : State :=
  if q = 0 then strayOn l s else admission l q m c n date (closeAll l s)

/-! ### Opening a side (R81, R105 to R107) -/

/-- The face of a face code (R184). -/
def faceOf (b : Byte) : Option Face := if b = 1 then some .front else if b = 2 then some .back else none

/-- The input resolutions that SIDE_OPEN accepts (R81). -/
def inputResolutions : List Nat := [100, 120, 150, 200, 240, 300, 400]

/-- The fields of a SIDE_OPEN are in range (R81). -/
def sideFieldsGood (res w h : Nat) : Bool :=
  decide (res ∈ inputResolutions) && decide (64 ≤ w ∧ w ≤ 2560) && decide (32 ≤ h ∧ h ≤ 1536)

/-- The item has room for a record of the face (R81). -/
def roomFor (f : Face) (i : Item) : Bool := (i.side f).isNone && decide (sidesHeld i < i.sidesDeclared)

/-- A side record at its creation (R78). -/
def freshSide (f : Face) (res w h : Nat) (p : Fin 64) : Side :=
  { face := f, inRes := res, width := w, height := h, rowsStored := 0, inputClosed := false, truncation := none,
    inputPages := 0, input := [], outputPages := 0, body := [], snapshot := none, profileUsed := p, reworkCount := 0,
    raised := 0, potent := 0, outRes := 0, resClamped := false, outWidth := 0, outHeight := 0,
    resultsDiscarded := false, blackPermille := 0, meanGrey := 0, streakColumns := 0, fullLen := 0, bodyLen := 0, boundUnit := none, state := .storing }

/-- A side that is not reduced, for a condition raised at its opening (R106, R107). -/
def notReduced (n : Condition) (x : Side) : Side :=
  { x with state := .notReduced, inputClosed := true, raised := raise n x.raised }

/-- Output pages a budget asks for (R64). -/
def reservationOf (budget : Nat) : Nat := ceilDiv budget Config.pageSize

/-- A side record joins its item, and the lane enters SIDE with it active (R81). -/
def putSide (l : Fin 16) (q : Seq) (f : Face) (x : Side) (s : State) : State :=
  (s.modItem l q fun i => i.setSide f (some x)).modLane l fun c => { c with state := .side, active := some f }

/-- A side joins the tail of the open wait list (R52). -/
def joinOpen (r : SideRef) (s : State) : State :=
  s.withReduction { s.reduction with openWait := s.reduction.openWait ++ [r] }

/-- A new side record goes to the Admission Unit: snapshot, output reservation, open wait list (R64, R105 to R107). -/
def openRecord (l : Fin 16) (q : Seq) (f : Face) (x : Side) (p : Profile) (s : State) : State :=
  if p.valid then
    let n := reservationOf p.budget
    if s.freePages < n then overrunOn l (putSide l q f (notReduced condInputOverrun { x with snapshot := some p }) s)
    else grantAll (joinOpen ⟨l, q, f⟩ (takePages n (putSide l q f { x with snapshot := some p, outputPages := n } s)))
  else putSide l q f (notReduced condProfileWithdrawn x) s

/-- A SIDE_OPEN is taken in OPEN (R81). -/
def openSide (l : Fin 16) (face : Byte) (res w h : Nat) (s : State) : State :=
  match faceOf face, s.item? l (s.lane l).seq with
  | some f, some i =>
    if sideFieldsGood res w h && roomFor f i then
      openRecord l i.seq f (freshSide f res w h i.profileIndex) (s.admission.profiles[i.profileIndex.val]) s
    else strayOn l s
  | none, _ => strayOn l s
  | some _, none => strayOn l s

/-- A SIDE_OPEN that matches the lane (R81, R82, R89). -/
def takeSideOpen (l : Fin 16) (face : Byte) (res w h : Nat) (s : State) : State :=
  match (s.lane l).state with
  | .idle => s
  | .drain => s
  | .opened => openSide l face res w h s
  | .side => openSide l face res w h (closeSide l s)

end Sys2Proof.Machine
end

