-- ==== Sys2Proof/Machine/Egress.lean ====
section
/-! DEFINITION. Lane order and egress (spec/09_lane_order_and_egress.md): the round-robin start of records, the frames of
a record, replies between records, HALT and GO, and the leaving of a record. Frame layouts of R183 and R185. -/

namespace Sys2Proof.Machine

/-! ### Wire codes (R183) -/

/-- The code of a disposition. -/
def dispositionCode : Disposition → Byte
  | .none => 0
  | .mark => 1
  | .diverted => 2
  | .rework => 3
  | .withdrawn => 4

/-- The code of a reason kind. -/
def reasonCode : ReasonKind → Byte
  | .none => 0
  | .condition => 1
  | .dispatchFault => 2
  | .reworkExhausted => 3
  | .laneReset => 4

/-- The code of a fault kind. -/
def faultCode : FaultKind → Byte
  | .none => 0
  | .beyondExtent => 1
  | .notPresent => 2
  | .reworkOnItem => 3
  | .altProfileInvalid => 4

/-- The code of a face. -/
def faceCode : Face → Byte
  | .front => 1
  | .back => 2

/-- The condition number of a notice, FFH for none. -/
def citedCode : Option Condition → Byte
  | none => 255
  | some n => byteOf n.val

/-! ### The frames of a record (R145 to R150, R183, R185) -/

/-- The payload of an ITEM_HEAD (R146, R183). -/
def itemHeadPayload (l : Fin 16) (i : Item) : List Byte :=
  byteOf l.val :: be32 i.seq ++ be16 i.member ++ [i.cls] ++ be32 i.date
    ++ [byteOf i.profileIndex.val, byteOf i.sides.length] ++ be16 i.raised ++ be16 i.potent
    ++ [byteOf i.dispatch.markList.length] ++ i.dispatch.markList

/-- The payload of a SIDE_HEAD (R147, R185). -/
def sideHeadPayload (x : Side) : List Byte :=
  faceCode x.face :: num16 x.inRes ++ num16 x.results.outRes ++ [flagByte x.results.resClamped]
    ++ num16 x.results.outWidth ++ num16 x.results.outHeight ++ [byteOf x.reworkCount, byteOf x.profileUsed.val] ++ be16 x.raised ++ be16 x.potent
    ++ num16 x.blackPermille ++ [byteOf x.meanGrey] ++ num16 x.streakColumns ++ num24 x.fullLen ++ num24 x.bodyLen

/-- The payload of the SIDE_BODY that starts at a body offset (R148). -/
def sideBodyPayload (x : Side) (off : Nat) : List Byte :=
  (x.body.drop off).take (min Config.bodyChunk (x.bodyLen - off))

/-- The body length of an optional side record. -/
def optBodyLen : Option Side → Nat
  | none => 0
  | some x => x.bodyLen

/-- The payload of an ITEM_END (R149). -/
def itemEndPayload (i : Item) : List Byte := be32 i.seq ++ num32 (optBodyLen i.front + optBodyLen i.back)

/-- The payload of an ITEM_NOTICE (R150, R183). -/
def itemNoticePayload (i : Item) : List Byte :=
  be32 i.seq ++ be16 i.member
    ++ [i.cls, dispositionCode i.dispatch.disposition, reasonCode i.dispatch.reason, citedCode i.dispatch.cited,
        faultCode i.dispatch.fault, i.dispatch.code]

/-- The payload of a frame about a side, empty for an absent side. -/
def optPayload (f : Side → List Byte) : Option Side → List Byte
  | none => []
  | some x => f x

/-- A frame of a record, formed from the record as it stands (R145). -/
def frameAt (l : Fin 16) (i : Item) : EmitPoint → Frame
  | .itemHead => { type := .itemHead, lane := byteOf l.val, seq := i.seq, payload := itemHeadPayload l i }
  | .sideHead f =>
    { type := .sideHead, lane := byteOf l.val, seq := i.seq, payload := optPayload sideHeadPayload (i.side f) }
  | .sideBody f off =>
    { type := .sideBody, lane := byteOf l.val, seq := i.seq
      payload := optPayload (fun x => sideBodyPayload x off) (i.side f) }
  | .itemEnd => { type := .itemEnd, lane := byteOf l.val, seq := i.seq, payload := itemEndPayload i }
  | .itemNotice => { type := .itemNotice, lane := byteOf l.val, seq := i.seq, payload := itemNoticePayload i }

/-- The first frame of a record: ITEM_HEAD for one dispatched by MARK, ITEM_NOTICE for a notice (R143). -/
def firstPoint (i : Item) : EmitPoint := if i.dispatch.disposition = .mark then .itemHead else .itemNotice

/-- The frame after everything about a face (R145). -/
def afterFace (i : Item) : Face → EmitPoint
  | .front => if i.back.isSome then .sideHead .back else .itemEnd
  | .back => .itemEnd

/-- The frame that follows one of a record's frames (R145, R148). ITEM_END and ITEM_NOTICE are last. -/
def nextPoint (i : Item) : EmitPoint → EmitPoint
  | .itemHead => if i.front.isSome then .sideHead .front else afterFace i .front
  | .sideHead f => if 0 < optBodyLen (i.side f) then .sideBody f 0 else afterFace i f
  | .sideBody f off =>
    if off + Config.bodyChunk < optBodyLen (i.side f) then .sideBody f (off + Config.bodyChunk) else afterFace i f
  | .itemEnd => .itemEnd
  | .itemNotice => .itemNotice

/-! ### The egress arbiter (R141, R143, R151, R152) -/

/-- The head-ready flag of a lane: its list is not empty and its head record is READY (R141). -/
def headReady (s : State) (l : Fin 16) : Bool :=
  match (s.lane l).list with
  | [] => false
  | i :: _ => decide (i.state = .ready)

/-- The lanes in the order the arbiter examines them: up from the round-robin position, from 15 back to 0 (R143). -/
def lanesFrom (position : Fin 16) : List (Fin 16) := allLanes.map fun k => position + k

/-- The lane that the next start takes, if a head is READY (R143). -/
def nextReadyLane? (s : State) : Option (Fin 16) := (lanesFrom s.egress.roundRobin).find? (headReady s)

/-- The head record of a lane. -/
def headItem? (s : State) (l : Fin 16) : Option Item := (s.lane l).list.head?

/-- The head record of a lane becomes EMITTING and its first frame starts (R143). -/
def startRecordOn (l : Fin 16) (i : Item) (s : State) : State :=
  (s.modItem l i.seq fun j => { j with state := .emitting }).withEgress
    { s.egress with
      roundRobin := l + 1
      emission := some ⟨l, i.seq, firstPoint i⟩
      inProgress := some (frameAt l i (firstPoint i)) }

/-- The start of a record, when all its conditions hold (R143). -/
def startRecord (s : State) : State :=
  if s.egress.emission.isSome ∨ s.egress.inProgress.isSome ∨ s.egress.halted = true ∨ s.egress.replies ≠ [] then s
  else
    match nextReadyLane? s with
    | none => s
    | some l =>
      match headItem? s l with
      | none => s
      | some i => startRecordOn l i s

/-- The next frame of the record in EMITTING starts. -/
def startEmissionFrame (e : Emission) (s : State) : State :=
  match s.item? e.lane e.seq with
  | none => s
  | some i => s.withEgress { s.egress with inProgress := some (frameAt e.lane i e.next) }

/-- The port starts what it can: the next frame of the record in EMITTING, else the reply at the head of its queue,
else a record; nothing while halted or while a frame is in progress (R143, R145, R151, R152). -/
def startExchange (s : State) : State :=
  if s.egress.inProgress.isSome ∨ s.egress.halted = true then s
  else
    match s.egress.emission with
    | some e => startEmissionFrame e s
    | none =>
      match s.egress.replies with
      | p :: _ => s.withEgress { s.egress with inProgress := some (replyWire p) }
      | [] => startRecord s

/-! ### A reset that comes together with an event (R48, R95, R128, R139, R153, R155)

An event and a request come together when the request waits behind the event in the queue of commands (log 33). Where a rule
says what a reset does that comes together with an event and is taken second, what the event makes ready to start waits for it;
otherwise a start is made in the event itself (R143). -/

/-- The request that a command of the intake link brings to the Management Unit, if it brings one that can be a reset. A reset
requested on the exchange link is refused (R155, R168). -/
def intakeRequest? : Instr → Option Request
  | .resetLane .intake _ lane => some (.resetLane lane)
  | .resetEngine .intake _ => some .resetEngine
  | .mgmtRequest .intake payload => requestOf? payload
  | .intakeStrayFrame bytes => (readFrame? bytes).bind framedRequest?
  | _ => none
where
  requestOf? (payload : List Byte) : Option Request :=
    match parseRequest payload with
    | .request _ r => some r
    | .bad _ => none
  framedRequest? (f : RawFrame) : Option Request :=
    match sortIntake f with
    | .request payload => requestOf? payload
    | _ => none

/-- The request that the next command brings, if it is taken in its event: the part takes frames, no request waits before it and
the intake reply queue has a free place (R167, R188). -/
def nextRequest? (s : State) : Option Request :=
  if s.taking = true ∧ s.mgmt.requests = [] ∧ s.flow.replies.length < Config.replyCapacity then
    s.pending.head?.bind intakeRequest?
  else none

/-- A lane reset comes together with the event being taken, and is taken next. -/
def laneResetNext (l : Fin 16) (s : State) : Bool := decide (nextRequest? s = some (.resetLane (BitVec.ofNat 8 l.val)))

/-- An engine reset comes together with the event being taken, and is taken next. -/
def engineResetNext (s : State) : Bool := decide (nextRequest? s = some .resetEngine)

/-- What the Exchange Port would start is the head record of a lane (R143). -/
def wouldStart (l : Fin 16) (s : State) : Bool :=
  decide (s.egress.emission = none ∧ s.egress.replies = [] ∧ nextReadyLane? s = some l)

/-- The port starts what it can at the end of an event of a lane: a frame of the lane, the end of one of its sides, a stall, the
leaving of its head. The lane's own head does not start where a reset of the lane comes together with the event and is taken
second, for that reset withdraws it (R48, R95, R128, R139, R153; log 33). -/
def startBeside (l : Fin 16) (s : State) : State := if laneResetNext l s && wouldStart l s then s else startExchange s

/-- The port starts what it can at the end of a frame of the exchange link. Nothing starts where an engine reset comes together
with the frame's end and is taken second, for that reset finds no frame to abort (R155; log 32). -/
def startAfterFrame (s : State) : State := if engineResetNext s then s else startExchange s

/-- The port starts what it can at the end of the last frame of a record of a lane (R149, R153, R155). -/
def startAfterLast (l : Fin 16) (s : State) : State := if engineResetNext s then s else startBeside l s

/-! ### Frames sent (R145, R149, R150, R151) -/

/-- A frame type that is followed by another frame of its record. -/
def isInnerFrame : FrameType → Bool
  | .itemHead => true
  | .sideHead => true
  | .sideBody => true
  | .itemEnd => false
  | .itemNotice => false
  | .mgmtReply => false
  | .pause => false
  | .resume => false
  | .stopAll => false
  | .startAll => false
  | .refusal => false

/-- The exchange link with its frame in progress sent whole and counted. -/
def frameGone (s : State) : State :=
  let t := countExchangeOut s
  t.withEgress { t.egress with inProgress := none }

/-- The emission moves on to the record's next frame. -/
def advanceEmission (e : Emission) (i : Item) (s : State) : State :=
  s.withEgress { s.egress with emission := some { e with next := nextPoint i e.next } }

/-- An ITEM_HEAD, SIDE_HEAD or SIDE_BODY has been sent whole, and the next frame starts unless halted (R145) or unless an engine
reset comes together with the frame's end (R155; log 32). -/
def innerFrameSent (s : State) : State :=
  match s.egress.inProgress, s.egress.emission with
  | some f, some e =>
    if isInnerFrame f.type then
      match s.item? e.lane e.seq with
      | none => s
      | some i => startAfterFrame (advanceEmission e i (frameGone s))
    else s
  | some _, none => s
  | none, _ => s

/-- Every lane list holds 0 records (R178). -/
def listsEmpty (s : State) : Bool := s.lanes.toList.all fun c => c.list.isEmpty

/-- In DRAINING, the service state becomes STANDBY once every list is empty (R179). -/
def watchService (s : State) : State :=
  if s.mgmt.service = .draining ∧ listsEmpty s = true then s.withMgmt { s.mgmt with service := .standby } else s

/-- A record leaves its lane's list, its pages return, the emission becomes absent, a lane counter rises, and the
paused flag and the service state follow (R149, R150, R156, R179). -/
def recordLeaves (l : Fin 16) (i : Item) (count : LaneCounters → LaneCounters) (s : State) : State :=
  let s1 := returnPages i.pages (s.modLane l fun c =>
    { c with list := dropFirst (fun j => j.seq == i.seq) c.list, counters := count c.counters })
  watchService (evalPaused l (s1.withEgress { s1.egress with emission := none }))

/-- The last frame of the record in EMITTING has been sent whole; `last` is the frame type it must be. The port starts what it
can (R143, R149), but for what a reset that comes together with the frame's end withdraws or discards (R153, R155; logs 32
and 33). -/
def lastFrameSent (last : FrameType) (count : Item → LaneCounters → LaneCounters) (s : State) : State :=
  match s.egress.inProgress, s.egress.emission with
  | some f, some e =>
    if f.type = last then
      match s.item? e.lane e.seq with
      | none => s
      | some i => startAfterLast e.lane (recordLeaves e.lane i (count i) (frameGone s))
    else s
  | some _, none => s
  | none, _ => s

/-- An ITEM_END leaves: emitted is counted (R149). -/
def countEmitted (_ : Item) (c : LaneCounters) : LaneCounters := { c with emitted := bump c.emitted }

/-- An ITEM_NOTICE leaves: diverted or withdrawn is counted, by its disposition (R150). -/
def countNotice (i : Item) (c : LaneCounters) : LaneCounters :=
  if i.dispatch.disposition = .withdrawn then { c with withdrawn := bump c.withdrawn }
  else { c with diverted := bump c.diverted }

/-- A reply has been sent whole on the exchange link and leaves its queue (R151). -/
def exchangeReplyGone (s : State) : State :=
  let t := frameGone s
  t.withEgress { t.egress with replies := t.egress.replies.tail }

/-! ### HALT and GO (R152) -/

/-- HALT sets halted. -/
def takeHalt (s : State) : State := s.withEgress { s.egress with halted := true }

/-- GO clears halted, and the port starts the next frame in the same event; a GO while halted is no changes nothing. -/
def takeGo (s : State) : State :=
  if s.egress.halted then startExchange (s.withEgress { s.egress with halted := false }) else s

end Sys2Proof.Machine
end

