-- ==== Sys2Proof/Machine/Resets.lean ====
section
/-! DEFINITION. Lane reset, engine reset and power-on reset (R59, R60, R68, R69, R94, R95, R153, R155, R165, R180 to
R182). -/

namespace Sys2Proof.Machine

/-! ### Lane reset (R180) -/

/-- What a lane reset makes of a side's state: a side bound or waiting is cancelled (R59; log 11). -/
def cancelState : SideState → SideState
  | .storing => .cancelled
  | .bound => .cancelled
  | .reworkWait => .cancelled
  | .done => .done
  | .notReduced => .notReduced
  | .cancelled => .cancelled

/-- A side record of a withdrawn item: cancelled if it was bound or waiting (R59), and its pages returned (R68). -/
def cancelSide (x : Side) : Side := { dropPages x with boundUnit := none, state := cancelState x.state }

/-- A side record whose scaling results are discarded (R17): it holds none any more (`Side.results`), and its fields stay as
they stood (R139; log 11). -/
def discardResults (x : Side) : Side := { x with resultsDiscarded := true }

/-- A side record of an item that a lane reset withdraws, in REWORK as in every other state: its unit is freed (R59), its pages
return (R68) and its scaling results are discarded (R17), and the record stays as it stood (R139). -/
def withdrawSide (x : Side) : Side := discardResults (cancelSide x)

/-- An item record that becomes a WITHDRAWN notice (R153). -/
def withdrawItem (i : Item) : Item :=
  { i.mapSides withdrawSide with
    state := .ready
    dispatch := { Dispatch.fresh with disposition := .withdrawn, reason := .laneReset } }

/-- A lane reset withdraws the record: it is not EMITTING, and not a WITHDRAWN notice already (R180). A record that an event
before started is EMITTING and is left to complete (R153). -/
def isWithdrawn (i : Item) : Bool := decide (i.state ≠ .emitting ∧ i.dispatch.disposition ≠ .withdrawn)

/-- A lane's list after a lane reset (R180). -/
def withdrawList (is : List Item) : List Item := is.map fun i => if isWithdrawn i then withdrawItem i else i

/-- The number of records that a lane reset withdraws (R180). -/
def withdrawCount (is : List Item) : Nat := (is.filter isWithdrawn).length

/-- A record of the list is EMITTING (R180). -/
def hasEmitting (is : List Item) : Bool := is.any fun i => decide (i.state = .emitting)

/-- The units and wait lists with every side of a lane cancelled (R59). -/
def cancelLane (l : Fin 16) (r : Reduction) : Reduction :=
  { units := r.units.map fun b => b.filter fun x => x.ref.lane != l
    openWait := r.openWait.filter fun x => x.lane != l
    reworkWait := r.reworkWait.filter fun x => x.lane != l }

/-- The context of a lane after a lane reset, its list and paused flag apart (R95). -/
def resetContext (c : Lane) : Lane := { idleLane c with held := false, lastTimedOut := none }

/-- The records of a lane are withdrawn and its sides cancelled, before the freed units are granted. -/
def withdrawLane (l : Fin 16) (s : State) : State :=
  (s.modLane l fun c => { c with list := withdrawList c.list }).withReduction (cancelLane l s.reduction)

/-- The pages that a lane reset returns to the pool (R68). -/
def releasedPages (c : Lane) : Nat := listPages c.list - listPages (withdrawList c.list)

/-- RESET_LANE (R180): records withdrawn, sides cancelled and units granted, pages returned, the context IDLE, the
paused flag evaluated. The order of the flow frames that this queues is log 12. -/
def resetLane (l : Fin 16) (s : State) : State :=
  evalPaused l ((returnPages (releasedPages (s.lane l)) (grantAll (withdrawLane l s))).modLane l resetContext)

/-! ### Engine reset (R181) -/

/-- A lane context after an engine reset: the power-on values, but for the enabled flag, the marks and the stall
setting (R94). -/
def engineLane (c : Lane) : Lane :=
  { Lane.reset with enabled := c.enabled, xoff := c.xoff, xon := c.xon, stallMs := c.stallMs }

/-- Port counters after an engine reset: 0, but for aborted frames when a frame was cut (R73, R155). The end of a frame
that comes together with the reset starts none (log 32). -/
def enginePort (cut : Bool) : PortCounters := { PortCounters.zero with aborted := if cut then 1 else 0 }

/-- The flow queue after an engine reset: START_ALL, then RESUME for each lane that was paused, ascending (R165). -/
def engineFlowQueue (s : State) : List FlowFrame :=
  .startAll :: (allLanes.filter fun l => (s.lane l).paused).map .resume

/-- RESET_ENGINE (R181), before its reply is queued. -/
def resetEngine (s : State) : State :=
  { taking := s.taking
    intakePort := enginePort s.flow.inProgress.isSome
    lanes := s.lanes.map engineLane
    admission := s.admission
    freePages := Config.pageCount
    reduction := Reduction.reset
    disposition := { s.disposition with dispatchFaults := 0, reworkExhausted := 0 }
    egress := { Egress.reset with port := enginePort s.egress.inProgress.isSome }
    flow := { Flow.reset with flowQueue := engineFlowQueue s }
    mgmt := { s.mgmt with requests := [], service := .standby, overflow := 0 }
    pending := s.pending }

/-! ### Power-on reset (R182) -/

/-- POWER_ON_RESET: every block at its power-on values, no frame taken until the pin is released (R182, R188; log 7).
The queue of commands is the model's and stays. -/
def powerOn (s : State) : State := { State.reset with taking := false, pending := s.pending }

end Sys2Proof.Machine
end

