-- ==== Sys2Proof/Machine/Management.lean ====
section
/-! DEFINITION. The Management Unit (spec/11_in_band_management.md): what each request does and answers, composites, the
service state, and the taking of requests from the request queue. Encodings of R187. -/

namespace Sys2Proof.Machine

/-! ### Answers and replies (R168, R170, R183) -/

/-- Refusal reasons of management (R168, R187). -/
inductive MgmtReason where
  | badRequest
  | badIndex
  | badField
  | readOnlyField
  | notPermitted
  | notInState
  deriving DecidableEq, Repr

/-- The code of a refusal reason (R187). -/
def MgmtReason.code : MgmtReason → Byte
  | .badRequest => 1
  | .badIndex => 2
  | .badField => 3
  | .readOnlyField => 4
  | .notPermitted => 5
  | .notInState => 6

/-- The answer to a request: its status and result data (R170, R176). -/
inductive Answer where
  | ok (data : List Byte)
  | clamped (data : List Byte)
  | refused (reason : MgmtReason)
  | stopped (steps : Nat) (reason : MgmtReason)
  deriving DecidableEq, Repr

/-- The status byte and what follows it in a MGMT_REPLY payload (R183, R187). -/
def answerBytes : Answer → List Byte
  | .ok data => 0 :: data
  | .clamped data => 1 :: data
  | .refused r => [2, r.code]
  | .stopped n r => [3, byteOf n, 2, r.code]

/-- A MGMT_REPLY payload: the tag, then the answer (R183). -/
def replyPayload (tag : BitVec 16) (a : Answer) : List Byte := be16 tag ++ answerBytes a

/-- OK, or CLAMPED when a stored value differs from the value carried. -/
def okOr (clamped : Bool) (data : List Byte) : Answer := if clamped then .clamped data else .ok data

/-! ### Member table (R101, R171) -/

/-- A profile index from 0 to 63. -/
def profileIndex? (b : Byte) : Option (Fin 64) := if h : b.toNat < 64 then some ⟨b.toNat, h⟩ else none

/-- A class map entry: a profile index, or NONE as FFH; the outer none for any other byte (R187). -/
def mapEntry? (b : Byte) : Option (Option (Fin 64)) := if b = 255 then some none else (profileIndex? b).map some

/-- The byte of a class map entry. -/
def mapEntryByte : Option (Fin 64) → Byte
  | none => 255
  | some p => byteOf p.val

/-- A member status from its code. -/
def status? (b : Byte) : Option MemberStatus :=
  if b = 0 then some .suspended else if b = 1 then some .active else none

/-- The code of a member status. -/
def statusByte : MemberStatus → Byte
  | .suspended => 0
  | .active => 1

/-- A member entry as stored, in its 11 bytes (R187). -/
def memberData (e : MemberEntry) : List Byte :=
  [flagByte e.present, statusByte e.status, byteOf e.defaultProfile.val] ++ e.classMap.toList.map mapEntryByte

/-- A class map from its bytes; none when a byte is no class map entry. -/
def classMap? (v : Vector Byte 8) : Option (Vector (Option (Fin 64)) 8) := v.mapM mapEntry?

/-- The entry that a member write carries, when every field is one the entry admits (R101). -/
def memberOf? (o : MemberOperand) : Option MemberEntry :=
  match flagOf o.present, status? o.status, profileIndex? o.defaultProfile, classMap? o.classMap with
  | some p, some st, some d, some m => some { present := p, status := st, defaultProfile := d, classMap := m }
  | _, _, _, _ => none

/-- The member table with an entry replaced. -/
def putMember (i : Fin 1024) (e : MemberEntry) (s : State) : State :=
  s.withAdmission { s.admission with members := s.admission.members.set i.val e }

/-- A member index in range. -/
def memberIndex? (i : BitVec 16) : Option (Fin 1024) := if h : i.toNat < 1024 then some ⟨i.toNat, h⟩ else none

/-- READ_MEMBER. -/
def serveReadMember (i : BitVec 16) (s : State) : Answer × State :=
  match memberIndex? i with
  | none => (.refused .badIndex, s)
  | some k => (.ok (memberData s.admission.members[k.val]), s)

/-- WRITE_MEMBER (R101). -/
def serveWriteMember (i : BitVec 16) (o : MemberOperand) (s : State) : Answer × State :=
  match memberIndex? i with
  | none => (.refused .badIndex, s)
  | some k =>
    match memberOf? o with
    | none => (.refused .badField, s)
    | some e => (.ok (memberData e), putMember k e s)

/-! ### Profile table (R102 to R104) -/

/-- The output resolutions that a profile can hold (R102). -/
def outputResolutions : List Nat := [100, 120, 150, 200, 240]

/-- The record that a profile write carries, before clamping; none when the valid field is neither yes nor no. -/
def rawProfile? (o : ProfileOperand) : Option Profile :=
  (flagOf o.valid).map fun v =>
    { valid := v, outRes := o.outRes.toNat, initialBackground := o.initialBackground.toNat, tq := o.tq.toNat,
      darkLimit := o.darkLimit.toNat, lightLimit := o.lightLimit.toNat, attackShift := o.attackShift.toNat,
      decayShift := o.decayShift.toNat, widthMin := o.widthMin.toNat, widthMax := o.widthMax.toNat,
      heightMin := o.heightMin.toNat, heightMax := o.heightMax.toNat, blackMin := o.blackMin.toNat,
      blackMax := o.blackMax.toNat, brightMin := o.brightMin.toNat, brightMax := o.brightMax.toNat,
      streakPermille := o.streakPermille.toNat, streakLimit := o.streakLimit.toNat, budget := o.budget.toNat,
      pairTolerance := o.pairTolerance.toNat, mask := o.mask }

/-- Step 1 of R103: each numeric field is brought into its own range. -/
def clampRanges (p : Profile) : Profile :=
  { p with
    initialBackground := clampTo 0 255 p.initialBackground
    tq := clampTo 16 63 p.tq
    darkLimit := clampTo 0 255 p.darkLimit
    lightLimit := clampTo 1 255 p.lightLimit
    attackShift := clampTo 1 4 p.attackShift
    decayShift := clampTo 3 8 p.decayShift
    widthMin := clampTo 0 4095 p.widthMin
    widthMax := clampTo 0 4095 p.widthMax
    heightMin := clampTo 0 4095 p.heightMin
    heightMax := clampTo 0 4095 p.heightMax
    blackMin := clampTo 0 1000 p.blackMin
    blackMax := clampTo 0 1000 p.blackMax
    brightMin := clampTo 0 255 p.brightMin
    brightMax := clampTo 0 255 p.brightMax
    streakPermille := clampTo 500 1000 p.streakPermille
    streakLimit := clampTo 1 255 p.streakLimit
    budget := clampTo 1024 262144 p.budget
    pairTolerance := clampTo 0 255 p.pairTolerance }

/-- Step 2 of R103: the light limit gives way to the dark limit. -/
def clampLimits (p : Profile) : Profile :=
  let d := min p.darkLimit 254
  { p with darkLimit := d, lightLimit := if p.lightLimit ≤ d then d + 1 else p.lightLimit }

/-- Step 3 of R103: a maximum below its minimum becomes the minimum. -/
def clampPairs (p : Profile) : Profile :=
  { p with
    widthMax := max p.widthMin p.widthMax
    heightMax := max p.heightMin p.heightMax
    blackMax := max p.blackMin p.blackMax
    brightMax := max p.brightMin p.brightMax }

/-- The clamping of a profile write (R103). -/
def clampProfile (p : Profile) : Profile := clampPairs (clampLimits (clampRanges p))

/-- A profile record as stored, in its 32 bytes (R187). -/
def profileData (p : Profile) : List Byte :=
  [flagByte p.valid] ++ num16 p.outRes
    ++ [byteOf p.initialBackground, byteOf p.tq, byteOf p.darkLimit, byteOf p.lightLimit, byteOf p.attackShift,
        byteOf p.decayShift]
    ++ num16 p.widthMin ++ num16 p.widthMax ++ num16 p.heightMin ++ num16 p.heightMax
    ++ num16 p.blackMin ++ num16 p.blackMax ++ [byteOf p.brightMin, byteOf p.brightMax]
    ++ num16 p.streakPermille ++ [byteOf p.streakLimit] ++ num24 p.budget ++ [byteOf p.pairTolerance] ++ be16 p.mask

/-- The profile table with a record replaced. -/
def putProfile (i : Fin 64) (p : Profile) (s : State) : State :=
  s.withAdmission { s.admission with profiles := s.admission.profiles.set i.val p }

/-- READ_PROFILE. -/
def serveReadProfile (i : Byte) (s : State) : Answer × State :=
  match profileIndex? i with
  | none => (.refused .badIndex, s)
  | some k => (.ok (profileData s.admission.profiles[k.val]), s)

/-- A record goes into the profile table, clamped (R102, R103). -/
def storeProfile (i : Byte) (p : Option Profile) (s : State) : Answer × State :=
  match profileIndex? i with
  | none => (.refused .badIndex, s)
  | some k =>
    match p with
    | none => (.refused .badField, s)
    | some q =>
      if q.outRes ∈ outputResolutions then
        (okOr (decide (clampProfile q ≠ q)) (profileData (clampProfile q)), putProfile k (clampProfile q) s)
      else (.refused .badField, s)

/-- WRITE_PROFILE (R102). -/
def serveWriteProfile (i : Byte) (o : ProfileOperand) (s : State) : Answer × State := storeProfile i (rawProfile? o) s

/-! ### Disposition table (R115) -/

/-- A descriptor class from its code. -/
def descriptorClass? (b : Byte) : Option DescriptorClass :=
  if b = 0 then some .mark else if b = 1 then some .divert else if b = 2 then some .rework else none

/-- The code of a descriptor class. -/
def descriptorClassByte : DescriptorClass → Byte
  | .mark => 0
  | .divert => 1
  | .rework => 2

/-- A descriptor as stored, in its 4 bytes (R187). -/
def descriptorData (d : Descriptor) : List Byte :=
  [flagByte d.present, descriptorClassByte d.cls, byteOf d.alternate.val, d.code]

/-- The descriptor that a write carries, when every field is one it admits (R115). -/
def descriptorOf? (o : DescriptorOperand) : Option Descriptor :=
  match flagOf o.present, descriptorClass? o.cls, profileIndex? o.alternate with
  | some p, some k, some a => some { present := p, cls := k, alternate := a, code := o.code }
  | _, _, _ => none

/-- A descriptor index in range. -/
def descriptorIndex? (b : Byte) : Option (Fin 16) := lane? b

/-- The disposition table with a descriptor replaced. -/
def putDescriptor (i : Fin 16) (d : Descriptor) (s : State) : State :=
  s.withDisposition { s.disposition with descriptors := s.disposition.descriptors.set i.val d }

/-- READ_DISPOSITION. -/
def serveReadDisposition (i : Byte) (s : State) : Answer × State :=
  match descriptorIndex? i with
  | none => (.refused .badIndex, s)
  | some k => (.ok (descriptorData s.disposition.descriptors[k.val]), s)

/-- WRITE_DISPOSITION (R115). -/
def serveWriteDisposition (i : Byte) (o : DescriptorOperand) (s : State) : Answer × State :=
  match descriptorIndex? i with
  | none => (.refused .badIndex, s)
  | some k =>
    match descriptorOf? o with
    | none => (.refused .badField, s)
    | some d => (.ok (descriptorData d), putDescriptor k d s)

/-! ### Lane fields (R75, R158, R172) -/

/-- The code of a lane state (R187). -/
def laneStateCode : LaneState → Nat
  | .idle => 0
  | .opened => 1
  | .side => 2
  | .drain => 3

/-- The code of an item state as HEAD_ITEM_STATE returns it (R187). -/
def itemStateCode : ItemState → Nat
  | .receiving => 1
  | .reducing => 2
  | .awaitDispatch => 3
  | .rework => 4
  | .ready => 5
  | .emitting => 6

/-- HEAD_ITEM_STATE: 0 for NONE. -/
def headStateCode (c : Lane) : Nat :=
  match c.list with
  | [] => 0
  | i :: _ => itemStateCode i.state

/-- LAST_TIMED_OUT_SEQUENCE: 0 when none. -/
def lastTimedOutValue (c : Lane) : BitVec 32 := c.lastTimedOut.getD 0

/-- A flag as a lane field value (R187). -/
def flagValue (b : Bool) : BitVec 32 := if b then 1 else 0

/-- The value of a lane field, none for a number that names no lane field (R75, R187). -/
def laneField? (s : State) (l : Fin 16) (field : Byte) : Option (BitVec 32) :=
  let c := s.lane l
  match field.toNat with
  | 0 => some (BitVec.ofNat 32 (laneStateCode c.state))
  | 1 => some c.seq
  | 2 => some (BitVec.ofNat 32 c.list.length)
  | 3 => some (BitVec.ofNat 32 (s.backlog l))
  | 4 => some (flagValue c.paused)
  | 5 => some (flagValue c.held)
  | 6 => some (flagValue c.enabled)
  | 7 => some (BitVec.ofNat 32 c.xoff)
  | 8 => some (BitVec.ofNat 32 c.xon)
  | 9 => some (BitVec.ofNat 32 c.stallMs)
  | 10 => some (BitVec.ofNat 32 c.stallRemaining)
  | 11 => some (lastTimedOutValue c)
  | 12 => some (BitVec.ofNat 32 (headStateCode c))
  | 13 => some (BitVec.ofNat 32 c.pages)
  | _ => none

/-- READ_LANE_FIELD (R172). -/
def serveReadLaneField (lane field : Byte) (s : State) : Answer × State :=
  match lane? lane with
  | none => (.refused .badIndex, s)
  | some l =>
    match laneField? s l field with
    | none => (.refused .badField, s)
    | some v => (.ok (be32 v), s)

/-- A flag carried as a lane field value: 1 or 0 (R187). -/
def flagCarried? (v : BitVec 32) : Option Bool := if v = 1 then some true else if v = 0 then some false else none

/-- A write of HELD (R119, R172). -/
def storeHeld (l : Fin 16) (v : BitVec 32) (s : State) : Answer × State :=
  match flagCarried? v with
  | none => (.refused .badField, s)
  | some b => (.ok (be32 v), writeHeld l b s)

/-- A write of ENABLED (R75, R172). -/
def storeEnabled (l : Fin 16) (v : BitVec 32) (s : State) : Answer × State :=
  match flagCarried? v with
  | none => (.refused .badField, s)
  | some b => (.ok (be32 v), s.modLane l fun c => { c with enabled := b })

/-- Both marks of a lane as result data (R187). -/
def marksData (xoff xon : Nat) : List Byte := num32 xoff ++ num32 xon

/-- A write of XOFF_MARK: stored in 32 to 1024, the XON mark lowered to at most 16 below it, the paused flag evaluated
(R158). -/
def storeXoff (l : Fin 16) (v : BitVec 32) (s : State) : Answer × State :=
  let c := s.lane l
  let xoff := clampTo 32 1024 v.toNat
  let xon := min c.xon (xoff - 16)
  (okOr (decide (xoff ≠ v.toNat ∨ xon ≠ c.xon)) (marksData xoff xon),
    evalPaused l (s.modLane l fun k => { k with xoff := xoff, xon := xon }))

/-- A write of XON_MARK: stored in 0 to the XOFF mark less 16, the paused flag evaluated (R158). -/
def storeXon (l : Fin 16) (v : BitVec 32) (s : State) : Answer × State :=
  let c := s.lane l
  let xon := min v.toNat (c.xoff - 16)
  (okOr (decide (xon ≠ v.toNat)) (marksData c.xoff xon), evalPaused l (s.modLane l fun k => { k with xon := xon }))

/-- The lane with a stall setting stored: a setting of 0 stops the timer at once (R90). -/
def stallLane (ms : Nat) (c : Lane) : Lane :=
  if ms = 0 then { stopTimer c with stallMs := 0 } else { c with stallMs := ms }

/-- A write of STALL_MS: stored in 0 to 60000 (R75, R90). -/
def storeStallMs (l : Fin 16) (v : BitVec 32) (s : State) : Answer × State :=
  let ms := min v.toNat 60000
  (okOr (decide (ms ≠ v.toNat)) (num32 ms), s.modLane l (stallLane ms))

/-- A write of one of a lane's fields (R172). -/
def storeLaneField (l : Fin 16) (field : Byte) (v : BitVec 32) (s : State) : Answer × State :=
  if field = fieldHeld then storeHeld l v s
  else if field = fieldEnabled then storeEnabled l v s
  else if field = fieldXoff then storeXoff l v s
  else if field = fieldXon then storeXon l v s
  else if field = fieldStallMs then storeStallMs l v s
  else if field.toNat ≤ 13 then (.refused .readOnlyField, s)
  else (.refused .badField, s)

/-- WRITE_LANE_FIELD (R172). -/
def serveWriteLaneField (lane field : Byte) (v : BitVec 32) (s : State) : Answer × State :=
  match lane? lane with
  | none => (.refused .badIndex, s)
  | some l => storeLaneField l field v s

/-! ### Settings (R116, R161, R173) -/

/-- READ_SETTING (R173). -/
def serveReadSetting (n : Byte) (s : State) : Answer × State :=
  if n = settingExtent then (.ok (num16 s.disposition.extent), s)
  else if n = settingReserve then (.ok (num16 s.mgmt.pageReserve), s)
  else if n = settingMargin then (.ok (num16 s.mgmt.resumeMargin), s)
  else (.refused .badIndex, s)

/-- A write of DISPOSITION_EXTENT (R116). -/
def storeExtent (v : Nat) (s : State) : Answer × State :=
  (okOr (decide (clampTo 0 16 v ≠ v)) (num16 (clampTo 0 16 v)),
    s.withDisposition { s.disposition with extent := clampTo 0 16 v })

/-- A write of PAGE_RESERVE (R161). -/
def storeReserve (v : Nat) (s : State) : Answer × State :=
  (okOr (decide (clampTo 0 1024 v ≠ v)) (num16 (clampTo 0 1024 v)),
    evalStop (s.withMgmt { s.mgmt with pageReserve := clampTo 0 1024 v }))

/-- A write of RESUME_MARGIN (R161). -/
def storeMargin (v : Nat) (s : State) : Answer × State :=
  (okOr (decide (clampTo 16 512 v ≠ v)) (num16 (clampTo 16 512 v)),
    evalStop (s.withMgmt { s.mgmt with resumeMargin := clampTo 16 512 v }))

/-- WRITE_SETTING (R173). -/
def serveWriteSetting (n : Byte) (v : BitVec 16) (s : State) : Answer × State :=
  if n = settingExtent then storeExtent v.toNat s
  else if n = settingReserve then storeReserve v.toNat s
  else if n = settingMargin then storeMargin v.toNat s
  else (.refused .badIndex, s)

/-! ### Counters and identity (R174, R175) -/

/-- A lane's counters in reply order (R174). -/
def laneCounterList (c : LaneCounters) : List Counter :=
  [c.admitted, c.refused, c.emitted, c.diverted, c.withdrawn, c.reworks, c.stalls, c.overruns, c.stray, c.late]

/-- A port's counters in reply order (R174). -/
def portCounterList (p : PortCounters) : List Counter := [p.framesIn, p.checkFailures, p.framesOut, p.aborted, p.stray]

/-- The engine counters in reply order (R174). -/
def engineCounterList (s : State) : List Counter :=
  [s.disposition.dispatchFaults, s.disposition.reworkExhausted, s.mgmt.overflow, s.flow.globalStops]

/-- A counter group (R174). -/
inductive CounterGroup where
  | lane (l : Fin 16)
  | intakePort
  | exchangePort
  | engine
  deriving DecidableEq, Repr

/-- The group that the operands name; the lane operand is read for the group LANE only (R174, R187). -/
def group? (group lane : Byte) : Option CounterGroup :=
  if group = 0 then (lane? lane).map .lane
  else if group = 1 then some .intakePort
  else if group = 2 then some .exchangePort
  else if group = 3 then some .engine
  else none

/-- The counters of a group, in reply order. -/
def groupCounters (s : State) : CounterGroup → List Counter
  | .lane l => laneCounterList (s.lane l).counters
  | .intakePort => portCounterList s.intakePort
  | .exchangePort => portCounterList s.egress.port
  | .engine => engineCounterList s

/-- The state with a group's counters 0. -/
def clearGroup (g : CounterGroup) (s : State) : State :=
  match g with
  | .lane l => s.countLane l fun _ => LaneCounters.zero
  | .intakePort => s.withIntakePort PortCounters.zero
  | .exchangePort => modExchangePort (fun _ => PortCounters.zero) s
  | .engine =>
    ((s.withDisposition { s.disposition with dispatchFaults := 0, reworkExhausted := 0 }).withMgmt
      { s.mgmt with overflow := 0 }).withFlow { s.flow with globalStops := 0 }

/-- READ_COUNTERS (R174). -/
def serveReadCounters (group lane clear : Byte) (s : State) : Answer × State :=
  match group? group lane with
  | none => (.refused .badIndex, s)
  | some g =>
    match flagOf clear with
    | none => (.refused .badField, s)
    | some c =>
      (.ok ([group, lane] ++ (groupCounters s g).flatMap be32), if c then clearGroup g s else s)

/-- READ_IDENTITY (R175). -/
def identityData : List Byte :=
  num16 Config.partCode ++ [byteOf Config.revisionCode, byteOf Config.laneCount, byteOf Config.unitCount]
    ++ num16 Config.pageCount ++ num32 Config.pageSize

/-! ### The service state (R178, R179) -/

/-- The code of a service state (R187). -/
def serviceCode : ServiceState → Byte
  | .standby => 0
  | .inService => 1
  | .draining => 2

/-- A service state from its code. -/
def service? (b : Byte) : Option ServiceState :=
  if b = 0 then some .standby else if b = 1 then some .inService else if b = 2 then some .draining else none

/-- The state with the service state set. -/
def setService (v : ServiceState) (s : State) : State := s.withMgmt { s.mgmt with service := v }

/-- The transition table of R178: the state the part is set to, none for NOT_IN_STATE. -/
def serviceTarget (current target : ServiceState) (empty : Bool) : Option ServiceState :=
  match current, target with
  | .standby, .standby => some .standby
  | .standby, .inService => some .inService
  | .standby, .draining => none
  | .inService, .standby => if empty then some .standby else none
  | .inService, .inService => some .inService
  | .inService, .draining => some .draining
  | .draining, .standby => if empty then some .standby else none
  | .draining, .inService => some .inService
  | .draining, .draining => some .draining

/-- SET_SERVICE_STATE (R178); DRAINING entered with every list empty becomes STANDBY at once (R179). -/
def serveService (target : Byte) (s : State) : Answer × State :=
  match service? target with
  | none => (.refused .badField, s)
  | some t =>
    match serviceTarget s.mgmt.service t (listsEmpty s) with
    | none => (.refused .notInState, s)
    | some v => (.ok [serviceCode (watchService (setService v s)).mgmt.service], watchService (setService v s))

/-! ### Resets (R180, R181) -/

/-- RESET_LANE: the lane, the records withdrawn, and whether a record was left EMITTING (R180). -/
def serveResetLane (lane : Byte) (s : State) : Answer × State :=
  match lane? lane with
  | none => (.refused .badIndex, s)
  | some l =>
    (.ok [lane, byteOf (withdrawCount (s.lane l).list), flagByte (hasEmitting (s.lane l).list)], resetLane l s)

/-! ### Composites (R176, R177) -/

/-- The answer of a composite whose first step is done, from the answer of its second step (R176). -/
def afterFirst (firstClamped : Bool) : Answer → Answer
  | .ok data => okOr firstClamped data
  | .clamped data => .clamped data
  | .refused r => .stopped 1 r
  | .stopped n r => .stopped (n + 1) r

/-- Two steps of a composite: the second is made only when the first was not refused, with its full effect (R176). -/
def twoSteps (first : Answer × State) (second : State → Answer × State) : Answer × State :=
  match first.1 with
  | .ok _ => (afterFirst false (second first.2).1, (second first.2).2)
  | .clamped _ => (afterFirst true (second first.2).1, (second first.2).2)
  | .refused r => (.stopped 0 r, first.2)
  | .stopped n r => (.stopped n r, first.2)

/-- The record that step 1 of COPY_PROFILE reads. -/
def profileAt? (s : State) (i : Byte) : Option Profile := (profileIndex? i).map fun k => s.admission.profiles[k.val]

/-- COPY_PROFILE (R177). -/
def serveCopyProfile (src dst : Byte) (s : State) : Answer × State :=
  twoSteps (serveReadProfile src s) (storeProfile dst (profileAt? s src))

/-- The entry that step 2 of MOVE_CLASS writes; none when the class or the profile is not one the entry admits. -/
def movedEntry? (e : MemberEntry) (cls profile : Byte) : Option MemberEntry :=
  match class? cls, mapEntry? profile with
  | some c, some p => some { e with classMap := e.classMap.set c.val p }
  | _, _ => none

/-- Step 2 of MOVE_CLASS: WRITE_MEMBER with the class map entry replaced (R177). -/
def storeMoved (m : BitVec 16) (cls profile : Byte) (s : State) : Answer × State :=
  match memberIndex? m with
  | none => (.refused .badIndex, s)
  | some k =>
    match movedEntry? s.admission.members[k.val] cls profile with
    | none => (.refused .badField, s)
    | some e => (.ok (memberData e), putMember k e s)

/-- MOVE_CLASS (R177). -/
def serveMoveClass (m : BitVec 16) (cls profile : Byte) (s : State) : Answer × State :=
  twoSteps (serveReadMember m s) (storeMoved m cls profile)

/-- QUIESCE_LANE (R177): HELD = yes, then ENABLED = no. -/
def serveQuiesce (lane : Byte) (s : State) : Answer × State :=
  twoSteps (serveWriteLaneField lane fieldHeld 1 s) (serveWriteLaneField lane fieldEnabled 0)

/-! ### Carrying out a request (R167 to R169) -/

/-- Checks 5 to 7 and the action of a request. -/
def serve : Request → State → Answer × State
  | .readMember i, s => serveReadMember i s
  | .writeMember i e, s => serveWriteMember i e s
  | .readProfile i, s => serveReadProfile i s
  | .writeProfile i r, s => serveWriteProfile i r s
  | .readDisposition i, s => serveReadDisposition i s
  | .writeDisposition i d, s => serveWriteDisposition i d s
  | .readLaneField l f, s => serveReadLaneField l f s
  | .writeLaneField l f v, s => serveWriteLaneField l f v s
  | .readSetting n, s => serveReadSetting n s
  | .writeSetting n v, s => serveWriteSetting n v s
  | .readCounters g l c, s => serveReadCounters g l c s
  | .readIdentity, s => (.ok identityData, s)
  | .setServiceState t, s => serveService t s
  | .resetLane l, s => serveResetLane l s
  | .resetEngine, s => (.ok [], resetEngine s)
  | .copyProfile a b, s => serveCopyProfile a b s
  | .moveClass m c p, s => serveMoveClass m c p s
  | .quiesceLane l, s => serveQuiesce l s

/-- Check 4, then the rest: a request from the exchange link that is not a read is refused (R169). -/
def carryOut (p : Port) (r : Request) (s : State) : Answer × State :=
  if p = .exchange ∧ r.isRead = false then (.refused .notPermitted, s) else serve r s

/-- The replies waiting for a link. -/
def repliesOf (p : Port) (s : State) : List (List Byte) :=
  match p with
  | .intake => s.flow.replies
  | .exchange => s.egress.replies

/-- A reply is queued for the link of arrival (R167). -/
def queueReply (p : Port) (payload : List Byte) (s : State) : State :=
  match p with
  | .intake => s.withFlow { s.flow with replies := s.flow.replies ++ [payload] }
  | .exchange => s.withEgress { s.egress with replies := s.egress.replies ++ [payload] }

/-- A request is carried out whole: its checks, its action and the queuing of its reply (R167, R168). -/
def answerRequest (e : RequestEntry) (s : State) : State :=
  match parseRequest e.payload with
  | .bad tag => queueReply e.port (replyPayload tag (.refused .badRequest)) s
  | .request tag r => queueReply e.port (replyPayload tag (carryOut e.port r s).1) (carryOut e.port r s).2

/-- The reply queue of a link has a free place (R167). -/
def replyRoom (p : Port) (s : State) : Bool := decide ((repliesOf p s).length < Config.replyCapacity)

/-- The head of the request queue is taken, and those behind it, while their reply queues have a free place; `fuel`
bounds the number taken. -/
def takeUpTo : Nat → State → State
  | 0, s => s
  | fuel + 1, s =>
    match s.mgmt.requests with
    | [] => s
    | e :: rest =>
      if replyRoom e.port s then takeUpTo fuel (answerRequest e (s.withMgmt { s.mgmt with requests := rest })) else s

/-- The Management Unit takes every request it can, in queue order (R167). -/
def takeRequests (s : State) : State := takeUpTo s.mgmt.requests.length s

/-- A request joins the tail of the request queue, or is discarded at overflow (R166). -/
def joinRequests (e : RequestEntry) (s : State) : State :=
  if s.mgmt.requests.length < Config.requestCapacity then
    s.withMgmt { s.mgmt with requests := s.mgmt.requests ++ [e] }
  else s.withMgmt { s.mgmt with overflow := bump s.mgmt.overflow }

/-- A frame passed the check of a port. -/
def countIn : Port → State → State
  | .intake => countIntakeIn
  | .exchange => countExchangeIn

/-- A port discarded a frame as stray. -/
def countStray : Port → State → State
  | .intake => countIntakeStray
  | .exchange => countExchangeStray

/-- A request joins the queue, the Management Unit takes what it can, and the Exchange Port starts what it can: all in
the event of the arrival (R143, R166, R167; log 2). -/
def handRequest (p : Port) (payload : List Byte) (s : State) : State :=
  startExchange (takeRequests (joinRequests ⟨p, payload⟩ s))

/-- A MGMT_REQUEST frame passes the check of a port (R71, R154, R166). A payload above 16384 bytes is stray (R72).
Before the part takes frames it is discarded and not counted (R188). -/
def receiveRequest (p : Port) (payload : List Byte) (s : State) : State :=
  if s.taking then
    if payload.length ≤ Config.maxPayload then handRequest p payload (countIn p s)
    else countStray p (countIn p s)
  else s

end Sys2Proof.Machine
end

