-- ==== Sys2Proof/Machine/PortCommands.lean ====
section
/-! DEFINITION. The commands that are received frames and pins: the reset pin (R182, R188), the frames of the intake
link (R71, R72, R79 to R89) and those of the exchange link (R152, R154), management requests apart. -/

namespace Sys2Proof.Machine

/-- The outcome of a command: every command has a next state. -/
abbrev Result : Type := Host.Outcome State Fault Refusal

/-! ### What a frame does once its port has taken it -/

/-- A state that takes a frame changes by it; before the part takes frames they are discarded and not counted
(R188). -/
def whenTaking (f : State → State) (s : State) : State := if s.taking then f s else s

/-- An ITEM_OPEN passed the Intake Port, and the Exchange Port starts what it can, but for a head that a lane reset taken next
withdraws (R95, R128; log 33). -/
def arriveItemOpen (l : Fin 16) (q : Seq) (m : BitVec 16) (c n : Byte) (date : BitVec 32) (s : State) : State :=
  startBeside l (takeItemOpen l q m c n date (countIntakeIn s))

/-- A SIDE_OPEN passed the Intake Port. -/
def arriveSideOpen (l : Fin 16) (q : Seq) (face : Byte) (res w h : BitVec 16) (s : State) : State :=
  withMatch l q (takeSideOpen l face res.toNat w.toNat h.toNat) (countIntakeIn s)

/-- A SIDE_DATA passed the check of the Intake Port; one whose payload would pass 16384 bytes is stray there (R72). -/
def arriveSideData (l : Fin 16) (q : Seq) (first count : BitVec 16) (rows : List Byte) (s : State) : State :=
  if rows.length + 4 ≤ Config.maxPayload then
    withMatch l q (takeSideData l first.toNat count.toNat rows) (countIntakeIn s)
  else countIntakeStray (countIntakeIn s)

/-- A SIDE_CLOSE passed the Intake Port. -/
def arriveSideClose (l : Fin 16) (q : Seq) (s : State) : State := withMatch l q (takeSideClose l) (countIntakeIn s)

/-- An ITEM_CLOSE passed the Intake Port, and the Exchange Port starts what it can, but for a head that a lane reset taken next
withdraws (R95, R128; log 33). -/
def arriveItemClose (l : Fin 16) (q : Seq) (s : State) : State :=
  startBeside l (withMatch l q (takeItemClose l) (countIntakeIn s))

/-- A frame that passes the check of the Intake Port is sorted by its header and payload (R71, R72; log 18). -/
def arriveIntake (f : RawFrame) (s : State) : State :=
  match sortIntake f with
  | .stray => countIntakeStray (countIntakeIn s)
  | .itemOpen l m c n date => arriveItemOpen l f.seq m c n date s
  | .sideOpen l face res w h => arriveSideOpen l f.seq face res w h s
  | .sideData l first count rows => arriveSideData l f.seq first count rows s
  | .sideClose l => arriveSideClose l f.seq s
  | .itemClose l => arriveItemClose l f.seq s
  | .request payload => handRequest .intake payload (countIntakeIn s)

/-- A frame that passes the check of the Exchange Port is sorted by its type and length (R154; log 18). -/
def arriveExchange (f : RawFrame) (s : State) : State :=
  match sortExchange f with
  | .stray => countExchangeStray (countExchangeIn s)
  | .halt => takeHalt (countExchangeIn s)
  | .go => takeGo (countExchangeIn s)
  | .request payload => handRequest .exchange payload (countExchangeIn s)

/-- The Intake Port's check-failures counter rises (R71). -/
def failIntakeCheck (s : State) : State :=
  s.withIntakePort { s.intakePort with checkFailures := bump s.intakePort.checkFailures }

/-- The Exchange Port's check-failures counter rises (R154). -/
def failExchangeCheck (s : State) : State := modExchangePort (fun p => { p with checkFailures := bump p.checkFailures }) s

/-- The bytes of a frame reach the Intake Port, which reads the header (R183) and sorts the frame; bytes without a whole
header fail the check (R71; log 18). -/
def receiveIntake (bytes : List Byte) (s : State) : State :=
  match readFrame? bytes with
  | none => failIntakeCheck s
  | some f => arriveIntake f s

/-- The bytes of a frame reach the Exchange Port, which reads the header (R183) and sorts the frame; bytes without a whole
header fail the check (R154; log 18). -/
def receiveExchange (bytes : List Byte) (s : State) : State :=
  match readFrame? bytes with
  | none => failExchangeCheck s
  | some f => arriveExchange f s

/-! ### The meanings -/

/-- POWER_ON_RESET (R182). -/
def execPowerOnReset (s : State) : Result := .next (powerOn s)

/-- RESET_PIN_RELEASE (R188): the part begins to take frames (log 7). -/
def execResetPinRelease (s : State) : Result := .next (s.withTaking true)

/-- INTAKE_CHECK_FAILURE (R71). -/
def execIntakeCheckFailure (s : State) : Result := .next (whenTaking failIntakeCheck s)

/-- INTAKE_STRAY_FRAME (R72). -/
def execIntakeStrayFrame (bytes : List Byte) (s : State) : Result := .next (whenTaking (receiveIntake bytes) s)

/-- ITEM_OPEN (R79, R80, R96). -/
def execItemOpen (l : Fin 16) (q : Seq) (m : BitVec 16) (c n : Byte) (date : BitVec 32) (s : State) : Result :=
  .next (whenTaking (arriveItemOpen l q m c n date) s)

/-- SIDE_OPEN (R79, R81, R82). -/
def execSideOpen (l : Fin 16) (q : Seq) (face : Byte) (res w h : BitVec 16) (s : State) : Result :=
  .next (whenTaking (arriveSideOpen l q face res w h) s)

/-- SIDE_DATA (R79, R83 to R86). -/
def execSideData (l : Fin 16) (q : Seq) (first count : BitVec 16) (rows : List Byte) (s : State) : Result :=
  .next (whenTaking (arriveSideData l q first count rows) s)

/-- SIDE_CLOSE (R79, R87). -/
def execSideClose (l : Fin 16) (q : Seq) (s : State) : Result := .next (whenTaking (arriveSideClose l q) s)

/-- ITEM_CLOSE (R79, R88, R89). -/
def execItemClose (l : Fin 16) (q : Seq) (s : State) : Result := .next (whenTaking (arriveItemClose l q) s)

/-- HALT (R152). -/
def execHalt (s : State) : Result := .next (whenTaking (fun t => takeHalt (countExchangeIn t)) s)

/-- GO (R152). -/
def execGo (s : State) : Result := .next (whenTaking (fun t => takeGo (countExchangeIn t)) s)

/-- EXCHANGE_CHECK_FAILURE (R154). -/
def execExchangeCheckFailure (s : State) : Result := .next (whenTaking failExchangeCheck s)

/-- EXCHANGE_STRAY_FRAME (R154). -/
def execExchangeStrayFrame (bytes : List Byte) (s : State) : Result := .next (whenTaking (receiveExchange bytes) s)

end Sys2Proof.Machine
end

