-- ==== Sys2Proof/Machine/EngineCommands.lean ====
section
/-! DEFINITION. The commands that are events of the part's own blocks: the stall timer (R91), the arbiter and the
Reduction Units (R13, R45, R54 to R58), and the two transmit sides (R143, R145, R149 to R151, R163). A command whose
event cannot happen in a state leaves the state as it was (log 5). -/

namespace Sys2Proof.Machine

/-! ### Reduction -/

/-- The side of a binding, if its record stands. -/
def boundRecord? (b : Binding) (s : State) : Option Side := s.side? b.ref

/-- A side's results are recorded, it is DONE and its unit is FREE, in one step (R45, R58). -/
def recordSideEnd (u : Fin 4) (b : Binding) (s : State) : State := (s.setUnit u none).modSide b.ref (sideEnded b)

/-- A side end: results and DONE, the lane's paused flag, the grants of the freed unit, the item's completion, and
what the Exchange Port can start (R54, R58, R118, R156; log 12), but for a head that a lane reset taken next withdraws (R128,
R139; log 33). -/
def endSide (u : Fin 4) (b : Binding) (s : State) : State :=
  startBeside b.ref.lane (checkComplete b.ref.lane b.ref.seq (grantAll (evalPaused b.ref.lane (recordSideEnd u b s))))

/-- The unit's side ends if it is in FINISHING. -/
def finishUnit (u : Fin 4) (s : State) : State :=
  match s.unit u with
  | none => s
  | some b =>
    match b.sub with
    | .running => s
    | .waitInput => s
    | .finishing => if (boundRecord? b s).isSome then endSide u b s else s

/-! ### Transmit sides -/

/-- A MGMT_REPLY is the frame in progress on the exchange link. -/
def replyInProgress (s : State) : Bool :=
  match s.egress.inProgress with
  | none => false
  | some f => decide (f.type = .mgmtReply)

/-- The intake reply queue got a free place: the Management Unit takes what it can, and the Exchange Port starts what it can
(R143, R167). -/
def resumeRequests (s : State) : State := startExchange (takeRequests s)

/-- The intake link with its frame in progress sent whole and counted, a REFUSAL or a reply out of its queue (R163). -/
def intakeFrameGone (c : TxClass) (s : State) : State :=
  let t := countIntakeOut s
  match c with
  | .flow => t.withFlow { t.flow with inProgress := none }
  | .refusal => t.withFlow { t.flow with inProgress := none, refusals := t.flow.refusals.tail }
  | .reply => t.withFlow { t.flow with inProgress := none, replies := t.flow.replies.tail }

/-- The frame in progress on the intake link has been sent whole (R163). -/
def intakeSent (s : State) : State :=
  match s.flow.inProgress with
  | none => s
  | some t =>
    match t.cls with
    | .flow => intakeFrameGone .flow s
    | .refusal => intakeFrameGone .refusal s
    | .reply => resumeRequests (intakeFrameGone .reply s)

/-! ### Time -/

/-- The stall of a lane expires if its timer has run out, and the Exchange Port starts what it can (R91, R143). -/
def expireDue (l : Fin 16) (s : State) : State := if canExpire (s.lane l) then startBeside l (expireStall l s) else s

/-- Every stall whose timer has run out expires, one whole event after another, in ascending lane number. R144 leaves the
order of events that come together open; that the lower lane's expiry, with the start it allows, is taken before the
higher lane's is the model's choice: DESIGN CHOICE, log 26. -/
def expireAllDue (s : State) : State := allLanes.foldl (fun t l => expireDue l t) s

/-- Every running stall timer counts down by one millisecond (R90). -/
def countDown (s : State) : State := s.withLanes (s.lanes.map tickLane)

/-- One millisecond passes with no command waiting: the stalls of the timers found run out expire (R91, within the
millisecond of R188), and every timer that still runs counts down (R90; log 1). -/
def tick (s : State) : State := countDown (expireAllDue s)

/-! ### The meanings -/

/-- STALL_EXPIRY (R91, R92). -/
def execStallExpiry (l : Fin 16) (s : State) : Result := .next (expireDue l s)

/-- BINDING (R54, R56). -/
def execBinding (s : State) : Result := .next (grant s)

/-- OUTPUT_ROW_COMPLETE (R13). -/
def execOutputRowComplete (u : Fin 4) (s : State) : Result := .next (completeRow u s)

/-- SIDE_END (R45, R58). -/
def execSideEnd (u : Fin 4) (s : State) : Result := .next (finishUnit u s)

/-- RECORD_START (R143). -/
def execRecordStart (s : State) : Result := .next (startRecord s)

/-- EXCHANGE_FRAME_SENT (R145). -/
def execExchangeFrameSent (s : State) : Result := .next (innerFrameSent s)

/-- ITEM_END_SENT (R149). -/
def execItemEndSent (s : State) : Result := .next (lastFrameSent .itemEnd countEmitted s)

/-- ITEM_NOTICE_SENT (R150). -/
def execItemNoticeSent (s : State) : Result := .next (lastFrameSent .itemNotice countNotice s)

/-- EXCHANGE_REPLY_SENT (R151): the reply leaves, the Management Unit takes what it can (R167), and the port starts what it can,
unless an engine reset comes together with the frame's end (R155; log 32). -/
def execExchangeReplySent (s : State) : Result :=
  .next (if replyInProgress s then startAfterFrame (takeRequests (exchangeReplyGone s)) else s)

/-- INTAKE_FRAME_START (R163). -/
def execIntakeFrameStart (s : State) : Result := .next (startIntakeFrame s)

/-- INTAKE_FRAME_SENT (R163). -/
def execIntakeFrameSent (s : State) : Result := .next (intakeSent s)

end Sys2Proof.Machine
end

