-- ==== Sys2Proof/Machine/RequestCommands.lean ====
section
/-! DEFINITION. The commands that are management requests: the arrival of a MGMT_REQUEST whose payload is the named
request under its tag (R166 to R187; log 2). What each request does and answers stands in Machine/Management.lean. -/

namespace Sys2Proof.Machine

/-- A request arrives under its tag. -/
def receiveNamed (port : Port) (tag : BitVec 16) (r : Request) (s : State) : State :=
  receiveRequest port (r.payload tag) s

/-- MGMT_REQUEST (R166): a request of any payload arrives on a link. -/
def execMgmtRequest (port : Port) (payload : List Byte) (s : State) : Result := .next (receiveRequest port payload s)

/-- BAD_REQUEST (R168): a request arrives whose payload fails checks 1 to 3. -/
def execBadRequest (port : Port) (payload : List Byte) (s : State) : Result := .next (receiveRequest port payload s)

/-- READ_MEMBER (R171). -/
def execReadMember (port : Port) (tag : BitVec 16) (index : BitVec 16) (s : State) : Result :=
  .next (receiveNamed port tag (.readMember index) s)

/-- WRITE_MEMBER (R101). -/
def execWriteMember (port : Port) (tag : BitVec 16) (index : BitVec 16) (entry : MemberOperand) (s : State) : Result :=
  .next (receiveNamed port tag (.writeMember index entry) s)

/-- READ_PROFILE (R104). -/
def execReadProfile (port : Port) (tag : BitVec 16) (index : Byte) (s : State) : Result :=
  .next (receiveNamed port tag (.readProfile index) s)

/-- WRITE_PROFILE (R102, R103). -/
def execWriteProfile (port : Port) (tag : BitVec 16) (index : Byte) (record : ProfileOperand) (s : State) : Result :=
  .next (receiveNamed port tag (.writeProfile index record) s)

/-- READ_DISPOSITION (R115). -/
def execReadDisposition (port : Port) (tag : BitVec 16) (index : Byte) (s : State) : Result :=
  .next (receiveNamed port tag (.readDisposition index) s)

/-- WRITE_DISPOSITION (R115). -/
def execWriteDisposition (port : Port) (tag : BitVec 16) (index : Byte) (descriptor : DescriptorOperand) (s : State) : Result :=
  .next (receiveNamed port tag (.writeDisposition index descriptor) s)

/-- READ_LANE_FIELD (R75, R172). -/
def execReadLaneField (port : Port) (tag : BitVec 16) (lane field : Byte) (s : State) : Result :=
  .next (receiveNamed port tag (.readLaneField lane field) s)

/-- WRITE_LANE_FIELD (R172). -/
def execWriteLaneField (port : Port) (tag : BitVec 16) (lane field : Byte) (value : BitVec 32) (s : State) : Result :=
  .next (receiveNamed port tag (.writeLaneField lane field value) s)

/-- WRITE_HELD (R119). -/
def execWriteHeld (port : Port) (tag : BitVec 16) (lane : Byte) (value : BitVec 32) (s : State) : Result :=
  .next (receiveNamed port tag (.writeLaneField lane fieldHeld value) s)

/-- WRITE_ENABLED (R75). -/
def execWriteEnabled (port : Port) (tag : BitVec 16) (lane : Byte) (value : BitVec 32) (s : State) : Result :=
  .next (receiveNamed port tag (.writeLaneField lane fieldEnabled value) s)

/-- WRITE_XOFF_MARK (R158). -/
def execWriteXoffMark (port : Port) (tag : BitVec 16) (lane : Byte) (value : BitVec 32) (s : State) : Result :=
  .next (receiveNamed port tag (.writeLaneField lane fieldXoff value) s)

/-- WRITE_XON_MARK (R158). -/
def execWriteXonMark (port : Port) (tag : BitVec 16) (lane : Byte) (value : BitVec 32) (s : State) : Result :=
  .next (receiveNamed port tag (.writeLaneField lane fieldXon value) s)

/-- WRITE_STALL_MS (R90). -/
def execWriteStallMs (port : Port) (tag : BitVec 16) (lane : Byte) (value : BitVec 32) (s : State) : Result :=
  .next (receiveNamed port tag (.writeLaneField lane fieldStallMs value) s)

/-- READ_SETTING (R173). -/
def execReadSetting (port : Port) (tag : BitVec 16) (setting : Byte) (s : State) : Result :=
  .next (receiveNamed port tag (.readSetting setting) s)

/-- WRITE_DISPOSITION_EXTENT (R116). -/
def execWriteDispositionExtent (port : Port) (tag : BitVec 16) (value : BitVec 16) (s : State) : Result :=
  .next (receiveNamed port tag (.writeSetting settingExtent value) s)

/-- WRITE_PAGE_RESERVE (R161). -/
def execWritePageReserve (port : Port) (tag : BitVec 16) (value : BitVec 16) (s : State) : Result :=
  .next (receiveNamed port tag (.writeSetting settingReserve value) s)

/-- WRITE_RESUME_MARGIN (R161). -/
def execWriteResumeMargin (port : Port) (tag : BitVec 16) (value : BitVec 16) (s : State) : Result :=
  .next (receiveNamed port tag (.writeSetting settingMargin value) s)

/-- READ_COUNTERS (R174). -/
def execReadCounters (port : Port) (tag : BitVec 16) (group lane clear : Byte) (s : State) : Result :=
  .next (receiveNamed port tag (.readCounters group lane clear) s)

/-- READ_IDENTITY (R175). -/
def execReadIdentity (port : Port) (tag : BitVec 16) (s : State) : Result :=
  .next (receiveNamed port tag (.readIdentity) s)

/-- SET_SERVICE_STATE (R178, R179). -/
def execSetServiceState (port : Port) (tag : BitVec 16) (target : Byte) (s : State) : Result :=
  .next (receiveNamed port tag (.setServiceState target) s)

/-- RESET_LANE (R180). -/
def execResetLane (port : Port) (tag : BitVec 16) (lane : Byte) (s : State) : Result :=
  .next (receiveNamed port tag (.resetLane lane) s)

/-- RESET_ENGINE (R181). -/
def execResetEngine (port : Port) (tag : BitVec 16) (s : State) : Result :=
  .next (receiveNamed port tag (.resetEngine) s)

/-- COPY_PROFILE (R176, R177). -/
def execCopyProfile (port : Port) (tag : BitVec 16) (source destination : Byte) (s : State) : Result :=
  .next (receiveNamed port tag (.copyProfile source destination) s)

/-- MOVE_CLASS (R176, R177). -/
def execMoveClass (port : Port) (tag : BitVec 16) (member : BitVec 16) (cls profile : Byte) (s : State) : Result :=
  .next (receiveNamed port tag (.moveClass member cls profile) s)

/-- QUIESCE_LANE (R176, R177). -/
def execQuiesceLane (port : Port) (tag : BitVec 16) (lane : Byte) (s : State) : Result :=
  .next (receiveNamed port tag (.quiesceLane lane) s)

end Sys2Proof.Machine
end

