-- ==== Sys2Proof/Machine/Dispatch.lean ====
section
/-! DEFINITION. The dispatch of a command to its meaning: one arm for each row of spec/opcode_table.json. -/

namespace Sys2Proof.Machine

def exec (i : Instr) (s : State) : Host.Outcome State Fault Refusal :=
  match i with
  | .powerOnReset => Sys2Proof.Machine.execPowerOnReset s
  | .intakeCheckFailure => Sys2Proof.Machine.execIntakeCheckFailure s
  | .intakeStrayFrame bytes => Sys2Proof.Machine.execIntakeStrayFrame bytes s
  | .itemOpen lane seq member cls sides date => Sys2Proof.Machine.execItemOpen lane seq member cls sides date s
  | .sideOpen lane seq face resolution width height => Sys2Proof.Machine.execSideOpen lane seq face resolution width height s
  | .sideData lane seq firstRow rowCount rows => Sys2Proof.Machine.execSideData lane seq firstRow rowCount rows s
  | .sideClose lane seq => Sys2Proof.Machine.execSideClose lane seq s
  | .itemClose lane seq => Sys2Proof.Machine.execItemClose lane seq s
  | .mgmtRequest port payload => Sys2Proof.Machine.execMgmtRequest port payload s
  | .halt => Sys2Proof.Machine.execHalt s
  | .go => Sys2Proof.Machine.execGo s
  | .exchangeCheckFailure => Sys2Proof.Machine.execExchangeCheckFailure s
  | .exchangeStrayFrame bytes => Sys2Proof.Machine.execExchangeStrayFrame bytes s
  | .stallExpiry lane => Sys2Proof.Machine.execStallExpiry lane s
  | .binding => Sys2Proof.Machine.execBinding s
  | .outputRowComplete ru => Sys2Proof.Machine.execOutputRowComplete ru s
  | .sideEnd ru => Sys2Proof.Machine.execSideEnd ru s
  | .recordStart => Sys2Proof.Machine.execRecordStart s
  | .exchangeFrameSent => Sys2Proof.Machine.execExchangeFrameSent s
  | .itemEndSent => Sys2Proof.Machine.execItemEndSent s
  | .itemNoticeSent => Sys2Proof.Machine.execItemNoticeSent s
  | .exchangeReplySent => Sys2Proof.Machine.execExchangeReplySent s
  | .intakeFrameStart => Sys2Proof.Machine.execIntakeFrameStart s
  | .intakeFrameSent => Sys2Proof.Machine.execIntakeFrameSent s
  | .readMember port tag index => Sys2Proof.Machine.execReadMember port tag index s
  | .writeMember port tag index entry => Sys2Proof.Machine.execWriteMember port tag index entry s
  | .readProfile port tag index => Sys2Proof.Machine.execReadProfile port tag index s
  | .writeProfile port tag index record => Sys2Proof.Machine.execWriteProfile port tag index record s
  | .readDisposition port tag index => Sys2Proof.Machine.execReadDisposition port tag index s
  | .writeDisposition port tag index descriptor => Sys2Proof.Machine.execWriteDisposition port tag index descriptor s
  | .readLaneField port tag lane field => Sys2Proof.Machine.execReadLaneField port tag lane field s
  | .writeLaneField port tag lane field value => Sys2Proof.Machine.execWriteLaneField port tag lane field value s
  | .writeHeld port tag lane value => Sys2Proof.Machine.execWriteHeld port tag lane value s
  | .writeEnabled port tag lane value => Sys2Proof.Machine.execWriteEnabled port tag lane value s
  | .writeXoffMark port tag lane value => Sys2Proof.Machine.execWriteXoffMark port tag lane value s
  | .writeXonMark port tag lane value => Sys2Proof.Machine.execWriteXonMark port tag lane value s
  | .writeStallMs port tag lane value => Sys2Proof.Machine.execWriteStallMs port tag lane value s
  | .readSetting port tag setting => Sys2Proof.Machine.execReadSetting port tag setting s
  | .writeDispositionExtent port tag value => Sys2Proof.Machine.execWriteDispositionExtent port tag value s
  | .writePageReserve port tag value => Sys2Proof.Machine.execWritePageReserve port tag value s
  | .writeResumeMargin port tag value => Sys2Proof.Machine.execWriteResumeMargin port tag value s
  | .readCounters port tag group lane clear => Sys2Proof.Machine.execReadCounters port tag group lane clear s
  | .readIdentity port tag => Sys2Proof.Machine.execReadIdentity port tag s
  | .setServiceState port tag target => Sys2Proof.Machine.execSetServiceState port tag target s
  | .resetLane port tag lane => Sys2Proof.Machine.execResetLane port tag lane s
  | .resetEngine port tag => Sys2Proof.Machine.execResetEngine port tag s
  | .copyProfile port tag source destination => Sys2Proof.Machine.execCopyProfile port tag source destination s
  | .moveClass port tag member cls profile => Sys2Proof.Machine.execMoveClass port tag member cls profile s
  | .quiesceLane port tag lane => Sys2Proof.Machine.execQuiesceLane port tag lane s
  | .badRequest port payload => Sys2Proof.Machine.execBadRequest port payload s
  | .resetPinRelease => Sys2Proof.Machine.execResetPinRelease s

end Sys2Proof.Machine
end

