-- ==== Sys2Proof/WellFormed.lean ====
section
/-! DEFINITION. Which commands are well formed: the operands are ones that the row's event can carry. `exec` is total, so
a command that is not well formed still has a meaning; these checks say which row of spec/opcode_table.json an event
belongs to. -/

namespace Sys2Proof

/-- A payload that a frame can carry (R72, R183). -/
def payloadFits (payload : List Byte) : Bool := decide (payload.length ≤ Config.maxPayload)

/-- A frame that the Intake Port discards as stray (R72). -/
def isIntakeStray (f : Machine.RawFrame) : Bool := decide (Machine.sortIntake f = .stray)

/-- A frame that the Exchange Port discards as stray (R154). -/
def isExchangeStray (f : Machine.RawFrame) : Bool := decide (Machine.sortExchange f = .stray)

/-- The bytes hold a frame (R183) of the given kind, with a payload that a frame can carry. -/
def holdsFrame (kind : Machine.RawFrame → Bool) (bytes : List Byte) : Bool :=
  match Machine.readFrame? bytes with
  | none => false
  | some f => payloadFits f.payload && kind f

/-- A payload that fails checks 1 to 3 of R168. -/
def isBadPayload (payload : List Byte) : Bool :=
  match Machine.parseRequest payload with
  | .bad _ => true
  | .request _ _ => false

/-- A lane field with a write row of its own: 5 to 9 (R187). -/
def hasWriteRow (field : Byte) : Bool := decide (5 ≤ field.toNat ∧ field.toNat ≤ 9)

/-- The command is well formed. -/
def WellFormed : Instr → Bool
  | .powerOnReset => true
  | .intakeCheckFailure => true
  | .intakeStrayFrame bytes => holdsFrame isIntakeStray bytes
  | .itemOpen _ _ _ _ _ _ => true
  | .sideOpen _ _ _ _ _ _ => true
  | .sideData _ _ _ _ rows => decide (rows.length + 4 ≤ Config.maxPayload)
  | .sideClose _ _ => true
  | .itemClose _ _ => true
  | .mgmtRequest _ payload => payloadFits payload
  | .halt => true
  | .go => true
  | .exchangeCheckFailure => true
  | .exchangeStrayFrame bytes => holdsFrame isExchangeStray bytes
  | .stallExpiry _ => true
  | .binding => true
  | .outputRowComplete _ => true
  | .sideEnd _ => true
  | .recordStart => true
  | .exchangeFrameSent => true
  | .itemEndSent => true
  | .itemNoticeSent => true
  | .exchangeReplySent => true
  | .intakeFrameStart => true
  | .intakeFrameSent => true
  | .readMember _ _ _ => true
  | .writeMember _ _ _ _ => true
  | .readProfile _ _ _ => true
  | .writeProfile _ _ _ _ => true
  | .readDisposition _ _ _ => true
  | .writeDisposition _ _ _ _ => true
  | .readLaneField _ _ _ _ => true
  | .writeLaneField _ _ _ field _ => !hasWriteRow field
  | .writeHeld _ _ _ _ => true
  | .writeEnabled _ _ _ _ => true
  | .writeXoffMark _ _ _ _ => true
  | .writeXonMark _ _ _ _ => true
  | .writeStallMs _ _ _ _ => true
  | .readSetting _ _ _ => true
  | .writeDispositionExtent _ _ _ => true
  | .writePageReserve _ _ _ => true
  | .writeResumeMargin _ _ _ => true
  | .readCounters _ _ _ _ _ => true
  | .readIdentity _ _ => true
  | .setServiceState _ _ _ => true
  | .resetLane _ _ _ => true
  | .resetEngine _ _ => true
  | .copyProfile _ _ _ _ => true
  | .moveClass _ _ _ _ _ => true
  | .quiesceLane _ _ _ => true
  | .badRequest _ payload => payloadFits payload && isBadPayload payload
  | .resetPinRelease => true

end Sys2Proof
end

