-- ==== Sys2Proof/Safety.lean ====
section
/-! DEFINITION. What counts as a lawful and settled state of the part, in the terms the statements use: the laws the spec
gives of whole states, the forms of an answered request, and the reader of a coded body. -/

namespace Sys2Proof.Machine

/-! ### Events that wait (R54, R143, R167) -/

/-- No grant is left to make: every unit is BOUND, or both wait lists are empty (R54). -/
def ArbiterSettled (s : State) : Prop :=
  (∀ u : Fin 4, s.unit u ≠ none) ∨ (s.reduction.openWait = [] ∧ s.reduction.reworkWait = [])

/-- The record in EMITTING stands in its list, and nothing is left to start on the exchange link: a frame is in progress,
or the port is halted, or there is no emission, no reply and no READY head (R143, R145, R151, R152). -/
def ExchangeSettled (s : State) : Prop :=
  (∀ e, s.egress.emission = some e → (s.item? e.lane e.seq).isSome = true)
    ∧ (s.egress.inProgress.isSome = true ∨ s.egress.halted = true
      ∨ (s.egress.emission = none ∧ s.egress.replies = [] ∧ ∀ l, headReady s l = false))

/-- Nothing is left to start on the exchange link, or what is left waits for a reset that comes together with the event just taken
and is taken next (R128, R139, R153, R155; logs 32 and 33). -/
def StartsMade (s : State) : Prop :=
  ExchangeSettled s
    ∨ ((∀ e, s.egress.emission = some e → (s.item? e.lane e.seq).isSome = true)
      ∧ (engineResetNext s = true ∨ ∃ l, laneResetNext l s = true))

/-- From one state to another no record of a lane has been started. -/
def StartsNoneOf (l : Fin 16) (s t : State) : Prop :=
  ∀ i ∈ (t.lane l).list, i.state = .emitting → ∃ j ∈ (s.lane l).list, j.seq = i.seq ∧ j.state = .emitting

/-- A request waits only while the reply queue of the head's port is full (R167). -/
def RequestsSettled (s : State) : Prop := ∀ e rest, s.mgmt.requests = e :: rest → replyRoom e.port s = false

/-! ### Laws of whole states -/

/-- R61: free pages and pages held equal 2048. -/
def PagesConserved (s : State) : Prop := s.freePages + s.pagesHeld = 2048

/-- R76: a lane list holds at most 8 records, no two of one sequence. -/
def ListsLawful (s : State) : Prop := ∀ l, (s.lane l).list.length ≤ 8 ∧ ((s.lane l).list.map Item.seq).Nodup

/-- R74: IDLE has no sequence, SIDE alone has an active side, and the timer runs in OPEN and SIDE only. -/
def LaneLawful (c : Lane) : Prop :=
  (c.state = .idle → c.seq = 0) ∧ (c.active.isSome = true ↔ c.state = .side)
    ∧ (c.stallRunning = true → c.state = .opened ∨ c.state = .side)
    ∧ (c.stallRunning = false → c.stallRemaining = 0)

/-- The ranges of the profile table of chapter 6, which R103 leaves in every stored record. -/
def ProfileInRange (p : Profile) : Prop :=
  p.outRes ∈ [100, 120, 150, 200, 240] ∧ p.initialBackground ≤ 255 ∧ (16 ≤ p.tq ∧ p.tq ≤ 63) ∧ p.darkLimit ≤ 254
    ∧ (p.darkLimit < p.lightLimit ∧ p.lightLimit ≤ 255) ∧ (1 ≤ p.attackShift ∧ p.attackShift ≤ 4)
    ∧ (3 ≤ p.decayShift ∧ p.decayShift ≤ 8) ∧ (p.widthMin ≤ p.widthMax ∧ p.widthMax ≤ 4095)
    ∧ (p.heightMin ≤ p.heightMax ∧ p.heightMax ≤ 4095) ∧ (p.blackMin ≤ p.blackMax ∧ p.blackMax ≤ 1000)
    ∧ (p.brightMin ≤ p.brightMax ∧ p.brightMax ≤ 255) ∧ (500 ≤ p.streakPermille ∧ p.streakPermille ≤ 1000)
    ∧ (1 ≤ p.streakLimit ∧ p.streakLimit ≤ 255) ∧ (1024 ≤ p.budget ∧ p.budget ≤ 262144) ∧ p.pairTolerance ≤ 255

/-- The ranges of the lane fields and the settings (R75, R158, R173), and of every profile record. -/
def SettingsInRange (s : State) : Prop :=
  (∀ l, 32 ≤ (s.lane l).xoff ∧ (s.lane l).xoff ≤ 1024 ∧ (s.lane l).xon + 16 ≤ (s.lane l).xoff
      ∧ (s.lane l).stallMs ≤ 60000)
    ∧ s.disposition.extent ≤ 16 ∧ s.mgmt.pageReserve ≤ 1024
    ∧ (16 ≤ s.mgmt.resumeMargin ∧ s.mgmt.resumeMargin ≤ 512)
    ∧ ∀ k : Fin 64, ProfileInRange s.admission.profiles[k.val]

/-- R110: side conditions stand in the sets of sides, item conditions in the sets of items. -/
def SetsLawful (s : State) : Prop :=
  ∀ l, ∀ i ∈ (s.lane l).list, ∀ n : Condition,
    (n.val < 13 → holds i.raised n = false ∧ holds i.potent n = false)
      ∧ (13 ≤ n.val → ∀ x, (i.front = some x ∨ i.back = some x) → holds x.raised n = false ∧ holds x.potent n = false)

/-- R132: no side has been reworked more than twice. -/
def ReworksBounded (s : State) : Prop :=
  ∀ l, ∀ i ∈ (s.lane l).list, ∀ x, (i.front = some x ∨ i.back = some x) → x.reworkCount ≤ 2

/-- The queues stay within their capacities (R151, R163, R166), and no two flow frames of one scope wait, so that the flow
queue holds at most 17 (R162). -/
def QueuesBounded (s : State) : Prop :=
  s.mgmt.requests.length ≤ 8 ∧ s.flow.replies.length ≤ 8 ∧ s.egress.replies.length ≤ 8 ∧ s.flow.refusals.length ≤ 32
    ∧ s.flow.flowQueue.Pairwise (fun a b => sameScope a b = false) ∧ s.flow.flowQueue.length ≤ 17

/-- R160: the global stop is set below the page reserve and clear at or above the reserve plus the resume margin. -/
def StopSettled (s : State) : Prop :=
  (s.freePages < s.mgmt.pageReserve → s.flow.globalStop = true)
    ∧ (s.mgmt.pageReserve + s.mgmt.resumeMargin ≤ s.freePages → s.flow.globalStop = false)

/-! ### Power-on values -/

/-- Every block is at the power-on values that the reset rules of the chapters give (R94, R109, R128, R141, R165, R182
and the tables of chapters 4 and 11). -/
def AtPowerOn (s : State) : Prop :=
  (∀ l, s.lane l =
      { state := .idle, seq := 0, list := [], active := none, paused := false, held := false, enabled := true,
        xoff := 256, xon := 128, stallMs := 2000, stallRunning := false, stallRemaining := 0, lastTimedOut := none,
        counters := ⟨0, 0, 0, 0, 0, 0, 0, 0, 0, 0⟩ })
    ∧ (∀ k : Fin 1024, s.admission.members[k.val] =
      { present := false, status := .suspended, defaultProfile := 0, classMap := Vector.replicate 8 none })
    ∧ (∀ k : Fin 64, s.admission.profiles[k.val] =
      { valid := false, outRes := 100, initialBackground := 0, tq := 16, darkLimit := 0, lightLimit := 1,
        attackShift := 1, decayShift := 3, widthMin := 0, widthMax := 0, heightMin := 0, heightMax := 0,
        blackMin := 0, blackMax := 0, brightMin := 0, brightMax := 0, streakPermille := 500, streakLimit := 1,
        budget := 1024, pairTolerance := 0, mask := 0 })
    ∧ (∀ k : Fin 16, s.disposition.descriptors[k.val] = { present := false, cls := .mark, alternate := 0, code := 0 })
    ∧ s.disposition.extent = 0 ∧ s.disposition.dispatchFaults = 0 ∧ s.disposition.reworkExhausted = 0
    ∧ s.freePages = 2048 ∧ (∀ u, s.unit u = none) ∧ s.reduction.openWait = [] ∧ s.reduction.reworkWait = []
    ∧ s.intakePort = ⟨0, 0, 0, 0, 0⟩
    ∧ s.egress =
      { roundRobin := 0, emission := none, inProgress := none, halted := false, replies := [],
        port := ⟨0, 0, 0, 0, 0⟩ }
    ∧ s.flow =
      { globalStop := false, globalStops := 0, flowQueue := [], refusals := [], replies := [], inProgress := none }
    ∧ s.mgmt = { requests := [], service := .standby, pageReserve := 128, resumeMargin := 64, overflow := 0 }

/-! ### Commands that are received frames -/

/-- The command is the reception of a frame on one of the links (R188). -/
def isReceivedFrame : Instr → Bool
  | .powerOnReset => false
  | .intakeCheckFailure => true
  | .intakeStrayFrame _ => true
  | .itemOpen _ _ _ _ _ _ => true
  | .sideOpen _ _ _ _ _ _ => true
  | .sideData _ _ _ _ _ => true
  | .sideClose _ _ => true
  | .itemClose _ _ => true
  | .mgmtRequest _ _ => true
  | .halt => true
  | .go => true
  | .exchangeCheckFailure => true
  | .exchangeStrayFrame _ => true
  | .stallExpiry _ => false
  | .binding => false
  | .outputRowComplete _ => false
  | .sideEnd _ => false
  | .recordStart => false
  | .exchangeFrameSent => false
  | .itemEndSent => false
  | .itemNoticeSent => false
  | .exchangeReplySent => false
  | .intakeFrameStart => false
  | .intakeFrameSent => false
  | .readMember _ _ _ => true
  | .writeMember _ _ _ _ => true
  | .readProfile _ _ _ => true
  | .writeProfile _ _ _ _ => true
  | .readDisposition _ _ _ => true
  | .writeDisposition _ _ _ _ => true
  | .readLaneField _ _ _ _ => true
  | .writeLaneField _ _ _ _ _ => true
  | .writeHeld _ _ _ _ => true
  | .writeEnabled _ _ _ _ => true
  | .writeXoffMark _ _ _ _ => true
  | .writeXonMark _ _ _ _ => true
  | .writeStallMs _ _ _ _ => true
  | .readSetting _ _ _ => true
  | .writeDispositionExtent _ _ _ => true
  | .writePageReserve _ _ _ => true
  | .writeResumeMargin _ _ _ => true
  | .readCounters _ _ _ _ _ => true
  | .readIdentity _ _ => true
  | .setServiceState _ _ _ => true
  | .resetLane _ _ _ => true
  | .resetEngine _ _ => true
  | .copyProfile _ _ _ _ => true
  | .moveClass _ _ _ _ _ => true
  | .quiesceLane _ _ _ => true
  | .badRequest _ _ => true
  | .resetPinRelease => false

/-! ### Answered requests (R166, R167, R170) -/

/-- The part takes frames, no request waits, and the reply queue of the port has a free place: a request arriving now is
taken in its own event, which R167 does not say in these words: DEDUCED, log 2. -/
def ReadyFor (p : Port) (s : State) : Prop := s.taking = true ∧ s.mgmt.requests = [] ∧ (repliesOf p s).length < 8

/-- The state with one reply queued for a link: the tag, the status byte and what follows it (R183), after which the
Exchange Port starts what it can (R143). -/
def replied (p : Port) (tag : BitVec 16) (status : Byte) (rest : List Byte) (s : State) : State :=
  startExchange (queueReply p (be16 tag ++ status :: rest) s)

/-! ### The context of a lane that flow control and the records do not touch -/

/-- The lane context of R74 without its list, its paused flag and its counters. -/
structure LaneContext where
  state : LaneState
  seq : Seq
  active : Option Face
  held : Bool
  enabled : Bool
  xoff : Nat
  xon : Nat
  stallMs : Nat
  stallRunning : Bool
  stallRemaining : Nat
  lastTimedOut : Option Seq
  deriving DecidableEq, Repr

/-- That part of a lane's context. -/
def Lane.context (c : Lane) : LaneContext :=
  ⟨c.state, c.seq, c.active, c.held, c.enabled, c.xoff, c.xon, c.stallMs, c.stallRunning, c.stallRemaining,
    c.lastTimedOut⟩

/-- The condition is potent on the item or on one of its sides, its sets formed (R112). -/
def isPotent (i : Item) (n : Condition) : Bool := sidePotent n i.front || sidePotent n i.back || holds i.potent n

/-! ### The reader of a coded body (R49, R186) -/

/-- The coded body of a list of rows, after a previous row (R34, R37). -/
def codeRows : Option (List Bool) → List (List Bool) → List Byte
  | _, [] => []
  | prev, r :: rs => codeRow prev r ++ codeRows (some r) rs

/-- One run length and the bytes after it, in the one-byte or the two-byte form (R36). -/
def readRun : List Byte → Option (Nat × List Byte)
  | [] => none
  | b :: rest =>
    if b.toNat < 128 then some (b.toNat, rest)
    else
      match rest with
      | [] => none
      | c :: more => some ((b.toNat - 128) * 256 + c.toNat, more)

/-- Runs read one after another, alternating from a colour, until they sum to the width; `fuel` bounds their number. -/
def readRuns : Nat → Bool → Nat → List Byte → Option (List Bool × List Byte)
  | _, _, 0, bytes => some ([], bytes)
  | 0, _, _ + 1, _ => none
  | fuel + 1, colour, left + 1, bytes =>
    match readRun bytes with
    | none => none
    | some (n, more) =>
      if left + 1 < n then none
      else (readRuns fuel (!colour) (left + 1 - n) more).map fun r => (List.replicate n colour ++ r.1, r.2)

/-- One row, rebuilt from its coded row and the row before it. -/
def readRow (width : Nat) (prev : Option (List Bool)) : List Byte → Option (List Bool × List Byte)
  | [] => none
  | h :: rest =>
    if h = headerWhite then some (List.replicate width false, rest)
    else if h = headerRepeat then prev.map fun r => (r, rest)
    else if h = headerRuns then readRuns (width + 1) false width rest
    else none

/-- A number of rows, rebuilt from a body. -/
def readRows (width : Nat) : Nat → Option (List Bool) → List Byte → Option (List (List Bool))
  | 0, _, [] => some []
  | 0, _, _ :: _ => none
  | n + 1, prev, bytes =>
    match readRow width prev bytes with
    | none => none
    | some (r, more) => (readRows width n (some r) more).map (r :: ·)

end Sys2Proof.Machine
end

