-- ==== Sys2Proof/Certificates/Slice0/Obligations.lean ====
section
/-! DEFINITION. The statements for the provers, from the numbered rules of spec/. Each docstring says which rules a
statement formalises; where a choice of the model enters, it names the log entry of notes/assumptions. -/

open Sys2Proof Sys2Proof.Machine

/-! ### The step, time and the reset pin -/

/-- The model's queue of commands (log 1): one step runs the command at its front with the rest of the queue. -/
def Obligations.StepRunsTheFrontCommand : Prop :=
  ∀ (c : Instr) (rest : List Instr) (s : State), s.pending = c :: rest → step s = exec c (s.withPending rest)

/-- The model's idle step (log 1): with no command waiting, one millisecond passes for every running timer (R90). A timer
found run out expires in that millisecond (R91, R188), the others counting down; several are taken in ascending lane
number (log 26). -/
def Obligations.IdleMillisecondCountsTimersDown : Prop :=
  (∀ s : State, s.pending = [] → (∀ l, (s.lane l).stallRunning = true → 1 ≤ (s.lane l).stallRemaining) →
    ∃ t, step s = .next t ∧ t = s.withLanes t.lanes ∧
      ∀ l, t.lane l =
        if (s.lane l).stallRunning = true then
          { s.lane l with stallRemaining := (s.lane l).stallRemaining - 1 }
        else s.lane l)
    ∧ ∀ (s : State) (l : Fin 16), s.pending = [] → (s.lane l).stallRunning = true → (s.lane l).stallRemaining = 0 →
      ((s.lane l).state = .opened ∨ (s.lane l).state = .side) →
      (∀ k, k ≠ l → (s.lane k).stallRunning = true → 1 ≤ (s.lane k).stallRemaining) →
      ∃ u, exec (.stallExpiry l) s = .next u
        ∧ step s = .next (u.withLanes (u.lanes.map fun c =>
            if c.stallRunning = true then { c with stallRemaining := c.stallRemaining - 1 } else c))

/-- POWER_ON_RESET: every block returns to its power-on values (R182 and the reset rule of each chapter); the part takes
no frame until the pin is released (R188, log 7); the model's queue of commands stays. -/
def Obligations.PowerOnResetRestoresEveryBlock : Prop :=
  ∀ s : State, ∃ t, exec .powerOnReset s = .next t ∧ AtPowerOn t ∧ t.taking = false ∧ t.pending = s.pending

/-- The state after reset holds the power-on values of every block; that it takes frames is log 7. The state after reset
meets every invariant stated here. -/
def Obligations.ResetStateMeetsItsValuesAndLaws : Prop :=
  (AtPowerOn State.reset ∧ State.reset.taking = true ∧ State.reset.pending = [])
    ∧ (PagesConserved State.reset ∧ ArbiterSettled State.reset ∧ ExchangeSettled State.reset ∧ RequestsSettled State.reset
    ∧ QueuesBounded State.reset ∧ ListsLawful State.reset ∧ (∀ l, LaneLawful (State.reset.lane l))
    ∧ SettingsInRange State.reset ∧ StopSettled State.reset ∧ SetsLawful State.reset ∧ ReworksBounded State.reset)

/-- RESET_PIN_RELEASE makes the part take frames, and a frame received before is discarded and not counted (R188; the
moment is log 7). -/
def Obligations.FramesAreTakenAfterPinRelease : Prop :=
  (∀ s : State, exec .resetPinRelease s = .next { s with taking := true })
    ∧ ∀ (s : State) (c : Instr), s.taking = false → isReceivedFrame c = true → exec c s = .next s

/-! ### Counters and ports -/

/-- INTAKE_CHECK_FAILURE and EXCHANGE_CHECK_FAILURE raise their port's check-failures counter and change nothing else
(R71, R154). INTAKE_STRAY_FRAME and EXCHANGE_STRAY_FRAME raise frames in and stray of their port and change nothing
else (R72, R154), the frame read from the bytes received (R183, see `Obligations.ItemFramePayloadsAreRead`). (That bytes
without a whole header fail the check is the model's choice, log 18.) -/
def Obligations.PortsCountTheFramesTheyDiscard : Prop :=
  (∀ s : State, s.taking = true →
    exec .intakeCheckFailure s =
        .next { s with intakePort := { s.intakePort with checkFailures := bump s.intakePort.checkFailures } }
      ∧ exec .exchangeCheckFailure s =
        .next { s with
          egress := { s.egress with
            port := { s.egress.port with checkFailures := bump s.egress.port.checkFailures } } })
    ∧ (∀ (s : State) (bytes : List Byte) (f : RawFrame), s.taking = true → readFrame? bytes = some f →
    (isIntakeStray f = true →
      exec (.intakeStrayFrame bytes) s =
        .next { s with
          intakePort := { s.intakePort with
            framesIn := bump s.intakePort.framesIn, stray := bump s.intakePort.stray } })
      ∧ (isExchangeStray f = true →
        exec (.exchangeStrayFrame bytes) s =
          .next { s with
            egress := { s.egress with
              port := { s.egress.port with
                framesIn := bump s.egress.port.framesIn, stray := bump s.egress.port.stray } } }))
    ∧ (∀ (s : State) (bytes : List Byte), readFrame? bytes = none →
      exec (.intakeStrayFrame bytes) s = exec .intakeCheckFailure s
        ∧ exec (.exchangeStrayFrame bytes) s = exec .exchangeCheckFailure s)

/-- The frames each port discards as stray: the tables of R72 and R154 with the codes and lengths of R183. -/
def Obligations.StrayFramesAreThoseOfTheTables : Prop :=
  ∀ f : RawFrame,
    (isIntakeStray f = true ↔
      f.payload.length ≠ f.length.toNat ∨ 16384 < f.length.toNat
        ∨ f.type ∉ [0x10#8, 0x11#8, 0x12#8, 0x13#8, 0x14#8, 0x20#8]
        ∨ (f.type ∈ [0x10#8, 0x11#8, 0x12#8, 0x13#8, 0x14#8] ∧ 15 < f.lane.toNat)
        ∨ (f.type = 0x10#8 ∧ f.length.toNat ≠ 8) ∨ (f.type = 0x11#8 ∧ f.length.toNat ≠ 7)
        ∨ (f.type = 0x12#8 ∧ f.length.toNat < 4) ∨ (f.type = 0x13#8 ∧ f.length.toNat ≠ 0)
        ∨ (f.type = 0x14#8 ∧ f.length.toNat ≠ 0))
      ∧ (isExchangeStray f = true ↔
        f.payload.length ≠ f.length.toNat ∨ 16384 < f.length.toNat ∨ f.type ∉ [0x20#8, 0x40#8, 0x41#8]
          ∨ (f.type ∈ [0x40#8, 0x41#8] ∧ f.length.toNat ≠ 0))

/-- The fields of item frames stand where R184 lays them out, most significant byte first (R183). The header of a received
frame is read from its first eight bytes: type, lane, payload length and item sequence, most significant byte first (R183).
A frame's bytes received at a port act as the frame they hold does: an item frame, MGMT_REQUEST, HALT or GO (log 18). -/
def Obligations.ItemFramePayloadsAreRead : Prop :=
  (∀ (l : Fin 16) (seq : Seq),
    (∀ (m : BitVec 16) (c n : Byte) (d : BitVec 32),
      sortIntake ⟨0x10, BitVec.ofNat 8 l.val, 8, seq, be16 m ++ [c, n] ++ be32 d⟩ = .itemOpen l m c n d)
      ∧ (∀ (f : Byte) (r w h : BitVec 16),
        sortIntake ⟨0x11, BitVec.ofNat 8 l.val, 7, seq, f :: be16 r ++ be16 w ++ be16 h⟩ = .sideOpen l f r w h)
      ∧ (∀ (a b : BitVec 16) (rows : List Byte), rows.length ≤ 16380 →
        sortIntake ⟨0x12, BitVec.ofNat 8 l.val, BitVec.ofNat 16 (rows.length + 4), seq, be16 a ++ be16 b ++ rows⟩ =
          .sideData l a b rows)
      ∧ sortIntake ⟨0x13, BitVec.ofNat 8 l.val, 0, seq, []⟩ = .sideClose l
      ∧ sortIntake ⟨0x14, BitVec.ofNat 8 l.val, 0, seq, []⟩ = .itemClose l)
    ∧ (∀ (type lane n₁ n₀ q₃ q₂ q₁ q₀ : Byte) (payload : List Byte), ∃ f,
      readFrame? (type :: lane :: n₁ :: n₀ :: q₃ :: q₂ :: q₁ :: q₀ :: payload) = some f
        ∧ f.type = type ∧ f.lane = lane ∧ f.payload = payload
        ∧ f.length.toNat = 256 * n₁.toNat + n₀.toNat
        ∧ f.seq.toNat = 16777216 * q₃.toNat + 65536 * q₂.toNat + 256 * q₁.toNat + q₀.toNat)
    ∧ (∀ bytes : List Byte, readFrame? bytes = none ↔ bytes.length < 8)
    ∧ (∀ f : RawFrame, readFrame? f.bytes = some f ∧ f.bytes.length = 8 + f.payload.length)
    ∧ (∀ (s : State) (bytes : List Byte) (f : RawFrame), readFrame? bytes = some f →
      (∀ l m c n d, sortIntake f = .itemOpen l m c n d →
        exec (.intakeStrayFrame bytes) s = exec (.itemOpen l f.seq m c n d) s)
      ∧ (∀ l a r w h, sortIntake f = .sideOpen l a r w h →
        exec (.intakeStrayFrame bytes) s = exec (.sideOpen l f.seq a r w h) s)
      ∧ (∀ l a b rows, sortIntake f = .sideData l a b rows →
        exec (.intakeStrayFrame bytes) s = exec (.sideData l f.seq a b rows) s)
      ∧ (∀ l, sortIntake f = .sideClose l → exec (.intakeStrayFrame bytes) s = exec (.sideClose l f.seq) s)
      ∧ (∀ l, sortIntake f = .itemClose l → exec (.intakeStrayFrame bytes) s = exec (.itemClose l f.seq) s)
      ∧ (f.type = 0x20 → f.payload.length = f.length.toNat → f.payload.length ≤ 16384 →
        exec (.intakeStrayFrame bytes) s = exec (.mgmtRequest .intake f.payload) s
          ∧ exec (.exchangeStrayFrame bytes) s = exec (.mgmtRequest .exchange f.payload) s)
      ∧ (f.type = 0x40 → f.length = 0 → f.payload = [] → exec (.exchangeStrayFrame bytes) s = exec .halt s)
      ∧ (f.type = 0x41 → f.length = 0 → f.payload = [] → exec (.exchangeStrayFrame bytes) s = exec .go s))

/-- HALT and GO on the exchange link (R152): HALT sets halted; a GO while halted clears it, and the port goes on as it
would have without the halt; a GO while not halted changes nothing but the count of frames in. (That the port starts nothing
at such a GO, in any state, is log 24, DEDUCED.) -/
def Obligations.HaltAndGoPaceTheExchangePort : Prop :=
  ∀ s : State, s.taking = true →
    exec .halt s =
        .next { s with
          egress := { s.egress with
            halted := true
            port := { s.egress.port with framesIn := bump s.egress.port.framesIn } } }
      ∧ (s.egress.halted = false →
        exec .go s =
          .next { s with
            egress := { s.egress with port := { s.egress.port with framesIn := bump s.egress.port.framesIn } } })
      ∧ (s.egress.halted = true →
        exec .go s =
          .next (startExchange { s with
            egress := { s.egress with
              halted := false
              port := { s.egress.port with framesIn := bump s.egress.port.framesIn } } }))

/-! ### Scaling, conversion, coding, measures (chapters 1 to 3) -/

/-- R10, whole: the scaled grey formula, its range for every sum the scaler can form, its ends, 1/1 and the half-way
example. -/
def Obligations.ScaledGreyIsTheRoundedMean : Prop :=
  (∀ din sum : Nat, 0 < din → greyOf din sum = (2 * sum + din * din) / (2 * (din * din)))
    ∧ (∀ din sum : Nat, 0 < din → sum ≤ 255 * (din * din) → greyOf din sum ≤ 255)
    ∧ (∀ din : Nat, 0 < din → greyOf din 0 = 0 ∧ greyOf din (255 * (din * din)) = 255)
    ∧ (∀ din sum m : Nat, 0 < din → (2 * m + 1) * (din * din) = 2 * sum → greyOf din sum = m + 1)
    ∧ (∀ v : Nat, greyOf 1 v = v) ∧ greyOf 2 2 = 1
    ∧ (∀ (x : Side) (b : Binding), rowGreys x b = (List.range b.outWidth).map fun j =>
        greyOf b.din (weightedSum b.din b.dout (inputPixel x) j b.nextRow))

/-- Every scaled grey value of a side is 0 to 255 (R7, R9, R10). -/
def Obligations.ScaledGreysAreBytes : Prop :=
  ∀ (x : Side) (b : Binding), 0 < b.dout → ∀ g ∈ rowGreys x b, g ≤ 255

/-- R23, whole: the relative threshold, its range, and what follows from it for a pixel. -/
def Obligations.ThresholdIsAFractionOfTheBackground : Prop :=
  ∀ (q : ConvertParams) (bg g : Nat),
    threshold q.tq bg = bg * q.tq / 64
      ∧ (q.tq ≤ 63 → bg ≤ 4080 → threshold q.tq bg ≤ 4016)
      ∧ (q.tq ≤ 63 → 0 < bg → threshold q.tq bg < bg)
      ∧ threshold q.tq 0 = 0
      ∧ (q.tq ≤ 63 → q.darkLimit < g → 16 * g = bg → isBlack q bg g = false)
      ∧ (q.darkLimit < g → isBlack q 0 g = false)
      ∧ (q.tq ≤ 63 → q.darkLimit < g → isBlack q bg g = true → bg * (64 - q.tq) ≤ 64 * (bg - 16 * g))
      ∧ (q.tq = 48 → bg = 3200 → q.darkLimit < g → g < q.lightLimit → (isBlack q bg g = false ↔ 150 ≤ g))

/-- R24, whole: a black pixel leaves its column's background unchanged, so a column of black pixels keeps its starting
value. R26, whole: the background stays in 0 to 4080: its start, and every step, which lies between the old value and
V and reaches V only from V. -/
def Obligations.BackgroundMovesOnlyByWhitePixelsAndStaysInRange : Prop :=
  ((∀ (q : ConvertParams) (bg g : Nat), isBlack q bg g = true → nextBackground q bg g = bg)
    ∧ ∀ (q : ConvertParams) (bg : Nat) (gs : List Nat), (∀ g ∈ gs, isBlack q bg g = true) →
      gs.foldl (nextBackground q) bg = bg)
    ∧ ((∀ (n ib : Nat), ib ≤ 255 → ∀ bg ∈ initialArray n ib, bg ≤ 4080)
    ∧ ∀ (q : ConvertParams) (bg g : Nat), 1 ≤ q.attackShift → 1 ≤ q.decayShift → bg ≤ 4080 → g ≤ 255 →
      nextBackground q bg g ≤ 4080
        ∧ (isBlack q bg g = true → nextBackground q bg g = bg)
        ∧ (isBlack q bg g = false →
          min bg (16 * g) ≤ nextBackground q bg g ∧ nextBackground q bg g ≤ max bg (16 * g)
            ∧ (nextBackground q bg g = 16 * g ↔ bg = 16 * g)))

/-- R34, whole: WHITE before REPEAT before RUNS, the first row never REPEAT, and the row becomes the previous row whatever
its header and whether or not its bytes were stored. -/
def Obligations.HeaderIsTheFirstCaseThatApplies : Prop :=
  (∀ (prev : Option (List Bool)) (row : List Bool),
    ((∀ p ∈ row, p = false) → codeRow prev row = [0x02])
      ∧ (true ∈ row → prev = some row → codeRow prev row = [0x01])
      ∧ (true ∈ row → prev ≠ some row → codeRow prev row = 0x00 :: (runs row).flatMap codeRun)
      ∧ codeRow none row ≠ [0x01] ∧ (codeRow prev row = [0x01] → true ∈ row ∧ prev = some row))
    ∧ ∀ (x : Side) (b : Binding), (rowStages x b).previousRow = some (rowColours x b)

/-- R36, whole: the one-byte and two-byte forms of a run, how a reader tells them apart, the lengths of coded rows and the
longest of them. -/
def Obligations.RunsTakeOneOrTwoBytes : Prop :=
  (∀ n : Nat, n ≤ 127 → codeRun n = [BitVec.ofNat 8 n])
    ∧ (∀ n : Nat, 128 ≤ n → n ≤ 16383 → codeRun n = [BitVec.ofNat 8 (128 + n / 256), BitVec.ofNat 8 (n % 256)])
    ∧ (∀ n : Nat, n ≤ 16383 → ∀ more, readRun (codeRun n ++ more) = some (n, more))
    ∧ (∀ n : Nat, n ≤ 16383 → ∃ b rest, codeRun n = b :: rest ∧ (b.toNat < 128 ↔ rest = []))
    ∧ codeRun 128 = [128, 128] ∧ codeRun 300 = [129, 44] ∧ codeRun 2560 = [138, 0]
    ∧ (∀ prev row, (∀ p ∈ row, p = false) ∨ prev = some row → (codeRow prev row).length = 1)
    ∧ (∀ prev row, true ∈ row → prev ≠ some row →
        (codeRow prev row).length = 1 + ((runs row).map fun n => (codeRun n).length).sum)
    ∧ (∀ row : List Bool, row.length ≤ 2560 → ∀ n ∈ runs row, n ≤ 2560)
    ∧ (∀ prev row, row.length ≤ 2560 → (codeRow prev row).length ≤ 2562)
    ∧ (codeRow none ((List.range 2560).map fun c => decide (c % 2 = 0))).length = 2562

/-- R49 (R34 to R37, R186): a reader of a coded body rebuilds every row of it. -/
def Obligations.ReaderRebuildsTheRows : Prop :=
  ∀ (width : Nat) (rows : List (List Bool)), width ≤ 2560 → (∀ r ∈ rows, r.length = width) →
    readRows width rows.length none (codeRows none rows) = some rows

/-- R37 to R39: the bytes of a row are stored while the effective budget holds them; at the first byte that does not fit
the body length becomes 0 and stays so, and every byte is counted. -/
def Obligations.BodyIsStoredWithinTheBudget : Prop :=
  ∀ (budget : Nat) (bytes : List Byte) (c : CoderState), c.oversize = false → c.bodyLen = c.fullLen →
    c.fullLen ≤ budget → c.fullLen + bytes.length < 16777215 →
    (appendBytes budget c bytes).fullLen = c.fullLen + bytes.length
      ∧ (c.fullLen + bytes.length ≤ budget →
        (appendBytes budget c bytes).oversize = false
          ∧ (appendBytes budget c bytes).bodyLen = c.fullLen + bytes.length
          ∧ (appendBytes budget c bytes).writePos = c.writePos + bytes.length
          ∧ (appendBytes budget c bytes).body = c.body ++ bytes)
      ∧ (budget < c.fullLen + bytes.length →
        (appendBytes budget c bytes).oversize = true ∧ (appendBytes budget c bytes).bodyLen = 0
          ∧ (appendBytes budget c bytes).body = c.body ++ bytes.take (budget - c.fullLen))

/-- R42 and R43: the three figures of a side, and their ranges. R44: each side-end test adds its condition exactly when it
holds, and no other condition changes. -/
def Obligations.SideFiguresAndTestsFollowTheCounts : Prop :=
  (∀ (w h black grey sp : Nat) (columns : List Nat),
    (w * h = 0 → figures w h black grey columns sp = ⟨0, 0, 0⟩)
      ∧ (0 < w * h →
        (figures w h black grey columns sp).blackPermille = black * 1000 / (w * h)
          ∧ (figures w h black grey columns sp).meanGrey = grey / (w * h)
          ∧ (figures w h black grey columns sp).streakColumns = columns.countP (fun n => decide (h * sp ≤ n * 1000))
          ∧ (black ≤ w * h → (figures w h black grey columns sp).blackPermille ≤ 1000)
          ∧ (grey ≤ 255 * (w * h) → (figures w h black grey columns sp).meanGrey ≤ 255)))
    ∧ (∀ (p : Profile) (w h : Nat) (f : Figures) (c : CondSet) (n : Condition),
    holds (sideEndTests p w h f c) n = true ↔
      holds c n = true ∨ (n = 5 ∧ (w < p.widthMin ∨ h < p.heightMin)) ∨ (n = 6 ∧ (p.widthMax < w ∨ p.heightMax < h))
        ∨ (n = 7 ∧ f.blackPermille < p.blackMin) ∨ (n = 8 ∧ p.blackMax < f.blackPermille)
        ∨ (n = 9 ∧ p.streakLimit ≤ f.streakColumns) ∨ (n = 10 ∧ f.meanGrey < p.brightMin)
        ∨ (n = 11 ∧ p.brightMax < f.meanGrey))

/-! ### Reduction Units (chapter 4) -/

/-- BINDING (R54, R56): with a unit FREE, the lowest-numbered FREE unit takes the head of the rework wait list, or of the
open wait list when that is empty; the unit and the record are set up from the snapshot, in the order of the stages. The
ratio of two resolutions is in lowest terms, or 1/1 where the output resolution is the greater (R1, R2). The sub-state is
that of the table of R13, for every number of rows stored. The whole next state: a rework binding raises the backlog and so
evaluates the lane's paused flag (R135, R156), a first binding leaves the flow state as it is. (That the record's body is
empty from the binding on is log 13, DEDUCED.)
(`Side.resultsDiscarded` is the model's own field, log 11.) -/
def Obligations.GrantBindsTheHeadWaiterToTheLowestUnit : Prop :=
  (∀ (s : State) (u : Fin 4) (r : SideRef) (x : Side) (p : Profile) (rest : List SideRef),
    s.unit u = none → (∀ v, v < u → s.unit v ≠ none) → s.side? r = some x → x.snapshot = some p →
    (s.reduction.reworkWait = r :: rest ∨ (s.reduction.reworkWait = [] ∧ s.reduction.openWait = r :: rest)) →
    ∃ t b v, exec .binding s = .next t
      ∧ t = (if x.state = .reworkWait then evalPaused r.lane v else v)
      ∧ v = ((({ s with
          reduction := { s.reduction with
            openWait := if s.reduction.reworkWait = [] then rest else s.reduction.openWait
            reworkWait := if s.reduction.reworkWait = [] then [] else rest } }).setUnit u (some b)).modSide r (fun y =>
          { y with
            outRes := if x.inRes < p.outRes then x.inRes else p.outRes
            resClamped := decide (x.inRes < p.outRes)
            outWidth := b.outWidth
            outHeight := b.finalHeight.getD x.outHeight
            resultsDiscarded := false
            body := []
            boundUnit := some u
            state := .bound }))
      ∧ t.unit u = some b ∧ (∀ v, v ≠ u → t.unit v = s.unit v)
      ∧ (s.reduction.reworkWait ≠ [] → t.reduction.reworkWait = rest ∧ t.reduction.openWait = s.reduction.openWait)
      ∧ (s.reduction.reworkWait = [] → t.reduction.reworkWait = [] ∧ t.reduction.openWait = rest)
      ∧ (b.ref, b.din, b.dout, b.outWidth, b.declaredHeight) =
          (r, (ratio x.inRes p.outRes).1, (ratio x.inRes p.outRes).2,
            x.width * (ratio x.inRes p.outRes).2 / (ratio x.inRes p.outRes).1,
            x.height * (ratio x.inRes p.outRes).2 / (ratio x.inRes p.outRes).1)
      ∧ b.finalHeight =
          (if x.inputClosed then some (x.rowsStored * (ratio x.inRes p.outRes).2 / (ratio x.inRes p.outRes).1) else none)
      ∧ (b.nextRow, b.rowsConsumed, b.previousRow, b.fullLen, b.bodyLen, b.oversize, b.writePos, b.blackCount, b.greySum) =
          (0, 0, none, 0, 0, false, 0, 0, 0)
      ∧ b.columnBlack = List.replicate b.outWidth 0
      ∧ b.background = List.replicate b.outWidth (16 * p.initialBackground)
      ∧ b.params = ⟨p.tq, p.darkLimit, p.lightLimit, p.attackShift, p.decayShift⟩
      ∧ b.effectiveBudget = min p.budget (x.outputPages * 65536)
      ∧ b.sub = chooseSub b x.rowsStored x.inputClosed
      ∧ t.side? r = some { x with
          outRes := (if x.inRes < p.outRes then x.inRes else p.outRes)
          resClamped := decide (x.inRes < p.outRes)
          outWidth := b.outWidth
          outHeight := b.finalHeight.getD x.outHeight
          resultsDiscarded := false
          body := []
          boundUnit := some u
          state := .bound }
      ∧ (∀ k, k ≠ r.lane → t.lane k = s.lane k) ∧ (t.lane r.lane).context = (s.lane r.lane).context
      ∧ (t.intakePort, t.admission, t.freePages, t.disposition, t.egress, t.mgmt) =
          (s.intakePort, s.admission, s.freePages, s.disposition, s.egress, s.mgmt))
    ∧ (∀ rin rout : Nat, 0 < rin → 0 < rout →
      (rin < rout → ratio rin rout = (1, 1))
        ∧ (rout ≤ rin → (ratio rin rout).1 * rout = (ratio rin rout).2 * rin
          ∧ Nat.gcd (ratio rin rout).1 (ratio rin rout).2 = 1))
    ∧ (∀ (b : Binding) (n : Nat) (closed : Bool), 0 < b.dout →
      (b.nextRow < b.finalHeight.getD b.declaredHeight →
        chooseSub b n closed = if (b.nextRow + 1) * b.din ≤ n * b.dout then .running else .waitInput)
      ∧ (b.finalHeight.getD b.declaredHeight ≤ b.nextRow →
        chooseSub b n closed = if closed = true then .finishing else .waitInput))

/-- OUTPUT_ROW_COMPLETE (R11, R13, R16, R21, R27, R34, R37, R38, R41, R156): a RUNNING unit's row is scaled, converted,
coded and measured; rows consumed and the sub-state follow; the record takes the bytes and, at the crossing, OVERSIZE; the
lane's paused flag is evaluated. A weight is the overlap of two spans, the weights of an output pixel sum to Din (R7), the
pixel of a column and row is the byte of the stored input at that place (R8), and the weighted sum takes in every input
pixel of non-zero weight (R9; that this takes in a pixel that lies partly beyond the last whole output span is log 29). -/
def Obligations.OutputRowPassesThroughTheStages : Prop :=
  (∀ (s : State) (u : Fin 4) (b : Binding) (x : Side), s.unit u = some b → b.sub = .running → s.side? b.ref = some x →
    ∃ b' : Binding,
      exec (.outputRowComplete u) s =
          .next (evalPaused b.ref.lane ((s.setUnit u (some b')).modSide b.ref fun y => { y with
            body := (rowCoded x b).body
            raised := if (rowCoded x b).oversize = true ∧ b.oversize = false then y.raised ||| 0x1000 else y.raised }))
        ∧ rowGreys x b = (List.range b.outWidth).map (fun j =>
            greyOf b.din (weightedSum b.din b.dout (inputPixel x) j b.nextRow))
        ∧ rowColours x b = List.zipWith (isBlack b.params) b.background (rowGreys x b)
        ∧ rowCoded x b = appendBytes b.effectiveBudget ⟨b.fullLen, b.bodyLen, b.oversize, b.writePos, x.body⟩
            (codeRow b.previousRow (rowColours x b))
        ∧ b'.nextRow = b.nextRow + 1
        ∧ b'.background = List.zipWith (nextBackground b.params) b.background (rowGreys x b)
        ∧ b'.previousRow = some (rowColours x b)
        ∧ (b'.fullLen, b'.bodyLen, b'.oversize, b'.writePos) =
            ((rowCoded x b).fullLen, (rowCoded x b).bodyLen, (rowCoded x b).oversize, (rowCoded x b).writePos)
        ∧ b'.blackCount = b.blackCount + (rowColours x b).count true
        ∧ b'.greySum = b.greySum + (rowGreys x b).sum
        ∧ b'.columnBlack = List.zipWith (fun n p => if p = true then n + 1 else n) b.columnBlack (rowColours x b)
        ∧ b'.rowsConsumed =
            (if b.nextRow + 1 < b.finalHeight.getD b.declaredHeight then (b.nextRow + 1) * b.din / b.dout
              else x.rowsStored)
        ∧ b'.sub = chooseSub b' x.rowsStored x.inputClosed
        ∧ (b'.ref, b'.din, b'.dout, b'.outWidth, b'.declaredHeight, b'.finalHeight, b'.params, b'.effectiveBudget) =
            (b.ref, b.din, b.dout, b.outWidth, b.declaredHeight, b.finalHeight, b.params, b.effectiveBudget))
    ∧ (∀ din dout i j : Nat,
      weight din dout i j = min ((i + 1) * dout) ((j + 1) * din) - max (i * dout) (j * din))
    ∧ (∀ din dout j m : Nat, (j + 1) * din ≤ m * dout → ((List.range m).map fun i => weight din dout i j).sum = din)
    ∧ (∀ (x : Side) (r c : Nat) (v : Byte), x.input[r * x.width + c]? = some v → inputPixel x r c = v.toNat)
    ∧ (∀ (din dout : Nat) (px : Nat → Nat → Nat) (j k m n : Nat), 0 < dout → (j + 1) * din ≤ m * dout →
      (k + 1) * din ≤ n * dout →
      weightedSum din dout px j k =
        ((List.range n).map fun r =>
          ((List.range m).map fun c => px r c * weight din dout c j * weight din dout r k).sum).sum)

/-- SIDE_END (R42 to R45, R58): the side's figures and lengths are in its record, and no lane's context, no table
and no setting changes. SIDE_END of a side whose item is not then complete, with no side waiting
(R44, R45, R58): the side is DONE with its results, its raised set and no unit, the unit is FREE, and nothing else
changes but the lane's paused flag and what the flow queue takes for it. SIDE_END of any side, whole (R54, R58, R118): its
results and DONE, the unit FREE, the paused flag evaluated, the freed unit and any other granted while a unit is FREE and a
side waits, the item handed to judgement if it is complete (see `Obligations.CompletionWaitsForTheHold`), and the Exchange
Port starting what it can. The grants are those of BINDING, made until none is left (R54). (The order of the flow frames that
the paused flags and the returned pages queue in this event is log 12; how often this one event evaluates a lane's paused flag
is log 28.)
Where a lane reset comes together with the event and is taken
second, no record of the lane starts (R95, R128, R139, R153; that coming together is waiting next in the queue of commands is log 33). -/
def Obligations.SideEndRecordsTheResults : Prop :=
  (∀ (s : State) (u : Fin 4) (b : Binding) (x : Side) (p : Profile), s.unit u = some b → b.sub = .finishing →
    s.side? b.ref = some x → x.snapshot = some p →
    ∃ t y f, exec (.sideEnd u) s = .next t ∧ t.side? b.ref = some y
      ∧ f = figures b.outWidth (b.finalHeight.getD 0) b.blackCount b.greySum b.columnBlack p.streakPermille
      ∧ (y.blackPermille, y.meanGrey, y.streakColumns, y.fullLen, y.bodyLen) =
          (f.blackPermille, f.meanGrey, f.streakColumns, b.fullLen, b.bodyLen)
      ∧ (∀ k, (t.lane k).context = (s.lane k).context)
      ∧ (t.intakePort, t.admission, t.mgmt) = (s.intakePort, s.admission, s.mgmt)
      ∧ (t.disposition.descriptors, t.disposition.extent) = (s.disposition.descriptors, s.disposition.extent))
    ∧ (∀ (s : State) (u : Fin 4) (b : Binding) (x : Side) (p : Profile) (i : Item), s.unit u = some b → b.sub = .finishing →
    s.item? b.ref.lane b.ref.seq = some i → i.side b.ref.face = some x → x.snapshot = some p →
    s.reduction.openWait = [] → s.reduction.reworkWait = [] → ExchangeSettled s →
    (i.state ≠ .reducing ∧ i.state ≠ .rework ∨
      ∃ g y, g ≠ b.ref.face ∧ i.side g = some y ∧ y.state ≠ .done ∧ y.state ≠ .notReduced) →
    exec (.sideEnd u) s =
      .next (evalPaused b.ref.lane ((s.setUnit u none).modSide b.ref fun z => { z with
        blackPermille := (endFigures b p).blackPermille
        meanGrey := (endFigures b p).meanGrey
        streakColumns := (endFigures b p).streakColumns
        fullLen := b.fullLen
        bodyLen := b.bodyLen
        raised := sideEndTests p b.outWidth (b.finalHeight.getD 0) (endFigures b p) x.raised
        boundUnit := none
        state := .done })))
    ∧ (∀ (s : State) (u : Fin 4) (b : Binding) (x : Side) (p : Profile), s.unit u = some b → b.sub = .finishing →
    s.side? b.ref = some x → x.snapshot = some p →
    exec (.sideEnd u) s =
      .next (startBeside b.ref.lane (checkComplete b.ref.lane b.ref.seq (grantAll (evalPaused b.ref.lane
        ((s.setUnit u none).modSide b.ref fun z => { z with
          blackPermille := (endFigures b p).blackPermille
          meanGrey := (endFigures b p).meanGrey
          streakColumns := (endFigures b p).streakColumns
          fullLen := b.fullLen
          bodyLen := b.bodyLen
          raised := sideEndTests p b.outWidth (b.finalHeight.getD 0) (endFigures b p) x.raised
          boundUnit := none
          state := .done }))))))
    ∧ (∀ s t : State, exec .binding s = .next t →
      (ArbiterSettled s → grantAll s = s) ∧ (¬ ArbiterSettled s → grantAll s = grantAll t))
    ∧ (∀ (s t : State) (u : Fin 4) (b : Binding), s.unit u = some b → laneResetNext b.ref.lane s = true →
      exec (.sideEnd u) s = .next t → StartsNoneOf b.ref.lane s t)

/-! ### Lanes and item assembly (chapters 5 and 6) -/

/-- R96 and R100: the nine checks in their order, each with its reason code, and the resolution of the profile. -/
def Obligations.AdmissionChecksAreMadeInOrder : Prop :=
  ∀ (s : State) (l : Fin 16) (q : Seq) (m : BitVec 16) (c n : Byte),
    checkAdmission s l q m c n =
      if s.mgmt.service = .standby then .refused 1
      else if s.mgmt.service = .draining then .refused 2
      else if (s.lane l).enabled = false then .refused 3
      else if 8 ≤ (s.lane l).list.length then .refused 4
      else if q ∈ (s.lane l).list.map Item.seq then .refused 5
      else if n ≠ 1 ∧ n ≠ 2 then .refused 6
      else
        match s.admission.members[m.toNat]? with
        | none => .refused 7
        | some e =>
          if e.present = false then .refused 7
          else if e.status = .suspended then .refused 8
          else
            match e.classMap[c.toNat]? with
            | none => .refused 9
            | some entry =>
              if s.admission.profiles[(entry.getD e.defaultProfile).val].valid = false then .refused 10
              else .admitted (entry.getD e.defaultProfile) entry.isNone

/-- ITEM_OPEN admitted on an IDLE lane (R77, R80, R90, R98): the new record, the lane's context and its admitted counter;
the paused flag is evaluated (R156); nothing else changes. (That the new record's potent set is empty is the model's choice,
log 21; that the fields of its dispatch record beside the disposition hold none, 0 and the empty list is log 27.) ITEM_OPEN refused on a lane that is IDLE or in DRAIN (R80,
R89, R99, R163): the lane drains the refused sequence, the refused counter rises, a REFUSAL is queued unless 32 wait,
and nothing else changes. -/
def Obligations.ItemOpenIsAdmittedOrRefused : Prop :=
  (∀ (s : State) (l : Fin 16) (q : Seq) (m : BitVec 16) (c n : Byte) (d : BitVec 32) (p : Fin 64) (fb : Bool),
    s.taking = true → ExchangeSettled s → LaneLawful (s.lane l) → (s.lane l).state = .idle → q ≠ 0 →
    checkAdmission s l q m c n = .admitted p fb →
    exec (.itemOpen l q m c n d) s =
      .next (evalPaused l ((s.withIntakePort { s.intakePort with framesIn := bump s.intakePort.framesIn }).setLane l
        { s.lane l with
          state := .opened
          seq := q
          active := none
          stallRunning := decide ((s.lane l).stallMs ≠ 0)
          stallRemaining := (s.lane l).stallMs
          counters := { (s.lane l).counters with admitted := bump (s.lane l).counters.admitted }
          list := (s.lane l).list ++
            [{ seq := q, member := m, cls := c, date := d, sidesDeclared := n.toNat, profileIndex := p,
               mask := s.admission.profiles[p.val].mask, front := none, back := none,
               raised := if fb = true then 0x8000 else 0, potent := 0, state := .receiving,
               dispatch := { disposition := .none, reason := .none, cited := none, fault := .none, code := 0,
                             markList := [] } }] })))
    ∧ (∀ (s : State) (l : Fin 16) (q : Seq) (m : BitVec 16) (c n : Byte) (d : BitVec 32) (reason : Byte),
    s.taking = true → ExchangeSettled s → ((s.lane l).state = .idle ∨ (s.lane l).state = .drain) → q ≠ 0 →
    checkAdmission s l q m c n = .refused reason →
    exec (.itemOpen l q m c n d) s =
      .next { s with
        intakePort := { s.intakePort with framesIn := bump s.intakePort.framesIn }
        lanes := s.lanes.set l.val { s.lane l with
          state := .drain
          seq := q
          active := none
          stallRunning := false
          stallRemaining := 0
          counters := { (s.lane l).counters with refused := bump (s.lane l).counters.refused } }
        flow := { s.flow with
          refusals := if s.flow.refusals.length < 32 then s.flow.refusals ++ [⟨l, q, reason⟩] else s.flow.refusals } })

/-- ITEM_OPEN in every lane state (R80, R88): what was open or draining is closed first, and the lane ends OPEN with the new
item at the tail of its list, or in DRAIN; the other lanes' contexts do not change. An ITEM_OPEN that repeats the open
sequence closes that item too and is refused. In SIDE the active side is first closed as by SIDE_CLOSE (R87); in OPEN the open
item is closed as by ITEM_CLOSE (R88) and the frame then taken by the IDLE lane; in DRAIN the drain ends first. (That the
paused flag is evaluated at the close and again at the admission is the model's choice, log 28.)
(A frame of the current sequence is a match even where that is the last timed-out sequence too: log 30.)
Where a lane reset comes together with the event and is taken
second, no record of the lane starts (R95, R128, R139, R153; that coming together is waiting next in the queue of commands is log 33). -/
def Obligations.ItemOpenClosesWhatWasOpen : Prop :=
  (∀ (s : State) (l : Fin 16) (q : Seq) (m : BitVec 16) (c n : Byte) (d : BitVec 32), s.taking = true → q ≠ 0 →
    ∃ t, exec (.itemOpen l q m c n d) s = .next t ∧ (t.lane l).seq = q ∧ (t.lane l).active = none
      ∧ (((t.lane l).state = .opened
            ∧ (t.lane l).counters.admitted = bump (s.lane l).counters.admitted
            ∧ (t.lane l).list.map Item.seq = (s.lane l).list.map Item.seq ++ [q])
          ∨ ((t.lane l).state = .drain
            ∧ (t.lane l).counters.refused = bump (s.lane l).counters.refused
            ∧ (t.lane l).list.map Item.seq = (s.lane l).list.map Item.seq))
      ∧ ((s.lane l).state = .opened ∨ (s.lane l).state = .side →
          q ≠ (s.lane l).seq ∨ (s.item? l (s.lane l).seq).isSome = true →
          ∀ j, t.item? l (s.lane l).seq = some j → j.state ≠ .receiving)
      ∧ ((s.lane l).state = .opened ∨ (s.lane l).state = .side → q = (s.lane l).seq →
          (s.item? l (s.lane l).seq).isSome = true → (t.lane l).state = .drain)
      ∧ ∀ k, k ≠ l → (t.lane k).context = (s.lane k).context)
    ∧ (∀ (s : State) (l : Fin 16) (q o : Seq) (m : BitVec 16) (c n : Byte) (d : BitVec 32), s.taking = true → q ≠ 0 →
      (s.lane l).seq = o →
      ((s.lane l).state = .side → o ≠ 0 →
        ∃ t, exec (.sideClose l o) s = .next t
          ∧ exec (.itemOpen l q m c n d) s = exec (.itemOpen l q m c n d) (t.withIntakePort s.intakePort))
      ∧ ((s.lane l).state = .opened →
        exec (.itemOpen l q m c n d) s = exec (.itemOpen l q m c n d) (checkComplete l o
          ((s.modItem l o fun i => { i with
              raised := if i.sides.length < i.sidesDeclared then i.raised ||| 0x2000 else i.raised
              state := .reducing }).modLane l fun k => { k with
            state := .idle, seq := 0, active := none, stallRunning := false, stallRemaining := 0 })))
      ∧ ((s.lane l).state = .drain →
        exec (.itemOpen l q m c n d) s = exec (.itemOpen l q m c n d) (s.setLane l { s.lane l with
          state := .idle, seq := 0, active := none, stallRunning := false, stallRemaining := 0 })))
    ∧ (∀ (s t : State) (l : Fin 16) (q : Seq) (m : BitVec 16) (c n : Byte) (d : BitVec 32), laneResetNext l s = true →
      exec (.itemOpen l q m c n d) s = .next t → StartsNoneOf l s t)

/-- R79: an item frame that is no match is late when it carries the last timed-out sequence, stray otherwise, and every
item frame of sequence 0 is stray; it does nothing else. R89: in DRAIN the frames of the draining sequence are
discarded and not counted by the lane, and its ITEM_CLOSE returns the lane to IDLE. (A frame of the current sequence is a
match even where that is the last timed-out sequence too: log 30.) -/
def Obligations.UnmatchedAndDrainingFramesAreDiscarded : Prop :=
  (∀ (s : State) (l : Fin 16) (q : Seq) (f : Instr), s.taking = true → ExchangeSettled s →
    ((q = 0 ∧ ∃ m c n d, f = .itemOpen l q m c n d)
      ∨ ((q = 0 ∨ (s.lane l).state = .idle ∨ (s.lane l).seq ≠ q)
        ∧ ((∃ a r w h, f = .sideOpen l q a r w h) ∨ (∃ a b rows, f = .sideData l q a b rows ∧ rows.length ≤ 16380)
          ∨ f = .sideClose l q ∨ f = .itemClose l q))) →
    exec f s =
      .next ((s.withIntakePort { s.intakePort with framesIn := bump s.intakePort.framesIn }).countLane l fun k =>
        if q ≠ 0 ∧ (s.lane l).lastTimedOut = some q then { k with late := bump k.late }
        else { k with stray := bump k.stray }))
    ∧ (∀ (s : State) (l : Fin 16) (q : Seq), s.taking = true → ExchangeSettled s → LaneLawful (s.lane l) →
    (s.lane l).state = .drain → (s.lane l).seq = q → q ≠ 0 →
    (∀ f, ((∃ a r w h, f = Instr.sideOpen l q a r w h) ∨ (∃ a b rows, f = Instr.sideData l q a b rows ∧ rows.length ≤ 16380)
        ∨ f = Instr.sideClose l q) →
      exec f s = .next (s.withIntakePort { s.intakePort with framesIn := bump s.intakePort.framesIn }))
    ∧ exec (.itemClose l q) s =
        .next ((s.withIntakePort { s.intakePort with framesIn := bump s.intakePort.framesIn }).setLane l
          { s.lane l with state := .idle, seq := 0 }))

/-- R78, R81, R105, R107 and R52: a SIDE_OPEN taken in OPEN whose fields are good creates the side's record with its
snapshot and reservation; the lane is in SIDE; the side is bound at once when a unit is FREE, and else waits at the tail of
the open wait list; the reservation evaluates the global stop (R61, R160) and the flow state changes by nothing else.
(A frame of the current sequence is a match even where that is the last timed-out sequence too: log 30.) -/
def Obligations.SideOpenCreatesTheSide : Prop :=
  ∀ (s : State) (l : Fin 16) (q : Seq) (face : Byte) (f : Face) (res w h : BitVec 16) (i : Item) (p : Profile),
    s.taking = true → ArbiterSettled s → (s.lane l).state = .opened → (s.lane l).seq = q → q ≠ 0 →
    s.item? l q = some i → ((face = 1 ∧ f = .front) ∨ (face = 2 ∧ f = .back)) →
    res.toNat ∈ [100, 120, 150, 200, 240, 300, 400] → (64 ≤ w.toNat ∧ w.toNat ≤ 2560) →
    (32 ≤ h.toNat ∧ h.toNat ≤ 1536) → i.side f = none → i.sides.length < i.sidesDeclared →
    s.admission.profiles[i.profileIndex.val] = p → p.valid = true → (p.budget + 65535) / 65536 ≤ s.freePages →
    ∃ t x, exec (.sideOpen l q face res w h) s = .next t ∧ t.side? ⟨l, q, f⟩ = some x
      ∧ (x.face, x.inRes, x.width, x.height, x.rowsStored, x.inputClosed, x.truncation) =
          (f, res.toNat, w.toNat, h.toNat, 0, false, none)
      ∧ (x.inputPages, x.input, x.outputPages, x.snapshot, x.profileUsed, x.reworkCount, x.raised) =
          (0, [], (p.budget + 65535) / 65536, some p, i.profileIndex, 0, 0)
      ∧ (x.blackPermille, x.meanGrey, x.streakColumns, x.fullLen, x.bodyLen) = (0, 0, 0, 0, 0)
      ∧ (t.lane l).context = { (restartTimer (s.lane l)).context with state := .side, active := some f }
      ∧ t.freePages = s.freePages - (p.budget + 65535) / 65536
      ∧ t.flow = (if (p.budget + 65535) / 65536 = 0 then s.flow
          else (evalStop (s.withFree (s.freePages - (p.budget + 65535) / 65536))).flow)
      ∧ ((∃ u, s.unit u = none) → x.state = .bound ∧ (∃ u, x.boundUnit = some u ∧ s.unit u = none)
          ∧ t.reduction.openWait = [])
      ∧ ((∀ u, s.unit u ≠ none) → x.state = .storing ∧ x.boundUnit = none ∧ t.reduction.units = s.reduction.units
          ∧ t.reduction.openWait = s.reduction.openWait ++ [⟨l, q, f⟩])
      ∧ t.reduction.reworkWait = s.reduction.reworkWait ∧ (∀ k, k ≠ l → t.lane k = s.lane k)
      ∧ (t.lane l).counters = (s.lane l).counters
      ∧ t.intakePort = { s.intakePort with framesIn := bump s.intakePort.framesIn }
      ∧ (t.admission, t.disposition, t.egress, t.mgmt) = (s.admission, s.disposition, s.egress, s.mgmt)

/-- R106, R107 and R81: a SIDE_OPEN whose profile is invalid, or whose reservation fails, makes a NOT_REDUCED side without
pages, active on its lane; one whose fields are not admitted is stray and creates no record.
(A frame of the current sequence is a match even where that is the last timed-out sequence too: log 30.) -/
def Obligations.SideOpenThatIsNotReducedOrStray : Prop :=
  ∀ (s : State) (l : Fin 16) (q : Seq) (face : Byte) (f : Face) (res w h : BitVec 16) (i : Item) (p : Profile),
    s.taking = true → (s.lane l).state = .opened → (s.lane l).seq = q → q ≠ 0 → s.item? l q = some i →
    s.admission.profiles[i.profileIndex.val] = p → ((face = 1 ∧ f = .front) ∨ (face = 2 ∧ f = .back)) →
    (res.toNat ∈ [100, 120, 150, 200, 240, 300, 400] → (64 ≤ w.toNat ∧ w.toNat ≤ 2560) →
      (32 ≤ h.toNat ∧ h.toNat ≤ 1536) → i.side f = none → i.sides.length < i.sidesDeclared →
      (p.valid = false → ∃ t x, exec (.sideOpen l q face res w h) s = .next t ∧ t.side? ⟨l, q, f⟩ = some x
        ∧ (x.state, x.inputClosed, x.raised, x.snapshot, x.inputPages, x.outputPages, x.profileUsed) =
            (.notReduced, true, 0x0010, none, 0, 0, i.profileIndex)
        ∧ (t.lane l).context = { (restartTimer (s.lane l)).context with state := .side, active := some f }
        ∧ (t.lane l).counters = (s.lane l).counters ∧ t.freePages = s.freePages ∧ t.reduction = s.reduction
        ∧ (t.admission, t.disposition, t.egress, t.flow, t.mgmt) =
            (s.admission, s.disposition, s.egress, s.flow, s.mgmt))
      ∧ (p.valid = true → s.freePages < (p.budget + 65535) / 65536 →
        ∃ t x, exec (.sideOpen l q face res w h) s = .next t ∧ t.side? ⟨l, q, f⟩ = some x
          ∧ (x.state, x.inputClosed, x.raised, x.snapshot, x.inputPages, x.outputPages, x.profileUsed) =
              (.notReduced, true, 0x0001, some p, 0, 0, i.profileIndex)
          ∧ (t.lane l).context = { (restartTimer (s.lane l)).context with state := .side, active := some f }
          ∧ (t.lane l).counters = { (s.lane l).counters with overruns := bump (s.lane l).counters.overruns }
          ∧ t.freePages = s.freePages ∧ t.reduction = s.reduction
          ∧ (t.admission, t.disposition, t.egress, t.flow, t.mgmt) =
              (s.admission, s.disposition, s.egress, s.flow, s.mgmt)))
    ∧ ∀ (face' : Byte) (r' w' h' : BitVec 16),
        ((face' ≠ 1 ∧ face' ≠ 2) ∨ r'.toNat ∉ [100, 120, 150, 200, 240, 300, 400] ∨ w'.toNat < 64 ∨ 2560 < w'.toNat
          ∨ h'.toNat < 32 ∨ 1536 < h'.toNat ∨ (face' = 1 ∧ i.front.isSome = true) ∨ (face' = 2 ∧ i.back.isSome = true)
          ∨ i.sidesDeclared ≤ i.sides.length) →
        exec (.sideOpen l q face' r' w' h') s =
          .next ((s.withIntakePort { s.intakePort with framesIn := bump s.intakePort.framesIn }).setLane l
            { restartTimer (s.lane l) with
              counters := { (s.lane l).counters with stray := bump (s.lane l).counters.stray } })

/-- R82 and R88: in SIDE, a SIDE_OPEN or an ITEM_CLOSE of the open item acts as SIDE_CLOSE and then the frame itself, the
port counting one frame.
(A frame of the current sequence is a match even where that is the last timed-out sequence too: log 30.) -/
def Obligations.FramesInSideCloseTheActiveSideFirst : Prop :=
  ∀ (s : State) (l : Fin 16) (q : Seq), s.taking = true → (s.lane l).state = .side → (s.lane l).seq = q → q ≠ 0 →
    ∃ t, exec (.sideClose l q) s = .next t
      ∧ (∀ a r w h, exec (.sideOpen l q a r w h) s = exec (.sideOpen l q a r w h) (t.withIntakePort s.intakePort))
      ∧ exec (.itemClose l q) s = exec (.itemClose l q) (t.withIntakePort s.intakePort)

/-- R62, R84 (case 6 of R83) and R14, R16, R61, R156, R160: rows that continue the side are stored with the pages they
need, excess rows raise ROW_EXCESS, the free page count falls and the global stop is evaluated against it, the bound unit
sees the rows, the lane's paused flag is evaluated, and nothing else changes. (That the paused flag is evaluated last, so
that PAUSE or RESUME is queued behind STOP_ALL or START_ALL, is the model's choice, log 12: no rule orders the two; that it is
evaluated once, when rows at the bottom edge are stored and consumed in one event, is log 28.)
(A frame of the current sequence is a match even where that is the last timed-out sequence too: log 30.) -/
def Obligations.SideDataStoresContinuingRows : Prop :=
  ∀ (s : State) (l : Fin 16) (q : Seq) (f : Face) (x : Side) (first count : BitVec 16) (rows : List Byte)
    (kept need : Nat) (s₁ s₂ : State),
    s.taking = true → (s.lane l).state = .side → (s.lane l).seq = q → q ≠ 0 → (s.lane l).active = some f →
    s.side? ⟨l, q, f⟩ = some x → x.inputClosed = false → rows.length ≤ 16380 → 0 < count.toNat →
    rows.length = count.toNat * x.width → first.toNat = x.rowsStored → x.rowsStored < x.height →
    kept = min count.toNat (x.height - x.rowsStored) →
    need = ((x.rowsStored + kept) * x.width + 65535) / 65536 - x.inputPages → need ≤ s.freePages →
    s₁ = (((s.withIntakePort { s.intakePort with framesIn := bump s.intakePort.framesIn }).modLane l restartTimer).modSide
      ⟨l, q, f⟩ fun y => { y with
        rowsStored := y.rowsStored + kept
        inputPages := y.inputPages + need
        input := y.input ++ rows.take (kept * y.width)
        raised := if kept < count.toNat then y.raised ||| 0x0008 else y.raised }) →
    s₂ = (if need = 0 then s₁ else evalStop (s₁.withFree (s.freePages - need))) →
    s₁.side? ⟨l, q, f⟩ = some { x with
        rowsStored := x.rowsStored + kept
        inputPages := x.inputPages + need
        input := x.input ++ rows.take (kept * x.width)
        raised := if kept < count.toNat then x.raised ||| 0x0008 else x.raised }
      ∧ (∀ u b, x.boundUnit = some u → s.unit u = some b →
        exec (.sideData l q first count rows) s =
          .next (evalPaused l (s₂.setUnit u (some
            (if b.sub = .waitInput then
              if b.nextRow < b.declaredHeight then { b with sub := chooseSub b (x.rowsStored + kept) false }
              else { b with rowsConsumed := x.rowsStored + kept }
            else b)))))
      ∧ ((∀ u, x.boundUnit = some u → s.unit u = none) →
        exec (.sideData l q first count rows) s = .next (evalPaused l s₂))

/-- R83: the cases of a SIDE_DATA that store nothing: input closed, bad row count or length, rows already stored, rows at
or beyond the declared height. R85 and R86 (cases 5 and 6 of R83): a row gap, and rows whose pages are not free,
truncate the side with the rows it had: cause and condition recorded, input closed, no page taken, overruns counted
for an overrun alone. What a truncated side's bound unit gets (R6, R15, R85, R86): the final output height of the rows stored
and what else the close makes of a unit (`Binding.inputCloses`, spelt out in `Obligations.SideCloseClosesTheInput`), the
height in the side's record, the lane's paused flag evaluated; nothing else changes. A SIDE_DATA of the open item in OPEN finds
no active side: it is stray, and restarts the timer (R79, R83).
(A frame of the current sequence is a match even where that is the last timed-out sequence too: log 30.) -/
def Obligations.SideDataThatIsNotStored : Prop :=
  (∀ (s : State) (l : Fin 16) (q : Seq) (f : Face) (x : Side) (first count : BitVec 16) (rows : List Byte),
    s.taking = true → (s.lane l).state = .side → (s.lane l).seq = q → q ≠ 0 → (s.lane l).active = some f →
    s.side? ⟨l, q, f⟩ = some x → rows.length ≤ 16380 →
    (x.inputClosed = true →
      exec (.sideData l q first count rows) s =
        .next ((s.withIntakePort { s.intakePort with framesIn := bump s.intakePort.framesIn }).modLane l restartTimer))
    ∧ (x.inputClosed = false →
        (count.toNat = 0 ∨ rows.length ≠ count.toNat * x.width ∨ first.toNat < x.rowsStored) →
      exec (.sideData l q first count rows) s =
        .next ((s.withIntakePort { s.intakePort with framesIn := bump s.intakePort.framesIn }).setLane l
          { restartTimer (s.lane l) with
            counters := { (s.lane l).counters with stray := bump (s.lane l).counters.stray } }))
    ∧ (x.inputClosed = false → 0 < count.toNat → rows.length = count.toNat * x.width → x.rowsStored ≤ first.toNat →
        x.height ≤ first.toNat →
      exec (.sideData l q first count rows) s =
        .next (((s.withIntakePort { s.intakePort with framesIn := bump s.intakePort.framesIn }).modLane l
          restartTimer).modSide ⟨l, q, f⟩ fun y => { y with raised := y.raised ||| 0x0008 })))
    ∧ (∀ (s : State) (l : Fin 16) (q : Seq) (f : Face) (x : Side) (first count : BitVec 16) (rows : List Byte),
    s.taking = true → (s.lane l).state = .side → (s.lane l).seq = q → q ≠ 0 → (s.lane l).active = some f →
    s.side? ⟨l, q, f⟩ = some x → x.inputClosed = false → rows.length ≤ 16380 → 0 < count.toNat →
    rows.length = count.toNat * x.width → first.toNat < x.height →
    (x.rowsStored < first.toNat →
      ∃ t y, exec (.sideData l q first count rows) s = .next t ∧ t.side? ⟨l, q, f⟩ = some y
        ∧ (y.inputClosed, y.truncation, y.raised, y.rowsStored, y.inputPages, y.input, y.state) =
            (true, some .gap, x.raised ||| 0x0004, x.rowsStored, x.inputPages, x.input, x.state)
        ∧ t.freePages = s.freePages ∧ (t.lane l).counters = (s.lane l).counters
        ∧ (t.lane l).context = (restartTimer (s.lane l)).context ∧ (∀ k, k ≠ l → t.lane k = s.lane k))
    ∧ (x.rowsStored = first.toNat →
        s.freePages < ((x.rowsStored + min count.toNat (x.height - x.rowsStored)) * x.width + 65535) / 65536 - x.inputPages →
      ∃ t y, exec (.sideData l q first count rows) s = .next t ∧ t.side? ⟨l, q, f⟩ = some y
        ∧ (y.inputClosed, y.truncation, y.raised, y.rowsStored, y.inputPages, y.input, y.state) =
            (true, some .overrun, x.raised ||| 0x0001, x.rowsStored, x.inputPages, x.input, x.state)
        ∧ t.freePages = s.freePages
        ∧ (t.lane l).counters = { (s.lane l).counters with overruns := bump (s.lane l).counters.overruns }
        ∧ (t.lane l).context = (restartTimer (s.lane l)).context ∧ (∀ k, k ≠ l → t.lane k = s.lane k)))
    ∧ (∀ (s : State) (l : Fin 16) (q : Seq) (f : Face) (x : Side) (first count : BitVec 16) (rows : List Byte)
      (cause : Truncation) (bit : CondSet) (s₁ w : State),
    s.taking = true → (s.lane l).state = .side → (s.lane l).seq = q → q ≠ 0 → (s.lane l).active = some f →
    s.side? ⟨l, q, f⟩ = some x → x.inputClosed = false → rows.length ≤ 16380 → 0 < count.toNat →
    rows.length = count.toNat * x.width → first.toNat < x.height →
    s₁ = (((s.withIntakePort { s.intakePort with framesIn := bump s.intakePort.framesIn }).modLane l restartTimer).modSide
      ⟨l, q, f⟩ fun y => { y with truncation := some cause, raised := y.raised ||| bit, inputClosed := true }) →
    ((∀ u, x.boundUnit = some u → s.unit u = none) ∧ w = s₁
      ∨ ∃ u b, x.boundUnit = some u ∧ s.unit u = some b
        ∧ w = evalPaused l ((s₁.setUnit u (some (b.inputCloses x.rowsStored))).modSide ⟨l, q, f⟩ fun y => { y with
            outHeight := x.rowsStored * b.dout / b.din })) →
    (x.rowsStored < first.toNat → cause = .gap → bit = 0x0004 → exec (.sideData l q first count rows) s = .next w)
      ∧ (x.rowsStored = first.toNat →
          s.freePages < ((x.rowsStored + min count.toNat (x.height - x.rowsStored)) * x.width + 65535) / 65536
            - x.inputPages →
          cause = .overrun → bit = 0x0001 →
        exec (.sideData l q first count rows) s =
          .next (w.countLane l fun k => { k with overruns := bump k.overruns })))
    ∧ (∀ (s : State) (l : Fin 16) (q : Seq) (first count : BitVec 16) (rows : List Byte), s.taking = true →
    (s.lane l).state = .opened → (s.lane l).seq = q → q ≠ 0 → rows.length ≤ 16380 →
    exec (.sideData l q first count rows) s =
      .next ((s.withIntakePort { s.intakePort with framesIn := bump s.intakePort.framesIn }).setLane l
        { restartTimer (s.lane l) with
          counters := { (s.lane l).counters with stray := bump (s.lane l).counters.stray } }))

/-- R87 and R15: SIDE_CLOSE in SIDE closes the side's input, raises ROW_SHORT on an early close without a cause, gives the
bound unit its final output height, and returns the lane to OPEN; in OPEN it is stray. The close, whole: the record, the
bound unit, the lane's paused flag evaluated when a unit is bound (R156), and nothing else. What a close makes of a bound
unit (R6, R13, R15, R16): the final output height; a unit in WAIT_INPUT goes by the table of R13 and, with no output row
left, has all stored rows consumed; any other unit goes on.
(A frame of the current sequence is a match even where that is the last timed-out sequence too: log 30.) -/
def Obligations.SideCloseClosesTheInput : Prop :=
  (∀ (s : State) (l : Fin 16) (q : Seq), s.taking = true → (s.lane l).seq = q → q ≠ 0 →
    (∀ (f : Face) (x : Side), (s.lane l).state = .side → (s.lane l).active = some f → s.side? ⟨l, q, f⟩ = some x →
      ∃ t y, exec (.sideClose l q) s = .next t ∧ t.side? ⟨l, q, f⟩ = some y
        ∧ (y.inputClosed, y.rowsStored, y.truncation, y.state) = (true, x.rowsStored, x.truncation, x.state)
        ∧ y.raised =
            (if x.state ≠ .notReduced ∧ x.truncation = none ∧ x.rowsStored < x.height then x.raised ||| 0x0004
              else x.raised)
        ∧ (∀ u b, x.inputClosed = false → x.boundUnit = some u → s.unit u = some b →
            y.outHeight = x.rowsStored * b.dout / b.din
              ∧ ∃ b', t.unit u = some b' ∧ b'.finalHeight = some (x.rowsStored * b.dout / b.din)
                ∧ (b.sub = .running → b'.sub = .running)
                ∧ (b.sub = .waitInput → x.rowsStored * b.dout / b.din ≤ b.nextRow → b'.sub = .finishing))
        ∧ (t.lane l).context = { (restartTimer (s.lane l)).context with state := .opened, active := none }
        ∧ t.freePages = s.freePages ∧ (t.lane l).counters = (s.lane l).counters ∧ (∀ k, k ≠ l → t.lane k = s.lane k)
        ∧ (t.admission, t.disposition, t.egress, t.mgmt) = (s.admission, s.disposition, s.egress, s.mgmt))
    ∧ ((s.lane l).state = .opened →
      exec (.sideClose l q) s =
        .next ((s.withIntakePort { s.intakePort with framesIn := bump s.intakePort.framesIn }).setLane l
          { restartTimer (s.lane l) with
            counters := { (s.lane l).counters with stray := bump (s.lane l).counters.stray } })))
    ∧ (∀ (s : State) (l : Fin 16) (q : Seq) (f : Face) (x : Side) (s₁ w : State), s.taking = true → (s.lane l).seq = q →
      q ≠ 0 → (s.lane l).state = .side → (s.lane l).active = some f → s.side? ⟨l, q, f⟩ = some x →
      s₁ = (((s.withIntakePort { s.intakePort with framesIn := bump s.intakePort.framesIn }).modLane l restartTimer).modSide
        ⟨l, q, f⟩ fun y => { y with
          raised := if y.state ≠ .notReduced ∧ y.truncation = none ∧ y.rowsStored < y.height then y.raised ||| 0x0004
            else y.raised
          inputClosed := true }) →
      ((x.inputClosed = true ∨ ∀ u, x.boundUnit = some u → s.unit u = none) ∧ w = s₁
        ∨ ∃ u b, x.inputClosed = false ∧ x.boundUnit = some u ∧ s.unit u = some b
          ∧ w = evalPaused l ((s₁.setUnit u (some (b.inputCloses x.rowsStored))).modSide ⟨l, q, f⟩ fun y => { y with
              outHeight := x.rowsStored * b.dout / b.din })) →
      exec (.sideClose l q) s = .next (w.modLane l fun k => { k with state := .opened, active := none }))
    ∧ (∀ (b : Binding) (n : Nat),
      (b.sub = .waitInput → b.nextRow < n * b.dout / b.din →
        b.inputCloses n = { b with
          finalHeight := some (n * b.dout / b.din)
          sub := if (b.nextRow + 1) * b.din ≤ n * b.dout then .running else .waitInput })
      ∧ (b.sub = .waitInput → n * b.dout / b.din ≤ b.nextRow →
        b.inputCloses n = { b with finalHeight := some (n * b.dout / b.din), sub := .finishing, rowsConsumed := n })
      ∧ (b.sub ≠ .waitInput → b.inputCloses n = { b with finalHeight := some (n * b.dout / b.din) }))

/-- R88 and R77: ITEM_CLOSE in OPEN closes the item: SIDE_MISSING when sides are missing, REDUCING, the lane IDLE with its
timer stopped; the item is then judged or held if it is complete (see `checkComplete`), and the port starts what it can.
(A frame of the current sequence is a match even where that is the last timed-out sequence too: log 30.)
Where a lane reset comes together with the event and is taken
second, no record of the lane starts (R95, R128, R139, R153; that coming together is waiting next in the queue of commands is log 33). -/
def Obligations.ItemCloseClosesTheItem : Prop :=
  (∀ (s : State) (l : Fin 16) (q : Seq) (i : Item), s.taking = true → (s.lane l).state = .opened → (s.lane l).seq = q →
    q ≠ 0 → s.item? l q = some i →
    ∃ s₁, exec (.itemClose l q) s = .next (startBeside l (checkComplete l q s₁))
      ∧ s₁ = (((s.withIntakePort { s.intakePort with framesIn := bump s.intakePort.framesIn }).modItem l q fun j => { j with
            raised := if j.sides.length < j.sidesDeclared then j.raised ||| 0x2000 else j.raised
            state := .reducing }).modLane l fun k => { k with
          state := .idle, seq := 0, active := none, stallRunning := false, stallRemaining := 0 })
      ∧ s₁.item? l q = some { i with
          raised := if i.sides.length < i.sidesDeclared then i.raised ||| 0x2000 else i.raised
          state := .reducing }
      ∧ (s₁.lane l).context = { (s.lane l).context with
          state := .idle, seq := 0, active := none, stallRunning := false, stallRemaining := 0 }
      ∧ (s₁.lane l).counters = (s.lane l).counters ∧ (∀ k, k ≠ l → s₁.lane k = s.lane k)
      ∧ s₁ = { s with
          lanes := s₁.lanes
          intakePort := { s.intakePort with framesIn := bump s.intakePort.framesIn } })
    ∧ (∀ (s t : State) (l : Fin 16) (q : Seq), laneResetNext l s = true → exec (.itemClose l q) s = .next t →
      StartsNoneOf l s t)

/-- R58, R77, R118: an item that is closed, with every side DONE or NOT_REDUCED, waits in AWAIT_DISPATCH on a held lane
and is evaluated at once on one that is not; any other item stays as it is. R119: a write of HELD that changes
nothing; a hold taken; and a release, which evaluates the lane's items in AWAIT_DISPATCH one after another in list order
from the head, on the lane with held no, so that none is left there. -/
def Obligations.CompletionWaitsForTheHold : Prop :=
  (∀ (s : State) (l : Fin 16) (q : Seq) (i : Item), s.item? l q = some i →
    (((i.state = .reducing ∨ i.state = .rework)
        ∧ ∀ x, (i.front = some x ∨ i.back = some x) → x.state = .done ∨ x.state = .notReduced) →
      ((s.lane l).held = true → checkComplete l q s = s.modItem l q fun j => { j with state := .awaitDispatch })
        ∧ ((s.lane l).held = false → checkComplete l q s = evaluate l q s))
      ∧ ((i.state ≠ .reducing ∧ i.state ≠ .rework
          ∨ ∃ x, (i.front = some x ∨ i.back = some x) ∧ x.state ≠ .done ∧ x.state ≠ .notReduced) →
        checkComplete l q s = s))
    ∧ (∀ (s : State) (l : Fin 16),
    writeHeld l (s.lane l).held s = s
      ∧ ((s.lane l).held = false → writeHeld l true s = s.setLane l { s.lane l with held := true })
      ∧ ((s.lane l).held = true →
        writeHeld l false s =
          (((s.lane l).list.filter fun i => decide (i.state = .awaitDispatch)).map Item.seq).foldl
            (fun t q => evaluate l q t) (s.setLane l { s.lane l with held := false }))
      ∧ ((s.lane l).held = true → ((s.lane l).list.map Item.seq).Nodup →
        (∀ i, i ∈ ((writeHeld l false s).lane l).list → i.state ≠ .awaitDispatch)
          ∧ ((writeHeld l false s).lane l).held = false
          ∧ ((writeHeld l false s).lane l).list.map Item.seq = (s.lane l).list.map Item.seq))

/-- STALL_EXPIRY (R91): the lane whose timer has run out is IDLE afterwards, its last timed-out sequence is the item's, and
stalls is counted; the active side's input is closed, with cause STALL if it was open; the item is no longer RECEIVING; the
other lanes' contexts do not change. R90, R92: with time left, a stopped timer, or a lane in IDLE or DRAIN, the expiry does
not happen (log 5, log 6); so it does not happen once a frame of the open item has been taken first, whether it restarted
the timer or closed the item. For an open side that is neither DONE nor NOT_REDUCED the record holds INPUT_STALL and its bound
unit the final output height of the rows stored. The expiry, whole (R88, R91): the truncation of an open active side, the
bound unit seeing the close (`Binding.inputCloses`, spelt out in `Obligations.SideCloseClosesTheInput`), the close of the
item and its judgement if it is complete, the stall recorded, and the Exchange Port starting what it can. (The order of the
flow frames of the paused flag and of returned pages in this event is log 12, how often it evaluates the paused flag log 28.)
(A frame of the current sequence is a match even where that is the last timed-out sequence too: log 30.)
Where a lane reset comes together with the event and is taken
second, no record of the lane starts (R95, R128, R139, R153; that coming together is waiting next in the queue of commands is log 33). -/
def Obligations.StallExpiryClosesTheItem : Prop :=
  (∀ (s : State) (l : Fin 16), (s.lane l).stallRunning = true → (s.lane l).stallRemaining = 0 →
    ((s.lane l).state = .opened ∨ (s.lane l).state = .side) →
    ∃ t, exec (.stallExpiry l) s = .next t
      ∧ (t.lane l).context = { (s.lane l).context with
          state := .idle, seq := 0, active := none, stallRunning := false, stallRemaining := 0
          lastTimedOut := some (s.lane l).seq }
      ∧ (t.lane l).counters.stalls = bump (s.lane l).counters.stalls
      ∧ (∀ f x, (s.lane l).state = .side → (s.lane l).active = some f →
          s.side? ⟨l, (s.lane l).seq, f⟩ = some x →
          ∃ y, t.side? ⟨l, (s.lane l).seq, f⟩ = some y ∧ y.inputClosed = true ∧ y.rowsStored = x.rowsStored
            ∧ y.truncation = (if x.inputClosed = true then x.truncation else some .stall))
      ∧ (∀ f x, (s.lane l).state = .side → (s.lane l).active = some f →
          s.side? ⟨l, (s.lane l).seq, f⟩ = some x → x.inputClosed = false → x.state ≠ .done → x.state ≠ .notReduced →
          ∃ y, t.side? ⟨l, (s.lane l).seq, f⟩ = some y ∧ y.raised = x.raised ||| 0x0002 ∧ y.state = x.state
            ∧ ∀ u b, x.boundUnit = some u → s.unit u = some b →
              y.outHeight = x.rowsStored * b.dout / b.din ∧ t.unit u = some (b.inputCloses x.rowsStored))
      ∧ (∀ j, t.item? l (s.lane l).seq = some j → j.state ≠ .receiving)
      ∧ (∀ k, k ≠ l → (t.lane k).context = (s.lane k).context)
      ∧ (t.intakePort, t.admission, t.mgmt) = (s.intakePort, s.admission, s.mgmt))
    ∧ (∀ (s : State) (l : Fin 16),
      ((s.lane l).stallRunning = false ∨ 0 < (s.lane l).stallRemaining ∨ (s.lane l).state = .idle
        ∨ (s.lane l).state = .drain) →
      exec (.stallExpiry l) s = .next s)
    ∧ (∀ (s t : State) (l : Fin 16) (q : Seq) (f : Instr), s.taking = true →
      ((s.lane l).state = .opened ∨ (s.lane l).state = .side) → (s.lane l).seq = q → q ≠ 0 → (s.lane l).stallMs ≠ 0 →
      ((∃ a r w h, f = .sideOpen l q a r w h) ∨ (∃ a b rows, f = .sideData l q a b rows ∧ rows.length ≤ 16380)
        ∨ f = .sideClose l q ∨ f = .itemClose l q) →
      exec f s = .next t → exec (.stallExpiry l) t = .next t)
    ∧ (∀ (s : State) (l : Fin 16) (q : Seq) (v : State), (s.lane l).stallRunning = true → (s.lane l).stallRemaining = 0 →
      ((s.lane l).state = .opened ∨ (s.lane l).state = .side) → (s.lane l).seq = q →
      ((∀ f x, (s.lane l).active = some f → s.side? ⟨l, q, f⟩ = some x → x.inputClosed = true) ∧ v = s
        ∨ ∃ f x s₁, (s.lane l).active = some f ∧ s.side? ⟨l, q, f⟩ = some x ∧ x.inputClosed = false
          ∧ s₁ = (s.modSide ⟨l, q, f⟩ fun y => { y with
              truncation := some .stall, raised := y.raised ||| 0x0002, inputClosed := true })
          ∧ ((∀ u, x.boundUnit = some u → s.unit u = none) ∧ v = s₁
            ∨ ∃ u b, x.boundUnit = some u ∧ s.unit u = some b
              ∧ v = evalPaused l ((s₁.setUnit u (some (b.inputCloses x.rowsStored))).modSide ⟨l, q, f⟩ fun y => { y with
                  outHeight := x.rowsStored * b.dout / b.din }))) →
      exec (.stallExpiry l) s =
        .next (startBeside l ((checkComplete l q ((v.modItem l q fun i => { i with
            raised := if i.sides.length < i.sidesDeclared then i.raised ||| 0x2000 else i.raised
            state := .reducing }).modLane l fun k => { k with
          state := .idle, seq := 0, active := none, stallRunning := false, stallRemaining := 0 })).modLane l fun k =>
          { k with lastTimedOut := some q, counters := { k.counters with stalls := bump k.counters.stalls } })))
    ∧ (∀ (s t : State) (l : Fin 16), laneResetNext l s = true → exec (.stallExpiry l) s = .next t → StartsNoneOf l s t)

/-! ### Conditions, dispositions and rework (chapters 7 and 8) -/

/-- R111 to R113: the sets formed at an evaluation: PAIR_MISMATCH found anew, and each set's potent members those whose
flag in the governing mask is clear (that the flag of condition n is bit n of a mask is log 31). R117 and R120: an evaluation faults exactly at the first potent condition for
which a fault kind holds, with that kind. R121 and R123: with no fault, the lowest-numbered potent DIVERT condition
diverts; an evaluation of an item whose own set holds item conditions only (see `Obligations.EveryStepKeepsTheRecordsLawful`)
marks exactly when every potent condition has a usable descriptor of class MARK. R122 and R132: sides go to rework
only when none of the affected sides is exhausted, each under its lowest-numbered potent REWORK condition; a side
reworked twice, or never reduced, is exhausted, and the item is then diverted. The chosen condition of a side is its
lowest-numbered potent condition with a descriptor of class REWORK, and of two exhausted sides the lower chosen condition
is cited (R122).
(A side's output width is read through `Side.results`, spelt out in `Obligations.LaneResetWithdrawsTheRecords`; log 11.) -/
def Obligations.JudgementFollowsTheSteps : Prop :=
  (∀ (i : Item) (n : Condition),
    (i.sidesDeclared = 2 →
      (holds (formSets i).raised 14 = true ↔
        ∃ f b p, i.front = some f ∧ i.back = some b ∧ f.snapshot = some p ∧ f.state = .done ∧ b.state = .done
          ∧ p.pairTolerance <
            max f.results.outWidth b.results.outWidth - min f.results.outWidth b.results.outWidth))
      ∧ (i.sidesDeclared ≠ 2 ∨ n ≠ 14 → holds (formSets i).raised n = holds i.raised n)
      ∧ (holds (formSets i).potent n = true ↔ holds (formSets i).raised n = true ∧ holds i.mask n = false)
      ∧ (∀ face x, i.side face = some x → ∃ y, (formSets i).side face = some y ∧ y.raised = x.raised
          ∧ (holds y.potent n = true ↔ holds x.raised n = true ∧ holds ((x.snapshot.map Profile.mask).getD i.mask) n = false)))
    ∧ (∀ (d : DispositionUnit) (ps : Vector Profile 64) (i : Item) (n : Condition) (k : FaultKind),
    (judge d ps i = .fault n k ↔
      isPotent i n = true ∧ faultOf d ps n = k ∧ k ≠ .none
        ∧ ∀ m, m < n → isPotent i m = true → faultOf d ps m = .none)
      ∧ (faultOf d ps n = .beyondExtent ↔ d.extent ≤ n.val)
      ∧ (faultOf d ps n = .notPresent ↔ n.val < d.extent ∧ (d.descriptors[n.val]).present = false)
      ∧ (faultOf d ps n = .reworkOnItem ↔
          n.val < d.extent ∧ (d.descriptors[n.val]).present = true ∧ (d.descriptors[n.val]).cls = .rework ∧ 13 ≤ n.val)
      ∧ (faultOf d ps n = .altProfileInvalid ↔
          n.val < d.extent ∧ (d.descriptors[n.val]).present = true ∧ (d.descriptors[n.val]).cls = .rework ∧ n.val < 13
            ∧ (ps[(d.descriptors[n.val]).alternate.val]).valid = false))
    ∧ (∀ (d : DispositionUnit) (ps : Vector Profile 64) (i : Item) (n : Condition),
    (judge d ps i = .divert n ↔
      isPotent i n = true ∧ (d.descriptors[n.val]).cls = .divert ∧ (∀ m, isPotent i m = true → faultOf d ps m = .none)
        ∧ ∀ m, m < n → isPotent i m = true → (d.descriptors[m.val]).cls ≠ .divert)
      ∧ ((∀ m : Condition, m.val < 13 → holds i.potent m = false) →
        (judge d ps i = .mark ↔
        ∀ m, isPotent i m = true → faultOf d ps m = .none ∧ (d.descriptors[m.val]).cls = .mark)))
    ∧ (∀ (d : DispositionUnit) (ps : Vector Profile 64) (i : Item),
    (∀ f b, judge d ps i = .rework f b →
      f = chosen d i.front ∧ b = chosen d i.back ∧ (f ≠ none ∨ b ≠ none)
        ∧ (∀ x, i.front = some x → f ≠ none → x.state ≠ .notReduced ∧ x.reworkCount < 2)
        ∧ (∀ x, i.back = some x → b ≠ none → x.state ≠ .notReduced ∧ x.reworkCount < 2))
      ∧ (∀ n, judge d ps i = .exhausted n →
        (d.descriptors[n.val]).cls = .rework
          ∧ (∃ x, (i.front = some x ∨ i.back = some x) ∧ (x.state = .notReduced ∨ 2 ≤ x.reworkCount)
            ∧ holds x.potent n = true ∧ chosen d (some x) = some n)
          ∧ ∀ y m, (i.front = some y ∨ i.back = some y) → (y.state = .notReduced ∨ 2 ≤ y.reworkCount) →
            chosen d (some y) = some m → n ≤ m))
    ∧ (∀ (d : DispositionUnit) (x : Side),
      chosen d none = none
        ∧ (∀ n, chosen d (some x) = some n ↔
          holds x.potent n = true ∧ (d.descriptors[n.val]).cls = .rework
            ∧ ∀ m, m < n → holds x.potent m = true → (d.descriptors[m.val]).cls ≠ .rework)
        ∧ (chosen d (some x) = none ↔ ∀ m : Condition, holds x.potent m = true → (d.descriptors[m.val]).cls ≠ .rework))

/-- R66, R67, R120 to R125: what an evaluation makes of its item: MARK with the mark list, input pages returned; a notice
with its reason, cited condition, fault kind and code, all pages returned; the counters of R127. R53, R125, R130: an
evaluation that sends sides to rework, with all four units bound: the item is in REWORK with disposition REWORK, its
affected sides join the rework wait list in face order, and reworks is counted for each. A marked item keeps its sides
with their output pages and bodies (R66, R67). A side sent to rework has its sets emptied, its count raised by 1 and, under
the alternate profile of its chosen condition, a new snapshot whose budget is at most its reserved pages, and is in
REWORK_WAIT; the rest of it, and a side that is not affected, stay (R130 to R133). The
global stop is evaluated when pages return, and the flow state changes by nothing else (R61, R160). An evaluation that sends
sides to rework, whatever units are FREE (R54, R130, R134): its sides join the rework wait list and the grants that this allows
are made in the same event (each rework binding evaluating the paused flag by itself: log 28). (The fields of a dispatch record that
R125 gives no value are log 27.)
A marked or diverted item, whole (R112, R113, R123, R124): the record keeps every field but its sets, its state, its dispatch
record and its sides' potent sets and pages, in its place in the list; the other records, the other lanes and all else stay. -/
def Obligations.EvaluationDispatchesTheItem : Prop :=
  (∀ (s : State) (l : Fin 16) (q : Seq) (i : Item), s.item? l q = some i →
    (judge s.disposition s.admission.profiles (formSets i) = .mark →
      ∃ j, (evaluate l q s).item? l q = some j ∧ j.state = .ready ∧ j.dispatch.disposition = .mark
        ∧ j.dispatch.markList =
            (allConditions.filter fun n => isPotent (formSets i) n).map (fun n => (s.disposition.descriptors[n.val]).code)
        ∧ (∀ x, (j.front = some x ∨ j.back = some x) → x.inputPages = 0)
        ∧ (∀ face, j.side face = ((formSets i).side face).map fun x => { x with inputPages := 0, input := [] })
        ∧ (evaluate l q s).freePages + j.pages = s.freePages + i.pages
        ∧ (evaluate l q s).disposition = s.disposition)
      ∧ (∀ n, judge s.disposition s.admission.profiles (formSets i) = .divert n →
        ∃ j, (evaluate l q s).item? l q = some j ∧ j.state = .ready ∧ j.pages = 0
          ∧ j.dispatch = ⟨.diverted, .condition, some n, .none, (s.disposition.descriptors[n.val]).code, []⟩
          ∧ (evaluate l q s).freePages = s.freePages + i.pages
          ∧ (evaluate l q s).disposition = s.disposition)
      ∧ (∀ n k, judge s.disposition s.admission.profiles (formSets i) = .fault n k →
        ∃ j, (evaluate l q s).item? l q = some j ∧ j.state = .ready ∧ j.pages = 0
          ∧ j.dispatch = ⟨.diverted, .dispatchFault, some n, k, 0, []⟩
          ∧ (evaluate l q s).freePages = s.freePages + i.pages
          ∧ (evaluate l q s).disposition =
              { s.disposition with dispatchFaults := bump s.disposition.dispatchFaults })
      ∧ (∀ n, judge s.disposition s.admission.profiles (formSets i) = .exhausted n →
        ∃ j, (evaluate l q s).item? l q = some j ∧ j.state = .ready ∧ j.pages = 0
          ∧ j.dispatch = ⟨.diverted, .reworkExhausted, some n, .none, (s.disposition.descriptors[n.val]).code, []⟩
          ∧ (evaluate l q s).freePages = s.freePages + i.pages
          ∧ (evaluate l q s).disposition =
              { s.disposition with reworkExhausted := bump s.disposition.reworkExhausted }))
    ∧ (∀ (s : State) (l : Fin 16) (q : Seq) (i : Item) (f b : Option Condition), s.item? l q = some i →
    (∀ u, s.unit u ≠ none) → judge s.disposition s.admission.profiles (formSets i) = .rework f b →
    ∃ j, (evaluate l q s).item? l q = some j ∧ j.state = .rework ∧ j.dispatch.disposition = .rework
      ∧ j.dispatch.reason = .none ∧ j.dispatch.cited = none ∧ j.dispatch.markList = []
      ∧ j.raised = (formSets i).raised ∧ j.pages = i.pages
      ∧ (∀ face n, (face = .front ∧ f = some n ∨ face = .back ∧ b = some n) →
        j.side face = ((formSets i).side face).map fun x => { x with
          raised := 0
          potent := 0
          reworkCount := x.reworkCount + 1
          snapshot := some { s.admission.profiles[(s.disposition.descriptors[n.val]).alternate.val] with
            budget := min (s.admission.profiles[(s.disposition.descriptors[n.val]).alternate.val]).budget
              (x.outputPages * 65536) }
          profileUsed := (s.disposition.descriptors[n.val]).alternate
          state := .reworkWait })
      ∧ (f = none → j.front = (formSets i).front) ∧ (b = none → j.back = (formSets i).back)
      ∧ (evaluate l q s).reduction.reworkWait = s.reduction.reworkWait
          ++ (if f.isSome = true then [⟨l, q, .front⟩] else []) ++ (if b.isSome = true then [⟨l, q, .back⟩] else [])
      ∧ ((evaluate l q s).lane l).counters.reworks =
          (if f.isSome = true ∧ b.isSome = true then bump (bump (s.lane l).counters.reworks)
            else bump (s.lane l).counters.reworks)
      ∧ (evaluate l q s).freePages = s.freePages ∧ (evaluate l q s).flow = s.flow)
    ∧ (∀ (s : State) (l : Fin 16) (q : Seq) (i : Item), s.item? l q = some i →
      (∀ f b, judge s.disposition s.admission.profiles (formSets i) ≠ .rework f b) →
      (evaluate l q s).flow =
        if (evaluate l q s).freePages = s.freePages then s.flow
        else (evalStop (s.withFree (evaluate l q s).freePages)).flow)
    ∧ (∀ (s : State) (l : Fin 16) (q : Seq) (i : Item) (f b : Option Condition), s.item? l q = some i →
    judge s.disposition s.admission.profiles (formSets i) = .rework f b →
    ∃ j v, evaluate l q s = grantAll v
      ∧ v = (((s.modItem l q fun _ => j).withReduction { s.reduction with
            reworkWait := s.reduction.reworkWait
              ++ (if f.isSome = true then [⟨l, q, .front⟩] else []) ++ (if b.isSome = true then [⟨l, q, .back⟩] else [])
          }).countLane l fun k => { k with
            reworks := if f.isSome = true ∧ b.isSome = true then bump (bump k.reworks) else bump k.reworks })
      ∧ j = { formSets i with
          front := j.front, back := j.back, state := .rework
          dispatch := { disposition := .rework, reason := .none, cited := none, fault := .none, code := 0, markList := [] } }
      ∧ (∀ face n, (face = .front ∧ f = some n ∨ face = .back ∧ b = some n) →
        j.side face = ((formSets i).side face).map fun x => { x with
          raised := 0
          potent := 0
          reworkCount := x.reworkCount + 1
          snapshot := some { s.admission.profiles[(s.disposition.descriptors[n.val]).alternate.val] with
            budget := min (s.admission.profiles[(s.disposition.descriptors[n.val]).alternate.val]).budget
              (x.outputPages * 65536) }
          profileUsed := (s.disposition.descriptors[n.val]).alternate
          state := .reworkWait })
      ∧ (f = none → j.front = (formSets i).front) ∧ (b = none → j.back = (formSets i).back))
    ∧ (∀ (s u : State) (l : Fin 16) (i j : Item) (before behind : List Item) (d : DispositionUnit) (g : Side → Side)
      (r : Dispatch),
      (s.lane l).list = before ++ i :: behind → (∀ x ∈ before, x.seq ≠ i.seq) →
      ((judge s.disposition s.admission.profiles (formSets i) = .mark ∧ d = s.disposition
          ∧ g = (fun x => { x with inputPages := 0, input := [] })
          ∧ r = ⟨.mark, .none, none, .none, 0, (allConditions.filter fun n => isPotent (formSets i) n).map
              fun n => (s.disposition.descriptors[n.val]).code⟩)
        ∨ ((∃ n, judge s.disposition s.admission.profiles (formSets i) = .divert n ∧ d = s.disposition
              ∧ r = ⟨.diverted, .condition, some n, .none, (s.disposition.descriptors[n.val]).code, []⟩)
            ∨ (∃ n k, judge s.disposition s.admission.profiles (formSets i) = .fault n k
              ∧ d = { s.disposition with dispatchFaults := bump s.disposition.dispatchFaults }
              ∧ r = ⟨.diverted, .dispatchFault, some n, k, 0, []⟩)
            ∨ ∃ n, judge s.disposition s.admission.profiles (formSets i) = .exhausted n
              ∧ d = { s.disposition with reworkExhausted := bump s.disposition.reworkExhausted }
              ∧ r = ⟨.diverted, .reworkExhausted, some n, .none, (s.disposition.descriptors[n.val]).code, []⟩)
          ∧ g = fun x => { x with inputPages := 0, input := [], outputPages := 0, body := [] }) →
      j = { i with
        raised := (formSets i).raised
        potent := (formSets i).raised &&& ~~~i.mask
        front := i.front.map fun x => g { x with potent := x.raised &&& ~~~((x.snapshot.map Profile.mask).getD i.mask) }
        back := i.back.map fun x => g { x with potent := x.raised &&& ~~~((x.snapshot.map Profile.mask).getD i.mask) }
        state := .ready
        dispatch := r } →
      u = { s with lanes := s.lanes.set l.val { s.lane l with list := before ++ j :: behind }, disposition := d } →
      evaluate l i.seq s =
        if i.pages = j.pages then u else evalStop (u.withFree (s.freePages + (i.pages - j.pages))))

/-! ### Lane order and egress (chapter 9) -/

/-- RECORD_START (R142, R143): with the exchange link idle, the first lane from the round-robin position whose head is READY
is taken, its head becomes EMITTING, its first frame starts, and the position moves past it; nothing else changes. (That
the emission's next frame names the frame in progress is log 22.) -/
def Obligations.RecordStartTakesTheNextReadyLane : Prop :=
  ∀ (s : State) (k : Fin 16) (l : Fin 16) (i : Item) (rest : List Item),
    s.egress.emission = none → s.egress.inProgress = none → s.egress.halted = false → s.egress.replies = [] →
    l = s.egress.roundRobin + k → (∀ k', k' < k → headReady s (s.egress.roundRobin + k') = false) →
    (s.lane l).list = i :: rest → i.state = .ready →
    exec .recordStart s =
      .next { s.setLane l { s.lane l with list := { i with state := .emitting } :: rest } with
        egress := { s.egress with
          roundRobin := l + 1
          emission := some ⟨l, i.seq, if i.dispatch.disposition = .mark then .itemHead else .itemNotice⟩
          inProgress := some
            { type := if i.dispatch.disposition = .mark then .itemHead else .itemNotice
              lane := BitVec.ofNat 8 l.val
              seq := i.seq
              payload := if i.dispatch.disposition = .mark then itemHeadPayload l i else itemNoticePayload i } } }

/-- EXCHANGE_FRAME_SENT (R145, R152): a frame of a record that is not its last is counted, and the record's next frame,
formed from the record as it stands, starts unless the port is halted. (That the emission's next frame moves on when a
frame has been sent, and so names the frame then in progress, is log 22.) The order of the frames is that of R145, a
SIDE_BODY following another by 8192 bytes (R148); each frame carries the record's lane and sequence; the payloads of
ITEM_HEAD, SIDE_HEAD, ITEM_END and ITEM_NOTICE are laid out as R146, R147, R149, R150, R183 and R185 give; and a frame on
a link is its eight-byte header, with its type code and payload length, and its payload (R183).
Where an engine reset comes together with the frame's end and is taken
second, nothing starts (R155; log 32).
(That discarded scaling results read as those of a side never bound is log 11.) -/
def Obligations.NextFrameOfTheRecordFollows : Prop :=
  (∀ (s : State) (e : Emission) (i : Item) (f : Frame), s.egress.inProgress = some f → s.egress.emission = some e →
    s.item? e.lane e.seq = some i → (f.type = .itemHead ∨ f.type = .sideHead ∨ f.type = .sideBody) →
    exec .exchangeFrameSent s =
      .next { s with
        egress := { s.egress with
          emission := some { e with next := nextPoint i e.next }
          inProgress := if s.egress.halted = true ∨ engineResetNext s = true then none else some (frameAt e.lane i (nextPoint i e.next))
          port := { s.egress.port with framesOut := bump s.egress.port.framesOut } } })
    ∧ (∀ i : Item,
      (∀ x, i.front = some x →
        nextPoint i .itemHead = .sideHead .front
          ∧ (0 < x.bodyLen → nextPoint i (.sideHead .front) = .sideBody .front 0)
          ∧ (∀ off, off + 8192 < x.bodyLen → nextPoint i (.sideBody .front off) = .sideBody .front (off + 8192))
          ∧ (∀ p, (p = .sideHead .front ∧ x.bodyLen = 0 ∨ ∃ off, p = .sideBody .front off ∧ x.bodyLen ≤ off + 8192) →
            nextPoint i p = if i.back = none then .itemEnd else .sideHead .back))
      ∧ (i.front = none → nextPoint i .itemHead = if i.back = none then .itemEnd else .sideHead .back)
      ∧ (∀ x, i.back = some x →
        (0 < x.bodyLen → nextPoint i (.sideHead .back) = .sideBody .back 0)
          ∧ (∀ off, off + 8192 < x.bodyLen → nextPoint i (.sideBody .back off) = .sideBody .back (off + 8192))
          ∧ (∀ p, (p = .sideHead .back ∧ x.bodyLen = 0 ∨ ∃ off, p = .sideBody .back off ∧ x.bodyLen ≤ off + 8192) →
            nextPoint i p = .itemEnd)))
    ∧ (∀ (l : Fin 16) (i : Item) (p : EmitPoint),
      (frameAt l i p).lane = BitVec.ofNat 8 l.val ∧ (frameAt l i p).seq = i.seq
        ∧ (p = .itemHead → (frameAt l i p).type = .itemHead
          ∧ (frameAt l i p).payload =
            [BitVec.ofNat 8 l.val] ++ be32 i.seq ++ be16 i.member ++ [i.cls] ++ be32 i.date
              ++ [BitVec.ofNat 8 i.profileIndex.val, BitVec.ofNat 8 i.sides.length] ++ be16 i.raised ++ be16 i.potent
              ++ [BitVec.ofNat 8 i.dispatch.markList.length] ++ i.dispatch.markList
          ∧ (frameAt l i p).payload.length = 19 + i.dispatch.markList.length)
        ∧ (∀ face x r, p = .sideHead face → i.side face = some x →
          r = (if x.resultsDiscarded = true then ⟨0, false, 0, 0⟩
            else (⟨x.outRes, x.resClamped, x.outWidth, x.outHeight⟩ : ScalingResults)) →
          (frameAt l i p).type = .sideHead
          ∧ (frameAt l i p).payload =
            [if x.face = .front then 1 else 2] ++ num16 x.inRes ++ num16 r.outRes ++ [if r.resClamped then 1 else 0]
              ++ num16 r.outWidth ++ num16 r.outHeight
              ++ [BitVec.ofNat 8 x.reworkCount, BitVec.ofNat 8 x.profileUsed.val]
              ++ be16 x.raised ++ be16 x.potent ++ num16 x.blackPermille ++ [BitVec.ofNat 8 x.meanGrey]
              ++ num16 x.streakColumns ++ num24 x.fullLen ++ num24 x.bodyLen
          ∧ (frameAt l i p).payload.length = 27)
        ∧ (∀ face x off, p = .sideBody face off → i.side face = some x → (frameAt l i p).type = .sideBody
          ∧ (frameAt l i p).payload = (x.body.drop off).take (min 8192 (x.bodyLen - off)))
        ∧ (p = .itemEnd → (frameAt l i p).type = .itemEnd
          ∧ (frameAt l i p).payload = be32 i.seq ++ num32 (i.sides.map Side.bodyLen).sum)
        ∧ (p = .itemNotice → (frameAt l i p).type = .itemNotice
          ∧ (frameAt l i p).payload =
            be32 i.seq ++ be16 i.member ++ [i.cls,
              match i.dispatch.disposition with
              | .none => 0
              | .mark => 1
              | .diverted => 2
              | .rework => 3
              | .withdrawn => 4,
              match i.dispatch.reason with
              | .none => 0
              | .condition => 1
              | .dispatchFault => 2
              | .reworkExhausted => 3
              | .laneReset => 4,
              (i.dispatch.cited.map fun n => BitVec.ofNat 8 n.val).getD 255,
              match i.dispatch.fault with
              | .none => 0
              | .beyondExtent => 1
              | .notPresent => 2
              | .reworkOnItem => 3
              | .altProfileInvalid => 4,
              i.dispatch.code]))
    ∧ (∀ (s : State) (f : Frame) (c : Byte),
      (f.type, c) ∈ [(.mgmtReply, 0x21), (.pause, 0x30), (.resume, 0x31), (.stopAll, 0x32), (.startAll, 0x33),
        (.refusal, 0x34), (.itemHead, 0x50), (.sideHead, 0x51), (.sideBody, 0x52), (.itemEnd, 0x53),
        (.itemNotice, 0x54)] →
      f.bytes = [c, f.lane] ++ num16 f.payload.length ++ be32 f.seq ++ f.payload
        ∧ (s.egress.inProgress = some f → s.exchangeLink = some f.bytes)
        ∧ (∀ k, s.flow.inProgress = some ⟨k, f⟩ → s.intakeLink = some f.bytes))

/-- R148: the payloads of a side's SIDE_BODY frames, joined in order, are its body. -/
def Obligations.BodyFramesCarryTheBody : Prop :=
  ∀ x : Side, x.bodyLen ≤ x.body.length →
    ((List.range ((x.bodyLen + 8191) / 8192)).flatMap fun m => sideBodyPayload x (8192 * m)) = x.body.take x.bodyLen
      ∧ ∀ m, m < (x.bodyLen + 8191) / 8192 →
        1 ≤ (sideBodyPayload x (8192 * m)).length ∧ (sideBodyPayload x (8192 * m)).length ≤ 8192

/-- ITEM_END_SENT and ITEM_NOTICE_SENT (R67, R149, R150, R156, R179): the head record leaves its list, its pages return,
emitted, diverted or withdrawn is counted, the emission is over, the paused flag and the service state follow, and the port
starts what it can. The returned pages evaluate the global stop (R61, R160). (That this comes before the paused flag, and so
START_ALL before RESUME in the flow queue, is the model's choice, log 12.) In DRAINING, the service state becomes STANDBY
when no list holds a record any more (R179).
Where an engine reset comes together with the frame's end and is taken
second, nothing starts (R155; log 32).
Where a lane reset comes together with the event and is taken
second, no record of the lane starts (R95, R128, R139, R153; that coming together is waiting next in the queue of commands is log 33). -/
def Obligations.RecordLeavesAfterItsLastFrame : Prop :=
  (∀ (s : State) (l : Fin 16) (i : Item) (rest : List Item) (pt : EmitPoint) (f : Frame),
    s.egress.inProgress = some f → s.egress.emission = some ⟨l, i.seq, pt⟩ → (s.lane l).list = i :: rest →
    (f.type = .itemEnd → ∃ t u, exec .itemEndSent s = .next (startAfterLast l t) ∧ t = watchService (evalPaused l u)
      ∧ t.mgmt = { s.mgmt with
          service := if s.mgmt.service = .draining ∧ rest = [] ∧ ∀ k, k ≠ l → (s.lane k).list = [] then .standby
            else s.mgmt.service }
      ∧ u.lane l = { s.lane l with
          list := rest, counters := { (s.lane l).counters with emitted := bump (s.lane l).counters.emitted } }
      ∧ (∀ k, k ≠ l → u.lane k = s.lane k) ∧ u.freePages = s.freePages + i.pages
      ∧ u.flow = (if i.pages = 0 then s.flow else (evalStop (s.withFree (s.freePages + i.pages))).flow)
      ∧ u.egress = { s.egress with
          emission := none, inProgress := none
          port := { s.egress.port with framesOut := bump s.egress.port.framesOut } }
      ∧ (u.intakePort, u.admission, u.reduction, u.disposition, u.mgmt) =
          (s.intakePort, s.admission, s.reduction, s.disposition, s.mgmt))
    ∧ (f.type = .itemNotice → ∃ t u, exec .itemNoticeSent s = .next (startAfterLast l t) ∧ t = watchService (evalPaused l u)
      ∧ t.mgmt = { s.mgmt with
          service := if s.mgmt.service = .draining ∧ rest = [] ∧ ∀ k, k ≠ l → (s.lane k).list = [] then .standby
            else s.mgmt.service }
      ∧ u.lane l = { s.lane l with
          list := rest
          counters := if i.dispatch.disposition = .withdrawn
            then { (s.lane l).counters with withdrawn := bump (s.lane l).counters.withdrawn }
            else { (s.lane l).counters with diverted := bump (s.lane l).counters.diverted } }
      ∧ (∀ k, k ≠ l → u.lane k = s.lane k) ∧ u.freePages = s.freePages + i.pages
      ∧ u.flow = (if i.pages = 0 then s.flow else (evalStop (s.withFree (s.freePages + i.pages))).flow)
      ∧ u.egress = { s.egress with
          emission := none, inProgress := none
          port := { s.egress.port with framesOut := bump s.egress.port.framesOut } }
      ∧ (u.intakePort, u.admission, u.reduction, u.disposition, u.mgmt) =
          (s.intakePort, s.admission, s.reduction, s.disposition, s.mgmt)))
    ∧ (∀ s : State, watchService s = { s with
        mgmt := { s.mgmt with
          service := if s.mgmt.service = .draining ∧ ∀ l, (s.lane l).list = [] then .standby else s.mgmt.service } })
    ∧ (∀ (s t : State) (l : Fin 16) (q : Seq) (pt : EmitPoint), s.egress.emission = some ⟨l, q, pt⟩ →
      (exec .itemEndSent s = .next t ∨ exec .itemNoticeSent s = .next t) →
      (laneResetNext l s = true → StartsNoneOf l s t)
        ∧ (engineResetNext s = true → t ≠ s → t.egress.inProgress = none))

/-- R143, R151, R152: what the Exchange Port starts when it can: the next frame of the record in EMITTING, else the reply
at the head of the queue, else a record by R143; nothing while halted or while a frame is in progress.
EXCHANGE_REPLY_SENT (R151, R167): the reply leaves its queue and is counted; with no request waiting, the port
then starts what it can; else the waiting requests are taken in the same event as far as they can be (R167, see
`Obligations.RequestWaitsOrOverflows`). (That they are taken before the port starts is the model's choice, log 20.)
What is started at the end of an event of a lane, and at the end of a frame, with the reset that holds it back: the head of the
lane for a lane reset (R95, R128, R139, R153), everything for an engine reset (R155). A reset comes together with an event when it
waits next in the queue of commands and is taken in its event: the model's reading, logs 32 and 33. -/
def Obligations.ExchangePortStartsInItsOrder : Prop :=
  (∀ s : State,
    (s.egress.halted = true ∨ s.egress.inProgress.isSome = true → startExchange s = s)
      ∧ (s.egress.halted = false → s.egress.inProgress = none →
        (∀ e i, s.egress.emission = some e → s.item? e.lane e.seq = some i →
          startExchange s = { s with egress := { s.egress with inProgress := some (frameAt e.lane i e.next) } })
        ∧ (∀ p rest, s.egress.emission = none → s.egress.replies = p :: rest →
          startExchange s = { s with
            egress := { s.egress with inProgress := some { type := .mgmtReply, lane := 255, seq := 0, payload := p } } })
        ∧ (s.egress.emission = none → s.egress.replies = [] → exec .recordStart s = .next (startExchange s))))
    ∧ (∀ (s : State) (f : Frame) (p : List Byte) (rest : List (List Byte)), s.egress.inProgress = some f →
    f.type = .mgmtReply → s.egress.replies = p :: rest → s.mgmt.requests = [] →
    exec .exchangeReplySent s =
      .next (startAfterFrame { s with
        egress := { s.egress with
          inProgress := none
          replies := rest
          port := { s.egress.port with framesOut := bump s.egress.port.framesOut } } }))
    ∧ (∀ (s : State) (f : Frame) (p : List Byte) (rest : List (List Byte)), s.egress.inProgress = some f →
    f.type = .mgmtReply → s.egress.replies = p :: rest →
    exec .exchangeReplySent s =
      .next (startAfterFrame (takeRequests { s with
        egress := { s.egress with
          inProgress := none
          replies := rest
          port := { s.egress.port with framesOut := bump s.egress.port.framesOut } } })))
    ∧ (∀ (s : State) (l k : Fin 16), l = s.egress.roundRobin + k → laneResetNext l s = true → s.egress.emission = none →
      s.egress.replies = [] → headReady s l = true → (∀ k', k' < k → headReady s (s.egress.roundRobin + k') = false) →
      startBeside l s = s)
    ∧ (∀ (s : State) (l : Fin 16),
      (laneResetNext l s = false ∨ s.egress.emission ≠ none ∨ s.egress.replies ≠ [] ∨ headReady s l = false
          ∨ (∃ k k' : Fin 16, l = s.egress.roundRobin + k ∧ k' < k ∧ headReady s (s.egress.roundRobin + k') = true) →
        startBeside l s = startExchange s)
      ∧ startAfterFrame s = (if engineResetNext s = true then s else startExchange s)
      ∧ startAfterLast l s = (if engineResetNext s = true then s else startBeside l s)
      ∧ (laneResetNext l s = true ↔ s.taking = true ∧ s.mgmt.requests = [] ∧ s.flow.replies.length < 8
          ∧ ∃ c rest, s.pending = c :: rest ∧ intakeRequest? c = some (.resetLane (BitVec.ofNat 8 l.val)))
      ∧ (engineResetNext s = true ↔ s.taking = true ∧ s.mgmt.requests = [] ∧ s.flow.replies.length < 8
          ∧ ∃ c rest, s.pending = c :: rest ∧ intakeRequest? c = some .resetEngine))
    ∧ (∀ (tag : BitVec 16) (lane : Byte) (payload : List Byte) (r : Request),
      intakeRequest? (.resetLane .intake tag lane) = some (.resetLane lane)
        ∧ intakeRequest? (.resetEngine .intake tag) = some .resetEngine
        ∧ (intakeRequest? (.mgmtRequest .intake payload) = some r ↔ ∃ g, parseRequest payload = .request g r)
        ∧ intakeRequest? (.resetLane .exchange tag lane) = none ∧ intakeRequest? (.resetEngine .exchange tag) = none
        ∧ intakeRequest? (.mgmtRequest .exchange payload) = none)

/-! ### Flow control (chapter 10) -/

/-- R157: an evaluation sets or clears a lane's paused flag by its marks and its occupancy, queues PAUSE or RESUME exactly
when the flag changes, and changes nothing else. R160: the global stop is set below the page reserve and cleared at or
above the reserve plus the margin; STOP_ALL or START_ALL is queued and global stops counted exactly when the flag
changes; nothing else changes. R156: the backlog of a lane is the sum, over its sides in STORING or BOUND, of rows stored
less the rows that the bound unit has consumed; no other side counts. -/
def Obligations.FlowFlagsFollowTheirMarks : Prop :=
  (∀ (s : State) (l : Fin 16),
    ((s.lane l).xoff ≤ s.backlog l ∨ (s.lane l).list.length = 8 → ((evalPaused l s).lane l).paused = true)
      ∧ ((s.lane l).xon + 16 ≤ (s.lane l).xoff → s.backlog l ≤ (s.lane l).xon → (s.lane l).list.length ≤ 7 →
          ((evalPaused l s).lane l).paused = false)
      ∧ ((s.lane l).xon < s.backlog l → s.backlog l < (s.lane l).xoff → (s.lane l).list.length ≠ 8 →
          ((evalPaused l s).lane l).paused = (s.lane l).paused)
      ∧ evalPaused l s = { s with
          lanes := s.lanes.set l.val { s.lane l with paused := ((evalPaused l s).lane l).paused }
          flow := { s.flow with
            flowQueue :=
              if ((evalPaused l s).lane l).paused = (s.lane l).paused then s.flow.flowQueue
              else enqueueFlow (if ((evalPaused l s).lane l).paused = true then .pause l else .resume l)
                s.flow.flowQueue } })
    ∧ (∀ (s : State) (g : Bool),
    g = (if s.freePages < s.mgmt.pageReserve then true
      else if s.mgmt.pageReserve + s.mgmt.resumeMargin ≤ s.freePages then false else s.flow.globalStop) →
    evalStop s = { s with
      flow := { s.flow with
        globalStop := g
        globalStops := if s.flow.globalStop = false ∧ g = true then bump s.flow.globalStops else s.flow.globalStops
        flowQueue :=
          if g = s.flow.globalStop then s.flow.flowQueue
          else enqueueFlow (if g = true then .stopAll else .startAll) s.flow.flowQueue } })
    ∧ (∀ (s : State) (l : Fin 16), s.backlog l =
      (((s.lane l).list.flatMap Item.sides).map fun x =>
        if x.state = .storing then x.rowsStored
        else if x.state = .bound then
          x.rowsStored - ((x.boundUnit.bind fun u => s.unit u).map Binding.rowsConsumed).getD 0
        else 0).sum)

/-- R162: a queued flow frame joins the tail, a waiting frame of its scope is removed, and the others keep their order;
the queue never holds more than 17 frames. INTAKE_FRAME_START and INTAKE_FRAME_SENT (R73, R162, R163): flow frames
first, then REFUSAL frames, then replies, each in queue order; a frame in progress is sent whole and counted; nothing
else changes. (That a flow frame leaves the flow queue as it starts is log 8; that no frame is in progress after
INTAKE_FRAME_SENT, even while frames wait, because a frame starts at INTAKE_FRAME_START alone, is log 4.) The four flow frames are
those of R162 and R183: PAUSE and RESUME carry their lane, STOP_ALL and START_ALL lane 255, all item sequence 0 and no payload;
two have the same scope when both are of one lane, or both of the whole intake. In the
event in which a reply has been sent, the waiting requests are taken as far as they can be (R167, see
`Obligations.RequestWaitsOrOverflows`), and the Exchange Port starts what it can (that it starts after them is log 20). -/
def Obligations.IntakeTransmitServesTheClassesInOrder : Prop :=
  (∀ (f : FlowFrame) (q : List FlowFrame),
    enqueueFlow f q = q.filter (fun g => !sameScope f g) ++ [f]
      ∧ (q.Pairwise (fun a b => sameScope a b = false) →
        (enqueueFlow f q).Pairwise (fun a b => sameScope a b = false) ∧ (enqueueFlow f q).length ≤ 17))
    ∧ (∀ s : State,
    (s.flow.inProgress ≠ none → exec .intakeFrameStart s = .next s)
      ∧ (∀ f rest, s.flow.inProgress = none → s.flow.flowQueue = f :: rest →
        exec .intakeFrameStart s =
          .next { s with flow := { s.flow with flowQueue := rest, inProgress := some ⟨.flow, flowWire f⟩ } })
      ∧ (∀ r rest, s.flow.inProgress = none → s.flow.flowQueue = [] → s.flow.refusals = r :: rest →
        exec .intakeFrameStart s =
          .next { s with flow := { s.flow with
            inProgress := some ⟨.refusal,
              { type := .refusal, lane := BitVec.ofNat 8 r.lane.val, seq := 0
                payload := BitVec.ofNat 8 r.lane.val :: be32 r.seq ++ [r.reason] }⟩ } })
      ∧ (∀ p rest, s.flow.inProgress = none → s.flow.flowQueue = [] → s.flow.refusals = [] →
          s.flow.replies = p :: rest →
        exec .intakeFrameStart s =
          .next { s with flow := { s.flow with
            inProgress := some ⟨.reply, { type := .mgmtReply, lane := 255, seq := 0, payload := p }⟩ } })
      ∧ (∀ f, s.flow.inProgress = some ⟨.flow, f⟩ →
        exec .intakeFrameSent s =
          .next { s with
            flow := { s.flow with inProgress := none }
            intakePort := { s.intakePort with framesOut := bump s.intakePort.framesOut } })
      ∧ (∀ f r rest, s.flow.inProgress = some ⟨.refusal, f⟩ → s.flow.refusals = r :: rest →
        exec .intakeFrameSent s =
          .next { s with
            flow := { s.flow with inProgress := none, refusals := rest }
            intakePort := { s.intakePort with framesOut := bump s.intakePort.framesOut } })
      ∧ (∀ f p rest, s.flow.inProgress = some ⟨.reply, f⟩ → s.flow.replies = p :: rest → s.mgmt.requests = [] →
          ExchangeSettled s →
        exec .intakeFrameSent s =
          .next { s with
            flow := { s.flow with inProgress := none, replies := rest }
            intakePort := { s.intakePort with framesOut := bump s.intakePort.framesOut } })
      ∧ (∀ f p rest, s.flow.inProgress = some ⟨.reply, f⟩ → s.flow.replies = p :: rest →
        exec .intakeFrameSent s =
          .next (startExchange (takeRequests { s with
            flow := { s.flow with inProgress := none, replies := rest }
            intakePort := { s.intakePort with framesOut := bump s.intakePort.framesOut } }))))
    ∧ (∀ l : Fin 16,
      flowWire (.pause l) = { type := .pause, lane := BitVec.ofNat 8 l.val, seq := 0, payload := [] }
        ∧ flowWire (.resume l) = { type := .resume, lane := BitVec.ofNat 8 l.val, seq := 0, payload := [] })
    ∧ flowWire .stopAll = { type := .stopAll, lane := 255, seq := 0, payload := [] }
    ∧ flowWire .startAll = { type := .startAll, lane := 255, seq := 0, payload := [] }
    ∧ (∀ f g : FlowFrame, sameScope f g = true ↔
      (f ∈ [.stopAll, .startAll] ∧ g ∈ [.stopAll, .startAll])
        ∨ ∃ l, f ∈ [.pause l, .resume l] ∧ g ∈ [.pause l, .resume l])

/-! ### In-band management (chapter 11) -/

/-- R187 and R168: a request's payload is read back as that request under its tag, for every request; a payload that is
read as a request is that request's payload; and the payload of each request is its code, the tag and its operands, as
the tables of R187 lay them out. -/
def Obligations.RequestPayloadsAreReadBack : Prop :=
  (∀ (tag : BitVec 16) (r : Request), parseRequest (r.payload tag) = .request tag r)
    ∧ (∀ (payload : List Byte) (tag : BitVec 16) (r : Request),
      parseRequest payload = .request tag r → payload = r.payload tag)
    ∧ (∀ tag : BitVec 16,
      (∀ i, (Request.readMember i).payload tag = [0x10] ++ be16 tag ++ be16 i)
        ∧ (∀ i e, (Request.writeMember i e).payload tag =
          [0x11] ++ be16 tag ++ be16 i ++ [e.present, e.status, e.defaultProfile] ++ e.classMap.toList)
        ∧ (∀ i, (Request.readProfile i).payload tag = [0x12] ++ be16 tag ++ [i])
        ∧ (∀ i o, (Request.writeProfile i o).payload tag =
          [0x13] ++ be16 tag ++ [i, o.valid] ++ be16 o.outRes
            ++ [o.initialBackground, o.tq, o.darkLimit, o.lightLimit, o.attackShift, o.decayShift]
            ++ be16 o.widthMin ++ be16 o.widthMax ++ be16 o.heightMin ++ be16 o.heightMax
            ++ be16 o.blackMin ++ be16 o.blackMax ++ [o.brightMin, o.brightMax] ++ be16 o.streakPermille
            ++ [o.streakLimit] ++ be24 o.budget ++ [o.pairTolerance] ++ be16 o.mask)
        ∧ (∀ i, (Request.readDisposition i).payload tag = [0x14] ++ be16 tag ++ [i])
        ∧ (∀ i d, (Request.writeDisposition i d).payload tag =
          [0x15] ++ be16 tag ++ [i, d.present, d.cls, d.alternate, d.code])
        ∧ (∀ l f, (Request.readLaneField l f).payload tag = [0x16] ++ be16 tag ++ [l, f])
        ∧ (∀ l f v, (Request.writeLaneField l f v).payload tag = [0x17] ++ be16 tag ++ [l, f] ++ be32 v)
        ∧ (∀ n, (Request.readSetting n).payload tag = [0x18] ++ be16 tag ++ [n])
        ∧ (∀ n v, (Request.writeSetting n v).payload tag = [0x19] ++ be16 tag ++ [n] ++ be16 v)
        ∧ (∀ g l c, (Request.readCounters g l c).payload tag = [0x20] ++ be16 tag ++ [g, l, c])
        ∧ Request.readIdentity.payload tag = [0x22] ++ be16 tag
        ∧ (∀ v, (Request.setServiceState v).payload tag = [0x30] ++ be16 tag ++ [v])
        ∧ (∀ l, (Request.resetLane l).payload tag = [0x32] ++ be16 tag ++ [l])
        ∧ Request.resetEngine.payload tag = [0x34] ++ be16 tag
        ∧ (∀ a b, (Request.copyProfile a b).payload tag = [0x40] ++ be16 tag ++ [a, b])
        ∧ (∀ m c p, (Request.moveClass m c p).payload tag = [0x42] ++ be16 tag ++ be16 m ++ [c, p])
        ∧ (∀ l, (Request.quiesceLane l).payload tag = [0x44] ++ be16 tag ++ [l]))

/-- MGMT_REQUEST (R166 to R168): a request that finds the queue empty and a free reply place is carried out whole in the
event of its arrival, and exactly one reply is queued for its link; a payload that fails checks 1 to 3 is refused with
BAD_REQUEST. R169: a request from the exchange link that is not a read is refused with NOT_PERMITTED, composites as a
whole, and changes nothing but the port's count and its reply queue. (That the request is taken in the event of its own
arrival is log 2.) A payload fails checks 1 to 3 exactly when it is no request's payload (R168, R187). -/
def Obligations.RequestIsCarriedOutWhenItArrives : Prop :=
  (∀ (p : Port) (s : State), ReadyFor p s →
    (∀ (tag : BitVec 16) (r : Request),
      exec (.mgmtRequest p (r.payload tag)) s =
        .next (startExchange (queueReply p (replyPayload tag (carryOut p r (countIn p s)).1)
          (carryOut p r (countIn p s)).2)))
      ∧ (∀ payload, payload.length ≤ 16384 → isBadPayload payload = true →
        ∃ tag, exec (.badRequest p payload) s = .next (replied p tag 0x02 [0x01] (countIn p s))
          ∧ ((∀ c t1 t0 ops, payload = c :: t1 :: t0 :: ops → tag = word16 t1 t0) ∧ (payload.length < 3 → tag = 0))))
    ∧ (∀ (tag : BitVec 16) (r : Request) (s : State), ReadyFor .exchange s →
    (∀ i, r ≠ .readMember i) → (∀ i, r ≠ .readProfile i) → (∀ i, r ≠ .readDisposition i) →
    (∀ l f, r ≠ .readLaneField l f) → (∀ n, r ≠ .readSetting n) → (∀ g l, r ≠ .readCounters g l 0) → r ≠ .readIdentity →
      exec (.mgmtRequest .exchange (r.payload tag)) s =
        .next (replied .exchange tag 0x02 [0x05] (countExchangeIn s)))
    ∧ (∀ payload : List Byte, isBadPayload payload = true ↔ ∀ (tag : BitVec 16) (r : Request), payload ≠ r.payload tag)

/-- MGMT_REQUEST (R166, R167): a request that finds the head waiting for a reply place, or its own reply queue full, waits at
the tail of the request queue; at 8 waiting requests it is discarded and management overflow is counted. The taking of
waiting requests (R167): the head is taken when the reply queue of its port of arrival has a free place, whatever waits
behind it, and those behind it in turn; a taken request is carried out on the state without it, and its reply joins the tail
of its link's reply queue. -/
def Obligations.RequestWaitsOrOverflows : Prop :=
  (∀ (p : Port) (payload : List Byte) (s : State), s.taking = true → payload.length ≤ 16384 → RequestsSettled s →
    ExchangeSettled s →
    (s.mgmt.requests.length < 8 → (s.mgmt.requests ≠ [] ∨ 8 ≤ (repliesOf p s).length) →
      exec (.mgmtRequest p payload) s =
        .next ((countIn p s).withMgmt { s.mgmt with requests := s.mgmt.requests ++ [⟨p, payload⟩] }))
      ∧ (8 ≤ s.mgmt.requests.length →
        exec (.mgmtRequest p payload) s =
          .next ((countIn p s).withMgmt { s.mgmt with overflow := bump s.mgmt.overflow })))
    ∧ (∀ s : State, (s.mgmt.requests = [] → takeRequests s = s)
      ∧ ∀ (p : Port) (payload : List Byte) (rest : List RequestEntry) (u : State),
        s.mgmt.requests = ⟨p, payload⟩ :: rest → u = s.withMgmt { s.mgmt with requests := rest } →
        (8 ≤ (repliesOf p s).length → takeRequests s = s)
          ∧ ((repliesOf p s).length < 8 →
            (∀ tag r, payload = r.payload tag →
              takeRequests s = takeRequests
                (queueReply p (replyPayload tag (carryOut p r u).1) (carryOut p r u).2))
            ∧ (isBadPayload payload = true → ∃ tag,
              takeRequests s = takeRequests (queueReply p (be16 tag ++ [0x02, 0x01]) u)
                ∧ (∀ c t1 t0 ops, payload = c :: t1 :: t0 :: ops → tag = word16 t1 t0) ∧ (payload.length < 3 → tag = 0))))
    ∧ (∀ (payload : List Byte) (s : State),
      queueReply .intake payload s = { s with flow := { s.flow with replies := s.flow.replies ++ [payload] } }
        ∧ queueReply .exchange payload s =
          { s with egress := { s.egress with replies := s.egress.replies ++ [payload] } })

/-- READ_MEMBER, READ_PROFILE, READ_DISPOSITION, READ_LANE_FIELD, READ_SETTING, READ_COUNTERS (clear-after-read no) and
READ_IDENTITY, from either link (R104, R115, R168 to R175, R187): the value as stored, or the refusal of the first
check that fails; nothing else changes. R75 and R187: the fourteen lane fields, by number. R174 and R187: the counter
groups, by number, and the counters of each in reply order; the 32 bytes of a profile record. (The replies are queued in
the event of the arrival: log 2.)
(That the flags of a condition mask stand in its 2 bytes as those of a condition set do is log 31.) -/
def Obligations.ReadsReturnWhatIsStored : Prop :=
  (∀ (p : Port) (tag : BitVec 16) (s : State), ReadyFor p s →
    (∀ i : BitVec 16, exec (.readMember p tag i) s = .next (
        match s.admission.members[i.toNat]? with
        | none => replied p tag 0x02 [0x02] (countIn p s)
        | some e => replied p tag 0x00 ([flagByte e.present, statusByte e.status, byteOf e.defaultProfile.val]
            ++ e.classMap.toList.map mapEntryByte) (countIn p s)))
      ∧ (∀ i : Byte, exec (.readProfile p tag i) s = .next (
        match s.admission.profiles[i.toNat]? with
        | none => replied p tag 0x02 [0x02] (countIn p s)
        | some r => replied p tag 0x00 (profileData r) (countIn p s)))
      ∧ (∀ i : Byte, exec (.readDisposition p tag i) s = .next (
        match s.disposition.descriptors[i.toNat]? with
        | none => replied p tag 0x02 [0x02] (countIn p s)
        | some d => replied p tag 0x00 [flagByte d.present, descriptorClassByte d.cls, byteOf d.alternate.val, d.code]
            (countIn p s)))
      ∧ (∀ lane field : Byte, exec (.readLaneField p tag lane field) s = .next (
        match lane? lane with
        | none => replied p tag 0x02 [0x02] (countIn p s)
        | some l =>
          match laneField? s l field with
          | none => replied p tag 0x02 [0x03] (countIn p s)
          | some v => replied p tag 0x00 (be32 v) (countIn p s)))
      ∧ (∀ n : Byte, exec (.readSetting p tag n) s = .next (
        if n = 0 then replied p tag 0x00 (num16 s.disposition.extent) (countIn p s)
        else if n = 1 then replied p tag 0x00 (num16 s.mgmt.pageReserve) (countIn p s)
        else if n = 2 then replied p tag 0x00 (num16 s.mgmt.resumeMargin) (countIn p s)
        else replied p tag 0x02 [0x02] (countIn p s)))
      ∧ (∀ g lane : Byte, exec (.readCounters p tag g lane 0) s = .next (
        match group? g lane with
        | none => replied p tag 0x02 [0x02] (countIn p s)
        | some k => replied p tag 0x00 (g :: lane :: (groupCounters (countIn p s) k).flatMap be32) (countIn p s)))
      ∧ exec (.readIdentity p tag) s = .next (replied p tag 0x00
          [0x17, 0xE8, 0x01, 0x10, 0x04, 0x08, 0x00, 0x00, 0x01, 0x00, 0x00] (countIn p s)))
    ∧ (∀ (s : State) (l : Fin 16),
    laneField? s l 0 = some (match (s.lane l).state with
      | .idle => 0
      | .opened => 1
      | .side => 2
      | .drain => 3)
      ∧ laneField? s l 1 = some (s.lane l).seq
      ∧ laneField? s l 2 = some (BitVec.ofNat 32 (s.lane l).list.length)
      ∧ laneField? s l 3 = some (BitVec.ofNat 32 (s.backlog l))
      ∧ laneField? s l 4 = some (if (s.lane l).paused then 1 else 0)
      ∧ laneField? s l 5 = some (if (s.lane l).held then 1 else 0)
      ∧ laneField? s l 6 = some (if (s.lane l).enabled then 1 else 0)
      ∧ laneField? s l 7 = some (BitVec.ofNat 32 (s.lane l).xoff)
      ∧ laneField? s l 8 = some (BitVec.ofNat 32 (s.lane l).xon)
      ∧ laneField? s l 9 = some (BitVec.ofNat 32 (s.lane l).stallMs)
      ∧ laneField? s l 10 = some (BitVec.ofNat 32 (s.lane l).stallRemaining)
      ∧ laneField? s l 11 = some ((s.lane l).lastTimedOut.getD 0)
      ∧ laneField? s l 12 = some (match (s.lane l).list.head?.map Item.state with
        | none => 0
        | some .receiving => 1
        | some .reducing => 2
        | some .awaitDispatch => 3
        | some .rework => 4
        | some .ready => 5
        | some .emitting => 6)
      ∧ laneField? s l 13 = some (BitVec.ofNat 32 ((s.lane l).list.map Item.pages).sum)
      ∧ ∀ field : Byte, 13 < field.toNat → laneField? s l field = none)
    ∧ (∀ g lane : Byte,
      (g = 0 → (∀ l : Fin 16, lane = BitVec.ofNat 8 l.val → group? g lane = some (.lane l))
        ∧ (15 < lane.toNat → group? g lane = none))
        ∧ (g = 1 → group? g lane = some .intakePort) ∧ (g = 2 → group? g lane = some .exchangePort)
        ∧ (g = 3 → group? g lane = some .engine) ∧ (3 < g.toNat → group? g lane = none))
    ∧ (∀ (s : State) (l : Fin 16),
      groupCounters s (.lane l) =
          [(s.lane l).counters.admitted, (s.lane l).counters.refused, (s.lane l).counters.emitted,
            (s.lane l).counters.diverted, (s.lane l).counters.withdrawn, (s.lane l).counters.reworks,
            (s.lane l).counters.stalls, (s.lane l).counters.overruns, (s.lane l).counters.stray,
            (s.lane l).counters.late]
        ∧ groupCounters s .intakePort =
          [s.intakePort.framesIn, s.intakePort.checkFailures, s.intakePort.framesOut, s.intakePort.aborted,
            s.intakePort.stray]
        ∧ groupCounters s .exchangePort =
          [s.egress.port.framesIn, s.egress.port.checkFailures, s.egress.port.framesOut, s.egress.port.aborted,
            s.egress.port.stray]
        ∧ groupCounters s .engine =
          [s.disposition.dispatchFaults, s.disposition.reworkExhausted, s.mgmt.overflow, s.flow.globalStops])
    ∧ (∀ p : Profile,
      profileData p =
          [if p.valid then 1 else 0] ++ num16 p.outRes
            ++ [BitVec.ofNat 8 p.initialBackground, BitVec.ofNat 8 p.tq, BitVec.ofNat 8 p.darkLimit,
              BitVec.ofNat 8 p.lightLimit, BitVec.ofNat 8 p.attackShift, BitVec.ofNat 8 p.decayShift]
            ++ num16 p.widthMin ++ num16 p.widthMax ++ num16 p.heightMin ++ num16 p.heightMax
            ++ num16 p.blackMin ++ num16 p.blackMax ++ [BitVec.ofNat 8 p.brightMin, BitVec.ofNat 8 p.brightMax]
            ++ num16 p.streakPermille ++ [BitVec.ofNat 8 p.streakLimit] ++ num24 p.budget
            ++ [BitVec.ofNat 8 p.pairTolerance] ++ be16 p.mask
        ∧ (profileData p).length = 32
        ∧ (ProfileInRange p → ∃ o, profileOperand? (profileData p) = some o ∧ rawProfile? o = some p))

/-- WRITE_MEMBER (R101, R171), WRITE_DISPOSITION (R115) and WRITE_PROFILE (R102, R103) from the intake link: the entry is
replaced whole, the profile clamped in three steps, or refused and left as it was; nothing else changes. R103: the
clamping of a profile write leaves every field in its range and is the identity on a record in range; every field's stored value is
given, the light limit giving way to the dark limit and a maximum to its minimum. R101, R102, R115 and R187: which operands name an entry, a descriptor or a record, and which; any
others are refused. (The replies are queued in the event of the arrival: log 2.)
(That the flags of a condition mask stand in its 2 bytes as those of a condition set do is log 31.) -/
def Obligations.TableWritesReplaceOneEntry : Prop :=
  (∀ (tag : BitVec 16) (s : State), ReadyFor .intake s →
    (∀ (i : BitVec 16) (o : MemberOperand), exec (.writeMember .intake tag i o) s = .next (
        if h : i.toNat < 1024 then
          match memberOf? o with
          | none => replied .intake tag 0x02 [0x03] (countIntakeIn s)
          | some e => replied .intake tag 0x00 (o.present :: o.status :: o.defaultProfile :: o.classMap.toList)
              ((countIntakeIn s).withAdmission
                { s.admission with members := s.admission.members.set i.toNat e h })
        else replied .intake tag 0x02 [0x02] (countIntakeIn s)))
      ∧ (∀ (i : Byte) (o : DescriptorOperand), exec (.writeDisposition .intake tag i o) s = .next (
        if h : i.toNat < 16 then
          match descriptorOf? o with
          | none => replied .intake tag 0x02 [0x03] (countIntakeIn s)
          | some d => replied .intake tag 0x00 [o.present, o.cls, o.alternate, o.code]
              ((countIntakeIn s).withDisposition
                { s.disposition with descriptors := s.disposition.descriptors.set i.toNat d h })
        else replied .intake tag 0x02 [0x02] (countIntakeIn s)))
      ∧ (∀ (i : Byte) (o : ProfileOperand), exec (.writeProfile .intake tag i o) s = .next (
        if h : i.toNat < 64 then
          match rawProfile? o with
          | none => replied .intake tag 0x02 [0x03] (countIntakeIn s)
          | some r =>
            if r.outRes ∈ [100, 120, 150, 200, 240] then
              replied .intake tag (if clampProfile r = r then 0x00 else 0x01) (profileData (clampProfile r))
                ((countIntakeIn s).withAdmission
                  { s.admission with profiles := s.admission.profiles.set i.toNat (clampProfile r) h })
            else replied .intake tag 0x02 [0x03] (countIntakeIn s)
        else replied .intake tag 0x02 [0x02] (countIntakeIn s))))
    ∧ ((∀ p : Profile, p.outRes ∈ [100, 120, 150, 200, 240] → ProfileInRange (clampProfile p))
    ∧ (∀ p : Profile, ProfileInRange p → clampProfile p = p)
    ∧ ∀ p : Profile, clampProfile p = { p with
        initialBackground := min p.initialBackground 255
        tq := max 16 (min p.tq 63)
        darkLimit := min p.darkLimit 254
        lightLimit := max (min p.darkLimit 254 + 1) (min p.lightLimit 255)
        attackShift := max 1 (min p.attackShift 4)
        decayShift := max 3 (min p.decayShift 8)
        widthMin := min p.widthMin 4095
        widthMax := max (min p.widthMin 4095) (min p.widthMax 4095)
        heightMin := min p.heightMin 4095
        heightMax := max (min p.heightMin 4095) (min p.heightMax 4095)
        blackMin := min p.blackMin 1000
        blackMax := max (min p.blackMin 1000) (min p.blackMax 1000)
        brightMin := min p.brightMin 255
        brightMax := max (min p.brightMin 255) (min p.brightMax 255)
        streakPermille := max 500 (min p.streakPermille 1000)
        streakLimit := max 1 (min p.streakLimit 255)
        budget := max 1024 (min p.budget 262144)
        pairTolerance := min p.pairTolerance 255 })
    ∧ (∀ o : MemberOperand,
      (memberOf? o = none ↔
        (o.present ≠ 0 ∧ o.present ≠ 1) ∨ (o.status ≠ 0 ∧ o.status ≠ 1) ∨ 63 < o.defaultProfile.toNat
          ∨ ∃ c : Fin 8, 63 < (o.classMap[c.val]).toNat ∧ o.classMap[c.val] ≠ 255)
        ∧ ∀ e, memberOf? o = some e →
          o.present = (if e.present then 1 else 0) ∧ o.status = (if e.status = .active then 1 else 0)
            ∧ o.defaultProfile.toNat = e.defaultProfile.val
            ∧ ∀ c : Fin 8, o.classMap[c.val] = ((e.classMap[c.val]).map fun p => BitVec.ofNat 8 p.val).getD 255)
    ∧ (∀ o : DescriptorOperand,
      (descriptorOf? o = none ↔ (o.present ≠ 0 ∧ o.present ≠ 1) ∨ 2 < o.cls.toNat ∨ 63 < o.alternate.toNat)
        ∧ ∀ d, descriptorOf? o = some d →
          o.present = (if d.present then 1 else 0)
            ∧ o.cls = (if d.cls = .mark then 0 else if d.cls = .divert then 1 else 2)
            ∧ o.alternate.toNat = d.alternate.val ∧ o.code = d.code)
    ∧ (∀ o : ProfileOperand,
      (rawProfile? o = none ↔ o.valid ≠ 0 ∧ o.valid ≠ 1)
        ∧ ∀ p, rawProfile? o = some p → p =
          { valid := decide (o.valid = 1), outRes := o.outRes.toNat, initialBackground := o.initialBackground.toNat,
            tq := o.tq.toNat, darkLimit := o.darkLimit.toNat, lightLimit := o.lightLimit.toNat,
            attackShift := o.attackShift.toNat, decayShift := o.decayShift.toNat, widthMin := o.widthMin.toNat,
            widthMax := o.widthMax.toNat, heightMin := o.heightMin.toNat, heightMax := o.heightMax.toNat,
            blackMin := o.blackMin.toNat, blackMax := o.blackMax.toNat, brightMin := o.brightMin.toNat,
            brightMax := o.brightMax.toNat, streakPermille := o.streakPermille.toNat,
            streakLimit := o.streakLimit.toNat, budget := o.budget.toNat, pairTolerance := o.pairTolerance.toNat,
            mask := o.mask })

/-- WRITE_LANE_FIELD of a field with no row of its own (R75, R172): refused, READ_ONLY_FIELD for a read-only field, and
nothing else changes. WRITE_HELD, WRITE_ENABLED and WRITE_STALL_MS (R75, R90, R119, R172). WRITE_XOFF_MARK and
WRITE_XON_MARK (R158): the marks as stored, CLAMPED when the value or the other mark was changed, and the paused flag
evaluated against them. WRITE_DISPOSITION_EXTENT, WRITE_PAGE_RESERVE and WRITE_RESUME_MARGIN (R116, R161, R173).
WRITE_LANE_FIELD with field 5 to 9 completes as the row of that field does, and every lane field write to a lane above 15
is refused with BAD_INDEX (R172). (The replies are queued in the event of the arrival: log 2.) -/
def Obligations.LaneFieldAndSettingWrites : Prop :=
  (∀ (tag : BitVec 16) (lane field : Byte) (v : BitVec 32) (s : State), ReadyFor .intake s →
    hasWriteRow field = false →
    exec (.writeLaneField .intake tag lane field v) s =
      .next (replied .intake tag 0x02
        [if 15 < lane.toNat then 0x02 else if 13 < field.toNat then 0x03 else 0x04] (countIntakeIn s)))
    ∧ (∀ (tag : BitVec 16) (l : Fin 16) (v : BitVec 32) (s : State), ReadyFor .intake s →
    (v = 0 ∨ v = 1 →
      exec (.writeHeld .intake tag (BitVec.ofNat 8 l.val) v) s =
          .next (replied .intake tag 0x00 (be32 v) (writeHeld l (decide (v = 1)) (countIntakeIn s)))
        ∧ exec (.writeEnabled .intake tag (BitVec.ofNat 8 l.val) v) s =
          .next (replied .intake tag 0x00 (be32 v)
            ((countIntakeIn s).setLane l { s.lane l with enabled := decide (v = 1) })))
      ∧ (v ≠ 0 → v ≠ 1 →
        exec (.writeHeld .intake tag (BitVec.ofNat 8 l.val) v) s =
            .next (replied .intake tag 0x02 [0x03] (countIntakeIn s))
          ∧ exec (.writeEnabled .intake tag (BitVec.ofNat 8 l.val) v) s =
            .next (replied .intake tag 0x02 [0x03] (countIntakeIn s)))
      ∧ exec (.writeStallMs .intake tag (BitVec.ofNat 8 l.val) v) s =
          .next (replied .intake tag (if v.toNat ≤ 60000 then 0x00 else 0x01) (num32 (min v.toNat 60000))
            ((countIntakeIn s).setLane l
              (if v = 0 then { s.lane l with stallMs := 0, stallRunning := false, stallRemaining := 0 }
                else { s.lane l with stallMs := min v.toNat 60000 }))))
    ∧ (∀ (tag : BitVec 16) (l : Fin 16) (v : BitVec 32) (s : State), ReadyFor .intake s →
    (∀ xoff xon, xoff = max 32 (min v.toNat 1024) → xon = min (s.lane l).xon (xoff - 16) →
      exec (.writeXoffMark .intake tag (BitVec.ofNat 8 l.val) v) s =
        .next (replied .intake tag (if xoff = v.toNat ∧ xon = (s.lane l).xon then 0x00 else 0x01) (num32 xoff ++ num32 xon)
          (evalPaused l ((countIntakeIn s).setLane l { s.lane l with xoff := xoff, xon := xon }))))
      ∧ ∀ xon, xon = min v.toNat ((s.lane l).xoff - 16) →
        exec (.writeXonMark .intake tag (BitVec.ofNat 8 l.val) v) s =
          .next (replied .intake tag (if xon = v.toNat then 0x00 else 0x01) (num32 (s.lane l).xoff ++ num32 xon)
            (evalPaused l ((countIntakeIn s).setLane l { s.lane l with xon := xon }))))
    ∧ (∀ (tag : BitVec 16) (v : BitVec 16) (s : State), ReadyFor .intake s →
    exec (.writeDispositionExtent .intake tag v) s =
        .next (replied .intake tag (if v.toNat ≤ 16 then 0x00 else 0x01) (num16 (min v.toNat 16))
          ((countIntakeIn s).withDisposition { s.disposition with extent := min v.toNat 16 }))
      ∧ exec (.writePageReserve .intake tag v) s =
        .next (replied .intake tag (if v.toNat ≤ 1024 then 0x00 else 0x01) (num16 (min v.toNat 1024))
          (evalStop ((countIntakeIn s).withMgmt { s.mgmt with pageReserve := min v.toNat 1024 })))
      ∧ exec (.writeResumeMargin .intake tag v) s =
        .next (replied .intake tag (if 16 ≤ v.toNat ∧ v.toNat ≤ 512 then 0x00 else 0x01)
          (num16 (max 16 (min v.toNat 512)))
          (evalStop ((countIntakeIn s).withMgmt { s.mgmt with resumeMargin := max 16 (min v.toNat 512) }))))
    ∧ (∀ (tag : BitVec 16) (l : Fin 16) (v : BitVec 32) (s : State), ReadyFor .intake s →
      (v = 0 ∨ v = 1 →
        exec (.writeLaneField .intake tag (BitVec.ofNat 8 l.val) 5 v) s =
            .next (replied .intake tag 0x00 (be32 v) (writeHeld l (decide (v = 1)) (countIntakeIn s)))
          ∧ exec (.writeLaneField .intake tag (BitVec.ofNat 8 l.val) 6 v) s =
            .next (replied .intake tag 0x00 (be32 v)
              ((countIntakeIn s).setLane l { s.lane l with enabled := decide (v = 1) })))
        ∧ exec (.writeLaneField .intake tag (BitVec.ofNat 8 l.val) 9 v) s =
          .next (replied .intake tag (if v.toNat ≤ 60000 then 0x00 else 0x01) (num32 (min v.toNat 60000))
            ((countIntakeIn s).setLane l
              (if v = 0 then { s.lane l with stallMs := 0, stallRunning := false, stallRemaining := 0 }
                else { s.lane l with stallMs := min v.toNat 60000 }))))
    ∧ (∀ (p : Port) (tag : BitVec 16) (lane : Byte) (v : BitVec 32) (s : State),
      (∃ t, exec (.writeLaneField p tag lane 5 v) s = .next t ∧ exec (.writeHeld p tag lane v) s = .next t)
        ∧ (∃ t, exec (.writeLaneField p tag lane 6 v) s = .next t ∧ exec (.writeEnabled p tag lane v) s = .next t)
        ∧ (∃ t, exec (.writeLaneField p tag lane 7 v) s = .next t ∧ exec (.writeXoffMark p tag lane v) s = .next t)
        ∧ (∃ t, exec (.writeLaneField p tag lane 8 v) s = .next t ∧ exec (.writeXonMark p tag lane v) s = .next t)
        ∧ (∃ t, exec (.writeLaneField p tag lane 9 v) s = .next t ∧ exec (.writeStallMs p tag lane v) s = .next t))
    ∧ (∀ (tag : BitVec 16) (lane : Byte) (v : BitVec 32) (s : State) (c : Instr), ReadyFor .intake s → 15 < lane.toNat →
      c ∈ [.writeHeld .intake tag lane v, .writeEnabled .intake tag lane v, .writeXoffMark .intake tag lane v,
        .writeXonMark .intake tag lane v, .writeStallMs .intake tag lane v] →
      exec c s = .next (replied .intake tag 0x02 [0x02] (countIntakeIn s)))

/-- READ_COUNTERS with clear-after-read yes (R174): the captured values, and the group 0 in the same event; with an option
that is neither yes nor no, BAD_FIELD. The groups and their counters are those of `Obligations.ReadsReturnWhatIsStored`. (The
reply is queued in the event of the arrival: log 2.) -/
def Obligations.ClearAfterReadZeroesTheGroup : Prop :=
  ∀ (tag : BitVec 16) (g lane : Byte) (s : State), ReadyFor .intake s →
    (∀ k, group? g lane = some k →
      exec (.readCounters .intake tag g lane 1) s =
          .next (replied .intake tag 0x00 (g :: lane :: (groupCounters (countIntakeIn s) k).flatMap be32)
            (clearGroup k (countIntakeIn s)))
        ∧ (∀ c ∈ groupCounters (clearGroup k s) k, c = 0)
        ∧ (∀ j, j ≠ k → groupCounters (clearGroup k s) j = groupCounters s j)
        ∧ ∀ c : Byte, c ≠ 0 → c ≠ 1 →
          exec (.readCounters .intake tag g lane c) s =
            .next (replied .intake tag 0x02 [0x03] (countIntakeIn s)))
      ∧ (group? g lane = none → ∀ c, exec (.readCounters .intake tag g lane c) s =
          .next (replied .intake tag 0x02 [0x02] (countIntakeIn s)))

/-- SET_SERVICE_STATE (R178, R179): the transition table, DRAINING with empty lists becoming STANDBY at once. (The reply is
queued in the event of the arrival: log 2.) -/
def Obligations.ServiceStateFollowsTheTable : Prop :=
  ∀ (tag : BitVec 16) (target : Byte) (s : State), ReadyFor .intake s →
    (2 < target.toNat →
      exec (.setServiceState .intake tag target) s = .next (replied .intake tag 0x02 [0x03] (countIntakeIn s)))
      ∧ (target = 1 →
        exec (.setServiceState .intake tag target) s =
          .next (replied .intake tag 0x00 [0x01] ((countIntakeIn s).withMgmt { s.mgmt with service := .inService })))
      ∧ (target = 0 → s.mgmt.service = .standby ∨ listsEmpty s = true →
        exec (.setServiceState .intake tag target) s =
          .next (replied .intake tag 0x00 [0x00] ((countIntakeIn s).withMgmt { s.mgmt with service := .standby })))
      ∧ (target = 0 → s.mgmt.service ≠ .standby → listsEmpty s = false →
        exec (.setServiceState .intake tag target) s = .next (replied .intake tag 0x02 [0x06] (countIntakeIn s)))
      ∧ (target = 2 → s.mgmt.service = .standby →
        exec (.setServiceState .intake tag target) s = .next (replied .intake tag 0x02 [0x06] (countIntakeIn s)))
      ∧ (target = 2 → s.mgmt.service ≠ .standby → listsEmpty s = false →
        exec (.setServiceState .intake tag target) s =
          .next (replied .intake tag 0x00 [0x02] ((countIntakeIn s).withMgmt { s.mgmt with service := .draining })))
      ∧ (target = 2 → s.mgmt.service = .inService → listsEmpty s = true →
        exec (.setServiceState .intake tag target) s =
          .next (replied .intake tag 0x00 [0x00] ((countIntakeIn s).withMgmt { s.mgmt with service := .standby })))

/-- RESET_LANE (R59, R68, R95, R153, R180): the reply, and what the reset makes of the lane: every record but one in EMITTING
is a WITHDRAWN notice in its place, without pages; the context is IDLE; no unit and no wait list holds a side of the lane.
A withdrawn record keeps its other fields, and its side records theirs but for pages, unit and state (R59, R68, R139, R153); the
scaling results of its side records are discarded (R17) and read as those of a side never bound. (That the fields that held
them stay, the values they read as and the name of a cancelled side's state are log 11; that the mark list becomes empty is log 27.)
Where no side of another lane waits, the pages return to
the pool with the global stop evaluated, then the lane's paused flag is (R165), and nothing else changes; the flag is then
clear but for a full list, when no unwithdrawn record has a side in reduction and the marks are lawful. (That START_ALL is
queued before the lane's PAUSE or RESUME is the model's choice, log 12: R165 and R180 do not order the two.) A lane above 15
is refused with BAD_INDEX (R180). (The reply is queued in the event of the arrival: log 2.)
A head that an event coming together with the reset made READY has not started, and is withdrawn (R128, R139; log 33, see
`Obligations.SideEndRecordsTheResults`). -/
def Obligations.LaneResetWithdrawsTheRecords : Prop :=
  (∀ (tag : BitVec 16) (l : Fin 16) (s t : State), ReadyFor .intake s → t = resetLane l (countIntakeIn s) →
    exec (.resetLane .intake tag (BitVec.ofNat 8 l.val)) s =
        .next (replied .intake tag 0x00
          [BitVec.ofNat 8 l.val,
            BitVec.ofNat 8 ((s.lane l).list.countP fun i =>
              decide (i.state ≠ .emitting ∧ i.dispatch.disposition ≠ .withdrawn)),
            if (s.lane l).list.any (fun i => decide (i.state = .emitting)) then 1 else 0] t)
      ∧ (t.lane l).list.map Item.seq = (s.lane l).list.map Item.seq
      ∧ (∀ i ∈ (t.lane l).list, i.state = .emitting ∨ i.dispatch.disposition = .withdrawn)
      ∧ (∀ i, i ∈ (s.lane l).list → i.state = .emitting → i ∈ (t.lane l).list)
      ∧ (∀ i ∈ (t.lane l).list, i ∉ (s.lane l).list → i.state = .ready ∧ i.pages = 0
          ∧ i.dispatch = ⟨.withdrawn, .laneReset, none, .none, 0, []⟩)
      ∧ (t.lane l).context = { (s.lane l).context with
          state := .idle, seq := 0, active := none, held := false, stallRunning := false, stallRemaining := 0
          lastTimedOut := none }
      ∧ (t.lane l).counters = (s.lane l).counters ∧ (∀ k, k ≠ l → (t.lane k).context = (s.lane k).context)
      ∧ (∀ u b, t.unit u = some b → b.ref.lane ≠ l)
      ∧ (∀ r, r ∈ t.reduction.openWait ++ t.reduction.reworkWait → r.lane ≠ l)
      ∧ (t.admission, t.disposition, t.egress, t.mgmt) =
          (s.admission, s.disposition, s.egress, s.mgmt))
    ∧ (∀ (l : Fin 16) (s t : State) (withdrawn : Item → Bool) (w : Side → Side) (n : Nat) (s₁ : State),
      t = resetLane l s →
      withdrawn = (fun i => decide (i.state ≠ .emitting ∧ i.dispatch.disposition ≠ .withdrawn)) →
      w = (fun x => { x with
        inputPages := 0, input := [], outputPages := 0, body := []
        resultsDiscarded := true
        boundUnit := none
        state := if x.state = .done ∨ x.state = .notReduced then x.state else .cancelled }) →
      n = (((s.lane l).list.filter withdrawn).map Item.pages).sum →
      s₁ = { s with
        lanes := s.lanes.set l.val { s.lane l with
          list := (s.lane l).list.map fun i =>
            if withdrawn i = true then { i with
              front := i.front.map w
              back := i.back.map w
              state := .ready
              dispatch := ⟨.withdrawn, .laneReset, none, .none, 0, []⟩ }
            else i
          state := .idle, seq := 0, active := none, held := false, stallRunning := false, stallRemaining := 0
          lastTimedOut := none }
        reduction :=
          { units := s.reduction.units.map fun b => b.filter fun x => x.ref.lane != l
            openWait := s.reduction.openWait.filter fun x => x.lane != l
            reworkWait := s.reduction.reworkWait.filter fun x => x.lane != l } } →
      (t.lane l).list = (s₁.lane l).list ∧ t.freePages = s.freePages + n
        ∧ ((∀ r ∈ s.reduction.openWait ++ s.reduction.reworkWait, r.lane = l) →
          t = evalPaused l (if n = 0 then s₁ else evalStop (s₁.withFree (s.freePages + n))))
        ∧ ((∀ i ∈ (s.lane l).list, withdrawn i = false → ∀ x ∈ i.sides, x.state = .done ∨ x.state = .notReduced
              ∨ x.state = .cancelled) →
          (s.lane l).xon + 16 ≤ (s.lane l).xoff → (s.lane l).list.length ≤ 8 →
          t.backlog l = 0 ∧ (t.lane l).paused = decide ((s.lane l).list.length = 8)))
    ∧ (∀ x : Side, x.results =
        if x.resultsDiscarded = true then ⟨0, false, 0, 0⟩ else ⟨x.outRes, x.resClamped, x.outWidth, x.outHeight⟩)
    ∧ (∀ (tag : BitVec 16) (lane : Byte) (s : State), ReadyFor .intake s → 15 < lane.toNat →
      exec (.resetLane .intake tag lane) s = .next (replied .intake tag 0x02 [0x02] (countIntakeIn s)))

/-- RESET_ENGINE (R60, R69, R73, R94, R109, R128, R155, R165, R181, R182): what every block holds afterwards, and the reply
on the emptied intake reply queue. (The request is taken in the event of its arrival: log 2.) The same of a reset that waited
at the head of the request queue when it is taken: the requests behind it, from either link, are discarded without reply.
(The end of a frame that comes together with the reset starts none, log 32: see `Obligations.NextFrameOfTheRecordFollows`.) -/
def Obligations.EngineResetKeepsTheTables : Prop :=
  ∀ (tag : BitVec 16) (s t : State),
    t = { s with
      intakePort := ⟨0, 0, 0, if s.flow.inProgress.isSome then 1 else 0, 0⟩
      lanes := s.lanes.map fun c =>
        { state := .idle, seq := 0, list := [], active := none, paused := false, held := false, enabled := c.enabled,
          xoff := c.xoff, xon := c.xon, stallMs := c.stallMs, stallRunning := false, stallRemaining := 0,
          lastTimedOut := none, counters := ⟨0, 0, 0, 0, 0, 0, 0, 0, 0, 0⟩ }
      freePages := 2048
      reduction := { units := Vector.replicate 4 none, openWait := [], reworkWait := [] }
      disposition := { s.disposition with dispatchFaults := 0, reworkExhausted := 0 }
      egress :=
        { roundRobin := 0, emission := none, inProgress := none, halted := false, replies := []
          port := ⟨0, 0, 0, if s.egress.inProgress.isSome then 1 else 0, 0⟩ }
      flow :=
        { globalStop := false, globalStops := 0
          flowQueue := .startAll :: (allLanes.filter fun l => (s.lane l).paused).map .resume
          refusals := [], replies := [be16 tag ++ [0x00]], inProgress := none }
      mgmt := { s.mgmt with requests := [], service := .standby, overflow := 0 } } →
    (ReadyFor .intake s → exec (.resetEngine .intake tag) s = .next t)
      ∧ (∀ rest, s.mgmt.requests = ⟨.intake, Request.resetEngine.payload tag⟩ :: rest → s.flow.replies.length < 8 →
        takeRequests s = t)

/-- COPY_PROFILE, MOVE_CLASS and QUIESCE_LANE (R176, R177): both steps done and the last step's result, or PARTIAL with the
steps done and the refused step's reason. (The reply is queued in the event of the arrival: log 2.) -/
def Obligations.CompositesStopAtARefusedStep : Prop :=
  ∀ (tag : BitVec 16) (s : State), ReadyFor .intake s →
    (∀ (src dst : Byte) (a b : Fin 64), src.toNat = a.val → dst.toNat = b.val →
        ProfileInRange s.admission.profiles[a.val] →
      exec (.copyProfile .intake tag src dst) s =
        .next (replied .intake tag 0x00 (profileData s.admission.profiles[a.val])
          ((countIntakeIn s).withAdmission
            { s.admission with profiles := s.admission.profiles.set b.val s.admission.profiles[a.val] })))
      ∧ (∀ src dst : Byte, 63 < src.toNat →
        exec (.copyProfile .intake tag src dst) s =
          .next (replied .intake tag 0x03 [0x00, 0x02, 0x02] (countIntakeIn s)))
      ∧ (∀ src dst : Byte, src.toNat ≤ 63 → 63 < dst.toNat →
        exec (.copyProfile .intake tag src dst) s =
          .next (replied .intake tag 0x03 [0x01, 0x02, 0x02] (countIntakeIn s)))
      ∧ (∀ (m : BitVec 16) (c p : Byte) (k : Fin 1024) (j : Fin 8), m.toNat = k.val → c.toNat = j.val →
          (p.toNat ≤ 63 ∨ p = 255) →
        ∃ e, e = { s.admission.members[k.val] with
              classMap := s.admission.members[k.val].classMap.set j.val
                (if h : p.toNat < 64 then some ⟨p.toNat, h⟩ else none) }
          ∧ exec (.moveClass .intake tag m c p) s =
            .next (replied .intake tag 0x00 (memberData e)
              ((countIntakeIn s).withAdmission { s.admission with members := s.admission.members.set k.val e })))
      ∧ (∀ (m : BitVec 16) (c p : Byte), 1023 < m.toNat →
        exec (.moveClass .intake tag m c p) s =
          .next (replied .intake tag 0x03 [0x00, 0x02, 0x02] (countIntakeIn s)))
      ∧ (∀ (m : BitVec 16) (c p : Byte), m.toNat ≤ 1023 → (7 < c.toNat ∨ (63 < p.toNat ∧ p ≠ 255)) →
        exec (.moveClass .intake tag m c p) s =
          .next (replied .intake tag 0x03 [0x01, 0x02, 0x03] (countIntakeIn s)))
      ∧ (∀ l : Fin 16,
        exec (.quiesceLane .intake tag (BitVec.ofNat 8 l.val)) s =
          .next (replied .intake tag 0x00 [0, 0, 0, 0]
            ((countIntakeIn s).setLane l { s.lane l with held := true, enabled := false })))
      ∧ (∀ lane : Byte, 15 < lane.toNat →
        exec (.quiesceLane .intake tag lane) s =
          .next (replied .intake tag 0x03 [0x00, 0x02, 0x02] (countIntakeIn s)))

/-! ### Invariants: kept by every step, from every state that meets them -/

/-- R61: free pages plus pages held equal 2048 in every state: every step keeps it. -/
def Obligations.EveryStepConservesPages : Prop :=
  ∀ s t : State, PagesConserved s → step s = .next t → PagesConserved t

/-- R54: whenever a unit is FREE both wait lists are empty: every step keeps it. -/
def Obligations.EveryStepLeavesNoGrantToMake : Prop :=
  ∀ s t : State, ArbiterSettled s → step s = .next t → ArbiterSettled t

/-- R143, R145, R151, R152: the record in EMITTING stands in its list, and the exchange link is never idle with something to
start, but for what waits for a reset that is taken next (R128, R139, R153, R155; logs 32 and 33): every step keeps it. -/
def Obligations.EveryStepLeavesNothingToStart : Prop :=
  ∀ s t : State, StartsMade s → step s = .next t →
    StartsMade t ∧ (engineResetNext t = false → (∀ l, laneResetNext l t = false) → ExchangeSettled t)

/-- R166, R167, R151, R163: requests wait only while the reply queue of the head's link is full, and the queues stay within
their capacities, the flow queue holding at most one frame of each scope (R162): every step keeps it. -/
def Obligations.EveryStepKeepsTheQueues : Prop :=
  ∀ s t : State, RequestsSettled s ∧ QueuesBounded s → step s = .next t → RequestsSettled t ∧ QueuesBounded t

/-- R76: lane lists hold at most 8 records, no two of one sequence: every step keeps it. R74, R81, R87 to R91: the law of
the lane contexts: every step keeps it. R110 and R132: conditions stand at their level, and no side is reworked more
than twice: every step keeps it. -/
def Obligations.EveryStepKeepsTheRecordsLawful : Prop :=
  (∀ s t : State, ListsLawful s → step s = .next t → ListsLawful t)
    ∧ (∀ s t : State, (∀ l, LaneLawful (s.lane l)) → step s = .next t → ∀ l, LaneLawful (t.lane l))
    ∧ (∀ s t : State, SetsLawful s ∧ ReworksBounded s → step s = .next t → SetsLawful t ∧ ReworksBounded t)

/-- R75, R103, R116, R158, R161: the marks, the settings and every profile record stay in their ranges: every step keeps
it. R160: with the settings in range, the global stop is set while the free page count is below the page reserve and clear
while it is at or above the reserve plus the margin: every step keeps it, and so evaluates the stop whenever pages are taken
or return (R61). -/
def Obligations.EveryStepKeepsTheSettingsInRange : Prop :=
  (∀ s t : State, SettingsInRange s → step s = .next t → SettingsInRange t)
    ∧ (∀ s t : State, SettingsInRange s ∧ StopSettled s → step s = .next t → StopSettled t)
end

