-- ==== Sys2Proof/Laws/State.lean ====
section
/-! SUPPORT. One lemma for each field of the state and each update of one block, and the laws of a lane's and a unit's
read after a write. -/

namespace Sys2Proof.Machine

set_option Elab.async false

/-! ### withLanes -/

@[simp] theorem State.withLanes_taking (s : State) (x : Vector Lane 16) : (s.withLanes x).taking = s.taking := rfl
@[simp] theorem State.withLanes_intakePort (s : State) (x : Vector Lane 16) : (s.withLanes x).intakePort = s.intakePort := rfl
@[simp] theorem State.withLanes_lanes (s : State) (x : Vector Lane 16) : (s.withLanes x).lanes = x := rfl
@[simp] theorem State.withLanes_admission (s : State) (x : Vector Lane 16) : (s.withLanes x).admission = s.admission := rfl
@[simp] theorem State.withLanes_freePages (s : State) (x : Vector Lane 16) : (s.withLanes x).freePages = s.freePages := rfl
@[simp] theorem State.withLanes_reduction (s : State) (x : Vector Lane 16) : (s.withLanes x).reduction = s.reduction := rfl
@[simp] theorem State.withLanes_disposition (s : State) (x : Vector Lane 16) : (s.withLanes x).disposition = s.disposition := rfl
@[simp] theorem State.withLanes_egress (s : State) (x : Vector Lane 16) : (s.withLanes x).egress = s.egress := rfl
@[simp] theorem State.withLanes_flow (s : State) (x : Vector Lane 16) : (s.withLanes x).flow = s.flow := rfl
@[simp] theorem State.withLanes_mgmt (s : State) (x : Vector Lane 16) : (s.withLanes x).mgmt = s.mgmt := rfl
@[simp] theorem State.withLanes_pending (s : State) (x : Vector Lane 16) : (s.withLanes x).pending = s.pending := rfl

/-! ### withReduction -/

@[simp] theorem State.withReduction_taking (s : State) (x : Reduction) : (s.withReduction x).taking = s.taking := rfl
@[simp] theorem State.withReduction_intakePort (s : State) (x : Reduction) : (s.withReduction x).intakePort = s.intakePort := rfl
@[simp] theorem State.withReduction_lanes (s : State) (x : Reduction) : (s.withReduction x).lanes = s.lanes := rfl
@[simp] theorem State.withReduction_admission (s : State) (x : Reduction) : (s.withReduction x).admission = s.admission := rfl
@[simp] theorem State.withReduction_freePages (s : State) (x : Reduction) : (s.withReduction x).freePages = s.freePages := rfl
@[simp] theorem State.withReduction_reduction (s : State) (x : Reduction) : (s.withReduction x).reduction = x := rfl
@[simp] theorem State.withReduction_disposition (s : State) (x : Reduction) : (s.withReduction x).disposition = s.disposition := rfl
@[simp] theorem State.withReduction_egress (s : State) (x : Reduction) : (s.withReduction x).egress = s.egress := rfl
@[simp] theorem State.withReduction_flow (s : State) (x : Reduction) : (s.withReduction x).flow = s.flow := rfl
@[simp] theorem State.withReduction_mgmt (s : State) (x : Reduction) : (s.withReduction x).mgmt = s.mgmt := rfl
@[simp] theorem State.withReduction_pending (s : State) (x : Reduction) : (s.withReduction x).pending = s.pending := rfl

/-! ### withAdmission -/

@[simp] theorem State.withAdmission_taking (s : State) (x : Admission) : (s.withAdmission x).taking = s.taking := rfl
@[simp] theorem State.withAdmission_intakePort (s : State) (x : Admission) : (s.withAdmission x).intakePort = s.intakePort := rfl
@[simp] theorem State.withAdmission_lanes (s : State) (x : Admission) : (s.withAdmission x).lanes = s.lanes := rfl
@[simp] theorem State.withAdmission_admission (s : State) (x : Admission) : (s.withAdmission x).admission = x := rfl
@[simp] theorem State.withAdmission_freePages (s : State) (x : Admission) : (s.withAdmission x).freePages = s.freePages := rfl
@[simp] theorem State.withAdmission_reduction (s : State) (x : Admission) : (s.withAdmission x).reduction = s.reduction := rfl
@[simp] theorem State.withAdmission_disposition (s : State) (x : Admission) : (s.withAdmission x).disposition = s.disposition := rfl
@[simp] theorem State.withAdmission_egress (s : State) (x : Admission) : (s.withAdmission x).egress = s.egress := rfl
@[simp] theorem State.withAdmission_flow (s : State) (x : Admission) : (s.withAdmission x).flow = s.flow := rfl
@[simp] theorem State.withAdmission_mgmt (s : State) (x : Admission) : (s.withAdmission x).mgmt = s.mgmt := rfl
@[simp] theorem State.withAdmission_pending (s : State) (x : Admission) : (s.withAdmission x).pending = s.pending := rfl

/-! ### withDisposition -/

@[simp] theorem State.withDisposition_taking (s : State) (x : DispositionUnit) : (s.withDisposition x).taking = s.taking := rfl
@[simp] theorem State.withDisposition_intakePort (s : State) (x : DispositionUnit) : (s.withDisposition x).intakePort = s.intakePort := rfl
@[simp] theorem State.withDisposition_lanes (s : State) (x : DispositionUnit) : (s.withDisposition x).lanes = s.lanes := rfl
@[simp] theorem State.withDisposition_admission (s : State) (x : DispositionUnit) : (s.withDisposition x).admission = s.admission := rfl
@[simp] theorem State.withDisposition_freePages (s : State) (x : DispositionUnit) : (s.withDisposition x).freePages = s.freePages := rfl
@[simp] theorem State.withDisposition_reduction (s : State) (x : DispositionUnit) : (s.withDisposition x).reduction = s.reduction := rfl
@[simp] theorem State.withDisposition_disposition (s : State) (x : DispositionUnit) : (s.withDisposition x).disposition = x := rfl
@[simp] theorem State.withDisposition_egress (s : State) (x : DispositionUnit) : (s.withDisposition x).egress = s.egress := rfl
@[simp] theorem State.withDisposition_flow (s : State) (x : DispositionUnit) : (s.withDisposition x).flow = s.flow := rfl
@[simp] theorem State.withDisposition_mgmt (s : State) (x : DispositionUnit) : (s.withDisposition x).mgmt = s.mgmt := rfl
@[simp] theorem State.withDisposition_pending (s : State) (x : DispositionUnit) : (s.withDisposition x).pending = s.pending := rfl

/-! ### withEgress -/

@[simp] theorem State.withEgress_taking (s : State) (x : Egress) : (s.withEgress x).taking = s.taking := rfl
@[simp] theorem State.withEgress_intakePort (s : State) (x : Egress) : (s.withEgress x).intakePort = s.intakePort := rfl
@[simp] theorem State.withEgress_lanes (s : State) (x : Egress) : (s.withEgress x).lanes = s.lanes := rfl
@[simp] theorem State.withEgress_admission (s : State) (x : Egress) : (s.withEgress x).admission = s.admission := rfl
@[simp] theorem State.withEgress_freePages (s : State) (x : Egress) : (s.withEgress x).freePages = s.freePages := rfl
@[simp] theorem State.withEgress_reduction (s : State) (x : Egress) : (s.withEgress x).reduction = s.reduction := rfl
@[simp] theorem State.withEgress_disposition (s : State) (x : Egress) : (s.withEgress x).disposition = s.disposition := rfl
@[simp] theorem State.withEgress_egress (s : State) (x : Egress) : (s.withEgress x).egress = x := rfl
@[simp] theorem State.withEgress_flow (s : State) (x : Egress) : (s.withEgress x).flow = s.flow := rfl
@[simp] theorem State.withEgress_mgmt (s : State) (x : Egress) : (s.withEgress x).mgmt = s.mgmt := rfl
@[simp] theorem State.withEgress_pending (s : State) (x : Egress) : (s.withEgress x).pending = s.pending := rfl

/-! ### withFlow -/

@[simp] theorem State.withFlow_taking (s : State) (x : Flow) : (s.withFlow x).taking = s.taking := rfl
@[simp] theorem State.withFlow_intakePort (s : State) (x : Flow) : (s.withFlow x).intakePort = s.intakePort := rfl
@[simp] theorem State.withFlow_lanes (s : State) (x : Flow) : (s.withFlow x).lanes = s.lanes := rfl
@[simp] theorem State.withFlow_admission (s : State) (x : Flow) : (s.withFlow x).admission = s.admission := rfl
@[simp] theorem State.withFlow_freePages (s : State) (x : Flow) : (s.withFlow x).freePages = s.freePages := rfl
@[simp] theorem State.withFlow_reduction (s : State) (x : Flow) : (s.withFlow x).reduction = s.reduction := rfl
@[simp] theorem State.withFlow_disposition (s : State) (x : Flow) : (s.withFlow x).disposition = s.disposition := rfl
@[simp] theorem State.withFlow_egress (s : State) (x : Flow) : (s.withFlow x).egress = s.egress := rfl
@[simp] theorem State.withFlow_flow (s : State) (x : Flow) : (s.withFlow x).flow = x := rfl
@[simp] theorem State.withFlow_mgmt (s : State) (x : Flow) : (s.withFlow x).mgmt = s.mgmt := rfl
@[simp] theorem State.withFlow_pending (s : State) (x : Flow) : (s.withFlow x).pending = s.pending := rfl

/-! ### withMgmt -/

@[simp] theorem State.withMgmt_taking (s : State) (x : Mgmt) : (s.withMgmt x).taking = s.taking := rfl
@[simp] theorem State.withMgmt_intakePort (s : State) (x : Mgmt) : (s.withMgmt x).intakePort = s.intakePort := rfl
@[simp] theorem State.withMgmt_lanes (s : State) (x : Mgmt) : (s.withMgmt x).lanes = s.lanes := rfl
@[simp] theorem State.withMgmt_admission (s : State) (x : Mgmt) : (s.withMgmt x).admission = s.admission := rfl
@[simp] theorem State.withMgmt_freePages (s : State) (x : Mgmt) : (s.withMgmt x).freePages = s.freePages := rfl
@[simp] theorem State.withMgmt_reduction (s : State) (x : Mgmt) : (s.withMgmt x).reduction = s.reduction := rfl
@[simp] theorem State.withMgmt_disposition (s : State) (x : Mgmt) : (s.withMgmt x).disposition = s.disposition := rfl
@[simp] theorem State.withMgmt_egress (s : State) (x : Mgmt) : (s.withMgmt x).egress = s.egress := rfl
@[simp] theorem State.withMgmt_flow (s : State) (x : Mgmt) : (s.withMgmt x).flow = s.flow := rfl
@[simp] theorem State.withMgmt_mgmt (s : State) (x : Mgmt) : (s.withMgmt x).mgmt = x := rfl
@[simp] theorem State.withMgmt_pending (s : State) (x : Mgmt) : (s.withMgmt x).pending = s.pending := rfl

/-! ### withIntakePort -/

@[simp] theorem State.withIntakePort_taking (s : State) (x : PortCounters) : (s.withIntakePort x).taking = s.taking := rfl
@[simp] theorem State.withIntakePort_intakePort (s : State) (x : PortCounters) : (s.withIntakePort x).intakePort = x := rfl
@[simp] theorem State.withIntakePort_lanes (s : State) (x : PortCounters) : (s.withIntakePort x).lanes = s.lanes := rfl
@[simp] theorem State.withIntakePort_admission (s : State) (x : PortCounters) : (s.withIntakePort x).admission = s.admission := rfl
@[simp] theorem State.withIntakePort_freePages (s : State) (x : PortCounters) : (s.withIntakePort x).freePages = s.freePages := rfl
@[simp] theorem State.withIntakePort_reduction (s : State) (x : PortCounters) : (s.withIntakePort x).reduction = s.reduction := rfl
@[simp] theorem State.withIntakePort_disposition (s : State) (x : PortCounters) : (s.withIntakePort x).disposition = s.disposition := rfl
@[simp] theorem State.withIntakePort_egress (s : State) (x : PortCounters) : (s.withIntakePort x).egress = s.egress := rfl
@[simp] theorem State.withIntakePort_flow (s : State) (x : PortCounters) : (s.withIntakePort x).flow = s.flow := rfl
@[simp] theorem State.withIntakePort_mgmt (s : State) (x : PortCounters) : (s.withIntakePort x).mgmt = s.mgmt := rfl
@[simp] theorem State.withIntakePort_pending (s : State) (x : PortCounters) : (s.withIntakePort x).pending = s.pending := rfl

/-! ### withFree -/

@[simp] theorem State.withFree_taking (s : State) (x : Nat) : (s.withFree x).taking = s.taking := rfl
@[simp] theorem State.withFree_intakePort (s : State) (x : Nat) : (s.withFree x).intakePort = s.intakePort := rfl
@[simp] theorem State.withFree_lanes (s : State) (x : Nat) : (s.withFree x).lanes = s.lanes := rfl
@[simp] theorem State.withFree_admission (s : State) (x : Nat) : (s.withFree x).admission = s.admission := rfl
@[simp] theorem State.withFree_freePages (s : State) (x : Nat) : (s.withFree x).freePages = x := rfl
@[simp] theorem State.withFree_reduction (s : State) (x : Nat) : (s.withFree x).reduction = s.reduction := rfl
@[simp] theorem State.withFree_disposition (s : State) (x : Nat) : (s.withFree x).disposition = s.disposition := rfl
@[simp] theorem State.withFree_egress (s : State) (x : Nat) : (s.withFree x).egress = s.egress := rfl
@[simp] theorem State.withFree_flow (s : State) (x : Nat) : (s.withFree x).flow = s.flow := rfl
@[simp] theorem State.withFree_mgmt (s : State) (x : Nat) : (s.withFree x).mgmt = s.mgmt := rfl
@[simp] theorem State.withFree_pending (s : State) (x : Nat) : (s.withFree x).pending = s.pending := rfl

/-! ### withTaking -/

@[simp] theorem State.withTaking_taking (s : State) (x : Bool) : (s.withTaking x).taking = x := rfl
@[simp] theorem State.withTaking_intakePort (s : State) (x : Bool) : (s.withTaking x).intakePort = s.intakePort := rfl
@[simp] theorem State.withTaking_lanes (s : State) (x : Bool) : (s.withTaking x).lanes = s.lanes := rfl
@[simp] theorem State.withTaking_admission (s : State) (x : Bool) : (s.withTaking x).admission = s.admission := rfl
@[simp] theorem State.withTaking_freePages (s : State) (x : Bool) : (s.withTaking x).freePages = s.freePages := rfl
@[simp] theorem State.withTaking_reduction (s : State) (x : Bool) : (s.withTaking x).reduction = s.reduction := rfl
@[simp] theorem State.withTaking_disposition (s : State) (x : Bool) : (s.withTaking x).disposition = s.disposition := rfl
@[simp] theorem State.withTaking_egress (s : State) (x : Bool) : (s.withTaking x).egress = s.egress := rfl
@[simp] theorem State.withTaking_flow (s : State) (x : Bool) : (s.withTaking x).flow = s.flow := rfl
@[simp] theorem State.withTaking_mgmt (s : State) (x : Bool) : (s.withTaking x).mgmt = s.mgmt := rfl
@[simp] theorem State.withTaking_pending (s : State) (x : Bool) : (s.withTaking x).pending = s.pending := rfl

/-! ### withPending -/

@[simp] theorem State.withPending_taking (s : State) (x : List Instr) : (s.withPending x).taking = s.taking := rfl
@[simp] theorem State.withPending_intakePort (s : State) (x : List Instr) : (s.withPending x).intakePort = s.intakePort := rfl
@[simp] theorem State.withPending_lanes (s : State) (x : List Instr) : (s.withPending x).lanes = s.lanes := rfl
@[simp] theorem State.withPending_admission (s : State) (x : List Instr) : (s.withPending x).admission = s.admission := rfl
@[simp] theorem State.withPending_freePages (s : State) (x : List Instr) : (s.withPending x).freePages = s.freePages := rfl
@[simp] theorem State.withPending_reduction (s : State) (x : List Instr) : (s.withPending x).reduction = s.reduction := rfl
@[simp] theorem State.withPending_disposition (s : State) (x : List Instr) : (s.withPending x).disposition = s.disposition := rfl
@[simp] theorem State.withPending_egress (s : State) (x : List Instr) : (s.withPending x).egress = s.egress := rfl
@[simp] theorem State.withPending_flow (s : State) (x : List Instr) : (s.withPending x).flow = s.flow := rfl
@[simp] theorem State.withPending_mgmt (s : State) (x : List Instr) : (s.withPending x).mgmt = s.mgmt := rfl
@[simp] theorem State.withPending_pending (s : State) (x : List Instr) : (s.withPending x).pending = x := rfl

/-! ### Lanes and units -/

@[simp] theorem State.lane_setLane_self (s : State) (l : Fin 16) (c : Lane) : (s.setLane l c).lane l = c := by
  simp [State.lane, State.setLane]

theorem State.lane_setLane_ne (s : State) {l k : Fin 16} (c : Lane) (h : l ≠ k) : (s.setLane l c).lane k = s.lane k := by
  have : l.val ≠ k.val := fun e => h (Fin.ext e)
  simp [State.lane, State.setLane, this]

theorem State.lane_setLane (s : State) (l k : Fin 16) (c : Lane) :
    (s.setLane l c).lane k = if l = k then c else s.lane k := by
  by_cases h : l = k
  · subst h; simp
  · simp [h, State.lane_setLane_ne]

@[simp] theorem State.setLane_lane_self (s : State) (l : Fin 16) : s.setLane l (s.lane l) = s := by
  simp [State.setLane, State.lane, State.withLanes]

@[simp] theorem State.lane_modLane_self (s : State) (l : Fin 16) (f : Lane → Lane) : (s.modLane l f).lane l = f (s.lane l) := by
  simp [State.modLane]

theorem State.lane_modLane_ne (s : State) {l k : Fin 16} (f : Lane → Lane) (h : l ≠ k) :
    (s.modLane l f).lane k = s.lane k := State.lane_setLane_ne s _ h

theorem State.lane_modLane (s : State) (l k : Fin 16) (f : Lane → Lane) :
    (s.modLane l f).lane k = if l = k then f (s.lane l) else s.lane k := State.lane_setLane s l k _

@[simp] theorem State.unit_setUnit_self (s : State) (u : Fin 4) (b : Option Binding) : (s.setUnit u b).unit u = b := by
  simp [State.unit, State.setUnit]

theorem State.unit_setUnit_ne (s : State) {u v : Fin 4} (b : Option Binding) (h : u ≠ v) :
    (s.setUnit u b).unit v = s.unit v := by
  have : u.val ≠ v.val := fun e => h (Fin.ext e)
  simp [State.unit, State.setUnit, this]

@[simp] theorem State.lane_setUnit (s : State) (u : Fin 4) (b : Option Binding) (l : Fin 16) :
    (s.setUnit u b).lane l = s.lane l := rfl

@[simp] theorem State.lane_withReduction (s : State) (x : Reduction) (l : Fin 16) : (s.withReduction x).lane l = s.lane l := rfl
@[simp] theorem State.lane_withAdmission (s : State) (x : Admission) (l : Fin 16) : (s.withAdmission x).lane l = s.lane l := rfl
@[simp] theorem State.lane_withDisposition (s : State) (x : DispositionUnit) (l : Fin 16) : (s.withDisposition x).lane l = s.lane l := rfl
@[simp] theorem State.lane_withEgress (s : State) (x : Egress) (l : Fin 16) : (s.withEgress x).lane l = s.lane l := rfl
@[simp] theorem State.lane_withFlow (s : State) (x : Flow) (l : Fin 16) : (s.withFlow x).lane l = s.lane l := rfl
@[simp] theorem State.lane_withMgmt (s : State) (x : Mgmt) (l : Fin 16) : (s.withMgmt x).lane l = s.lane l := rfl
@[simp] theorem State.lane_withIntakePort (s : State) (x : PortCounters) (l : Fin 16) : (s.withIntakePort x).lane l = s.lane l := rfl
@[simp] theorem State.lane_withFree (s : State) (x : Nat) (l : Fin 16) : (s.withFree x).lane l = s.lane l := rfl
@[simp] theorem State.lane_withTaking (s : State) (x : Bool) (l : Fin 16) : (s.withTaking x).lane l = s.lane l := rfl
@[simp] theorem State.lane_withPending (s : State) (x : List Instr) (l : Fin 16) : (s.withPending x).lane l = s.lane l := rfl
@[simp] theorem State.unit_withLanes (s : State) (x : Vector Lane 16) (u : Fin 4) : (s.withLanes x).unit u = s.unit u := rfl
@[simp] theorem State.unit_withAdmission (s : State) (x : Admission) (u : Fin 4) : (s.withAdmission x).unit u = s.unit u := rfl
@[simp] theorem State.unit_withDisposition (s : State) (x : DispositionUnit) (u : Fin 4) : (s.withDisposition x).unit u = s.unit u := rfl
@[simp] theorem State.unit_withEgress (s : State) (x : Egress) (u : Fin 4) : (s.withEgress x).unit u = s.unit u := rfl
@[simp] theorem State.unit_withFlow (s : State) (x : Flow) (u : Fin 4) : (s.withFlow x).unit u = s.unit u := rfl
@[simp] theorem State.unit_withMgmt (s : State) (x : Mgmt) (u : Fin 4) : (s.withMgmt x).unit u = s.unit u := rfl
@[simp] theorem State.unit_withIntakePort (s : State) (x : PortCounters) (u : Fin 4) : (s.withIntakePort x).unit u = s.unit u := rfl
@[simp] theorem State.unit_withFree (s : State) (x : Nat) (u : Fin 4) : (s.withFree x).unit u = s.unit u := rfl
@[simp] theorem State.unit_withTaking (s : State) (x : Bool) (u : Fin 4) : (s.withTaking x).unit u = s.unit u := rfl
@[simp] theorem State.unit_withPending (s : State) (x : List Instr) (u : Fin 4) : (s.withPending x).unit u = s.unit u := rfl

@[simp] theorem State.setLane_taking (s : State) (l : Fin 16) (c : Lane) : (s.setLane l c).taking = s.taking := rfl
@[simp] theorem State.setLane_intakePort (s : State) (l : Fin 16) (c : Lane) : (s.setLane l c).intakePort = s.intakePort := rfl
@[simp] theorem State.setLane_admission (s : State) (l : Fin 16) (c : Lane) : (s.setLane l c).admission = s.admission := rfl
@[simp] theorem State.setLane_freePages (s : State) (l : Fin 16) (c : Lane) : (s.setLane l c).freePages = s.freePages := rfl
@[simp] theorem State.setLane_reduction (s : State) (l : Fin 16) (c : Lane) : (s.setLane l c).reduction = s.reduction := rfl
@[simp] theorem State.setLane_disposition (s : State) (l : Fin 16) (c : Lane) : (s.setLane l c).disposition = s.disposition := rfl
@[simp] theorem State.setLane_egress (s : State) (l : Fin 16) (c : Lane) : (s.setLane l c).egress = s.egress := rfl
@[simp] theorem State.setLane_flow (s : State) (l : Fin 16) (c : Lane) : (s.setLane l c).flow = s.flow := rfl
@[simp] theorem State.setLane_mgmt (s : State) (l : Fin 16) (c : Lane) : (s.setLane l c).mgmt = s.mgmt := rfl
@[simp] theorem State.setLane_pending (s : State) (l : Fin 16) (c : Lane) : (s.setLane l c).pending = s.pending := rfl
@[simp] theorem State.modLane_taking (s : State) (l : Fin 16) (f : Lane → Lane) : (s.modLane l f).taking = s.taking := rfl
@[simp] theorem State.modLane_intakePort (s : State) (l : Fin 16) (f : Lane → Lane) : (s.modLane l f).intakePort = s.intakePort := rfl
@[simp] theorem State.modLane_admission (s : State) (l : Fin 16) (f : Lane → Lane) : (s.modLane l f).admission = s.admission := rfl
@[simp] theorem State.modLane_freePages (s : State) (l : Fin 16) (f : Lane → Lane) : (s.modLane l f).freePages = s.freePages := rfl
@[simp] theorem State.modLane_reduction (s : State) (l : Fin 16) (f : Lane → Lane) : (s.modLane l f).reduction = s.reduction := rfl
@[simp] theorem State.modLane_disposition (s : State) (l : Fin 16) (f : Lane → Lane) : (s.modLane l f).disposition = s.disposition := rfl
@[simp] theorem State.modLane_egress (s : State) (l : Fin 16) (f : Lane → Lane) : (s.modLane l f).egress = s.egress := rfl
@[simp] theorem State.modLane_flow (s : State) (l : Fin 16) (f : Lane → Lane) : (s.modLane l f).flow = s.flow := rfl
@[simp] theorem State.modLane_mgmt (s : State) (l : Fin 16) (f : Lane → Lane) : (s.modLane l f).mgmt = s.mgmt := rfl
@[simp] theorem State.modLane_pending (s : State) (l : Fin 16) (f : Lane → Lane) : (s.modLane l f).pending = s.pending := rfl
@[simp] theorem State.countLane_taking (s : State) (l : Fin 16) (f : LaneCounters → LaneCounters) : (s.countLane l f).taking = s.taking := rfl
@[simp] theorem State.countLane_intakePort (s : State) (l : Fin 16) (f : LaneCounters → LaneCounters) : (s.countLane l f).intakePort = s.intakePort := rfl
@[simp] theorem State.countLane_admission (s : State) (l : Fin 16) (f : LaneCounters → LaneCounters) : (s.countLane l f).admission = s.admission := rfl
@[simp] theorem State.countLane_freePages (s : State) (l : Fin 16) (f : LaneCounters → LaneCounters) : (s.countLane l f).freePages = s.freePages := rfl
@[simp] theorem State.countLane_reduction (s : State) (l : Fin 16) (f : LaneCounters → LaneCounters) : (s.countLane l f).reduction = s.reduction := rfl
@[simp] theorem State.countLane_disposition (s : State) (l : Fin 16) (f : LaneCounters → LaneCounters) : (s.countLane l f).disposition = s.disposition := rfl
@[simp] theorem State.countLane_egress (s : State) (l : Fin 16) (f : LaneCounters → LaneCounters) : (s.countLane l f).egress = s.egress := rfl
@[simp] theorem State.countLane_flow (s : State) (l : Fin 16) (f : LaneCounters → LaneCounters) : (s.countLane l f).flow = s.flow := rfl
@[simp] theorem State.countLane_mgmt (s : State) (l : Fin 16) (f : LaneCounters → LaneCounters) : (s.countLane l f).mgmt = s.mgmt := rfl
@[simp] theorem State.countLane_pending (s : State) (l : Fin 16) (f : LaneCounters → LaneCounters) : (s.countLane l f).pending = s.pending := rfl
@[simp] theorem State.modItem_taking (s : State) (l : Fin 16) (q : Seq) (f : Item → Item) : (s.modItem l q f).taking = s.taking := rfl
@[simp] theorem State.modItem_intakePort (s : State) (l : Fin 16) (q : Seq) (f : Item → Item) : (s.modItem l q f).intakePort = s.intakePort := rfl
@[simp] theorem State.modItem_admission (s : State) (l : Fin 16) (q : Seq) (f : Item → Item) : (s.modItem l q f).admission = s.admission := rfl
@[simp] theorem State.modItem_freePages (s : State) (l : Fin 16) (q : Seq) (f : Item → Item) : (s.modItem l q f).freePages = s.freePages := rfl
@[simp] theorem State.modItem_reduction (s : State) (l : Fin 16) (q : Seq) (f : Item → Item) : (s.modItem l q f).reduction = s.reduction := rfl
@[simp] theorem State.modItem_disposition (s : State) (l : Fin 16) (q : Seq) (f : Item → Item) : (s.modItem l q f).disposition = s.disposition := rfl
@[simp] theorem State.modItem_egress (s : State) (l : Fin 16) (q : Seq) (f : Item → Item) : (s.modItem l q f).egress = s.egress := rfl
@[simp] theorem State.modItem_flow (s : State) (l : Fin 16) (q : Seq) (f : Item → Item) : (s.modItem l q f).flow = s.flow := rfl
@[simp] theorem State.modItem_mgmt (s : State) (l : Fin 16) (q : Seq) (f : Item → Item) : (s.modItem l q f).mgmt = s.mgmt := rfl
@[simp] theorem State.modItem_pending (s : State) (l : Fin 16) (q : Seq) (f : Item → Item) : (s.modItem l q f).pending = s.pending := rfl
@[simp] theorem State.modSide_taking (s : State) (r : SideRef) (g : Side → Side) : (s.modSide r g).taking = s.taking := rfl
@[simp] theorem State.modSide_intakePort (s : State) (r : SideRef) (g : Side → Side) : (s.modSide r g).intakePort = s.intakePort := rfl
@[simp] theorem State.modSide_admission (s : State) (r : SideRef) (g : Side → Side) : (s.modSide r g).admission = s.admission := rfl
@[simp] theorem State.modSide_freePages (s : State) (r : SideRef) (g : Side → Side) : (s.modSide r g).freePages = s.freePages := rfl
@[simp] theorem State.modSide_reduction (s : State) (r : SideRef) (g : Side → Side) : (s.modSide r g).reduction = s.reduction := rfl
@[simp] theorem State.modSide_disposition (s : State) (r : SideRef) (g : Side → Side) : (s.modSide r g).disposition = s.disposition := rfl
@[simp] theorem State.modSide_egress (s : State) (r : SideRef) (g : Side → Side) : (s.modSide r g).egress = s.egress := rfl
@[simp] theorem State.modSide_flow (s : State) (r : SideRef) (g : Side → Side) : (s.modSide r g).flow = s.flow := rfl
@[simp] theorem State.modSide_mgmt (s : State) (r : SideRef) (g : Side → Side) : (s.modSide r g).mgmt = s.mgmt := rfl
@[simp] theorem State.modSide_pending (s : State) (r : SideRef) (g : Side → Side) : (s.modSide r g).pending = s.pending := rfl
@[simp] theorem State.setUnit_taking (s : State) (u : Fin 4) (b : Option Binding) : (s.setUnit u b).taking = s.taking := rfl
@[simp] theorem State.setUnit_intakePort (s : State) (u : Fin 4) (b : Option Binding) : (s.setUnit u b).intakePort = s.intakePort := rfl
@[simp] theorem State.setUnit_lanes (s : State) (u : Fin 4) (b : Option Binding) : (s.setUnit u b).lanes = s.lanes := rfl
@[simp] theorem State.setUnit_admission (s : State) (u : Fin 4) (b : Option Binding) : (s.setUnit u b).admission = s.admission := rfl
@[simp] theorem State.setUnit_freePages (s : State) (u : Fin 4) (b : Option Binding) : (s.setUnit u b).freePages = s.freePages := rfl
@[simp] theorem State.setUnit_disposition (s : State) (u : Fin 4) (b : Option Binding) : (s.setUnit u b).disposition = s.disposition := rfl
@[simp] theorem State.setUnit_egress (s : State) (u : Fin 4) (b : Option Binding) : (s.setUnit u b).egress = s.egress := rfl
@[simp] theorem State.setUnit_flow (s : State) (u : Fin 4) (b : Option Binding) : (s.setUnit u b).flow = s.flow := rfl
@[simp] theorem State.setUnit_mgmt (s : State) (u : Fin 4) (b : Option Binding) : (s.setUnit u b).mgmt = s.mgmt := rfl
@[simp] theorem State.setUnit_pending (s : State) (u : Fin 4) (b : Option Binding) : (s.setUnit u b).pending = s.pending := rfl

/-- The lanes of two states agree when their contexts do. -/
theorem State.lanes_ext {s t : State} (h : ∀ l, s.lane l = t.lane l) : s.lanes = t.lanes := by
  apply Vector.ext
  intro i hi
  exact h ⟨i, hi⟩

end Sys2Proof.Machine
end

