-- ==== Sys2Proof/Laws/Frames.lean ====
section
/-! SUPPORT. Which blocks each shared operation leaves as they are: one lemma for each operation and block. -/

namespace Sys2Proof.Machine

set_option Elab.async false

@[simp] theorem State.setFree_eq (n : Nat) (s : State) : setFree n s = evalStop (s.withFree n) := rfl

/-! ### queueFlow -/

@[simp] theorem queueFlow_taking (f : FlowFrame) (s : State) : (queueFlow f s).taking = s.taking := by
  simp [queueFlow]
@[simp] theorem queueFlow_intakePort (f : FlowFrame) (s : State) : (queueFlow f s).intakePort = s.intakePort := by
  simp [queueFlow]
@[simp] theorem queueFlow_lanes (f : FlowFrame) (s : State) : (queueFlow f s).lanes = s.lanes := by
  simp [queueFlow]
@[simp] theorem queueFlow_admission (f : FlowFrame) (s : State) : (queueFlow f s).admission = s.admission := by
  simp [queueFlow]
@[simp] theorem queueFlow_freePages (f : FlowFrame) (s : State) : (queueFlow f s).freePages = s.freePages := by
  simp [queueFlow]
@[simp] theorem queueFlow_reduction (f : FlowFrame) (s : State) : (queueFlow f s).reduction = s.reduction := by
  simp [queueFlow]
@[simp] theorem queueFlow_disposition (f : FlowFrame) (s : State) : (queueFlow f s).disposition = s.disposition := by
  simp [queueFlow]
@[simp] theorem queueFlow_egress (f : FlowFrame) (s : State) : (queueFlow f s).egress = s.egress := by
  simp [queueFlow]
@[simp] theorem queueFlow_mgmt (f : FlowFrame) (s : State) : (queueFlow f s).mgmt = s.mgmt := by
  simp [queueFlow]
@[simp] theorem queueFlow_pending (f : FlowFrame) (s : State) : (queueFlow f s).pending = s.pending := by
  simp [queueFlow]

/-! ### evalPaused -/

@[simp] theorem evalPaused_taking (l : Fin 16) (s : State) : (evalPaused l s).taking = s.taking := by
  unfold evalPaused
  (try dsimp only)
  (repeat' split) <;> simp
@[simp] theorem evalPaused_intakePort (l : Fin 16) (s : State) : (evalPaused l s).intakePort = s.intakePort := by
  unfold evalPaused
  (try dsimp only)
  (repeat' split) <;> simp
@[simp] theorem evalPaused_admission (l : Fin 16) (s : State) : (evalPaused l s).admission = s.admission := by
  unfold evalPaused
  (try dsimp only)
  (repeat' split) <;> simp
@[simp] theorem evalPaused_freePages (l : Fin 16) (s : State) : (evalPaused l s).freePages = s.freePages := by
  unfold evalPaused
  (try dsimp only)
  (repeat' split) <;> simp
@[simp] theorem evalPaused_reduction (l : Fin 16) (s : State) : (evalPaused l s).reduction = s.reduction := by
  unfold evalPaused
  (try dsimp only)
  (repeat' split) <;> simp
@[simp] theorem evalPaused_disposition (l : Fin 16) (s : State) : (evalPaused l s).disposition = s.disposition := by
  unfold evalPaused
  (try dsimp only)
  (repeat' split) <;> simp
@[simp] theorem evalPaused_egress (l : Fin 16) (s : State) : (evalPaused l s).egress = s.egress := by
  unfold evalPaused
  (try dsimp only)
  (repeat' split) <;> simp
@[simp] theorem evalPaused_mgmt (l : Fin 16) (s : State) : (evalPaused l s).mgmt = s.mgmt := by
  unfold evalPaused
  (try dsimp only)
  (repeat' split) <;> simp
@[simp] theorem evalPaused_pending (l : Fin 16) (s : State) : (evalPaused l s).pending = s.pending := by
  unfold evalPaused
  (try dsimp only)
  (repeat' split) <;> simp

/-! ### evalStop -/

@[simp] theorem evalStop_taking (s : State) : (evalStop s).taking = s.taking := by
  unfold evalStop
  (try dsimp only)
  (repeat' split) <;> simp
@[simp] theorem evalStop_intakePort (s : State) : (evalStop s).intakePort = s.intakePort := by
  unfold evalStop
  (try dsimp only)
  (repeat' split) <;> simp
@[simp] theorem evalStop_lanes (s : State) : (evalStop s).lanes = s.lanes := by
  unfold evalStop
  (try dsimp only)
  (repeat' split) <;> simp
@[simp] theorem evalStop_admission (s : State) : (evalStop s).admission = s.admission := by
  unfold evalStop
  (try dsimp only)
  (repeat' split) <;> simp
@[simp] theorem evalStop_freePages (s : State) : (evalStop s).freePages = s.freePages := by
  unfold evalStop
  (try dsimp only)
  (repeat' split) <;> simp
@[simp] theorem evalStop_reduction (s : State) : (evalStop s).reduction = s.reduction := by
  unfold evalStop
  (try dsimp only)
  (repeat' split) <;> simp
@[simp] theorem evalStop_disposition (s : State) : (evalStop s).disposition = s.disposition := by
  unfold evalStop
  (try dsimp only)
  (repeat' split) <;> simp
@[simp] theorem evalStop_egress (s : State) : (evalStop s).egress = s.egress := by
  unfold evalStop
  (try dsimp only)
  (repeat' split) <;> simp
@[simp] theorem evalStop_mgmt (s : State) : (evalStop s).mgmt = s.mgmt := by
  unfold evalStop
  (try dsimp only)
  (repeat' split) <;> simp
@[simp] theorem evalStop_pending (s : State) : (evalStop s).pending = s.pending := by
  unfold evalStop
  (try dsimp only)
  (repeat' split) <;> simp

/-! ### setFree -/

@[simp] theorem setFree_taking (n : Nat) (s : State) : (setFree n s).taking = s.taking := by
  simp [setFree]
@[simp] theorem setFree_intakePort (n : Nat) (s : State) : (setFree n s).intakePort = s.intakePort := by
  simp [setFree]
@[simp] theorem setFree_lanes (n : Nat) (s : State) : (setFree n s).lanes = s.lanes := by
  simp [setFree]
@[simp] theorem setFree_admission (n : Nat) (s : State) : (setFree n s).admission = s.admission := by
  simp [setFree]
@[simp] theorem setFree_reduction (n : Nat) (s : State) : (setFree n s).reduction = s.reduction := by
  simp [setFree]
@[simp] theorem setFree_disposition (n : Nat) (s : State) : (setFree n s).disposition = s.disposition := by
  simp [setFree]
@[simp] theorem setFree_egress (n : Nat) (s : State) : (setFree n s).egress = s.egress := by
  simp [setFree]
@[simp] theorem setFree_mgmt (n : Nat) (s : State) : (setFree n s).mgmt = s.mgmt := by
  simp [setFree]
@[simp] theorem setFree_pending (n : Nat) (s : State) : (setFree n s).pending = s.pending := by
  simp [setFree]

/-! ### takePages -/

@[simp] theorem takePages_taking (n : Nat) (s : State) : (takePages n s).taking = s.taking := by
  unfold takePages
  (repeat' split) <;> simp
@[simp] theorem takePages_intakePort (n : Nat) (s : State) : (takePages n s).intakePort = s.intakePort := by
  unfold takePages
  (repeat' split) <;> simp
@[simp] theorem takePages_lanes (n : Nat) (s : State) : (takePages n s).lanes = s.lanes := by
  unfold takePages
  (repeat' split) <;> simp
@[simp] theorem takePages_admission (n : Nat) (s : State) : (takePages n s).admission = s.admission := by
  unfold takePages
  (repeat' split) <;> simp
@[simp] theorem takePages_reduction (n : Nat) (s : State) : (takePages n s).reduction = s.reduction := by
  unfold takePages
  (repeat' split) <;> simp
@[simp] theorem takePages_disposition (n : Nat) (s : State) : (takePages n s).disposition = s.disposition := by
  unfold takePages
  (repeat' split) <;> simp
@[simp] theorem takePages_egress (n : Nat) (s : State) : (takePages n s).egress = s.egress := by
  unfold takePages
  (repeat' split) <;> simp
@[simp] theorem takePages_mgmt (n : Nat) (s : State) : (takePages n s).mgmt = s.mgmt := by
  unfold takePages
  (repeat' split) <;> simp
@[simp] theorem takePages_pending (n : Nat) (s : State) : (takePages n s).pending = s.pending := by
  unfold takePages
  (repeat' split) <;> simp

/-! ### returnPages -/

@[simp] theorem returnPages_taking (n : Nat) (s : State) : (returnPages n s).taking = s.taking := by
  unfold returnPages
  (repeat' split) <;> simp
@[simp] theorem returnPages_intakePort (n : Nat) (s : State) : (returnPages n s).intakePort = s.intakePort := by
  unfold returnPages
  (repeat' split) <;> simp
@[simp] theorem returnPages_lanes (n : Nat) (s : State) : (returnPages n s).lanes = s.lanes := by
  unfold returnPages
  (repeat' split) <;> simp
@[simp] theorem returnPages_admission (n : Nat) (s : State) : (returnPages n s).admission = s.admission := by
  unfold returnPages
  (repeat' split) <;> simp
@[simp] theorem returnPages_reduction (n : Nat) (s : State) : (returnPages n s).reduction = s.reduction := by
  unfold returnPages
  (repeat' split) <;> simp
@[simp] theorem returnPages_disposition (n : Nat) (s : State) : (returnPages n s).disposition = s.disposition := by
  unfold returnPages
  (repeat' split) <;> simp
@[simp] theorem returnPages_egress (n : Nat) (s : State) : (returnPages n s).egress = s.egress := by
  unfold returnPages
  (repeat' split) <;> simp
@[simp] theorem returnPages_mgmt (n : Nat) (s : State) : (returnPages n s).mgmt = s.mgmt := by
  unfold returnPages
  (repeat' split) <;> simp
@[simp] theorem returnPages_pending (n : Nat) (s : State) : (returnPages n s).pending = s.pending := by
  unfold returnPages
  (repeat' split) <;> simp

/-! ### queueRefusal -/

@[simp] theorem queueRefusal_taking (r : RefusalFrame) (s : State) : (queueRefusal r s).taking = s.taking := by
  unfold queueRefusal
  (try dsimp only)
  (repeat' split) <;> simp
@[simp] theorem queueRefusal_intakePort (r : RefusalFrame) (s : State) : (queueRefusal r s).intakePort = s.intakePort := by
  unfold queueRefusal
  (try dsimp only)
  (repeat' split) <;> simp
@[simp] theorem queueRefusal_lanes (r : RefusalFrame) (s : State) : (queueRefusal r s).lanes = s.lanes := by
  unfold queueRefusal
  (try dsimp only)
  (repeat' split) <;> simp
@[simp] theorem queueRefusal_admission (r : RefusalFrame) (s : State) : (queueRefusal r s).admission = s.admission := by
  unfold queueRefusal
  (try dsimp only)
  (repeat' split) <;> simp
@[simp] theorem queueRefusal_freePages (r : RefusalFrame) (s : State) : (queueRefusal r s).freePages = s.freePages := by
  unfold queueRefusal
  (try dsimp only)
  (repeat' split) <;> simp
@[simp] theorem queueRefusal_reduction (r : RefusalFrame) (s : State) : (queueRefusal r s).reduction = s.reduction := by
  unfold queueRefusal
  (try dsimp only)
  (repeat' split) <;> simp
@[simp] theorem queueRefusal_disposition (r : RefusalFrame) (s : State) : (queueRefusal r s).disposition = s.disposition := by
  unfold queueRefusal
  (try dsimp only)
  (repeat' split) <;> simp
@[simp] theorem queueRefusal_egress (r : RefusalFrame) (s : State) : (queueRefusal r s).egress = s.egress := by
  unfold queueRefusal
  (try dsimp only)
  (repeat' split) <;> simp
@[simp] theorem queueRefusal_mgmt (r : RefusalFrame) (s : State) : (queueRefusal r s).mgmt = s.mgmt := by
  unfold queueRefusal
  (try dsimp only)
  (repeat' split) <;> simp
@[simp] theorem queueRefusal_pending (r : RefusalFrame) (s : State) : (queueRefusal r s).pending = s.pending := by
  unfold queueRefusal
  (try dsimp only)
  (repeat' split) <;> simp

/-! ### popWaiting -/

@[simp] theorem popWaiting_taking (s : State) : (popWaiting s).taking = s.taking := by
  unfold popWaiting
  (try dsimp only)
  (repeat' split) <;> simp
@[simp] theorem popWaiting_intakePort (s : State) : (popWaiting s).intakePort = s.intakePort := by
  unfold popWaiting
  (try dsimp only)
  (repeat' split) <;> simp
@[simp] theorem popWaiting_lanes (s : State) : (popWaiting s).lanes = s.lanes := by
  unfold popWaiting
  (try dsimp only)
  (repeat' split) <;> simp
@[simp] theorem popWaiting_admission (s : State) : (popWaiting s).admission = s.admission := by
  unfold popWaiting
  (try dsimp only)
  (repeat' split) <;> simp
@[simp] theorem popWaiting_freePages (s : State) : (popWaiting s).freePages = s.freePages := by
  unfold popWaiting
  (try dsimp only)
  (repeat' split) <;> simp
@[simp] theorem popWaiting_disposition (s : State) : (popWaiting s).disposition = s.disposition := by
  unfold popWaiting
  (try dsimp only)
  (repeat' split) <;> simp
@[simp] theorem popWaiting_egress (s : State) : (popWaiting s).egress = s.egress := by
  unfold popWaiting
  (try dsimp only)
  (repeat' split) <;> simp
@[simp] theorem popWaiting_flow (s : State) : (popWaiting s).flow = s.flow := by
  unfold popWaiting
  (try dsimp only)
  (repeat' split) <;> simp
@[simp] theorem popWaiting_mgmt (s : State) : (popWaiting s).mgmt = s.mgmt := by
  unfold popWaiting
  (try dsimp only)
  (repeat' split) <;> simp
@[simp] theorem popWaiting_pending (s : State) : (popWaiting s).pending = s.pending := by
  unfold popWaiting
  (try dsimp only)
  (repeat' split) <;> simp

/-! ### bindSide -/

@[simp] theorem bindSide_taking (u : Fin 4) (r : SideRef) (s : State) : (bindSide u r s).taking = s.taking := by
  unfold bindSide
  (try dsimp only)
  (repeat' split) <;> simp
@[simp] theorem bindSide_intakePort (u : Fin 4) (r : SideRef) (s : State) : (bindSide u r s).intakePort = s.intakePort := by
  unfold bindSide
  (try dsimp only)
  (repeat' split) <;> simp
@[simp] theorem bindSide_admission (u : Fin 4) (r : SideRef) (s : State) : (bindSide u r s).admission = s.admission := by
  unfold bindSide
  (try dsimp only)
  (repeat' split) <;> simp
@[simp] theorem bindSide_freePages (u : Fin 4) (r : SideRef) (s : State) : (bindSide u r s).freePages = s.freePages := by
  unfold bindSide
  (try dsimp only)
  (repeat' split) <;> simp
@[simp] theorem bindSide_disposition (u : Fin 4) (r : SideRef) (s : State) : (bindSide u r s).disposition = s.disposition := by
  unfold bindSide
  (try dsimp only)
  (repeat' split) <;> simp
@[simp] theorem bindSide_egress (u : Fin 4) (r : SideRef) (s : State) : (bindSide u r s).egress = s.egress := by
  unfold bindSide
  (try dsimp only)
  (repeat' split) <;> simp
@[simp] theorem bindSide_mgmt (u : Fin 4) (r : SideRef) (s : State) : (bindSide u r s).mgmt = s.mgmt := by
  unfold bindSide
  (try dsimp only)
  (repeat' split) <;> simp
@[simp] theorem bindSide_pending (u : Fin 4) (r : SideRef) (s : State) : (bindSide u r s).pending = s.pending := by
  unfold bindSide
  (try dsimp only)
  (repeat' split) <;> simp

/-! ### grant -/

@[simp] theorem grant_taking (s : State) : (grant s).taking = s.taking := by
  unfold grant
  (repeat' split) <;> simp
@[simp] theorem grant_intakePort (s : State) : (grant s).intakePort = s.intakePort := by
  unfold grant
  (repeat' split) <;> simp
@[simp] theorem grant_admission (s : State) : (grant s).admission = s.admission := by
  unfold grant
  (repeat' split) <;> simp
@[simp] theorem grant_freePages (s : State) : (grant s).freePages = s.freePages := by
  unfold grant
  (repeat' split) <;> simp
@[simp] theorem grant_disposition (s : State) : (grant s).disposition = s.disposition := by
  unfold grant
  (repeat' split) <;> simp
@[simp] theorem grant_egress (s : State) : (grant s).egress = s.egress := by
  unfold grant
  (repeat' split) <;> simp
@[simp] theorem grant_mgmt (s : State) : (grant s).mgmt = s.mgmt := by
  unfold grant
  (repeat' split) <;> simp
@[simp] theorem grant_pending (s : State) : (grant s).pending = s.pending := by
  unfold grant
  (repeat' split) <;> simp

/-! ### grantUpTo -/

@[simp] theorem grantUpTo_taking (n : Nat) (s : State) : (grantUpTo n s).taking = s.taking := by
  induction n generalizing s with
  | zero => rfl
  | succ n ih => simp [grantUpTo, ih]
@[simp] theorem grantUpTo_intakePort (n : Nat) (s : State) : (grantUpTo n s).intakePort = s.intakePort := by
  induction n generalizing s with
  | zero => rfl
  | succ n ih => simp [grantUpTo, ih]
@[simp] theorem grantUpTo_admission (n : Nat) (s : State) : (grantUpTo n s).admission = s.admission := by
  induction n generalizing s with
  | zero => rfl
  | succ n ih => simp [grantUpTo, ih]
@[simp] theorem grantUpTo_freePages (n : Nat) (s : State) : (grantUpTo n s).freePages = s.freePages := by
  induction n generalizing s with
  | zero => rfl
  | succ n ih => simp [grantUpTo, ih]
@[simp] theorem grantUpTo_disposition (n : Nat) (s : State) : (grantUpTo n s).disposition = s.disposition := by
  induction n generalizing s with
  | zero => rfl
  | succ n ih => simp [grantUpTo, ih]
@[simp] theorem grantUpTo_egress (n : Nat) (s : State) : (grantUpTo n s).egress = s.egress := by
  induction n generalizing s with
  | zero => rfl
  | succ n ih => simp [grantUpTo, ih]
@[simp] theorem grantUpTo_mgmt (n : Nat) (s : State) : (grantUpTo n s).mgmt = s.mgmt := by
  induction n generalizing s with
  | zero => rfl
  | succ n ih => simp [grantUpTo, ih]
@[simp] theorem grantUpTo_pending (n : Nat) (s : State) : (grantUpTo n s).pending = s.pending := by
  induction n generalizing s with
  | zero => rfl
  | succ n ih => simp [grantUpTo, ih]

/-! ### grantAll -/

@[simp] theorem grantAll_taking (s : State) : (grantAll s).taking = s.taking := by
  simp [grantAll]
@[simp] theorem grantAll_intakePort (s : State) : (grantAll s).intakePort = s.intakePort := by
  simp [grantAll]
@[simp] theorem grantAll_admission (s : State) : (grantAll s).admission = s.admission := by
  simp [grantAll]
@[simp] theorem grantAll_freePages (s : State) : (grantAll s).freePages = s.freePages := by
  simp [grantAll]
@[simp] theorem grantAll_disposition (s : State) : (grantAll s).disposition = s.disposition := by
  simp [grantAll]
@[simp] theorem grantAll_egress (s : State) : (grantAll s).egress = s.egress := by
  simp [grantAll]
@[simp] theorem grantAll_mgmt (s : State) : (grantAll s).mgmt = s.mgmt := by
  simp [grantAll]
@[simp] theorem grantAll_pending (s : State) : (grantAll s).pending = s.pending := by
  simp [grantAll]

/-! ### completeRow -/

@[simp] theorem completeRow_taking (u : Fin 4) (s : State) : (completeRow u s).taking = s.taking := by
  unfold completeRow
  (repeat' split) <;> simp
@[simp] theorem completeRow_intakePort (u : Fin 4) (s : State) : (completeRow u s).intakePort = s.intakePort := by
  unfold completeRow
  (repeat' split) <;> simp
@[simp] theorem completeRow_admission (u : Fin 4) (s : State) : (completeRow u s).admission = s.admission := by
  unfold completeRow
  (repeat' split) <;> simp
@[simp] theorem completeRow_freePages (u : Fin 4) (s : State) : (completeRow u s).freePages = s.freePages := by
  unfold completeRow
  (repeat' split) <;> simp
@[simp] theorem completeRow_disposition (u : Fin 4) (s : State) : (completeRow u s).disposition = s.disposition := by
  unfold completeRow
  (repeat' split) <;> simp
@[simp] theorem completeRow_egress (u : Fin 4) (s : State) : (completeRow u s).egress = s.egress := by
  unfold completeRow
  (repeat' split) <;> simp
@[simp] theorem completeRow_mgmt (u : Fin 4) (s : State) : (completeRow u s).mgmt = s.mgmt := by
  unfold completeRow
  (repeat' split) <;> simp
@[simp] theorem completeRow_pending (u : Fin 4) (s : State) : (completeRow u s).pending = s.pending := by
  unfold completeRow
  (repeat' split) <;> simp

/-! ### replaceItem -/

@[simp] theorem replaceItem_taking (l : Fin 16) (i j : Item) (s : State) : (replaceItem l i j s).taking = s.taking := by
  simp [replaceItem]
@[simp] theorem replaceItem_intakePort (l : Fin 16) (i j : Item) (s : State) : (replaceItem l i j s).intakePort = s.intakePort := by
  simp [replaceItem]
@[simp] theorem replaceItem_admission (l : Fin 16) (i j : Item) (s : State) : (replaceItem l i j s).admission = s.admission := by
  simp [replaceItem]
@[simp] theorem replaceItem_reduction (l : Fin 16) (i j : Item) (s : State) : (replaceItem l i j s).reduction = s.reduction := by
  simp [replaceItem]
@[simp] theorem replaceItem_disposition (l : Fin 16) (i j : Item) (s : State) : (replaceItem l i j s).disposition = s.disposition := by
  simp [replaceItem]
@[simp] theorem replaceItem_egress (l : Fin 16) (i j : Item) (s : State) : (replaceItem l i j s).egress = s.egress := by
  simp [replaceItem]
@[simp] theorem replaceItem_mgmt (l : Fin 16) (i j : Item) (s : State) : (replaceItem l i j s).mgmt = s.mgmt := by
  simp [replaceItem]
@[simp] theorem replaceItem_pending (l : Fin 16) (i j : Item) (s : State) : (replaceItem l i j s).pending = s.pending := by
  simp [replaceItem]

/-! ### joinReworkIf -/

@[simp] theorem joinReworkIf_taking (n : Option Condition) (r : SideRef) (s : State) : (joinReworkIf n r s).taking = s.taking := by
  unfold joinReworkIf
  (repeat' split) <;> simp [joinRework]
@[simp] theorem joinReworkIf_intakePort (n : Option Condition) (r : SideRef) (s : State) : (joinReworkIf n r s).intakePort = s.intakePort := by
  unfold joinReworkIf
  (repeat' split) <;> simp [joinRework]
@[simp] theorem joinReworkIf_admission (n : Option Condition) (r : SideRef) (s : State) : (joinReworkIf n r s).admission = s.admission := by
  unfold joinReworkIf
  (repeat' split) <;> simp [joinRework]
@[simp] theorem joinReworkIf_freePages (n : Option Condition) (r : SideRef) (s : State) : (joinReworkIf n r s).freePages = s.freePages := by
  unfold joinReworkIf
  (repeat' split) <;> simp [joinRework]
@[simp] theorem joinReworkIf_disposition (n : Option Condition) (r : SideRef) (s : State) : (joinReworkIf n r s).disposition = s.disposition := by
  unfold joinReworkIf
  (repeat' split) <;> simp [joinRework]
@[simp] theorem joinReworkIf_egress (n : Option Condition) (r : SideRef) (s : State) : (joinReworkIf n r s).egress = s.egress := by
  unfold joinReworkIf
  (repeat' split) <;> simp [joinRework]
@[simp] theorem joinReworkIf_flow (n : Option Condition) (r : SideRef) (s : State) : (joinReworkIf n r s).flow = s.flow := by
  unfold joinReworkIf
  (repeat' split) <;> simp [joinRework]
@[simp] theorem joinReworkIf_mgmt (n : Option Condition) (r : SideRef) (s : State) : (joinReworkIf n r s).mgmt = s.mgmt := by
  unfold joinReworkIf
  (repeat' split) <;> simp [joinRework]
@[simp] theorem joinReworkIf_pending (n : Option Condition) (r : SideRef) (s : State) : (joinReworkIf n r s).pending = s.pending := by
  unfold joinReworkIf
  (repeat' split) <;> simp [joinRework]

/-! ### dispatch -/

@[simp] theorem dispatch_taking (l : Fin 16) (i : Item) (v : Verdict) (s : State) : (dispatch l i v s).taking = s.taking := by
  unfold dispatch
  (repeat' split) <;> simp [countFault, countExhausted]
@[simp] theorem dispatch_intakePort (l : Fin 16) (i : Item) (v : Verdict) (s : State) : (dispatch l i v s).intakePort = s.intakePort := by
  unfold dispatch
  (repeat' split) <;> simp [countFault, countExhausted]
@[simp] theorem dispatch_admission (l : Fin 16) (i : Item) (v : Verdict) (s : State) : (dispatch l i v s).admission = s.admission := by
  unfold dispatch
  (repeat' split) <;> simp [countFault, countExhausted]
@[simp] theorem dispatch_egress (l : Fin 16) (i : Item) (v : Verdict) (s : State) : (dispatch l i v s).egress = s.egress := by
  unfold dispatch
  (repeat' split) <;> simp [countFault, countExhausted]
@[simp] theorem dispatch_mgmt (l : Fin 16) (i : Item) (v : Verdict) (s : State) : (dispatch l i v s).mgmt = s.mgmt := by
  unfold dispatch
  (repeat' split) <;> simp [countFault, countExhausted]
@[simp] theorem dispatch_pending (l : Fin 16) (i : Item) (v : Verdict) (s : State) : (dispatch l i v s).pending = s.pending := by
  unfold dispatch
  (repeat' split) <;> simp [countFault, countExhausted]

/-! ### evaluate -/

@[simp] theorem evaluate_taking (l : Fin 16) (q : Seq) (s : State) : (evaluate l q s).taking = s.taking := by
  unfold evaluate
  (repeat' split) <;> simp
@[simp] theorem evaluate_intakePort (l : Fin 16) (q : Seq) (s : State) : (evaluate l q s).intakePort = s.intakePort := by
  unfold evaluate
  (repeat' split) <;> simp
@[simp] theorem evaluate_admission (l : Fin 16) (q : Seq) (s : State) : (evaluate l q s).admission = s.admission := by
  unfold evaluate
  (repeat' split) <;> simp
@[simp] theorem evaluate_egress (l : Fin 16) (q : Seq) (s : State) : (evaluate l q s).egress = s.egress := by
  unfold evaluate
  (repeat' split) <;> simp
@[simp] theorem evaluate_mgmt (l : Fin 16) (q : Seq) (s : State) : (evaluate l q s).mgmt = s.mgmt := by
  unfold evaluate
  (repeat' split) <;> simp
@[simp] theorem evaluate_pending (l : Fin 16) (q : Seq) (s : State) : (evaluate l q s).pending = s.pending := by
  unfold evaluate
  (repeat' split) <;> simp

/-! ### completeItem -/

@[simp] theorem completeItem_taking (l : Fin 16) (q : Seq) (s : State) : (completeItem l q s).taking = s.taking := by
  unfold completeItem
  (repeat' split) <;> simp
@[simp] theorem completeItem_intakePort (l : Fin 16) (q : Seq) (s : State) : (completeItem l q s).intakePort = s.intakePort := by
  unfold completeItem
  (repeat' split) <;> simp
@[simp] theorem completeItem_admission (l : Fin 16) (q : Seq) (s : State) : (completeItem l q s).admission = s.admission := by
  unfold completeItem
  (repeat' split) <;> simp
@[simp] theorem completeItem_egress (l : Fin 16) (q : Seq) (s : State) : (completeItem l q s).egress = s.egress := by
  unfold completeItem
  (repeat' split) <;> simp
@[simp] theorem completeItem_mgmt (l : Fin 16) (q : Seq) (s : State) : (completeItem l q s).mgmt = s.mgmt := by
  unfold completeItem
  (repeat' split) <;> simp
@[simp] theorem completeItem_pending (l : Fin 16) (q : Seq) (s : State) : (completeItem l q s).pending = s.pending := by
  unfold completeItem
  (repeat' split) <;> simp

/-! ### checkComplete -/

@[simp] theorem checkComplete_taking (l : Fin 16) (q : Seq) (s : State) : (checkComplete l q s).taking = s.taking := by
  unfold checkComplete
  (repeat' split) <;> simp
@[simp] theorem checkComplete_intakePort (l : Fin 16) (q : Seq) (s : State) : (checkComplete l q s).intakePort = s.intakePort := by
  unfold checkComplete
  (repeat' split) <;> simp
@[simp] theorem checkComplete_admission (l : Fin 16) (q : Seq) (s : State) : (checkComplete l q s).admission = s.admission := by
  unfold checkComplete
  (repeat' split) <;> simp
@[simp] theorem checkComplete_egress (l : Fin 16) (q : Seq) (s : State) : (checkComplete l q s).egress = s.egress := by
  unfold checkComplete
  (repeat' split) <;> simp
@[simp] theorem checkComplete_mgmt (l : Fin 16) (q : Seq) (s : State) : (checkComplete l q s).mgmt = s.mgmt := by
  unfold checkComplete
  (repeat' split) <;> simp
@[simp] theorem checkComplete_pending (l : Fin 16) (q : Seq) (s : State) : (checkComplete l q s).pending = s.pending := by
  unfold checkComplete
  (repeat' split) <;> simp

/-! ### writeHeld -/

@[simp] theorem writeHeld_taking (l : Fin 16) (v : Bool) (s : State) : (writeHeld l v s).taking = s.taking := by
  have h : ∀ (qs : List Seq) (t : State), (qs.foldl (fun t q => evaluate l q t) t).taking = t.taking := by
    intro qs
    induction qs with
    | nil => intro t; rfl
    | cons q qs ih => intro t; simp [ih]
  unfold writeHeld
  (repeat' split) <;> simp [h]
@[simp] theorem writeHeld_intakePort (l : Fin 16) (v : Bool) (s : State) : (writeHeld l v s).intakePort = s.intakePort := by
  have h : ∀ (qs : List Seq) (t : State), (qs.foldl (fun t q => evaluate l q t) t).intakePort = t.intakePort := by
    intro qs
    induction qs with
    | nil => intro t; rfl
    | cons q qs ih => intro t; simp [ih]
  unfold writeHeld
  (repeat' split) <;> simp [h]
@[simp] theorem writeHeld_admission (l : Fin 16) (v : Bool) (s : State) : (writeHeld l v s).admission = s.admission := by
  have h : ∀ (qs : List Seq) (t : State), (qs.foldl (fun t q => evaluate l q t) t).admission = t.admission := by
    intro qs
    induction qs with
    | nil => intro t; rfl
    | cons q qs ih => intro t; simp [ih]
  unfold writeHeld
  (repeat' split) <;> simp [h]
@[simp] theorem writeHeld_egress (l : Fin 16) (v : Bool) (s : State) : (writeHeld l v s).egress = s.egress := by
  have h : ∀ (qs : List Seq) (t : State), (qs.foldl (fun t q => evaluate l q t) t).egress = t.egress := by
    intro qs
    induction qs with
    | nil => intro t; rfl
    | cons q qs ih => intro t; simp [ih]
  unfold writeHeld
  (repeat' split) <;> simp [h]
@[simp] theorem writeHeld_mgmt (l : Fin 16) (v : Bool) (s : State) : (writeHeld l v s).mgmt = s.mgmt := by
  have h : ∀ (qs : List Seq) (t : State), (qs.foldl (fun t q => evaluate l q t) t).mgmt = t.mgmt := by
    intro qs
    induction qs with
    | nil => intro t; rfl
    | cons q qs ih => intro t; simp [ih]
  unfold writeHeld
  (repeat' split) <;> simp [h]
@[simp] theorem writeHeld_pending (l : Fin 16) (v : Bool) (s : State) : (writeHeld l v s).pending = s.pending := by
  have h : ∀ (qs : List Seq) (t : State), (qs.foldl (fun t q => evaluate l q t) t).pending = t.pending := by
    intro qs
    induction qs with
    | nil => intro t; rfl
    | cons q qs ih => intro t; simp [ih]
  unfold writeHeld
  (repeat' split) <;> simp [h]

/-! ### unitSeesClose -/

@[simp] theorem unitSeesClose_taking (r : SideRef) (x : Side) (s : State) : (unitSeesClose r x s).taking = s.taking := by
  unfold unitSeesClose
  (try dsimp only)
  (repeat' split) <;> simp
@[simp] theorem unitSeesClose_intakePort (r : SideRef) (x : Side) (s : State) : (unitSeesClose r x s).intakePort = s.intakePort := by
  unfold unitSeesClose
  (try dsimp only)
  (repeat' split) <;> simp
@[simp] theorem unitSeesClose_admission (r : SideRef) (x : Side) (s : State) : (unitSeesClose r x s).admission = s.admission := by
  unfold unitSeesClose
  (try dsimp only)
  (repeat' split) <;> simp
@[simp] theorem unitSeesClose_freePages (r : SideRef) (x : Side) (s : State) : (unitSeesClose r x s).freePages = s.freePages := by
  unfold unitSeesClose
  (try dsimp only)
  (repeat' split) <;> simp
@[simp] theorem unitSeesClose_disposition (r : SideRef) (x : Side) (s : State) : (unitSeesClose r x s).disposition = s.disposition := by
  unfold unitSeesClose
  (try dsimp only)
  (repeat' split) <;> simp
@[simp] theorem unitSeesClose_egress (r : SideRef) (x : Side) (s : State) : (unitSeesClose r x s).egress = s.egress := by
  unfold unitSeesClose
  (try dsimp only)
  (repeat' split) <;> simp
@[simp] theorem unitSeesClose_mgmt (r : SideRef) (x : Side) (s : State) : (unitSeesClose r x s).mgmt = s.mgmt := by
  unfold unitSeesClose
  (try dsimp only)
  (repeat' split) <;> simp
@[simp] theorem unitSeesClose_pending (r : SideRef) (x : Side) (s : State) : (unitSeesClose r x s).pending = s.pending := by
  unfold unitSeesClose
  (try dsimp only)
  (repeat' split) <;> simp

/-! ### closeInput -/

@[simp] theorem closeInput_taking (r : SideRef) (s : State) : (closeInput r s).taking = s.taking := by
  unfold closeInput
  (repeat' split) <;> simp
@[simp] theorem closeInput_intakePort (r : SideRef) (s : State) : (closeInput r s).intakePort = s.intakePort := by
  unfold closeInput
  (repeat' split) <;> simp
@[simp] theorem closeInput_admission (r : SideRef) (s : State) : (closeInput r s).admission = s.admission := by
  unfold closeInput
  (repeat' split) <;> simp
@[simp] theorem closeInput_freePages (r : SideRef) (s : State) : (closeInput r s).freePages = s.freePages := by
  unfold closeInput
  (repeat' split) <;> simp
@[simp] theorem closeInput_disposition (r : SideRef) (s : State) : (closeInput r s).disposition = s.disposition := by
  unfold closeInput
  (repeat' split) <;> simp
@[simp] theorem closeInput_egress (r : SideRef) (s : State) : (closeInput r s).egress = s.egress := by
  unfold closeInput
  (repeat' split) <;> simp
@[simp] theorem closeInput_mgmt (r : SideRef) (s : State) : (closeInput r s).mgmt = s.mgmt := by
  unfold closeInput
  (repeat' split) <;> simp
@[simp] theorem closeInput_pending (r : SideRef) (s : State) : (closeInput r s).pending = s.pending := by
  unfold closeInput
  (repeat' split) <;> simp

/-! ### truncateSide -/

@[simp] theorem truncateSide_taking (r : SideRef) (t : Truncation) (n : Condition) (s : State) : (truncateSide r t n s).taking = s.taking := by
  simp [truncateSide]
@[simp] theorem truncateSide_intakePort (r : SideRef) (t : Truncation) (n : Condition) (s : State) : (truncateSide r t n s).intakePort = s.intakePort := by
  simp [truncateSide]
@[simp] theorem truncateSide_admission (r : SideRef) (t : Truncation) (n : Condition) (s : State) : (truncateSide r t n s).admission = s.admission := by
  simp [truncateSide]
@[simp] theorem truncateSide_freePages (r : SideRef) (t : Truncation) (n : Condition) (s : State) : (truncateSide r t n s).freePages = s.freePages := by
  simp [truncateSide]
@[simp] theorem truncateSide_disposition (r : SideRef) (t : Truncation) (n : Condition) (s : State) : (truncateSide r t n s).disposition = s.disposition := by
  simp [truncateSide]
@[simp] theorem truncateSide_egress (r : SideRef) (t : Truncation) (n : Condition) (s : State) : (truncateSide r t n s).egress = s.egress := by
  simp [truncateSide]
@[simp] theorem truncateSide_mgmt (r : SideRef) (t : Truncation) (n : Condition) (s : State) : (truncateSide r t n s).mgmt = s.mgmt := by
  simp [truncateSide]
@[simp] theorem truncateSide_pending (r : SideRef) (t : Truncation) (n : Condition) (s : State) : (truncateSide r t n s).pending = s.pending := by
  simp [truncateSide]

/-! ### closeSide -/

@[simp] theorem closeSide_taking (l : Fin 16) (s : State) : (closeSide l s).taking = s.taking := by
  unfold closeSide
  (try dsimp only)
  (repeat' split) <;> simp
@[simp] theorem closeSide_intakePort (l : Fin 16) (s : State) : (closeSide l s).intakePort = s.intakePort := by
  unfold closeSide
  (try dsimp only)
  (repeat' split) <;> simp
@[simp] theorem closeSide_admission (l : Fin 16) (s : State) : (closeSide l s).admission = s.admission := by
  unfold closeSide
  (try dsimp only)
  (repeat' split) <;> simp
@[simp] theorem closeSide_freePages (l : Fin 16) (s : State) : (closeSide l s).freePages = s.freePages := by
  unfold closeSide
  (try dsimp only)
  (repeat' split) <;> simp
@[simp] theorem closeSide_disposition (l : Fin 16) (s : State) : (closeSide l s).disposition = s.disposition := by
  unfold closeSide
  (try dsimp only)
  (repeat' split) <;> simp
@[simp] theorem closeSide_egress (l : Fin 16) (s : State) : (closeSide l s).egress = s.egress := by
  unfold closeSide
  (try dsimp only)
  (repeat' split) <;> simp
@[simp] theorem closeSide_mgmt (l : Fin 16) (s : State) : (closeSide l s).mgmt = s.mgmt := by
  unfold closeSide
  (try dsimp only)
  (repeat' split) <;> simp
@[simp] theorem closeSide_pending (l : Fin 16) (s : State) : (closeSide l s).pending = s.pending := by
  unfold closeSide
  (try dsimp only)
  (repeat' split) <;> simp

/-! ### closeItem -/

@[simp] theorem closeItem_taking (l : Fin 16) (s : State) : (closeItem l s).taking = s.taking := by
  simp [closeItem]
@[simp] theorem closeItem_intakePort (l : Fin 16) (s : State) : (closeItem l s).intakePort = s.intakePort := by
  simp [closeItem]
@[simp] theorem closeItem_admission (l : Fin 16) (s : State) : (closeItem l s).admission = s.admission := by
  simp [closeItem]
@[simp] theorem closeItem_egress (l : Fin 16) (s : State) : (closeItem l s).egress = s.egress := by
  simp [closeItem]
@[simp] theorem closeItem_mgmt (l : Fin 16) (s : State) : (closeItem l s).mgmt = s.mgmt := by
  simp [closeItem]
@[simp] theorem closeItem_pending (l : Fin 16) (s : State) : (closeItem l s).pending = s.pending := by
  simp [closeItem]

/-! ### unitSeesRows -/

@[simp] theorem unitSeesRows_taking (x : Side) (n : Nat) (s : State) : (unitSeesRows x n s).taking = s.taking := by
  unfold unitSeesRows
  (repeat' split) <;> simp
@[simp] theorem unitSeesRows_intakePort (x : Side) (n : Nat) (s : State) : (unitSeesRows x n s).intakePort = s.intakePort := by
  unfold unitSeesRows
  (repeat' split) <;> simp
@[simp] theorem unitSeesRows_lanes (x : Side) (n : Nat) (s : State) : (unitSeesRows x n s).lanes = s.lanes := by
  unfold unitSeesRows
  (repeat' split) <;> simp
@[simp] theorem unitSeesRows_admission (x : Side) (n : Nat) (s : State) : (unitSeesRows x n s).admission = s.admission := by
  unfold unitSeesRows
  (repeat' split) <;> simp
@[simp] theorem unitSeesRows_freePages (x : Side) (n : Nat) (s : State) : (unitSeesRows x n s).freePages = s.freePages := by
  unfold unitSeesRows
  (repeat' split) <;> simp
@[simp] theorem unitSeesRows_disposition (x : Side) (n : Nat) (s : State) : (unitSeesRows x n s).disposition = s.disposition := by
  unfold unitSeesRows
  (repeat' split) <;> simp
@[simp] theorem unitSeesRows_egress (x : Side) (n : Nat) (s : State) : (unitSeesRows x n s).egress = s.egress := by
  unfold unitSeesRows
  (repeat' split) <;> simp
@[simp] theorem unitSeesRows_flow (x : Side) (n : Nat) (s : State) : (unitSeesRows x n s).flow = s.flow := by
  unfold unitSeesRows
  (repeat' split) <;> simp
@[simp] theorem unitSeesRows_mgmt (x : Side) (n : Nat) (s : State) : (unitSeesRows x n s).mgmt = s.mgmt := by
  unfold unitSeesRows
  (repeat' split) <;> simp
@[simp] theorem unitSeesRows_pending (x : Side) (n : Nat) (s : State) : (unitSeesRows x n s).pending = s.pending := by
  unfold unitSeesRows
  (repeat' split) <;> simp

/-! ### storeRows -/

@[simp] theorem storeRows_taking (r : SideRef) (x : Side) (n : Nat) (rows : List Byte) (s : State) : (storeRows r x n rows s).taking = s.taking := by
  simp only [storeRows]
  (repeat' split) <;> simp [overrunOn]
@[simp] theorem storeRows_intakePort (r : SideRef) (x : Side) (n : Nat) (rows : List Byte) (s : State) : (storeRows r x n rows s).intakePort = s.intakePort := by
  simp only [storeRows]
  (repeat' split) <;> simp [overrunOn]
@[simp] theorem storeRows_admission (r : SideRef) (x : Side) (n : Nat) (rows : List Byte) (s : State) : (storeRows r x n rows s).admission = s.admission := by
  simp only [storeRows]
  (repeat' split) <;> simp [overrunOn]
@[simp] theorem storeRows_disposition (r : SideRef) (x : Side) (n : Nat) (rows : List Byte) (s : State) : (storeRows r x n rows s).disposition = s.disposition := by
  simp only [storeRows]
  (repeat' split) <;> simp [overrunOn]
@[simp] theorem storeRows_egress (r : SideRef) (x : Side) (n : Nat) (rows : List Byte) (s : State) : (storeRows r x n rows s).egress = s.egress := by
  simp only [storeRows]
  (repeat' split) <;> simp [overrunOn]
@[simp] theorem storeRows_mgmt (r : SideRef) (x : Side) (n : Nat) (rows : List Byte) (s : State) : (storeRows r x n rows s).mgmt = s.mgmt := by
  simp only [storeRows]
  (repeat' split) <;> simp [overrunOn]
@[simp] theorem storeRows_pending (r : SideRef) (x : Side) (n : Nat) (rows : List Byte) (s : State) : (storeRows r x n rows s).pending = s.pending := by
  simp only [storeRows]
  (repeat' split) <;> simp [overrunOn]

/-! ### takeRows -/

@[simp] theorem takeRows_taking (r : SideRef) (x : Side) (a n : Nat) (rows : List Byte) (s : State) : (takeRows r x a n rows s).taking = s.taking := by
  unfold takeRows
  (repeat' split) <;> simp [strayOn]
@[simp] theorem takeRows_intakePort (r : SideRef) (x : Side) (a n : Nat) (rows : List Byte) (s : State) : (takeRows r x a n rows s).intakePort = s.intakePort := by
  unfold takeRows
  (repeat' split) <;> simp [strayOn]
@[simp] theorem takeRows_admission (r : SideRef) (x : Side) (a n : Nat) (rows : List Byte) (s : State) : (takeRows r x a n rows s).admission = s.admission := by
  unfold takeRows
  (repeat' split) <;> simp [strayOn]
@[simp] theorem takeRows_disposition (r : SideRef) (x : Side) (a n : Nat) (rows : List Byte) (s : State) : (takeRows r x a n rows s).disposition = s.disposition := by
  unfold takeRows
  (repeat' split) <;> simp [strayOn]
@[simp] theorem takeRows_egress (r : SideRef) (x : Side) (a n : Nat) (rows : List Byte) (s : State) : (takeRows r x a n rows s).egress = s.egress := by
  unfold takeRows
  (repeat' split) <;> simp [strayOn]
@[simp] theorem takeRows_mgmt (r : SideRef) (x : Side) (a n : Nat) (rows : List Byte) (s : State) : (takeRows r x a n rows s).mgmt = s.mgmt := by
  unfold takeRows
  (repeat' split) <;> simp [strayOn]
@[simp] theorem takeRows_pending (r : SideRef) (x : Side) (a n : Nat) (rows : List Byte) (s : State) : (takeRows r x a n rows s).pending = s.pending := by
  unfold takeRows
  (repeat' split) <;> simp [strayOn]

/-! ### takeSideData -/

@[simp] theorem takeSideData_taking (l : Fin 16) (a n : Nat) (rows : List Byte) (s : State) : (takeSideData l a n rows s).taking = s.taking := by
  unfold takeSideData
  (repeat' split) <;> simp [strayOn]
@[simp] theorem takeSideData_intakePort (l : Fin 16) (a n : Nat) (rows : List Byte) (s : State) : (takeSideData l a n rows s).intakePort = s.intakePort := by
  unfold takeSideData
  (repeat' split) <;> simp [strayOn]
@[simp] theorem takeSideData_admission (l : Fin 16) (a n : Nat) (rows : List Byte) (s : State) : (takeSideData l a n rows s).admission = s.admission := by
  unfold takeSideData
  (repeat' split) <;> simp [strayOn]
@[simp] theorem takeSideData_disposition (l : Fin 16) (a n : Nat) (rows : List Byte) (s : State) : (takeSideData l a n rows s).disposition = s.disposition := by
  unfold takeSideData
  (repeat' split) <;> simp [strayOn]
@[simp] theorem takeSideData_egress (l : Fin 16) (a n : Nat) (rows : List Byte) (s : State) : (takeSideData l a n rows s).egress = s.egress := by
  unfold takeSideData
  (repeat' split) <;> simp [strayOn]
@[simp] theorem takeSideData_mgmt (l : Fin 16) (a n : Nat) (rows : List Byte) (s : State) : (takeSideData l a n rows s).mgmt = s.mgmt := by
  unfold takeSideData
  (repeat' split) <;> simp [strayOn]
@[simp] theorem takeSideData_pending (l : Fin 16) (a n : Nat) (rows : List Byte) (s : State) : (takeSideData l a n rows s).pending = s.pending := by
  unfold takeSideData
  (repeat' split) <;> simp [strayOn]

/-! ### takeSideClose -/

@[simp] theorem takeSideClose_taking (l : Fin 16) (s : State) : (takeSideClose l s).taking = s.taking := by
  unfold takeSideClose
  (repeat' split) <;> simp [strayOn]
@[simp] theorem takeSideClose_intakePort (l : Fin 16) (s : State) : (takeSideClose l s).intakePort = s.intakePort := by
  unfold takeSideClose
  (repeat' split) <;> simp [strayOn]
@[simp] theorem takeSideClose_admission (l : Fin 16) (s : State) : (takeSideClose l s).admission = s.admission := by
  unfold takeSideClose
  (repeat' split) <;> simp [strayOn]
@[simp] theorem takeSideClose_freePages (l : Fin 16) (s : State) : (takeSideClose l s).freePages = s.freePages := by
  unfold takeSideClose
  (repeat' split) <;> simp [strayOn]
@[simp] theorem takeSideClose_disposition (l : Fin 16) (s : State) : (takeSideClose l s).disposition = s.disposition := by
  unfold takeSideClose
  (repeat' split) <;> simp [strayOn]
@[simp] theorem takeSideClose_egress (l : Fin 16) (s : State) : (takeSideClose l s).egress = s.egress := by
  unfold takeSideClose
  (repeat' split) <;> simp [strayOn]
@[simp] theorem takeSideClose_mgmt (l : Fin 16) (s : State) : (takeSideClose l s).mgmt = s.mgmt := by
  unfold takeSideClose
  (repeat' split) <;> simp [strayOn]
@[simp] theorem takeSideClose_pending (l : Fin 16) (s : State) : (takeSideClose l s).pending = s.pending := by
  unfold takeSideClose
  (repeat' split) <;> simp [strayOn]

/-! ### endDrain -/

@[simp] theorem endDrain_taking (l : Fin 16) (s : State) : (endDrain l s).taking = s.taking := by
  simp [endDrain]
@[simp] theorem endDrain_intakePort (l : Fin 16) (s : State) : (endDrain l s).intakePort = s.intakePort := by
  simp [endDrain]
@[simp] theorem endDrain_admission (l : Fin 16) (s : State) : (endDrain l s).admission = s.admission := by
  simp [endDrain]
@[simp] theorem endDrain_freePages (l : Fin 16) (s : State) : (endDrain l s).freePages = s.freePages := by
  simp [endDrain]
@[simp] theorem endDrain_reduction (l : Fin 16) (s : State) : (endDrain l s).reduction = s.reduction := by
  simp [endDrain]
@[simp] theorem endDrain_disposition (l : Fin 16) (s : State) : (endDrain l s).disposition = s.disposition := by
  simp [endDrain]
@[simp] theorem endDrain_egress (l : Fin 16) (s : State) : (endDrain l s).egress = s.egress := by
  simp [endDrain]
@[simp] theorem endDrain_flow (l : Fin 16) (s : State) : (endDrain l s).flow = s.flow := by
  simp [endDrain]
@[simp] theorem endDrain_mgmt (l : Fin 16) (s : State) : (endDrain l s).mgmt = s.mgmt := by
  simp [endDrain]
@[simp] theorem endDrain_pending (l : Fin 16) (s : State) : (endDrain l s).pending = s.pending := by
  simp [endDrain]

/-! ### closeAll -/

@[simp] theorem closeAll_taking (l : Fin 16) (s : State) : (closeAll l s).taking = s.taking := by
  unfold closeAll
  (repeat' split) <;> simp
@[simp] theorem closeAll_intakePort (l : Fin 16) (s : State) : (closeAll l s).intakePort = s.intakePort := by
  unfold closeAll
  (repeat' split) <;> simp
@[simp] theorem closeAll_admission (l : Fin 16) (s : State) : (closeAll l s).admission = s.admission := by
  unfold closeAll
  (repeat' split) <;> simp
@[simp] theorem closeAll_egress (l : Fin 16) (s : State) : (closeAll l s).egress = s.egress := by
  unfold closeAll
  (repeat' split) <;> simp
@[simp] theorem closeAll_mgmt (l : Fin 16) (s : State) : (closeAll l s).mgmt = s.mgmt := by
  unfold closeAll
  (repeat' split) <;> simp
@[simp] theorem closeAll_pending (l : Fin 16) (s : State) : (closeAll l s).pending = s.pending := by
  unfold closeAll
  (repeat' split) <;> simp

/-! ### takeItemClose -/

@[simp] theorem takeItemClose_taking (l : Fin 16) (s : State) : (takeItemClose l s).taking = s.taking := by
  simp [takeItemClose]
@[simp] theorem takeItemClose_intakePort (l : Fin 16) (s : State) : (takeItemClose l s).intakePort = s.intakePort := by
  simp [takeItemClose]
@[simp] theorem takeItemClose_admission (l : Fin 16) (s : State) : (takeItemClose l s).admission = s.admission := by
  simp [takeItemClose]
@[simp] theorem takeItemClose_egress (l : Fin 16) (s : State) : (takeItemClose l s).egress = s.egress := by
  simp [takeItemClose]
@[simp] theorem takeItemClose_mgmt (l : Fin 16) (s : State) : (takeItemClose l s).mgmt = s.mgmt := by
  simp [takeItemClose]
@[simp] theorem takeItemClose_pending (l : Fin 16) (s : State) : (takeItemClose l s).pending = s.pending := by
  simp [takeItemClose]

/-! ### stallSide -/

@[simp] theorem stallSide_taking (l : Fin 16) (s : State) : (stallSide l s).taking = s.taking := by
  unfold stallSide
  (try dsimp only)
  (repeat' split) <;> simp
@[simp] theorem stallSide_intakePort (l : Fin 16) (s : State) : (stallSide l s).intakePort = s.intakePort := by
  unfold stallSide
  (try dsimp only)
  (repeat' split) <;> simp
@[simp] theorem stallSide_admission (l : Fin 16) (s : State) : (stallSide l s).admission = s.admission := by
  unfold stallSide
  (try dsimp only)
  (repeat' split) <;> simp
@[simp] theorem stallSide_freePages (l : Fin 16) (s : State) : (stallSide l s).freePages = s.freePages := by
  unfold stallSide
  (try dsimp only)
  (repeat' split) <;> simp
@[simp] theorem stallSide_disposition (l : Fin 16) (s : State) : (stallSide l s).disposition = s.disposition := by
  unfold stallSide
  (try dsimp only)
  (repeat' split) <;> simp
@[simp] theorem stallSide_egress (l : Fin 16) (s : State) : (stallSide l s).egress = s.egress := by
  unfold stallSide
  (try dsimp only)
  (repeat' split) <;> simp
@[simp] theorem stallSide_mgmt (l : Fin 16) (s : State) : (stallSide l s).mgmt = s.mgmt := by
  unfold stallSide
  (try dsimp only)
  (repeat' split) <;> simp
@[simp] theorem stallSide_pending (l : Fin 16) (s : State) : (stallSide l s).pending = s.pending := by
  unfold stallSide
  (try dsimp only)
  (repeat' split) <;> simp

/-! ### expireStall -/

@[simp] theorem expireStall_taking (l : Fin 16) (s : State) : (expireStall l s).taking = s.taking := by
  simp [expireStall]
@[simp] theorem expireStall_intakePort (l : Fin 16) (s : State) : (expireStall l s).intakePort = s.intakePort := by
  simp [expireStall]
@[simp] theorem expireStall_admission (l : Fin 16) (s : State) : (expireStall l s).admission = s.admission := by
  simp [expireStall]
@[simp] theorem expireStall_egress (l : Fin 16) (s : State) : (expireStall l s).egress = s.egress := by
  simp [expireStall]
@[simp] theorem expireStall_mgmt (l : Fin 16) (s : State) : (expireStall l s).mgmt = s.mgmt := by
  simp [expireStall]
@[simp] theorem expireStall_pending (l : Fin 16) (s : State) : (expireStall l s).pending = s.pending := by
  simp [expireStall]

/-! ### admitItem -/

@[simp] theorem admitItem_taking (l : Fin 16) (i : Item) (s : State) : (admitItem l i s).taking = s.taking := by
  simp [admitItem]
@[simp] theorem admitItem_intakePort (l : Fin 16) (i : Item) (s : State) : (admitItem l i s).intakePort = s.intakePort := by
  simp [admitItem]
@[simp] theorem admitItem_admission (l : Fin 16) (i : Item) (s : State) : (admitItem l i s).admission = s.admission := by
  simp [admitItem]
@[simp] theorem admitItem_freePages (l : Fin 16) (i : Item) (s : State) : (admitItem l i s).freePages = s.freePages := by
  simp [admitItem]
@[simp] theorem admitItem_reduction (l : Fin 16) (i : Item) (s : State) : (admitItem l i s).reduction = s.reduction := by
  simp [admitItem]
@[simp] theorem admitItem_disposition (l : Fin 16) (i : Item) (s : State) : (admitItem l i s).disposition = s.disposition := by
  simp [admitItem]
@[simp] theorem admitItem_egress (l : Fin 16) (i : Item) (s : State) : (admitItem l i s).egress = s.egress := by
  simp [admitItem]
@[simp] theorem admitItem_mgmt (l : Fin 16) (i : Item) (s : State) : (admitItem l i s).mgmt = s.mgmt := by
  simp [admitItem]
@[simp] theorem admitItem_pending (l : Fin 16) (i : Item) (s : State) : (admitItem l i s).pending = s.pending := by
  simp [admitItem]

/-! ### refuseItem -/

@[simp] theorem refuseItem_taking (l : Fin 16) (q : Seq) (b : Byte) (s : State) : (refuseItem l q b s).taking = s.taking := by
  simp [refuseItem]
@[simp] theorem refuseItem_intakePort (l : Fin 16) (q : Seq) (b : Byte) (s : State) : (refuseItem l q b s).intakePort = s.intakePort := by
  simp [refuseItem]
@[simp] theorem refuseItem_admission (l : Fin 16) (q : Seq) (b : Byte) (s : State) : (refuseItem l q b s).admission = s.admission := by
  simp [refuseItem]
@[simp] theorem refuseItem_freePages (l : Fin 16) (q : Seq) (b : Byte) (s : State) : (refuseItem l q b s).freePages = s.freePages := by
  simp [refuseItem]
@[simp] theorem refuseItem_reduction (l : Fin 16) (q : Seq) (b : Byte) (s : State) : (refuseItem l q b s).reduction = s.reduction := by
  simp [refuseItem]
@[simp] theorem refuseItem_disposition (l : Fin 16) (q : Seq) (b : Byte) (s : State) : (refuseItem l q b s).disposition = s.disposition := by
  simp [refuseItem]
@[simp] theorem refuseItem_egress (l : Fin 16) (q : Seq) (b : Byte) (s : State) : (refuseItem l q b s).egress = s.egress := by
  simp [refuseItem]
@[simp] theorem refuseItem_mgmt (l : Fin 16) (q : Seq) (b : Byte) (s : State) : (refuseItem l q b s).mgmt = s.mgmt := by
  simp [refuseItem]
@[simp] theorem refuseItem_pending (l : Fin 16) (q : Seq) (b : Byte) (s : State) : (refuseItem l q b s).pending = s.pending := by
  simp [refuseItem]

/-! ### admission -/

@[simp] theorem admission_taking (l : Fin 16) (q : Seq) (m : BitVec 16) (c n : Byte) (d : BitVec 32) (s : State) : (admission l q m c n d s).taking = s.taking := by
  unfold admission
  (repeat' split) <;> simp
@[simp] theorem admission_intakePort (l : Fin 16) (q : Seq) (m : BitVec 16) (c n : Byte) (d : BitVec 32) (s : State) : (admission l q m c n d s).intakePort = s.intakePort := by
  unfold admission
  (repeat' split) <;> simp
@[simp] theorem admission_admission (l : Fin 16) (q : Seq) (m : BitVec 16) (c n : Byte) (d : BitVec 32) (s : State) : (admission l q m c n d s).admission = s.admission := by
  unfold admission
  (repeat' split) <;> simp
@[simp] theorem admission_freePages (l : Fin 16) (q : Seq) (m : BitVec 16) (c n : Byte) (d : BitVec 32) (s : State) : (admission l q m c n d s).freePages = s.freePages := by
  unfold admission
  (repeat' split) <;> simp
@[simp] theorem admission_reduction (l : Fin 16) (q : Seq) (m : BitVec 16) (c n : Byte) (d : BitVec 32) (s : State) : (admission l q m c n d s).reduction = s.reduction := by
  unfold admission
  (repeat' split) <;> simp
@[simp] theorem admission_disposition (l : Fin 16) (q : Seq) (m : BitVec 16) (c n : Byte) (d : BitVec 32) (s : State) : (admission l q m c n d s).disposition = s.disposition := by
  unfold admission
  (repeat' split) <;> simp
@[simp] theorem admission_egress (l : Fin 16) (q : Seq) (m : BitVec 16) (c n : Byte) (d : BitVec 32) (s : State) : (admission l q m c n d s).egress = s.egress := by
  unfold admission
  (repeat' split) <;> simp
@[simp] theorem admission_mgmt (l : Fin 16) (q : Seq) (m : BitVec 16) (c n : Byte) (d : BitVec 32) (s : State) : (admission l q m c n d s).mgmt = s.mgmt := by
  unfold admission
  (repeat' split) <;> simp
@[simp] theorem admission_pending (l : Fin 16) (q : Seq) (m : BitVec 16) (c n : Byte) (d : BitVec 32) (s : State) : (admission l q m c n d s).pending = s.pending := by
  unfold admission
  (repeat' split) <;> simp

/-! ### takeItemOpen -/

@[simp] theorem takeItemOpen_taking (l : Fin 16) (q : Seq) (m : BitVec 16) (c n : Byte) (d : BitVec 32) (s : State) : (takeItemOpen l q m c n d s).taking = s.taking := by
  unfold takeItemOpen
  (repeat' split) <;> simp [strayOn]
@[simp] theorem takeItemOpen_intakePort (l : Fin 16) (q : Seq) (m : BitVec 16) (c n : Byte) (d : BitVec 32) (s : State) : (takeItemOpen l q m c n d s).intakePort = s.intakePort := by
  unfold takeItemOpen
  (repeat' split) <;> simp [strayOn]
@[simp] theorem takeItemOpen_admission (l : Fin 16) (q : Seq) (m : BitVec 16) (c n : Byte) (d : BitVec 32) (s : State) : (takeItemOpen l q m c n d s).admission = s.admission := by
  unfold takeItemOpen
  (repeat' split) <;> simp [strayOn]
@[simp] theorem takeItemOpen_egress (l : Fin 16) (q : Seq) (m : BitVec 16) (c n : Byte) (d : BitVec 32) (s : State) : (takeItemOpen l q m c n d s).egress = s.egress := by
  unfold takeItemOpen
  (repeat' split) <;> simp [strayOn]
@[simp] theorem takeItemOpen_mgmt (l : Fin 16) (q : Seq) (m : BitVec 16) (c n : Byte) (d : BitVec 32) (s : State) : (takeItemOpen l q m c n d s).mgmt = s.mgmt := by
  unfold takeItemOpen
  (repeat' split) <;> simp [strayOn]
@[simp] theorem takeItemOpen_pending (l : Fin 16) (q : Seq) (m : BitVec 16) (c n : Byte) (d : BitVec 32) (s : State) : (takeItemOpen l q m c n d s).pending = s.pending := by
  unfold takeItemOpen
  (repeat' split) <;> simp [strayOn]

/-! ### putSide and joinOpen -/

@[simp] theorem putSide_taking (l : Fin 16) (q : Seq) (f : Face) (x : Side) (s : State) : (putSide l q f x s).taking = s.taking := by
  simp [putSide]
@[simp] theorem putSide_intakePort (l : Fin 16) (q : Seq) (f : Face) (x : Side) (s : State) : (putSide l q f x s).intakePort = s.intakePort := by
  simp [putSide]
@[simp] theorem putSide_admission (l : Fin 16) (q : Seq) (f : Face) (x : Side) (s : State) : (putSide l q f x s).admission = s.admission := by
  simp [putSide]
@[simp] theorem putSide_freePages (l : Fin 16) (q : Seq) (f : Face) (x : Side) (s : State) : (putSide l q f x s).freePages = s.freePages := by
  simp [putSide]
@[simp] theorem putSide_reduction (l : Fin 16) (q : Seq) (f : Face) (x : Side) (s : State) : (putSide l q f x s).reduction = s.reduction := by
  simp [putSide]
@[simp] theorem putSide_disposition (l : Fin 16) (q : Seq) (f : Face) (x : Side) (s : State) : (putSide l q f x s).disposition = s.disposition := by
  simp [putSide]
@[simp] theorem putSide_egress (l : Fin 16) (q : Seq) (f : Face) (x : Side) (s : State) : (putSide l q f x s).egress = s.egress := by
  simp [putSide]
@[simp] theorem putSide_flow (l : Fin 16) (q : Seq) (f : Face) (x : Side) (s : State) : (putSide l q f x s).flow = s.flow := by
  simp [putSide]
@[simp] theorem putSide_mgmt (l : Fin 16) (q : Seq) (f : Face) (x : Side) (s : State) : (putSide l q f x s).mgmt = s.mgmt := by
  simp [putSide]
@[simp] theorem putSide_pending (l : Fin 16) (q : Seq) (f : Face) (x : Side) (s : State) : (putSide l q f x s).pending = s.pending := by
  simp [putSide]
@[simp] theorem joinOpen_taking (r : SideRef) (s : State) : (joinOpen r s).taking = s.taking := by
  simp [joinOpen]
@[simp] theorem joinOpen_intakePort (r : SideRef) (s : State) : (joinOpen r s).intakePort = s.intakePort := by
  simp [joinOpen]
@[simp] theorem joinOpen_lanes (r : SideRef) (s : State) : (joinOpen r s).lanes = s.lanes := by
  simp [joinOpen]
@[simp] theorem joinOpen_admission (r : SideRef) (s : State) : (joinOpen r s).admission = s.admission := by
  simp [joinOpen]
@[simp] theorem joinOpen_freePages (r : SideRef) (s : State) : (joinOpen r s).freePages = s.freePages := by
  simp [joinOpen]
@[simp] theorem joinOpen_disposition (r : SideRef) (s : State) : (joinOpen r s).disposition = s.disposition := by
  simp [joinOpen]
@[simp] theorem joinOpen_egress (r : SideRef) (s : State) : (joinOpen r s).egress = s.egress := by
  simp [joinOpen]
@[simp] theorem joinOpen_flow (r : SideRef) (s : State) : (joinOpen r s).flow = s.flow := by
  simp [joinOpen]
@[simp] theorem joinOpen_mgmt (r : SideRef) (s : State) : (joinOpen r s).mgmt = s.mgmt := by
  simp [joinOpen]
@[simp] theorem joinOpen_pending (r : SideRef) (s : State) : (joinOpen r s).pending = s.pending := by
  simp [joinOpen]

/-! ### openRecord -/

@[simp] theorem openRecord_taking (l : Fin 16) (q : Seq) (f : Face) (x : Side) (p : Profile) (s : State) : (openRecord l q f x p s).taking = s.taking := by
  simp only [openRecord]
  (repeat' split) <;> simp [overrunOn]
@[simp] theorem openRecord_intakePort (l : Fin 16) (q : Seq) (f : Face) (x : Side) (p : Profile) (s : State) : (openRecord l q f x p s).intakePort = s.intakePort := by
  simp only [openRecord]
  (repeat' split) <;> simp [overrunOn]
@[simp] theorem openRecord_admission (l : Fin 16) (q : Seq) (f : Face) (x : Side) (p : Profile) (s : State) : (openRecord l q f x p s).admission = s.admission := by
  simp only [openRecord]
  (repeat' split) <;> simp [overrunOn]
@[simp] theorem openRecord_disposition (l : Fin 16) (q : Seq) (f : Face) (x : Side) (p : Profile) (s : State) : (openRecord l q f x p s).disposition = s.disposition := by
  simp only [openRecord]
  (repeat' split) <;> simp [overrunOn]
@[simp] theorem openRecord_egress (l : Fin 16) (q : Seq) (f : Face) (x : Side) (p : Profile) (s : State) : (openRecord l q f x p s).egress = s.egress := by
  simp only [openRecord]
  (repeat' split) <;> simp [overrunOn]
@[simp] theorem openRecord_mgmt (l : Fin 16) (q : Seq) (f : Face) (x : Side) (p : Profile) (s : State) : (openRecord l q f x p s).mgmt = s.mgmt := by
  simp only [openRecord]
  (repeat' split) <;> simp [overrunOn]
@[simp] theorem openRecord_pending (l : Fin 16) (q : Seq) (f : Face) (x : Side) (p : Profile) (s : State) : (openRecord l q f x p s).pending = s.pending := by
  simp only [openRecord]
  (repeat' split) <;> simp [overrunOn]

/-! ### openSide -/

@[simp] theorem openSide_taking (l : Fin 16) (b : Byte) (r w h : Nat) (s : State) : (openSide l b r w h s).taking = s.taking := by
  unfold openSide
  (repeat' split) <;> simp [strayOn]
@[simp] theorem openSide_intakePort (l : Fin 16) (b : Byte) (r w h : Nat) (s : State) : (openSide l b r w h s).intakePort = s.intakePort := by
  unfold openSide
  (repeat' split) <;> simp [strayOn]
@[simp] theorem openSide_admission (l : Fin 16) (b : Byte) (r w h : Nat) (s : State) : (openSide l b r w h s).admission = s.admission := by
  unfold openSide
  (repeat' split) <;> simp [strayOn]
@[simp] theorem openSide_disposition (l : Fin 16) (b : Byte) (r w h : Nat) (s : State) : (openSide l b r w h s).disposition = s.disposition := by
  unfold openSide
  (repeat' split) <;> simp [strayOn]
@[simp] theorem openSide_egress (l : Fin 16) (b : Byte) (r w h : Nat) (s : State) : (openSide l b r w h s).egress = s.egress := by
  unfold openSide
  (repeat' split) <;> simp [strayOn]
@[simp] theorem openSide_mgmt (l : Fin 16) (b : Byte) (r w h : Nat) (s : State) : (openSide l b r w h s).mgmt = s.mgmt := by
  unfold openSide
  (repeat' split) <;> simp [strayOn]
@[simp] theorem openSide_pending (l : Fin 16) (b : Byte) (r w h : Nat) (s : State) : (openSide l b r w h s).pending = s.pending := by
  unfold openSide
  (repeat' split) <;> simp [strayOn]

/-! ### takeSideOpen -/

@[simp] theorem takeSideOpen_taking (l : Fin 16) (b : Byte) (r w h : Nat) (s : State) : (takeSideOpen l b r w h s).taking = s.taking := by
  unfold takeSideOpen
  (repeat' split) <;> simp
@[simp] theorem takeSideOpen_intakePort (l : Fin 16) (b : Byte) (r w h : Nat) (s : State) : (takeSideOpen l b r w h s).intakePort = s.intakePort := by
  unfold takeSideOpen
  (repeat' split) <;> simp
@[simp] theorem takeSideOpen_admission (l : Fin 16) (b : Byte) (r w h : Nat) (s : State) : (takeSideOpen l b r w h s).admission = s.admission := by
  unfold takeSideOpen
  (repeat' split) <;> simp
@[simp] theorem takeSideOpen_disposition (l : Fin 16) (b : Byte) (r w h : Nat) (s : State) : (takeSideOpen l b r w h s).disposition = s.disposition := by
  unfold takeSideOpen
  (repeat' split) <;> simp
@[simp] theorem takeSideOpen_egress (l : Fin 16) (b : Byte) (r w h : Nat) (s : State) : (takeSideOpen l b r w h s).egress = s.egress := by
  unfold takeSideOpen
  (repeat' split) <;> simp
@[simp] theorem takeSideOpen_mgmt (l : Fin 16) (b : Byte) (r w h : Nat) (s : State) : (takeSideOpen l b r w h s).mgmt = s.mgmt := by
  unfold takeSideOpen
  (repeat' split) <;> simp
@[simp] theorem takeSideOpen_pending (l : Fin 16) (b : Byte) (r w h : Nat) (s : State) : (takeSideOpen l b r w h s).pending = s.pending := by
  unfold takeSideOpen
  (repeat' split) <;> simp

/-! ### startRecordOn -/

@[simp] theorem startRecordOn_taking (l : Fin 16) (i : Item) (s : State) : (startRecordOn l i s).taking = s.taking := by
  simp [startRecordOn]
@[simp] theorem startRecordOn_intakePort (l : Fin 16) (i : Item) (s : State) : (startRecordOn l i s).intakePort = s.intakePort := by
  simp [startRecordOn]
@[simp] theorem startRecordOn_admission (l : Fin 16) (i : Item) (s : State) : (startRecordOn l i s).admission = s.admission := by
  simp [startRecordOn]
@[simp] theorem startRecordOn_freePages (l : Fin 16) (i : Item) (s : State) : (startRecordOn l i s).freePages = s.freePages := by
  simp [startRecordOn]
@[simp] theorem startRecordOn_reduction (l : Fin 16) (i : Item) (s : State) : (startRecordOn l i s).reduction = s.reduction := by
  simp [startRecordOn]
@[simp] theorem startRecordOn_disposition (l : Fin 16) (i : Item) (s : State) : (startRecordOn l i s).disposition = s.disposition := by
  simp [startRecordOn]
@[simp] theorem startRecordOn_flow (l : Fin 16) (i : Item) (s : State) : (startRecordOn l i s).flow = s.flow := by
  simp [startRecordOn]
@[simp] theorem startRecordOn_mgmt (l : Fin 16) (i : Item) (s : State) : (startRecordOn l i s).mgmt = s.mgmt := by
  simp [startRecordOn]
@[simp] theorem startRecordOn_pending (l : Fin 16) (i : Item) (s : State) : (startRecordOn l i s).pending = s.pending := by
  simp [startRecordOn]

/-! ### startRecord -/

@[simp] theorem startRecord_taking (s : State) : (startRecord s).taking = s.taking := by
  unfold startRecord
  (repeat' split) <;> simp
@[simp] theorem startRecord_intakePort (s : State) : (startRecord s).intakePort = s.intakePort := by
  unfold startRecord
  (repeat' split) <;> simp
@[simp] theorem startRecord_admission (s : State) : (startRecord s).admission = s.admission := by
  unfold startRecord
  (repeat' split) <;> simp
@[simp] theorem startRecord_freePages (s : State) : (startRecord s).freePages = s.freePages := by
  unfold startRecord
  (repeat' split) <;> simp
@[simp] theorem startRecord_reduction (s : State) : (startRecord s).reduction = s.reduction := by
  unfold startRecord
  (repeat' split) <;> simp
@[simp] theorem startRecord_disposition (s : State) : (startRecord s).disposition = s.disposition := by
  unfold startRecord
  (repeat' split) <;> simp
@[simp] theorem startRecord_flow (s : State) : (startRecord s).flow = s.flow := by
  unfold startRecord
  (repeat' split) <;> simp
@[simp] theorem startRecord_mgmt (s : State) : (startRecord s).mgmt = s.mgmt := by
  unfold startRecord
  (repeat' split) <;> simp
@[simp] theorem startRecord_pending (s : State) : (startRecord s).pending = s.pending := by
  unfold startRecord
  (repeat' split) <;> simp

/-! ### startEmissionFrame -/

@[simp] theorem startEmissionFrame_taking (e : Emission) (s : State) : (startEmissionFrame e s).taking = s.taking := by
  unfold startEmissionFrame
  (try dsimp only)
  (repeat' split) <;> simp
@[simp] theorem startEmissionFrame_intakePort (e : Emission) (s : State) : (startEmissionFrame e s).intakePort = s.intakePort := by
  unfold startEmissionFrame
  (try dsimp only)
  (repeat' split) <;> simp
@[simp] theorem startEmissionFrame_lanes (e : Emission) (s : State) : (startEmissionFrame e s).lanes = s.lanes := by
  unfold startEmissionFrame
  (try dsimp only)
  (repeat' split) <;> simp
@[simp] theorem startEmissionFrame_admission (e : Emission) (s : State) : (startEmissionFrame e s).admission = s.admission := by
  unfold startEmissionFrame
  (try dsimp only)
  (repeat' split) <;> simp
@[simp] theorem startEmissionFrame_freePages (e : Emission) (s : State) : (startEmissionFrame e s).freePages = s.freePages := by
  unfold startEmissionFrame
  (try dsimp only)
  (repeat' split) <;> simp
@[simp] theorem startEmissionFrame_reduction (e : Emission) (s : State) : (startEmissionFrame e s).reduction = s.reduction := by
  unfold startEmissionFrame
  (try dsimp only)
  (repeat' split) <;> simp
@[simp] theorem startEmissionFrame_disposition (e : Emission) (s : State) : (startEmissionFrame e s).disposition = s.disposition := by
  unfold startEmissionFrame
  (try dsimp only)
  (repeat' split) <;> simp
@[simp] theorem startEmissionFrame_flow (e : Emission) (s : State) : (startEmissionFrame e s).flow = s.flow := by
  unfold startEmissionFrame
  (try dsimp only)
  (repeat' split) <;> simp
@[simp] theorem startEmissionFrame_mgmt (e : Emission) (s : State) : (startEmissionFrame e s).mgmt = s.mgmt := by
  unfold startEmissionFrame
  (try dsimp only)
  (repeat' split) <;> simp
@[simp] theorem startEmissionFrame_pending (e : Emission) (s : State) : (startEmissionFrame e s).pending = s.pending := by
  unfold startEmissionFrame
  (try dsimp only)
  (repeat' split) <;> simp

/-! ### startExchange -/

@[simp] theorem startExchange_taking (s : State) : (startExchange s).taking = s.taking := by
  unfold startExchange
  (try dsimp only)
  (repeat' split) <;> simp
@[simp] theorem startExchange_intakePort (s : State) : (startExchange s).intakePort = s.intakePort := by
  unfold startExchange
  (try dsimp only)
  (repeat' split) <;> simp
@[simp] theorem startExchange_admission (s : State) : (startExchange s).admission = s.admission := by
  unfold startExchange
  (try dsimp only)
  (repeat' split) <;> simp
@[simp] theorem startExchange_freePages (s : State) : (startExchange s).freePages = s.freePages := by
  unfold startExchange
  (try dsimp only)
  (repeat' split) <;> simp
@[simp] theorem startExchange_reduction (s : State) : (startExchange s).reduction = s.reduction := by
  unfold startExchange
  (try dsimp only)
  (repeat' split) <;> simp
@[simp] theorem startExchange_disposition (s : State) : (startExchange s).disposition = s.disposition := by
  unfold startExchange
  (try dsimp only)
  (repeat' split) <;> simp
@[simp] theorem startExchange_flow (s : State) : (startExchange s).flow = s.flow := by
  unfold startExchange
  (try dsimp only)
  (repeat' split) <;> simp
@[simp] theorem startExchange_mgmt (s : State) : (startExchange s).mgmt = s.mgmt := by
  unfold startExchange
  (try dsimp only)
  (repeat' split) <;> simp
@[simp] theorem startExchange_pending (s : State) : (startExchange s).pending = s.pending := by
  unfold startExchange
  (try dsimp only)
  (repeat' split) <;> simp

/-! ### startBeside, startAfterFrame, startAfterLast -/

/-- What is started at the end of a lane's event is nothing, or what the port can start. -/
theorem startBeside_cases (l : Fin 16) (s : State) : startBeside l s = s ∨ startBeside l s = startExchange s := by
  unfold startBeside; split <;> simp

/-- What is started at the end of a frame is nothing, or what the port can start. -/
theorem startAfterFrame_cases (s : State) : startAfterFrame s = s ∨ startAfterFrame s = startExchange s := by
  unfold startAfterFrame; split <;> simp

/-- What is started at the end of a record's last frame is nothing, or what the port can start. -/
theorem startAfterLast_cases (l : Fin 16) (s : State) : startAfterLast l s = s ∨ startAfterLast l s = startExchange s := by
  unfold startAfterLast; split
  · exact .inl rfl
  · exact startBeside_cases l s

@[simp] theorem startBeside_taking (l : Fin 16) (s : State) : (startBeside l s).taking = s.taking := by
  rcases startBeside_cases l s with h | h <;> simp [h]
@[simp] theorem startAfterFrame_taking (s : State) : (startAfterFrame s).taking = s.taking := by
  rcases startAfterFrame_cases s with h | h <;> simp [h]
@[simp] theorem startAfterLast_taking (l : Fin 16) (s : State) : (startAfterLast l s).taking = s.taking := by
  rcases startAfterLast_cases l s with h | h <;> simp [h]

@[simp] theorem startBeside_intakePort (l : Fin 16) (s : State) : (startBeside l s).intakePort = s.intakePort := by
  rcases startBeside_cases l s with h | h <;> simp [h]
@[simp] theorem startAfterFrame_intakePort (s : State) : (startAfterFrame s).intakePort = s.intakePort := by
  rcases startAfterFrame_cases s with h | h <;> simp [h]
@[simp] theorem startAfterLast_intakePort (l : Fin 16) (s : State) : (startAfterLast l s).intakePort = s.intakePort := by
  rcases startAfterLast_cases l s with h | h <;> simp [h]

@[simp] theorem startBeside_admission (l : Fin 16) (s : State) : (startBeside l s).admission = s.admission := by
  rcases startBeside_cases l s with h | h <;> simp [h]
@[simp] theorem startAfterFrame_admission (s : State) : (startAfterFrame s).admission = s.admission := by
  rcases startAfterFrame_cases s with h | h <;> simp [h]
@[simp] theorem startAfterLast_admission (l : Fin 16) (s : State) : (startAfterLast l s).admission = s.admission := by
  rcases startAfterLast_cases l s with h | h <;> simp [h]

@[simp] theorem startBeside_freePages (l : Fin 16) (s : State) : (startBeside l s).freePages = s.freePages := by
  rcases startBeside_cases l s with h | h <;> simp [h]
@[simp] theorem startAfterFrame_freePages (s : State) : (startAfterFrame s).freePages = s.freePages := by
  rcases startAfterFrame_cases s with h | h <;> simp [h]
@[simp] theorem startAfterLast_freePages (l : Fin 16) (s : State) : (startAfterLast l s).freePages = s.freePages := by
  rcases startAfterLast_cases l s with h | h <;> simp [h]

@[simp] theorem startBeside_reduction (l : Fin 16) (s : State) : (startBeside l s).reduction = s.reduction := by
  rcases startBeside_cases l s with h | h <;> simp [h]
@[simp] theorem startAfterFrame_reduction (s : State) : (startAfterFrame s).reduction = s.reduction := by
  rcases startAfterFrame_cases s with h | h <;> simp [h]
@[simp] theorem startAfterLast_reduction (l : Fin 16) (s : State) : (startAfterLast l s).reduction = s.reduction := by
  rcases startAfterLast_cases l s with h | h <;> simp [h]

@[simp] theorem startBeside_disposition (l : Fin 16) (s : State) : (startBeside l s).disposition = s.disposition := by
  rcases startBeside_cases l s with h | h <;> simp [h]
@[simp] theorem startAfterFrame_disposition (s : State) : (startAfterFrame s).disposition = s.disposition := by
  rcases startAfterFrame_cases s with h | h <;> simp [h]
@[simp] theorem startAfterLast_disposition (l : Fin 16) (s : State) : (startAfterLast l s).disposition = s.disposition := by
  rcases startAfterLast_cases l s with h | h <;> simp [h]

@[simp] theorem startBeside_flow (l : Fin 16) (s : State) : (startBeside l s).flow = s.flow := by
  rcases startBeside_cases l s with h | h <;> simp [h]
@[simp] theorem startAfterFrame_flow (s : State) : (startAfterFrame s).flow = s.flow := by
  rcases startAfterFrame_cases s with h | h <;> simp [h]
@[simp] theorem startAfterLast_flow (l : Fin 16) (s : State) : (startAfterLast l s).flow = s.flow := by
  rcases startAfterLast_cases l s with h | h <;> simp [h]

@[simp] theorem startBeside_mgmt (l : Fin 16) (s : State) : (startBeside l s).mgmt = s.mgmt := by
  rcases startBeside_cases l s with h | h <;> simp [h]
@[simp] theorem startAfterFrame_mgmt (s : State) : (startAfterFrame s).mgmt = s.mgmt := by
  rcases startAfterFrame_cases s with h | h <;> simp [h]
@[simp] theorem startAfterLast_mgmt (l : Fin 16) (s : State) : (startAfterLast l s).mgmt = s.mgmt := by
  rcases startAfterLast_cases l s with h | h <;> simp [h]

@[simp] theorem startBeside_pending (l : Fin 16) (s : State) : (startBeside l s).pending = s.pending := by
  rcases startBeside_cases l s with h | h <;> simp [h]
@[simp] theorem startAfterFrame_pending (s : State) : (startAfterFrame s).pending = s.pending := by
  rcases startAfterFrame_cases s with h | h <;> simp [h]
@[simp] theorem startAfterLast_pending (l : Fin 16) (s : State) : (startAfterLast l s).pending = s.pending := by
  rcases startAfterLast_cases l s with h | h <;> simp [h]

/-! ### watchService -/

@[simp] theorem watchService_taking (s : State) : (watchService s).taking = s.taking := by
  unfold watchService
  (try dsimp only)
  (repeat' split) <;> simp
@[simp] theorem watchService_intakePort (s : State) : (watchService s).intakePort = s.intakePort := by
  unfold watchService
  (try dsimp only)
  (repeat' split) <;> simp
@[simp] theorem watchService_lanes (s : State) : (watchService s).lanes = s.lanes := by
  unfold watchService
  (try dsimp only)
  (repeat' split) <;> simp
@[simp] theorem watchService_admission (s : State) : (watchService s).admission = s.admission := by
  unfold watchService
  (try dsimp only)
  (repeat' split) <;> simp
@[simp] theorem watchService_freePages (s : State) : (watchService s).freePages = s.freePages := by
  unfold watchService
  (try dsimp only)
  (repeat' split) <;> simp
@[simp] theorem watchService_reduction (s : State) : (watchService s).reduction = s.reduction := by
  unfold watchService
  (try dsimp only)
  (repeat' split) <;> simp
@[simp] theorem watchService_disposition (s : State) : (watchService s).disposition = s.disposition := by
  unfold watchService
  (try dsimp only)
  (repeat' split) <;> simp
@[simp] theorem watchService_egress (s : State) : (watchService s).egress = s.egress := by
  unfold watchService
  (try dsimp only)
  (repeat' split) <;> simp
@[simp] theorem watchService_flow (s : State) : (watchService s).flow = s.flow := by
  unfold watchService
  (try dsimp only)
  (repeat' split) <;> simp
@[simp] theorem watchService_pending (s : State) : (watchService s).pending = s.pending := by
  unfold watchService
  (try dsimp only)
  (repeat' split) <;> simp

/-! ### recordLeaves -/

@[simp] theorem recordLeaves_taking (l : Fin 16) (i : Item) (c : LaneCounters → LaneCounters) (s : State) : (recordLeaves l i c s).taking = s.taking := by
  simp [recordLeaves]
@[simp] theorem recordLeaves_intakePort (l : Fin 16) (i : Item) (c : LaneCounters → LaneCounters) (s : State) : (recordLeaves l i c s).intakePort = s.intakePort := by
  simp [recordLeaves]
@[simp] theorem recordLeaves_admission (l : Fin 16) (i : Item) (c : LaneCounters → LaneCounters) (s : State) : (recordLeaves l i c s).admission = s.admission := by
  simp [recordLeaves]
@[simp] theorem recordLeaves_reduction (l : Fin 16) (i : Item) (c : LaneCounters → LaneCounters) (s : State) : (recordLeaves l i c s).reduction = s.reduction := by
  simp [recordLeaves]
@[simp] theorem recordLeaves_disposition (l : Fin 16) (i : Item) (c : LaneCounters → LaneCounters) (s : State) : (recordLeaves l i c s).disposition = s.disposition := by
  simp [recordLeaves]
@[simp] theorem recordLeaves_pending (l : Fin 16) (i : Item) (c : LaneCounters → LaneCounters) (s : State) : (recordLeaves l i c s).pending = s.pending := by
  simp [recordLeaves]

/-! ### innerFrameSent -/

@[simp] theorem innerFrameSent_taking (s : State) : (innerFrameSent s).taking = s.taking := by
  unfold innerFrameSent
  (repeat' split) <;> simp [advanceEmission, frameGone, countExchangeOut, modExchangePort]
@[simp] theorem innerFrameSent_intakePort (s : State) : (innerFrameSent s).intakePort = s.intakePort := by
  unfold innerFrameSent
  (repeat' split) <;> simp [advanceEmission, frameGone, countExchangeOut, modExchangePort]
@[simp] theorem innerFrameSent_admission (s : State) : (innerFrameSent s).admission = s.admission := by
  unfold innerFrameSent
  (repeat' split) <;> simp [advanceEmission, frameGone, countExchangeOut, modExchangePort]
@[simp] theorem innerFrameSent_freePages (s : State) : (innerFrameSent s).freePages = s.freePages := by
  unfold innerFrameSent
  (repeat' split) <;> simp [advanceEmission, frameGone, countExchangeOut, modExchangePort]
@[simp] theorem innerFrameSent_reduction (s : State) : (innerFrameSent s).reduction = s.reduction := by
  unfold innerFrameSent
  (repeat' split) <;> simp [advanceEmission, frameGone, countExchangeOut, modExchangePort]
@[simp] theorem innerFrameSent_disposition (s : State) : (innerFrameSent s).disposition = s.disposition := by
  unfold innerFrameSent
  (repeat' split) <;> simp [advanceEmission, frameGone, countExchangeOut, modExchangePort]
@[simp] theorem innerFrameSent_flow (s : State) : (innerFrameSent s).flow = s.flow := by
  unfold innerFrameSent
  (repeat' split) <;> simp [advanceEmission, frameGone, countExchangeOut, modExchangePort]
@[simp] theorem innerFrameSent_mgmt (s : State) : (innerFrameSent s).mgmt = s.mgmt := by
  unfold innerFrameSent
  (repeat' split) <;> simp [advanceEmission, frameGone, countExchangeOut, modExchangePort]
@[simp] theorem innerFrameSent_pending (s : State) : (innerFrameSent s).pending = s.pending := by
  unfold innerFrameSent
  (repeat' split) <;> simp [advanceEmission, frameGone, countExchangeOut, modExchangePort]

/-! ### lastFrameSent -/

@[simp] theorem lastFrameSent_taking (x : FrameType) (c : Item → LaneCounters → LaneCounters) (s : State) : (lastFrameSent x c s).taking = s.taking := by
  unfold lastFrameSent
  (repeat' split) <;> simp [frameGone, countExchangeOut, modExchangePort]
@[simp] theorem lastFrameSent_intakePort (x : FrameType) (c : Item → LaneCounters → LaneCounters) (s : State) : (lastFrameSent x c s).intakePort = s.intakePort := by
  unfold lastFrameSent
  (repeat' split) <;> simp [frameGone, countExchangeOut, modExchangePort]
@[simp] theorem lastFrameSent_admission (x : FrameType) (c : Item → LaneCounters → LaneCounters) (s : State) : (lastFrameSent x c s).admission = s.admission := by
  unfold lastFrameSent
  (repeat' split) <;> simp [frameGone, countExchangeOut, modExchangePort]
@[simp] theorem lastFrameSent_reduction (x : FrameType) (c : Item → LaneCounters → LaneCounters) (s : State) : (lastFrameSent x c s).reduction = s.reduction := by
  unfold lastFrameSent
  (repeat' split) <;> simp [frameGone, countExchangeOut, modExchangePort]
@[simp] theorem lastFrameSent_disposition (x : FrameType) (c : Item → LaneCounters → LaneCounters) (s : State) : (lastFrameSent x c s).disposition = s.disposition := by
  unfold lastFrameSent
  (repeat' split) <;> simp [frameGone, countExchangeOut, modExchangePort]
@[simp] theorem lastFrameSent_pending (x : FrameType) (c : Item → LaneCounters → LaneCounters) (s : State) : (lastFrameSent x c s).pending = s.pending := by
  unfold lastFrameSent
  (repeat' split) <;> simp [frameGone, countExchangeOut, modExchangePort]

/-! ### resetLane -/

@[simp] theorem resetLane_taking (l : Fin 16) (s : State) : (resetLane l s).taking = s.taking := by
  simp [resetLane, withdrawLane]
@[simp] theorem resetLane_intakePort (l : Fin 16) (s : State) : (resetLane l s).intakePort = s.intakePort := by
  simp [resetLane, withdrawLane]
@[simp] theorem resetLane_admission (l : Fin 16) (s : State) : (resetLane l s).admission = s.admission := by
  simp [resetLane, withdrawLane]
@[simp] theorem resetLane_disposition (l : Fin 16) (s : State) : (resetLane l s).disposition = s.disposition := by
  simp [resetLane, withdrawLane]
@[simp] theorem resetLane_egress (l : Fin 16) (s : State) : (resetLane l s).egress = s.egress := by
  simp [resetLane, withdrawLane]
@[simp] theorem resetLane_mgmt (l : Fin 16) (s : State) : (resetLane l s).mgmt = s.mgmt := by
  simp [resetLane, withdrawLane]
@[simp] theorem resetLane_pending (l : Fin 16) (s : State) : (resetLane l s).pending = s.pending := by
  simp [resetLane, withdrawLane]

end Sys2Proof.Machine
end

