-- ==== Sys2Proof/Laws/Lanes.lean ====
section
/-! SUPPORT. What the shared operations leave of a lane: its context (all of it but the list, the paused flag and the
counters), and the sequences of its list. -/

namespace Sys2Proof.Machine

set_option Elab.async false

/-! ### Writes of one lane -/

theorem State.context_modLane (s : State) (l k : Fin 16) (f : Lane → Lane) (h : ∀ c, (f c).context = c.context) :
    ((s.modLane l f).lane k).context = (s.lane k).context := by
  rw [State.lane_modLane]
  split
  · rename_i e; subst e; exact h _
  · rfl

@[simp] theorem State.context_modItem (s : State) (l k : Fin 16) (q : Seq) (f : Item → Item) :
    ((s.modItem l q f).lane k).context = (s.lane k).context := State.context_modLane s l k _ fun _ => rfl

@[simp] theorem State.context_modSide (s : State) (r : SideRef) (k : Fin 16) (g : Side → Side) :
    ((s.modSide r g).lane k).context = (s.lane k).context := State.context_modItem s _ _ _ _

@[simp] theorem State.context_countLane (s : State) (l k : Fin 16) (f : LaneCounters → LaneCounters) :
    ((s.countLane l f).lane k).context = (s.lane k).context := State.context_modLane s l k _ fun _ => rfl

/-- Two changes of the first entry that meets a test are one, when the first keeps the test. -/
theorem modifyFirst_modifyFirst {α : Type} (p : α → Bool) (f g : α → α) (h : ∀ x, p (g x) = p x) (xs : List α) :
    modifyFirst p f (modifyFirst p g xs) = modifyFirst p (fun x => f (g x)) xs := by
  induction xs with
  | nil => rfl
  | cons x xs ih => by_cases hx : p x = true <;> simp [modifyFirst, hx, h, ih]

/-- A change of one record that keeps its sequence keeps the sequences of the list. -/
theorem map_seq_modifyFirst (p : Item → Bool) (f : Item → Item) (h : ∀ i, p i = true → (f i).seq = i.seq) (is : List Item) :
    (modifyFirst p f is).map Item.seq = is.map Item.seq := by
  induction is with
  | nil => rfl
  | cons i is ih =>
    unfold modifyFirst
    split
    · simp [h i (by assumption)]
    · simp [ih]

/-- The sequences of a lane's list. -/
def Lane.seqs (c : Lane) : List Seq := c.list.map Item.seq

theorem State.seqs_modLane (s : State) (l k : Fin 16) (f : Lane → Lane) (h : ∀ c, (f c).seqs = c.seqs) :
    ((s.modLane l f).lane k).seqs = (s.lane k).seqs := by
  rw [State.lane_modLane]
  split
  · rename_i e; subst e; exact h _
  · rfl

theorem State.seqs_modItem (s : State) (l k : Fin 16) (q : Seq) (f : Item → Item) (h : ∀ i, i.seq = q → (f i).seq = q) :
    ((s.modItem l q f).lane k).seqs = (s.lane k).seqs := by
  apply State.seqs_modLane
  intro c
  apply map_seq_modifyFirst
  intro i hi
  have : i.seq = q := by simpa using hi
  rw [h i this, this]

@[simp] theorem Item.modSide_seq (i : Item) (f : Face) (g : Side → Side) : (i.modSide f g).seq = i.seq := by
  cases f <;> rfl

@[simp] theorem Item.setSide_seq (i : Item) (f : Face) (x : Option Side) : (i.setSide f x).seq = i.seq := by
  cases f <;> rfl

@[simp] theorem State.seqs_modSide (s : State) (r : SideRef) (k : Fin 16) (g : Side → Side) :
    ((s.modSide r g).lane k).seqs = (s.lane k).seqs := by
  apply State.seqs_modItem
  intro i hi
  simp [hi]

@[simp] theorem State.seqs_countLane (s : State) (l k : Fin 16) (f : LaneCounters → LaneCounters) :
    ((s.countLane l f).lane k).seqs = (s.lane k).seqs := State.seqs_modLane s l k _ fun _ => rfl

@[simp] theorem queueFlow_context (f : FlowFrame) (s : State) (k : Fin 16) :
    ((queueFlow f s).lane k).context = (s.lane k).context := by
  simp [queueFlow]
@[simp] theorem queueFlow_seqs (f : FlowFrame) (s : State) (k : Fin 16) :
    ((queueFlow f s).lane k).seqs = (s.lane k).seqs := by
  simp [queueFlow]
@[simp] theorem evalPaused_context (l : Fin 16) (s : State) (k : Fin 16) :
    ((evalPaused l s).lane k).context = (s.lane k).context := by
  unfold evalPaused
  dsimp only
  split
  · rfl
  · simp only [queueFlow, State.lane_withFlow]
    rw [State.lane_setLane]
    split
    · rename_i e; subst e; rfl
    · rfl
@[simp] theorem evalPaused_seqs (l : Fin 16) (s : State) (k : Fin 16) :
    ((evalPaused l s).lane k).seqs = (s.lane k).seqs := by
  unfold evalPaused
  dsimp only
  split
  · rfl
  · simp only [queueFlow, State.lane_withFlow]
    rw [State.lane_setLane]
    split
    · rename_i e; subst e; rfl
    · rfl
@[simp] theorem evalStop_context (s : State) (k : Fin 16) :
    ((evalStop s).lane k).context = (s.lane k).context := by
  unfold evalStop
  (try dsimp only)
  (repeat' split) <;> simp
@[simp] theorem evalStop_seqs (s : State) (k : Fin 16) :
    ((evalStop s).lane k).seqs = (s.lane k).seqs := by
  unfold evalStop
  (try dsimp only)
  (repeat' split) <;> simp
@[simp] theorem takePages_context (n : Nat) (s : State) (k : Fin 16) :
    ((takePages n s).lane k).context = (s.lane k).context := by
  unfold takePages
  (repeat' split) <;> simp
@[simp] theorem takePages_seqs (n : Nat) (s : State) (k : Fin 16) :
    ((takePages n s).lane k).seqs = (s.lane k).seqs := by
  unfold takePages
  (repeat' split) <;> simp
@[simp] theorem returnPages_context (n : Nat) (s : State) (k : Fin 16) :
    ((returnPages n s).lane k).context = (s.lane k).context := by
  unfold returnPages
  (repeat' split) <;> simp
@[simp] theorem returnPages_seqs (n : Nat) (s : State) (k : Fin 16) :
    ((returnPages n s).lane k).seqs = (s.lane k).seqs := by
  unfold returnPages
  (repeat' split) <;> simp
@[simp] theorem bindSide_context (u : Fin 4) (r : SideRef) (s : State) (k : Fin 16) :
    ((bindSide u r s).lane k).context = (s.lane k).context := by
  unfold bindSide
  (try dsimp only)
  (repeat' split) <;> simp
@[simp] theorem bindSide_seqs (u : Fin 4) (r : SideRef) (s : State) (k : Fin 16) :
    ((bindSide u r s).lane k).seqs = (s.lane k).seqs := by
  unfold bindSide
  (try dsimp only)
  (repeat' split) <;> simp
@[simp] theorem popWaiting_context (s : State) (k : Fin 16) :
    ((popWaiting s).lane k).context = (s.lane k).context := by
  unfold popWaiting
  (try dsimp only)
  (repeat' split) <;> simp
@[simp] theorem popWaiting_seqs (s : State) (k : Fin 16) :
    ((popWaiting s).lane k).seqs = (s.lane k).seqs := by
  unfold popWaiting
  (try dsimp only)
  (repeat' split) <;> simp
@[simp] theorem grant_context (s : State) (k : Fin 16) :
    ((grant s).lane k).context = (s.lane k).context := by
  unfold grant
  (repeat' split) <;> simp
@[simp] theorem grant_seqs (s : State) (k : Fin 16) :
    ((grant s).lane k).seqs = (s.lane k).seqs := by
  unfold grant
  (repeat' split) <;> simp
@[simp] theorem grantUpTo_context (n : Nat) (s : State) (k : Fin 16) :
    ((grantUpTo n s).lane k).context = (s.lane k).context := by
  induction n generalizing s with
  | zero => rfl
  | succ n ih => simp [grantUpTo, ih]
@[simp] theorem grantUpTo_seqs (n : Nat) (s : State) (k : Fin 16) :
    ((grantUpTo n s).lane k).seqs = (s.lane k).seqs := by
  induction n generalizing s with
  | zero => rfl
  | succ n ih => simp [grantUpTo, ih]
@[simp] theorem grantAll_context (s : State) (k : Fin 16) :
    ((grantAll s).lane k).context = (s.lane k).context := by
  simp [grantAll]
@[simp] theorem grantAll_seqs (s : State) (k : Fin 16) :
    ((grantAll s).lane k).seqs = (s.lane k).seqs := by
  simp [grantAll]
@[simp] theorem completeRow_context (u : Fin 4) (s : State) (k : Fin 16) :
    ((completeRow u s).lane k).context = (s.lane k).context := by
  unfold completeRow
  (repeat' split) <;> simp
@[simp] theorem completeRow_seqs (u : Fin 4) (s : State) (k : Fin 16) :
    ((completeRow u s).lane k).seqs = (s.lane k).seqs := by
  unfold completeRow
  (repeat' split) <;> simp
@[simp] theorem replaceItem_context (l : Fin 16) (i j : Item) (s : State) (k : Fin 16) :
    ((replaceItem l i j s).lane k).context = (s.lane k).context := by
  simp [replaceItem]
theorem replaceItem_seqs (l : Fin 16) (i j : Item) (s : State) (k : Fin 16) (h : j.seq = i.seq) :
    ((replaceItem l i j s).lane k).seqs = (s.lane k).seqs := by
  have := State.seqs_modItem s l k i.seq (fun _ => j) (fun _ _ => h)
  simpa [replaceItem] using this
@[simp] theorem joinReworkIf_context (n : Option Condition) (r : SideRef) (s : State) (k : Fin 16) :
    ((joinReworkIf n r s).lane k).context = (s.lane k).context := by
  unfold joinReworkIf
  (repeat' split) <;> simp [joinRework]
@[simp] theorem joinReworkIf_seqs (n : Option Condition) (r : SideRef) (s : State) (k : Fin 16) :
    ((joinReworkIf n r s).lane k).seqs = (s.lane k).seqs := by
  unfold joinReworkIf
  (repeat' split) <;> simp [joinRework]
@[simp] theorem dispatch_context (l : Fin 16) (i : Item) (v : Verdict) (s : State) (k : Fin 16) :
    ((dispatch l i v s).lane k).context = (s.lane k).context := by
  unfold dispatch
  (repeat' split) <;> simp [countFault, countExhausted]
@[simp] theorem Item.mapSides_seq (i : Item) (g : Side → Side) : (i.mapSides g).seq = i.seq := rfl
@[simp] theorem markedItem_seq (d : DispositionUnit) (i : Item) : (markedItem d i).seq = i.seq := rfl
@[simp] theorem divertedItem_seq (r : ReasonKind) (n : Condition) (k : FaultKind) (b : Byte) (i : Item) :
    (divertedItem r n k b i).seq = i.seq := rfl
@[simp] theorem reworkedItem_seq (d : DispositionUnit) (ps : Vector Profile 64) (f b : Option Condition) (i : Item) :
    (reworkedItem d ps f b i).seq = i.seq := rfl
@[simp] theorem dispatch_seqs (l : Fin 16) (i : Item) (v : Verdict) (s : State) (k : Fin 16) :
    ((dispatch l i v s).lane k).seqs = (s.lane k).seqs := by
  unfold dispatch
  split
  · exact (replaceItem_seqs l i _ _ k (divertedItem_seq ..)).trans (by simp [countFault])
  · exact replaceItem_seqs l i _ _ k (divertedItem_seq ..)
  · exact (replaceItem_seqs l i _ _ k (divertedItem_seq ..)).trans (by simp [countExhausted])
  · rw [grantAll_seqs, joinReworkIf_seqs, joinReworkIf_seqs]
    exact replaceItem_seqs l i _ _ k (reworkedItem_seq ..)
  · exact replaceItem_seqs l i _ _ k (markedItem_seq ..)
@[simp] theorem evaluate_context (l : Fin 16) (q : Seq) (s : State) (k : Fin 16) :
    ((evaluate l q s).lane k).context = (s.lane k).context := by
  unfold evaluate
  (repeat' split) <;> simp
@[simp] theorem evaluate_seqs (l : Fin 16) (q : Seq) (s : State) (k : Fin 16) :
    ((evaluate l q s).lane k).seqs = (s.lane k).seqs := by
  unfold evaluate
  (repeat' split) <;> simp
@[simp] theorem completeItem_context (l : Fin 16) (q : Seq) (s : State) (k : Fin 16) :
    ((completeItem l q s).lane k).context = (s.lane k).context := by
  unfold completeItem
  (repeat' split) <;> simp
@[simp] theorem completeItem_seqs (l : Fin 16) (q : Seq) (s : State) (k : Fin 16) :
    ((completeItem l q s).lane k).seqs = (s.lane k).seqs := by
  unfold completeItem
  split
  · exact State.seqs_modItem s l k q _ fun i h => h
  · simp
@[simp] theorem checkComplete_context (l : Fin 16) (q : Seq) (s : State) (k : Fin 16) :
    ((checkComplete l q s).lane k).context = (s.lane k).context := by
  unfold checkComplete
  (repeat' split) <;> simp
@[simp] theorem checkComplete_seqs (l : Fin 16) (q : Seq) (s : State) (k : Fin 16) :
    ((checkComplete l q s).lane k).seqs = (s.lane k).seqs := by
  unfold checkComplete
  (repeat' split) <;> simp
@[simp] theorem unitSeesClose_context (r : SideRef) (x : Side) (s : State) (k : Fin 16) :
    ((unitSeesClose r x s).lane k).context = (s.lane k).context := by
  unfold unitSeesClose
  (try dsimp only)
  (repeat' split) <;> simp
@[simp] theorem unitSeesClose_seqs (r : SideRef) (x : Side) (s : State) (k : Fin 16) :
    ((unitSeesClose r x s).lane k).seqs = (s.lane k).seqs := by
  unfold unitSeesClose
  (try dsimp only)
  (repeat' split) <;> simp
@[simp] theorem closeInput_context (r : SideRef) (s : State) (k : Fin 16) :
    ((closeInput r s).lane k).context = (s.lane k).context := by
  unfold closeInput
  (repeat' split) <;> simp
@[simp] theorem closeInput_seqs (r : SideRef) (s : State) (k : Fin 16) :
    ((closeInput r s).lane k).seqs = (s.lane k).seqs := by
  unfold closeInput
  (repeat' split) <;> simp
@[simp] theorem truncateSide_context (r : SideRef) (t : Truncation) (n : Condition) (s : State) (k : Fin 16) :
    ((truncateSide r t n s).lane k).context = (s.lane k).context := by
  simp [truncateSide]
@[simp] theorem truncateSide_seqs (r : SideRef) (t : Truncation) (n : Condition) (s : State) (k : Fin 16) :
    ((truncateSide r t n s).lane k).seqs = (s.lane k).seqs := by
  simp [truncateSide]
@[simp] theorem unitSeesRows_context (x : Side) (n : Nat) (s : State) (k : Fin 16) :
    ((unitSeesRows x n s).lane k).context = (s.lane k).context := by
  unfold unitSeesRows
  (repeat' split) <;> simp
@[simp] theorem unitSeesRows_seqs (x : Side) (n : Nat) (s : State) (k : Fin 16) :
    ((unitSeesRows x n s).lane k).seqs = (s.lane k).seqs := by
  unfold unitSeesRows
  (repeat' split) <;> simp
@[simp] theorem storeRows_context (r : SideRef) (x : Side) (n : Nat) (rows : List Byte) (s : State) (k : Fin 16) :
    ((storeRows r x n rows s).lane k).context = (s.lane k).context := by
  unfold storeRows
  (try dsimp only)
  (repeat' split) <;> simp [overrunOn]
@[simp] theorem storeRows_seqs (r : SideRef) (x : Side) (n : Nat) (rows : List Byte) (s : State) (k : Fin 16) :
    ((storeRows r x n rows s).lane k).seqs = (s.lane k).seqs := by
  unfold storeRows
  (try dsimp only)
  (repeat' split) <;> simp [overrunOn]
@[simp] theorem takeRows_context (r : SideRef) (x : Side) (a n : Nat) (rows : List Byte) (s : State) (k : Fin 16) :
    ((takeRows r x a n rows s).lane k).context = (s.lane k).context := by
  unfold takeRows
  (repeat' split) <;> simp [strayOn]
@[simp] theorem takeRows_seqs (r : SideRef) (x : Side) (a n : Nat) (rows : List Byte) (s : State) (k : Fin 16) :
    ((takeRows r x a n rows s).lane k).seqs = (s.lane k).seqs := by
  unfold takeRows
  (repeat' split) <;> simp [strayOn]
@[simp] theorem startRecordOn_context (l : Fin 16) (i : Item) (s : State) (k : Fin 16) :
    ((startRecordOn l i s).lane k).context = (s.lane k).context := by
  simp [startRecordOn]
theorem startRecordOn_seqs (l : Fin 16) (i : Item) (s : State) (k : Fin 16) :
    ((startRecordOn l i s).lane k).seqs = (s.lane k).seqs := by
  exact State.seqs_modItem s l k i.seq (fun j => { j with state := .emitting }) fun j h => h
@[simp] theorem startRecord_context (s : State) (k : Fin 16) :
    ((startRecord s).lane k).context = (s.lane k).context := by
  unfold startRecord
  (repeat' split) <;> simp
@[simp] theorem startRecord_seqs (s : State) (k : Fin 16) :
    ((startRecord s).lane k).seqs = (s.lane k).seqs := by
  unfold startRecord
  (repeat' split) <;> simp [startRecordOn_seqs]
@[simp] theorem startEmissionFrame_context (e : Emission) (s : State) (k : Fin 16) :
    ((startEmissionFrame e s).lane k).context = (s.lane k).context := by
  unfold startEmissionFrame
  (try dsimp only)
  (repeat' split) <;> simp
@[simp] theorem startEmissionFrame_seqs (e : Emission) (s : State) (k : Fin 16) :
    ((startEmissionFrame e s).lane k).seqs = (s.lane k).seqs := by
  unfold startEmissionFrame
  (try dsimp only)
  (repeat' split) <;> simp
@[simp] theorem startExchange_context (s : State) (k : Fin 16) :
    ((startExchange s).lane k).context = (s.lane k).context := by
  unfold startExchange
  (try dsimp only)
  (repeat' split) <;> simp
@[simp] theorem startExchange_seqs (s : State) (k : Fin 16) :
    ((startExchange s).lane k).seqs = (s.lane k).seqs := by
  unfold startExchange
  (try dsimp only)
  (repeat' split) <;> simp
@[simp] theorem startBeside_context (l : Fin 16) (s : State) (k : Fin 16) : ((startBeside l s).lane k).context = (s.lane k).context := by
  rcases startBeside_cases l s with h | h <;> simp [h]
@[simp] theorem startAfterFrame_context (s : State) (k : Fin 16) : ((startAfterFrame s).lane k).context = (s.lane k).context := by
  rcases startAfterFrame_cases s with h | h <;> simp [h]
@[simp] theorem startAfterLast_context (l : Fin 16) (s : State) (k : Fin 16) : ((startAfterLast l s).lane k).context = (s.lane k).context := by
  rcases startAfterLast_cases l s with h | h <;> simp [h]
@[simp] theorem startBeside_seqs (l : Fin 16) (s : State) (k : Fin 16) : ((startBeside l s).lane k).seqs = (s.lane k).seqs := by
  rcases startBeside_cases l s with h | h <;> simp [h]
@[simp] theorem startAfterFrame_seqs (s : State) (k : Fin 16) : ((startAfterFrame s).lane k).seqs = (s.lane k).seqs := by
  rcases startAfterFrame_cases s with h | h <;> simp [h]
@[simp] theorem startAfterLast_seqs (l : Fin 16) (s : State) (k : Fin 16) : ((startAfterLast l s).lane k).seqs = (s.lane k).seqs := by
  rcases startAfterLast_cases l s with h | h <;> simp [h]
@[simp] theorem watchService_context (s : State) (k : Fin 16) :
    ((watchService s).lane k).context = (s.lane k).context := by
  unfold watchService
  (try dsimp only)
  (repeat' split) <;> simp
@[simp] theorem watchService_seqs (s : State) (k : Fin 16) :
    ((watchService s).lane k).seqs = (s.lane k).seqs := by
  unfold watchService
  (try dsimp only)
  (repeat' split) <;> simp
end Sys2Proof.Machine
end

