-- ==== Sys2Proof/Laws/Requests.lean ====
section
/-! SUPPORT. Fields read back from their bytes, and the arrival of a request that is taken in its own event. -/

namespace Sys2Proof.Machine

set_option Elab.async false

theorem word16_extract (x : BitVec 16) : word16 (x.extractLsb' 8 8) (x.extractLsb' 0 8) = x := by
  apply BitVec.eq_of_getLsbD_eq
  intro i hi
  simp only [word16, BitVec.getLsbD_append, BitVec.getLsbD_extractLsb']
  split
  · simp [*]
  · have : i - 8 < 8 := by omega
    have h : 8 + (i - 8) = i := by omega
    simp [this, h]
theorem word24_extract (x : BitVec 24) : word24 (x.extractLsb' 16 8) (x.extractLsb' 8 8) (x.extractLsb' 0 8) = x := by
  apply BitVec.eq_of_getLsbD_eq
  intro i hi
  simp only [word24, BitVec.getLsbD_append, BitVec.getLsbD_extractLsb']
  split
  · simp [*]
  · split
    · rename_i h1 h2
      have h : 8 + (i - 8) = i := by omega
      simp [h2, h]
    · have h2 : i - 8 - 8 < 8 := by omega
      have h : 16 + (i - 8 - 8) = i := by omega
      simp [h2, h]
theorem word32_extract (x : BitVec 32) :
    word32 (x.extractLsb' 24 8) (x.extractLsb' 16 8) (x.extractLsb' 8 8) (x.extractLsb' 0 8) = x := by
  apply BitVec.eq_of_getLsbD_eq
  intro i hi
  simp only [word32, BitVec.getLsbD_append, BitVec.getLsbD_extractLsb']
  split
  · simp [*]
  · split
    · rename_i h1 h2
      have h : 8 + (i - 8) = i := by omega
      simp [h2, h]
    · split
      · rename_i h1 h2 h3
        have h : 16 + (i - 8 - 8) = i := by omega
        simp [h3, h]
      · have h2 : i - 8 - 8 - 8 < 8 := by omega
        have h : 24 + (i - 8 - 8 - 8) = i := by omega
        simp [h2, h]

/-- No request is longer than a frame can carry. -/
theorem Request.payload_length_le (tag : BitVec 16) (r : Request) : (r.payload tag).length ≤ 16384 := by
  cases r <;> simp [Request.payload, Request.operands, be16, be32, be24, memberBytes, profileBytes, descriptorBytes]

@[simp] theorem countIn_mgmt (p : Port) (s : State) : (countIn p s).mgmt = s.mgmt := by cases p <;> rfl
@[simp] theorem countIn_lanes (p : Port) (s : State) : (countIn p s).lanes = s.lanes := by cases p <;> rfl
@[simp] theorem countIn_lane (p : Port) (s : State) (l : Fin 16) : (countIn p s).lane l = s.lane l := by
  cases p <;> rfl
@[simp] theorem countIn_admission (p : Port) (s : State) : (countIn p s).admission = s.admission := by
  cases p <;> rfl
@[simp] theorem countIn_disposition (p : Port) (s : State) : (countIn p s).disposition = s.disposition := by
  cases p <;> rfl
@[simp] theorem countIn_flow (p : Port) (s : State) : (countIn p s).flow = s.flow := by cases p <;> rfl
@[simp] theorem countIn_reduction (p : Port) (s : State) : (countIn p s).reduction = s.reduction := by
  cases p <;> rfl
@[simp] theorem countIn_freePages (p : Port) (s : State) : (countIn p s).freePages = s.freePages := by
  cases p <;> rfl
@[simp] theorem repliesOf_countIn (p q : Port) (s : State) : repliesOf p (countIn q s) = repliesOf p s := by
  cases p <;> cases q <;> rfl
@[simp] theorem repliesOf_withMgmt (p : Port) (s : State) (m : Mgmt) : repliesOf p (s.withMgmt m) = repliesOf p s := by
  cases p <;> rfl
theorem State.withMgmt_self (s : State) (m : Mgmt) (h : m = s.mgmt) : s.withMgmt m = s := by subst h; rfl
@[simp] theorem State.withMgmt_withMgmt (s : State) (m n : Mgmt) : (s.withMgmt m).withMgmt n = s.withMgmt n := rfl

/-- A request that finds the request queue empty and a free reply place is carried out whole in its event (R167). -/
theorem receiveRequest_ready (p : Port) (payload : List Byte) (s : State) (h : ReadyFor p s)
    (hl : payload.length ≤ 16384) :
    receiveRequest p payload s = startExchange (answerRequest ⟨p, payload⟩ (countIn p s)) := by
  obtain ⟨h1, h2, h3⟩ := h
  have e : joinRequests ⟨p, payload⟩ (countIn p s) =
      (countIn p s).withMgmt { s.mgmt with requests := [⟨p, payload⟩] } := by
    simp [joinRequests, h2, Config.requestCapacity]
  unfold receiveRequest
  rw [if_pos h1, if_pos (by simpa [Config.maxPayload] using hl)]
  unfold handRequest takeRequests
  rw [e]
  simp only [State.withMgmt_mgmt, List.length_singleton, takeUpTo]
  have : replyRoom p ((countIn p s).withMgmt { s.mgmt with requests := [⟨p, payload⟩] }) = true := by
    simp [replyRoom, Config.replyCapacity, h3]
  simp only [this, if_true, State.withMgmt_withMgmt]
  congr 2
  apply State.withMgmt_self
  simp [← h2]

end Sys2Proof.Machine
end

