-- ==== Sys2Proof/Tests/Slice0.lean ====
section
/-! SUPPORT. The model's own tests: ill-formed commands refused by WellFormed, the worked figures of the spec's chapters, one
step of commands on small states, and for each statement with hypotheses a state and operands that meet them. -/

namespace Sys2Proof.Tests

set_option Elab.async false

open Sys2Proof.Machine

/-! ### Small states -/

/-- The next state of a command. -/
def after (c : Instr) (s : State) : State :=
  match exec c s with
  | .next t => t
  | .fault _ => s
  | .refused _ => s

/-- The next states of commands, one after another. -/
def afterAll (cs : List Instr) (s : State) : State := cs.foldl (fun t c => after c t) s

/-- The snapshot values of the worked 6 × 3 side (chapters 2 and 3). -/
def worked : Profile :=
  { valid := true, outRes := 200, initialBackground := 200, tq := 48, darkLimit := 32, lightLimit := 240,
    attackShift := 2, decayShift := 4, widthMin := 4, widthMax := 2560, heightMin := 2, heightMax := 1536,
    blackMin := 10, blackMax := 300, brightMin := 120, brightMax := 230, streakPermille := 900, streakLimit := 2,
    budget := 1024, pairTolerance := 40, mask := 0 }

/-- An active member of the worked profile. -/
def activeMember : MemberEntry :=
  { present := true, status := .active, defaultProfile := 8, classMap := #v[some 8, none, none, none, none, none, none, none] }

/-- In service, with member 5 and profile 8. -/
def served : State :=
  (State.reset.withAdmission
    { members := State.reset.admission.members.set 5 activeMember
      profiles := State.reset.admission.profiles.set 8 worked }).withMgmt { Mgmt.reset with service := .inService }

/-- A side record of the worked size at its opening. -/
def newSide : Side := { freshSide .front 300 6 3 8 with snapshot := some worked, outputPages := 1 }

/-- The worked input. -/
def pixels : List Byte := [200, 200, 200, 40, 40, 200, 200, 200, 100, 40, 40, 200, 210, 210, 210, 210, 40, 210]

/-- The side with its three rows stored. -/
def storedInput : Side := { newSide with rowsStored := 3, inputPages := 1, input := pixels }

/-- The record of a one-sided item, sequence 310, with a FRONT. -/
def itemWith (st : ItemState) (x : Option Side) : Item :=
  { freshItem 310 5 0 1 0x07DE0101 8 0 false with front := x, state := st }

/-- Lane 3 open on a sequence, or in SIDE. -/
def openLane (st : LaneState) (f : Option Face) (is : List Item) : Lane :=
  { Lane.reset with
    state := st, seq := 310, list := is, active := f, stallRunning := true, stallRemaining := 2000 }

/-- A state with lane 3 in SIDE on the FRONT of item 310. -/
def sideState (x : Side) : State := served.setLane 3 (openLane .side (some .front) [itemWith .receiving (some x)])

/-- The side of item 310. -/
def front310 : SideRef := ⟨3, 310, .front⟩

/-- The FRONT bound to RU1. -/
def boundState (x : Side) (b : Binding) : State :=
  (sideState { x with state := .bound, boundUnit := some 1 }).setUnit 1 (some b)

/-- A unit holding the worked side, in a sub-state. -/
def unitWith (sub : SubState) (x : Side) : Binding := { newBinding front310 x worked with sub := sub }

/-- All four units bound elsewhere. -/
def busy (s : State) : State :=
  s.withReduction { s.reduction with units := Vector.replicate 4 (some { unitWith .waitInput newSide with ref := ⟨9, 1, .front⟩ }) }

/-- The side at its side end, DONE with nothing raised. -/
def doneSide : Side := { storedInput with state := .done, outWidth := 4, outHeight := 2, bodyLen := 7, fullLen := 7, body := [0, 2, 2, 0, 2, 1, 1] }

/-- The disposition unit of the worked sequences: condition n present with a class, alternate 8. -/
def disposing (cls : DescriptorClass) (n : Condition) : DispositionUnit :=
  { State.reset.disposition with
    extent := 16
    descriptors := State.reset.disposition.descriptors.set n.val { present := true, cls := cls, alternate := 8, code := 72 } }

/-- Item 310, REDUCING, with TOO_DARK raised on its FRONT, under a descriptor class for TOO_DARK. -/
def judged (cls : DescriptorClass) (reworks : Nat) : State :=
  (served.setLane 3 { Lane.reset with
    list := [itemWith .reducing (some { doneSide with raised := 0x0100, reworkCount := reworks })] }).withDisposition (disposing cls 8)

/-- Item 310 READY at the head of lane 3, marked. -/
def readyItem : Item := { itemWith .ready (some doneSide) with dispatch := { Dispatch.fresh with disposition := .mark } }

/-- A state whose exchange link sends a frame of item 310. -/
def emitting (f : FrameType) (pt : EmitPoint) : State :=
  (served.setLane 3 { Lane.reset with list := [{ readyItem with state := .emitting }] }).withEgress
    { Egress.reset with
      emission := some ⟨3, 310, pt⟩
      inProgress := some { type := f, lane := 3, seq := 310, payload := [] } }

/-- The service state DRAINING. -/
def draining (s : State) : State := s.withMgmt { s.mgmt with service := .draining }

/-- Eight replies waiting on a link. -/
def fullReplies : List (List Byte) := List.replicate 8 [0, 0, 0]

/-! ### Settled states -/

theorem exchangeSettled_of_quiet (s : State) (h1 : s.egress.emission = none) (h2 : s.egress.replies = [])
    (h3 : ∀ l, headReady s l = false) : ExchangeSettled s :=
  ⟨fun e he => absurd he (by simp [h1]), .inr (.inr ⟨h1, h2, h3⟩)⟩

theorem requestsSettled_of_none (s : State) (h : s.mgmt.requests = []) : RequestsSettled s := by
  intro e rest h'
  rw [h] at h'
  cases h'

/-! ### WellFormed refuses ill-formed commands -/

/-- A frame of a type the port takes is no stray frame (R72). -/
theorem test_wf_not_stray : WellFormed (.intakeStrayFrame [0x13, 3, 0, 0, 0, 0, 1, 54]) = false := by decide

/-- Seven bytes hold no header (R183). -/
theorem test_wf_no_header : WellFormed (.intakeStrayFrame [0x13, 16, 0, 0, 0, 0, 1]) = false := by decide

/-- No header on the exchange link either (R183). -/
theorem test_wf_no_exchange_header : WellFormed (.exchangeStrayFrame []) = false := by decide

/-- A payload longer than a frame can carry (R72). -/
theorem test_wf_stray_too_long (p : List Byte) (h : p.length = 16385) :
    WellFormed (.intakeStrayFrame (0x13 :: 3 :: 0x40 :: 1 :: 0 :: 0 :: 1 :: 54 :: p)) = false := by
  simp [WellFormed, holdsFrame, readFrame?, payloadFits, Config.maxPayload, h]

/-- HALT is no stray frame of the exchange link (R154). -/
theorem test_wf_not_exchange_stray : WellFormed (.exchangeStrayFrame [0x40, 0, 0, 0, 0, 0, 0, 0]) = false := by decide

/-- A payload too long on the exchange link (R154). -/
theorem test_wf_exchange_too_long (p : List Byte) (h : p.length = 16385) :
    WellFormed (.exchangeStrayFrame (0x40 :: 0 :: 0x40 :: 1 :: 0 :: 0 :: 0 :: 0 :: p)) = false := by
  simp [WellFormed, holdsFrame, readFrame?, payloadFits, Config.maxPayload, h]

/-- Rows that no SIDE_DATA can carry (R72, R184). -/
theorem test_wf_rows_too_long (p : List Byte) (h : p.length = 16381) :
    WellFormed (.sideData 0 1 0 1 p) = false := by
  simp [WellFormed, Config.maxPayload, h]

/-- A request longer than a frame can carry. -/
theorem test_wf_request_too_long (p : List Byte) (h : p.length = 16385) :
    WellFormed (.mgmtRequest .intake p) = false := by
  simp [WellFormed, payloadFits, Config.maxPayload, h]

/-- HELD has a row of its own (R187). -/
theorem test_wf_own_row : WellFormed (.writeLaneField .intake 1 0 5 0) = false := by decide

/-- READ_IDENTITY passes checks 1 to 3 (R168, R187). -/
theorem test_wf_good_request : WellFormed (.badRequest .intake [0x22, 0, 1]) = false := by decide

/-- A bad payload that no frame carries. -/
theorem test_wf_bad_too_long (p : List Byte) (h : p.length = 16385) :
    WellFormed (.badRequest .intake p) = false := by
  simp [WellFormed, payloadFits, Config.maxPayload, h]

/-- Commands of those rows that are well formed. -/
theorem test_wf_good :
    WellFormed (.intakeStrayFrame [0x13, 16, 0, 0, 0, 0, 1, 54]) = true
      ∧ WellFormed (.exchangeStrayFrame [0x40, 0, 0, 1, 0, 0, 0, 0, 0]) = true
      ∧ WellFormed (.sideData 0 1 0 1 [0]) = true ∧ WellFormed (.mgmtRequest .exchange []) = true
      ∧ WellFormed (.writeLaneField .intake 1 0 4 0) = true ∧ WellFormed (.badRequest .intake [0x22, 0, 1, 0]) = true := by
  decide

/-! ### The worked side of chapters 1 to 3 -/

/-- The unit at its binding (chapter 1, Setup). -/
theorem test_binding_of_the_worked_side :
    let b := newBinding front310 newSide worked
    (b.din, b.dout, b.outWidth, b.declaredHeight, b.sub, b.effectiveBudget) = (3, 2, 4, 2, .waitInput, 1024) := by
  decide +kernel

/-- The weights of chapter 1. -/
theorem test_weights :
    [weight 3 2 0 0, weight 3 2 1 0, weight 3 2 1 1, weight 3 2 2 1, weight 3 2 3 2, weight 3 2 4 2, weight 3 2 4 3,
      weight 3 2 5 3] = [2, 1, 1, 2, 2, 1, 1, 2] := by decide

/-- The scaled side of chapter 1. -/
theorem test_scaled_side :
    (List.range 2).map (greyRow 3 2 4 (inputPixel storedInput)) = [[200, 178, 40, 147], [207, 184, 116, 151]] := by
  decide +kernel

/-- The unit and the record after output rows 0 and 1 (chapters 1 to 3). -/
def rowOne : State := after (.outputRowComplete 1) (boundState storedInput (unitWith .running storedInput))

theorem test_output_row_zero :
    (rowOne.unit 1).map (fun b => (b.sub, b.nextRow, b.rowsConsumed)) = some (.running, 1, 1)
      ∧ (rowOne.unit 1).map (fun b => (b.background, b.fullLen, b.blackCount, b.greySum, b.columnBlack)) =
        some ([3200, 3178, 3200, 3200], 3, 2, 565, [0, 0, 1, 1])
      ∧ rowOne.backlog 3 = 2 := by decide +kernel

theorem test_output_row_one :
    ((after (.outputRowComplete 1) rowOne).unit 1).map (fun b => (b.sub, b.nextRow, b.rowsConsumed)) =
        some (.waitInput, 2, 3)
      ∧ ((after (.outputRowComplete 1) rowOne).unit 1).map (fun b => (b.background, b.fullLen, b.bodyLen)) =
        some ([3228, 3164, 3200, 3151], 7, 7)
      ∧ ((after (.outputRowComplete 1) rowOne).side? front310).map Side.body = some [0, 2, 2, 0, 2, 1, 1] := by
  decide +kernel

/-- The side at its side end (chapter 3): TOO_DARK, 375 permille, mean grey 152, one streak column. -/
theorem test_side_end :
    let s := afterAll [.outputRowComplete 1, .sideClose 3 310, .sideEnd 1] rowOne
    s.unit 1 = none
      ∧ (s.side? front310).map (fun x => (x.state, x.raised, x.outRes, x.resClamped, x.outHeight)) =
        some (.done, 0x0100, 0, false, 2)
      ∧ (s.side? front310).map (fun x => (x.blackPermille, x.meanGrey, x.streakColumns, x.fullLen, x.bodyLen)) =
        some (375, 152, 1, 7, 7) := by decide +kernel

/-- Row coding of the rework binding (chapter 3): RUNS 2, 1, 1, then REPEAT. -/
theorem test_repeat_row :
    codeRows none [[false, false, true, false], [false, false, true, false]] = [0, 2, 1, 1, 1] := by decide

/-- The clamped profile write of chapter 6. -/
theorem test_clamped_profile :
    clampProfile { worked with
        initialBackground := 230, tq := 12, darkLimit := 255, lightLimit := 250, attackShift := 6, decayShift := 2
        widthMin := 800, widthMax := 700, heightMin := 300, heightMax := 900, blackMin := 20, blackMax := 1200
        brightMin := 140, brightMax := 120, streakPermille := 950, streakLimit := 3, budget := 70000, mask := 8 }
      = { worked with
        initialBackground := 230, tq := 16, darkLimit := 254, lightLimit := 255, attackShift := 4, decayShift := 3
        widthMin := 800, widthMax := 800, heightMin := 300, heightMax := 900, blackMin := 20, blackMax := 1000
        brightMin := 140, brightMax := 140, streakPermille := 950, streakLimit := 3, budget := 70000, mask := 8 } := by
  decide

/-- The worked sequence of chapter 7: TOO_DARK under REWORK sends the FRONT to rework; it binds at once. -/
theorem test_rework_of_item_310 :
    let s := after (.itemClose 3 310) ((sideState { doneSide with raised := 0x0100 }).withDisposition (disposing .rework 8))
    ((s.item? 3 310).map fun i => (i.state, i.dispatch.disposition)) = some (.rework, .rework)
      ∧ (s.side? front310).map (fun x => (x.state, x.reworkCount, x.raised, x.boundUnit)) = some (.bound, 1, 0, some 0)
      ∧ (s.lane 3).counters.reworks = 1 := by decide +kernel

/-- The frames of a record (chapter 9): ITEM_HEAD, SIDE_HEAD, SIDE_BODY, ITEM_END. -/
theorem test_frames_of_a_record :
    [nextPoint readyItem .itemHead, nextPoint readyItem (.sideHead .front), nextPoint readyItem (.sideBody .front 0)] =
      [.sideHead .front, .sideBody .front 0, .itemEnd] := by decide

/-- The global stop of chapter 10: at 127 of a reserve of 128 the stop is set and STOP_ALL queued; a waiting START_ALL
is replaced. -/
theorem test_global_stop :
    (setFree 127 served).flow.flowQueue = [.stopAll] ∧ (setFree 127 served).flow.globalStop = true
      ∧ enqueueFlow .stopAll [.pause 2, .startAll] = [.pause 2, .stopAll] := by decide +kernel

/-! ### One step of a command -/

theorem test_idle_step : (step (sideState newSide) matches .next _) = true := by decide +kernel

/-- The side with two rows stored. -/
def twoRows : Side := { newSide with rowsStored := 2, inputPages := 1, input := pixels.take 12 }

/-- The worked side bound, its input closed and its unit in FINISHING. -/
def finishing : State := boundState { storedInput with inputClosed := true } (unitWith .finishing storedInput)

/-- One request waiting for the exchange link, whose reply queue is full and whose port is halted. -/
def waitingRequest (n : Nat) : State :=
  (served.withEgress { Egress.reset with halted := true, replies := fullReplies }).withMgmt
    { served.mgmt with requests := List.replicate n ⟨.exchange, [0x22, 0, 1]⟩ }

/-- Item 310 open on lane 3, no side yet. -/
def openState : State := served.setLane 3 (openLane .opened none [itemWith .receiving none])

/-- Lane 3 in SIDE on the FRONT of item 310, a number of milliseconds left on its stall timer. -/
def stallState (ms : Nat) : State :=
  served.setLane 3 { openLane .side (some .front) [itemWith .receiving (some newSide)] with stallRemaining := ms }

/-- A timer with 1 ms left runs out in one millisecond and expires in the next (R90, R91, R188). -/
theorem test_stall_runs_out_in_the_tick :
    ((tick (stallState 1)).lane 3).stallRemaining = 0 ∧ ((tick (stallState 1)).lane 3).state = .side
      ∧ ((tick (stallState 0)).lane 3).lastTimedOut = some 310 := by decide +kernel

/-- The two orders of R92: the frame taken first restarts the timer and the expiry does not happen; the expiry taken first
makes the frame late. -/
theorem test_frame_against_expiry :
    ((after (.stallExpiry 3) (after (.sideClose 3 310) (stallState 0))).lane 3).state = .opened
      ∧ ((after (.sideClose 3 310) (after (.stallExpiry 3) (stallState 0))).lane 3).counters.late = 1 := by decide +kernel

/-- An expiry with the side bound and two rows stored (R6, R15, R91): INPUT_STALL, the final output height
floor(2 × 2 / 3) = 1. -/
theorem test_stall_truncates_the_bound_side :
    let s := boundState twoRows (unitWith .waitInput twoRows)
    let t := after (.stallExpiry 3) (s.setLane 3 { s.lane 3 with stallRemaining := 0 })
    (t.side? front310).map Side.raised = some 0x0002 ∧ (t.unit 1).bind Binding.finalHeight = some 1 := by decide +kernel

/-- A freed unit goes to the waiting side in the event of the side end (R54, R58). -/
theorem test_side_end_grants_the_unit :
    let s := (busy finishing).setUnit 1 (finishing.unit 1)
    let t := after (.sideEnd 1) ((s.setLane 5 { s.lane 3 with state := .idle }).withReduction
      { s.reduction with openWait := [{ front310 with lane := 5 }] })
    (t.unit 1).map Binding.ref = some { front310 with lane := 5 } ∧ t.reduction.openWait = [] := by decide +kernel

/-- Identity answered when the reply queue of the waiting head gets a place (R167). -/
theorem test_waiting_request_is_taken :
    let t := after .exchangeReplySent (((waitingRequest 1).withEgress { (waitingRequest 1).egress with
      inProgress := some (replyWire [0, 0, 0]) }))
    t.mgmt.requests = [] ∧ t.egress.replies.length = 8 ∧ t.egress.replies.getLast? =
      some [0, 1, 0, 0x17, 0xE8, 0x01, 0x10, 0x04, 0x08, 0x00, 0x00, 0x01, 0x00, 0x00] := by decide +kernel

/-- The header of a received frame (R183), and an ITEM_OPEN received as its bytes: lane 3, item 310, member 5, class 0, one
side, date 07DE0101H. -/
theorem test_received_header :
    readFrame? [0x12, 3, 0x3F, 0xFF, 0, 0, 1, 0x36, 9] = some ⟨0x12, 3, 16383, 310, [9]⟩
      ∧ ((after (.intakeStrayFrame [0x10, 3, 0, 8, 0, 0, 1, 0x36, 0, 5, 0, 1, 7, 0xDE, 1, 1]) served).lane 3).seq = 310 := by
  decide +kernel

/-- The service state falls to STANDBY as the last record leaves (R179). -/
theorem test_draining_ends :
    (after .itemEndSent (draining (emitting .itemEnd .itemEnd))).mgmt.service = .standby
      ∧ (after .itemEndSent ((draining (emitting .itemEnd .itemEnd)).setLane 4
          { Lane.reset with list := [readyItem] })).mgmt.service = .draining := by decide +kernel

/-- A lane reset discards the scaling results (R17), and the record of an item in REWORK stays as it stood, its rework count
with it (R139; log 11). -/
theorem test_reset_of_a_rework :
    let x := { doneSide with state := .reworkWait, reworkCount := 1 }
    let t := after (.resetLane .intake 1 3) (served.setLane 3 { Lane.reset with list := [itemWith .rework (some x)] })
    (t.side? front310).map (fun y => (y.outWidth, y.outHeight, y.reworkCount)) = some (4, 2, 1)
      ∧ (t.side? front310).map Side.results = some ⟨0, false, 0, 0⟩ := by decide +kernel

/-- The header of a sent frame (R183): REFUSAL for lane 2, item 7, reason 7. -/
theorem test_refusal_bytes :
    (refusalWire ⟨2, 7, 7⟩).bytes = [0x34, 2, 0, 6, 0, 0, 0, 0, 2, 0, 0, 0, 7, 7]
      ∧ (flowWire .stopAll).bytes = [0x32, 255, 0, 0, 0, 0, 0, 0] := by decide

/-- The header of an ITEM_END (R183, R149). -/
theorem test_item_end_bytes :
    (frameAt 3 readyItem .itemEnd).bytes = [0x53, 3, 0, 8, 0, 0, 1, 54, 0, 0, 1, 54, 0, 0, 0, 7] := by decide

theorem test_check_failure : (after .intakeCheckFailure served).intakePort.checkFailures = 1 := by decide +kernel

theorem test_refused_item :
    let s := after (.itemOpen 2 7 6 0 1 0) served
    (s.lane 2).state = .drain ∧ s.flow.refusals = [⟨2, 7, 7⟩] := by decide +kernel

theorem test_fallback_item :
    ((after (.itemOpen 2 7 5 3 1 0) served).item? 2 7).map (fun i => (i.profileIndex, i.raised)) = some (8, 0x8000) := by
  decide +kernel

theorem test_side_opens_bound :
    let s := after (.sideOpen 3 310 1 300 64 32) (served.setLane 3 (openLane .opened none [itemWith .receiving none]))
    (s.side? front310).map (fun x => (x.state, x.outWidth)) = some (.bound, 42) ∧ s.freePages = 2047 := by
  decide +kernel

theorem test_rows_beyond_the_height :
    ((after (.sideData 3 310 2 2 (List.replicate 12 9)) (sideState { newSide with rowsStored := 2, input := pixels.take 12 })).side?
      front310).map (fun x => (x.rowsStored, x.raised, x.input.length)) = some (3, 0x0008, 18) := by decide +kernel

theorem test_early_close :
    ((after (.sideClose 3 310) (sideState { newSide with rowsStored := 2 })).side? front310).map Side.raised = some 0x0004 := by
  decide +kernel

theorem test_halt : (after .halt served).egress.halted = true := by decide +kernel

theorem test_record_start : (after .recordStart (served.setLane 3 { Lane.reset with list := [readyItem] })).egress.inProgress
    = some { type := .itemHead, lane := 3, seq := 310
             payload := [3, 0, 0, 1, 0x36, 0, 5, 0, 0x07, 0xDE, 0x01, 0x01, 8, 1, 0, 0, 0, 0, 0] } := by
  decide +kernel

theorem test_item_end_sent :
    let s := after .itemEndSent (emitting .itemEnd .itemEnd)
    (s.lane 3).list = [] ∧ (s.lane 3).counters.emitted = 1 ∧ s.freePages = 2050 := by decide +kernel

theorem test_identity_reply :
    (after (.readIdentity .exchange 0x0102) served).egress.inProgress.map Frame.payload =
      some [1, 2, 0, 0x17, 0xE8, 1, 16, 4, 8, 0, 0, 1, 0, 0] := by decide +kernel

theorem test_write_from_exchange_refused :
    (after (.writeHeld .exchange 7 3 1) served).egress.inProgress.map Frame.payload = some [0, 7, 2, 5] := by
  decide +kernel

theorem test_bad_request : (after (.badRequest .intake [0x10, 0, 9]) served).flow.replies = [[0, 9, 2, 1]] := by
  decide +kernel

theorem test_copy_profile_partial :
    (after (.copyProfile .intake 1 5 70) served).flow.replies = [[0, 1, 3, 1, 2, 2]] := by decide +kernel

theorem test_move_class_partial :
    (after (.moveClass .intake 1 212 9 3) served).flow.replies = [[0, 1, 3, 1, 2, 3]] := by decide +kernel

theorem test_reset_lane_reply :
    (after (.resetLane .intake 1 3) (served.setLane 3 { Lane.reset with list := [itemWith .reducing none] })).flow.replies =
      [[0, 1, 0, 3, 1, 0]] := by decide +kernel

theorem test_reset_engine_flow_queue :
    (after (.resetEngine .intake 1) (served.setLane 3 { Lane.reset with paused := true })).flow.flowQueue =
      [.startAll, .resume 3] := by decide +kernel

theorem test_no_word_spells_a_command : decodeTableWord 8 0 = none := rfl

/-! ### For each statement with hypotheses, a state and operands that meet them -/

theorem witness_StepRunsTheFrontCommand : (State.reset.withPending [.halt, .go]).pending = .halt :: [.go] := rfl

theorem witness_IdleMillisecondCountsTimersDown :
    (sideState newSide).pending = []
      ∧ (∀ l, ((sideState newSide).lane l).stallRunning = true → 1 ≤ ((sideState newSide).lane l).stallRemaining)
      ∧ ((sideState newSide).lane 3).stallRunning = true := by decide +kernel

theorem witness_IdleMillisecondCountsTimersDown_expiry :
    let s := stallState 0
    s.pending = [] ∧ (s.lane 3).stallRunning = true ∧ (s.lane 3).stallRemaining = 0 ∧ (s.lane 3).state = .side
      ∧ ∀ k, k ≠ 3 → (s.lane k).stallRunning = true → 1 ≤ (s.lane k).stallRemaining := by decide +kernel

theorem witness_FramesAreTakenAfterPinRelease :
    (State.reset.withTaking false).taking = false ∧ isReceivedFrame .halt = true := by decide

theorem witness_PortsCountTheFramesTheyDiscard :
    served.taking = true ∧ readFrame? [0x99, 0, 0, 0, 0, 0, 0, 0] = some ⟨0x99, 0, 0, 0, []⟩
      ∧ isIntakeStray ⟨0x99, 0, 0, 0, []⟩ = true ∧ isExchangeStray ⟨0x99, 0, 0, 0, []⟩ = true
      ∧ readFrame? [0x99, 0, 0, 0, 0, 0, 0] = none := by decide

theorem witness_ItemFramePayloadsAreRead :
    ([] : List Byte).length ≤ 16380 ∧ (List.replicate 16380 (0 : Byte)).length ≤ 16380 :=
  ⟨by decide, le_of_eq List.length_replicate⟩

/-- Bytes of each kind of frame that a port takes. -/
theorem witness_ItemFramePayloadsAreRead_bytes :
    let f (b : List Byte) := (readFrame? b).map sortIntake
    let g (b : List Byte) := (readFrame? b).map sortExchange
    f [0x10, 3, 0, 8, 0, 0, 1, 54, 0, 5, 0, 1, 0, 0, 0, 7] = some (.itemOpen 3 5 0 1 7)
      ∧ f [0x11, 3, 0, 7, 0, 0, 1, 54, 1, 1, 44, 0, 64, 0, 32] = some (.sideOpen 3 1 300 64 32)
      ∧ f [0x12, 3, 0, 5, 0, 0, 1, 54, 0, 0, 0, 1, 9] = some (.sideData 3 0 1 [9])
      ∧ f [0x13, 15, 0, 0, 0, 0, 1, 54] = some (.sideClose 15) ∧ f [0x14, 0, 0, 0, 0, 0, 1, 54] = some (.itemClose 0)
      ∧ f [0x20, 255, 0, 3, 0, 0, 0, 0, 0x22, 0, 1] = some (.request [0x22, 0, 1])
      ∧ g [0x20, 255, 0, 3, 0, 0, 0, 0, 0x22, 0, 1] = some (.request [0x22, 0, 1])
      ∧ g [0x40, 255, 0, 0, 0, 0, 0, 0] = some .halt ∧ g [0x41, 255, 0, 0, 0, 0, 0, 0] = some .go := by decide +kernel

theorem witness_HaltAndGoPaceTheExchangePort :
    served.taking = true ∧ served.egress.halted = false
      ∧ (after .halt served).taking = true ∧ (after .halt served).egress.halted = true := by decide +kernel

theorem witness_ScaledGreyIsTheRoundedMean :
    (0 < 3 ∧ 2295 ≤ 255 * (3 * 3)) ∧ (0 < 2 ∧ (2 * 0 + 1) * (2 * 2) = 2 * 2) := by decide

theorem witness_ScaledGreysAreBytes :
    0 < (newBinding front310 newSide worked).dout
      ∧ 178 ∈ rowGreys storedInput (newBinding front310 newSide worked) := by decide +kernel

/-- The converter's parameters of the worked side. -/
def workedParams : ConvertParams := ⟨48, 32, 240, 2, 4⟩

theorem witness_ThresholdIsAFractionOfTheBackground :
    (63 ≤ 63 ∧ 4080 ≤ 4080) ∧ (48 ≤ 63 ∧ 0 < 3200) ∧ (workedParams.tq ≤ 63 ∧ workedParams.darkLimit < 200 ∧ 16 * 200 = 3200)
      ∧ (workedParams.darkLimit < 40 ∧ isBlack workedParams 3200 40 = true)
      ∧ (workedParams.tq = 48 ∧ workedParams.darkLimit < 149 ∧ 150 < workedParams.lightLimit) := by decide

theorem witness_BackgroundMovesOnlyByWhitePixelsAndStaysInRange :
    (∀ g ∈ [0, 40, 149], isBlack workedParams 3200 g = true) ∧ (255 ≤ 255 ∧ 4080 ∈ initialArray 4 255)
      ∧ (1 ≤ workedParams.attackShift ∧ 1 ≤ workedParams.decayShift ∧ 4080 ≤ 4080 ∧ 255 ≤ 255)
      ∧ isBlack workedParams 4080 255 = false := by decide

theorem witness_HeaderIsTheFirstCaseThatApplies :
    (∀ p ∈ [false, false], p = false) ∧ (true ∈ [false, true] ∧ some [false, true] = some [false, true])
      ∧ (true ∈ [false, true] ∧ (none : Option (List Bool)) ≠ some [false, true]) := by decide

theorem witness_RunsTakeOneOrTwoBytes :
    127 ≤ 127 ∧ (128 ≤ 16383 ∧ 16383 ≤ 16383) ∧ true ∈ List.replicate 2560 true
      ∧ (List.replicate 2560 true).length ≤ 2560 :=
  ⟨by decide, by decide, List.mem_replicate.mpr ⟨by decide, rfl⟩, le_of_eq List.length_replicate⟩

theorem witness_ReaderRebuildsTheRows :
    2 ≤ 2560 ∧ ∀ r ∈ [[false, true], [false, true], [false, false]], r.length = 2 := by decide

/-- A coder with nothing stored. -/
def emptyCoder : CoderState := ⟨0, 0, false, 0, []⟩

theorem witness_BodyIsStoredWithinTheBudget :
    emptyCoder.oversize = false ∧ emptyCoder.bodyLen = emptyCoder.fullLen ∧ emptyCoder.fullLen ≤ 2
      ∧ emptyCoder.fullLen + [0x02#8, 0x02#8].length ≤ 2 ∧ 2 < emptyCoder.fullLen + [0x02#8, 0x02#8, 0x02#8].length
      ∧ emptyCoder.fullLen + [0x02#8, 0x02#8, 0x02#8].length < 16777215 := by decide

theorem witness_SideFiguresAndTestsFollowTheCounts :
    4 * 0 = 0 ∧ 0 < 4 * 2 ∧ 8 ≤ 4 * 2 ∧ 2040 ≤ 255 * (4 * 2) := by decide

/-- The worked side waiting in a list. -/
def waitingState (x : Side) (openWait reworkWait : List SideRef) (units : Vector (Option Binding) 4) : State :=
  (sideState x).withReduction { units := units, openWait := openWait, reworkWait := reworkWait }

theorem witness_GrantBindsTheHeadWaiterToTheLowestUnit :
    (let s := waitingState newSide [front310] [] (Vector.replicate 4 none);
      s.unit 0 = none ∧ (∀ v, v < (0 : Fin 4) → s.unit v ≠ none) ∧ s.side? front310 = some newSide
        ∧ newSide.snapshot = some worked ∧ s.reduction.reworkWait = [] ∧ s.reduction.openWait = front310 :: [])
      ∧ (let s := waitingState { doneSide with state := .reworkWait } [⟨4, 2, .back⟩] [front310] ((busy served).reduction.units.set 3 none);
        s.unit 3 = none ∧ (∀ v, v < (3 : Fin 4) → s.unit v ≠ none)
          ∧ s.side? front310 = some { doneSide with state := .reworkWait } ∧ doneSide.snapshot = some worked
          ∧ s.reduction.reworkWait = front310 :: []) := by decide +kernel

/-- Both clauses of the ratio and of the sub-state, at a row ready, a row not ready and the last row produced. -/
theorem witness_GrantBindsTheHeadWaiterToTheLowestUnit_tables :
    (150 < 200 ∧ 120 ≤ 300) ∧ 0 < (newBinding front310 newSide worked).dout
      ∧ (newBinding front310 newSide worked).nextRow <
        (newBinding front310 newSide worked).finalHeight.getD (newBinding front310 newSide worked).declaredHeight
      ∧ ({ newBinding front310 newSide worked with nextRow := 2 } : Binding).finalHeight.getD
        (newBinding front310 newSide worked).declaredHeight ≤ 2 := by decide

theorem witness_OutputRowPassesThroughTheStages :
    let s := boundState storedInput (unitWith .running storedInput)
    s.unit 1 = some (unitWith .running storedInput) ∧ (unitWith .running storedInput).sub = .running
      ∧ s.side? (unitWith .running storedInput).ref = some { storedInput with state := .bound, boundUnit := some 1 } := by
  decide +kernel

theorem witness_OutputRowPassesThroughTheStages_weights :
    (0 + 1) * 3 ≤ 2 * 2 ∧ (1 + 1) * 3 ≤ 3 * 2 ∧ storedInput.input[1 * storedInput.width + 2]?.isSome = true := by decide

theorem witness_SideEndRecordsTheResults :
    finishing.unit 1 = some (unitWith .finishing storedInput) ∧ (unitWith .finishing storedInput).sub = .finishing
      ∧ finishing.side? (unitWith .finishing storedInput).ref =
        some { storedInput with inputClosed := true, state := .bound, boundUnit := some 1 }
      ∧ storedInput.snapshot = some worked
      ∧ ((finishing.item? 3 310).map fun i => decide (i.state ≠ .reducing ∧ i.state ≠ .rework)) = some true
      ∧ finishing.reduction.openWait = [] ∧ finishing.reduction.reworkWait = [] := by decide +kernel

theorem witness_SideEndRecordsTheResults_settled : ExchangeSettled finishing :=
  exchangeSettled_of_quiet _ rfl rfl (by decide +kernel)

/-- The two cases of the grants: none left to make, and one to make. -/
theorem witness_SideEndRecordsTheResults_grants :
    ArbiterSettled finishing ∧ ¬ ArbiterSettled (waitingState newSide [front310] [] (Vector.replicate 4 none))
      ∧ (exec .binding finishing matches .next _) = true := by
  unfold ArbiterSettled; decide +kernel

theorem served_exchangeSettled : ExchangeSettled served := exchangeSettled_of_quiet _ rfl rfl (by decide +kernel)

theorem witness_ItemOpenIsAdmittedOrRefused :
    served.taking = true ∧ ExchangeSettled served ∧ LaneLawful (served.lane 3) ∧ (served.lane 3).state = .idle
      ∧ (310 : Seq) ≠ 0 ∧ checkAdmission served 3 310 5 0 1 = .admitted 8 false
      ∧ checkAdmission served 3 310 6 0 1 = .refused 7 := by
  refine ⟨rfl, served_exchangeSettled, ?_, ?_⟩
  · unfold LaneLawful; decide +kernel
  · decide +kernel

/-- Lane 3 draining a refused sequence. -/
def drainState : State := served.setLane 3 { Lane.reset with state := .drain, seq := 9 }

theorem drainState_exchangeSettled : ExchangeSettled drainState :=
  exchangeSettled_of_quiet _ rfl rfl (by decide +kernel)

theorem witness_ItemOpenIsRefusedInDrain :
    drainState.taking = true ∧ ExchangeSettled drainState ∧ (drainState.lane 3).state = .drain
      ∧ checkAdmission drainState 3 310 6 0 1 = .refused 7 :=
  ⟨rfl, drainState_exchangeSettled, by decide +kernel, by decide +kernel⟩

theorem witness_ItemOpenClosesWhatWasOpen :
    let s := sideState newSide
    s.taking = true ∧ (311 : Seq) ≠ 0 ∧ (s.lane 3).state = .side ∧ (311 : Seq) ≠ (s.lane 3).seq
      ∧ (s.item? 3 310).isSome = true := by decide +kernel

/-- The other clauses: the open sequence repeated, a lane in OPEN and one in DRAIN. -/
theorem witness_ItemOpenClosesWhatWasOpen_repeated :
    ((sideState newSide).lane 3).seq = 310 ∧ (310 : Seq) ≠ 0 ∧ ((sideState newSide).item? 3 310).isSome = true
      ∧ ((sideState newSide).lane 3).state = .side ∧ (openState.lane 3).state = .opened ∧ (openState.lane 3).seq = 310
      ∧ (drainState.lane 3).state = .drain := by decide +kernel

theorem witness_UnmatchedAndDrainingFramesAreDiscarded :
    (served.taking = true ∧ ExchangeSettled served ∧ (served.lane 3).state = .idle)
      ∧ drainState.taking = true ∧ ExchangeSettled drainState ∧ LaneLawful (drainState.lane 3)
      ∧ (drainState.lane 3).state = .drain ∧ (drainState.lane 3).seq = 9 ∧ (9 : Seq) ≠ 0
      ∧ ([0x00#8] : List Byte).length ≤ 16380 := by
  refine ⟨⟨rfl, served_exchangeSettled, by decide +kernel⟩, rfl, drainState_exchangeSettled, ?_, ?_⟩
  · unfold LaneLawful; decide +kernel
  · decide +kernel

theorem witness_SideOpenCreatesTheSide :
    (openState.taking = true ∧ (openState.lane 3).state = .opened ∧ (openState.lane 3).seq = 310 ∧ (310 : Seq) ≠ 0
      ∧ openState.item? 3 310 = some (itemWith .receiving none) ∧ (1 : Byte) = 1
      ∧ (300#16).toNat ∈ [100, 120, 150, 200, 240, 300, 400] ∧ (64 ≤ (64#16).toNat ∧ (2560#16).toNat ≤ 2560)
      ∧ (32 ≤ (32#16).toNat ∧ (1536#16).toNat ≤ 1536) ∧ (itemWith .receiving none).side .front = none
      ∧ (itemWith .receiving none).sides.length < (itemWith .receiving none).sidesDeclared
      ∧ openState.admission.profiles[(itemWith .receiving none).profileIndex.val] = worked ∧ worked.valid = true
      ∧ (worked.budget + 65535) / 65536 ≤ openState.freePages)
      ∧ openState.unit 0 = none ∧ (∀ u, (busy openState).unit u ≠ none) := by decide +kernel

theorem witness_SideOpenCreatesTheSide_settled : ArbiterSettled openState ∧ ArbiterSettled (busy openState) := by
  unfold ArbiterSettled; decide +kernel

theorem witness_SideOpenThatIsNotReducedOrStray :
    openState.item? 3 310 = some (itemWith .receiving none)
      ∧ (State.reset.admission.profiles[(itemWith .receiving none).profileIndex.val]).valid = false
      ∧ (openState.withFree 0).freePages < (worked.budget + 65535) / 65536
      ∧ ((3 : Byte) ≠ 1 ∧ (3 : Byte) ≠ 2) ∧ (63#16).toNat < 64 ∧ 1536 < (1537#16).toNat := by decide +kernel

theorem witness_FramesInSideCloseTheActiveSideFirst :
    let s := sideState newSide
    s.taking = true ∧ (s.lane 3).state = .side ∧ (s.lane 3).seq = 310 ∧ (310 : Seq) ≠ 0 := by decide +kernel

theorem witness_SideDataStoresContinuingRows :
    let s := sideState newSide
    s.taking = true ∧ (s.lane 3).state = .side ∧ (s.lane 3).seq = 310 ∧ (s.lane 3).active = some .front
      ∧ s.side? front310 = some newSide ∧ newSide.inputClosed = false ∧ 0 < (4#16).toNat
      ∧ (List.replicate 24 (9 : Byte)).length = (4#16).toNat * newSide.width ∧ (0#16).toNat = newSide.rowsStored
      ∧ newSide.rowsStored < newSide.height ∧ 3 = min (4#16).toNat (newSide.height - newSide.rowsStored)
      ∧ 1 = ((newSide.rowsStored + 3) * newSide.width + 65535) / 65536 - newSide.inputPages ∧ 1 ≤ s.freePages
      ∧ ∀ u, newSide.boundUnit = some u → s.unit u = none := by
  decide +kernel

theorem witness_SideDataStoresContinuingRows_bound :
    let s := boundState newSide (unitWith .waitInput newSide)
    s.side? front310 = some { newSide with state := .bound, boundUnit := some 1 }
      ∧ s.unit 1 = some (unitWith .waitInput newSide) ∧ (s.lane 3).state = .side ∧ newSide.inputClosed = false := by
  decide +kernel

theorem witness_SideDataThatIsNotStored :
    (sideState { twoRows with inputClosed := true }).side? front310 = some { twoRows with inputClosed := true }
      ∧ ((sideState twoRows).taking = true ∧ ((sideState twoRows).lane 3).state = .side ∧ ((sideState twoRows).lane 3).active = some .front ∧ (sideState twoRows).side? front310 = some twoRows
          ∧ twoRows.inputClosed = false ∧ (0#16).toNat = 0 ∧ (1#16).toNat < twoRows.rowsStored
          ∧ (pixels.take 6).length = (1#16).toNat * twoRows.width ∧ twoRows.height ≤ (3#16).toNat
          ∧ twoRows.rowsStored = (2#16).toNat ∧ (2#16).toNat < twoRows.height)
      ∧ ((1#16).toNat < newSide.height ∧ newSide.rowsStored < (1#16).toNat)
      ∧ ((sideState newSide).withFree 0).freePages <
          ((newSide.rowsStored + min (1#16).toNat (newSide.height - newSide.rowsStored)) * newSide.width + 65535) / 65536
            - newSide.inputPages := by decide +kernel

/-- A truncated side with a unit bound to it, by a gap and by an overrun, and one without. -/
theorem witness_SideDataThatIsNotStored_bound :
    let s := boundState newSide (unitWith .waitInput newSide)
    (s.side? front310 = some { newSide with state := .bound, boundUnit := some 1 } ∧ s.unit 1 = some (unitWith .waitInput newSide)
      ∧ newSide.inputClosed = false ∧ newSide.rowsStored < (2#16).toNat ∧ (2#16).toNat < newSide.height
      ∧ 6 = (1#16).toNat * newSide.width)
      ∧ (∀ u, newSide.boundUnit = some u → (sideState newSide).unit u = none)
      ∧ ((boundState newSide (unitWith .waitInput newSide)).withFree 0).freePages <
        ((newSide.rowsStored + min (1#16).toNat (newSide.height - newSide.rowsStored)) * newSide.width + 65535) / 65536
          - newSide.inputPages := by decide +kernel

/-- A SIDE_DATA of the open item in OPEN. -/
theorem witness_SideDataThatIsNotStored_open :
    openState.taking = true ∧ (openState.lane 3).state = .opened ∧ (openState.lane 3).seq = 310
      ∧ ([0] : List Byte).length ≤ 16380 := by decide +kernel

/-- The three cases of a close for a bound unit, at the output height and below it. -/
theorem witness_SideCloseClosesTheInput_unit :
    let b := unitWith .waitInput twoRows
    b.sub = .waitInput ∧ b.nextRow < 2 * b.dout / b.din ∧ 1 * b.dout / b.din ≤ b.nextRow
      ∧ (unitWith .running twoRows).sub ≠ .waitInput
      ∧ (sideState { twoRows with inputClosed := true }).side? front310 = some { twoRows with inputClosed := true } := by
  decide +kernel

theorem witness_SideCloseClosesTheInput :
    (let s := boundState twoRows (unitWith .waitInput twoRows);
      s.taking = true ∧ (s.lane 3).seq = 310 ∧ (s.lane 3).state = .side ∧ (s.lane 3).active = some .front
        ∧ s.side? front310 = some { twoRows with state := .bound, boundUnit := some 1 } ∧ twoRows.inputClosed = false
        ∧ s.unit 1 = some (unitWith .waitInput twoRows))
      ∧ (openState.taking = true ∧ (openState.lane 3).seq = 310 ∧ (openState.lane 3).state = .opened) := by
  decide +kernel

theorem witness_ItemCloseClosesTheItem :
    openState.taking = true ∧ (openState.lane 3).state = .opened ∧ (openState.lane 3).seq = 310 ∧ (310 : Seq) ≠ 0
      ∧ openState.item? 3 310 = some (itemWith .receiving none) := by decide +kernel

/-- Item 310 waiting in AWAIT_DISPATCH on a held lane. -/
def heldState : State :=
  served.setLane 3 { Lane.reset with held := true, list := [itemWith .awaitDispatch (some doneSide)] }

theorem witness_CompletionWaitsForTheHold :
    (judged .mark 0).item? 3 310 = some (itemWith .reducing (some { doneSide with raised := 0x0100 }))
      ∧ doneSide.state = .done ∧ ((judged .mark 0).lane 3).held = false ∧ (heldState.lane 3).held = true
      ∧ ((heldState.lane 3).list.map Item.seq).Nodup
      ∧ ((openState.item? 3 310).map fun i => decide (i.state ≠ .reducing ∧ i.state ≠ .rework)) = some true := by
  decide +kernel

theorem witness_StallExpiryClosesTheItem :
    let s := stallState 0
    (s.lane 3).stallRunning = true ∧ (s.lane 3).stallRemaining = 0 ∧ (s.lane 3).state = .side
      ∧ (s.lane 3).active = some .front ∧ s.side? ⟨3, (s.lane 3).seq, .front⟩ = some newSide := by decide +kernel

/-- The cases of an expiry: no active side, an open side without a unit, an open side with one, a closed side. -/
theorem witness_StallExpiryClosesTheItem_cases :
    let o := openState.setLane 3 { openState.lane 3 with stallRemaining := 0 }
    let s := boundState twoRows (unitWith .waitInput twoRows)
    let c := sideState { twoRows with inputClosed := true }
    ((o.lane 3).state = .opened ∧ (o.lane 3).stallRunning = true ∧ (o.lane 3).stallRemaining = 0 ∧ (o.lane 3).active = none)
      ∧ (newSide.inputClosed = false ∧ newSide.state ≠ .done ∧ newSide.state ≠ .notReduced
        ∧ ∀ u, newSide.boundUnit = some u → (stallState 0).unit u = none)
      ∧ (s.side? front310 = some { twoRows with state := .bound, boundUnit := some 1 }
        ∧ s.unit 1 = some (unitWith .waitInput twoRows) ∧ twoRows.inputClosed = false)
      ∧ c.side? front310 = some { twoRows with inputClosed := true } := by decide +kernel

theorem witness_StallExpiryClosesTheItem_notTaken :
    (served.lane 3).stallRunning = false ∧ 0 < ((stallState 1).lane 3).stallRemaining ∧ (served.lane 3).state = .idle
      ∧ (((stallState 0).lane 3).state = .side ∧ ((stallState 0).lane 3).seq = 310 ∧ ((stallState 0).lane 3).stallMs ≠ 0)
      ∧ ∀ c ∈ [Instr.sideOpen 3 310 1 300 64 32, .sideData 3 310 0 1 [], .sideClose 3 310, .itemClose 3 310],
        (exec c (stallState 0) matches .next _) = true := by decide +kernel

/-- The verdict on item 310 with its sets formed. -/
def verdict (s : State) : Option Verdict :=
  (s.item? 3 310).map fun i => judge s.disposition s.admission.profiles (formSets i)

theorem witness_JudgementFollowsTheSteps :
    verdict (judged .rework 0) = some (.rework (some 8) none) ∧ verdict (judged .rework 2) = some (.exhausted 8)
      ∧ (itemWith .reducing none).sidesDeclared ≠ 2 ∧ (itemWith .reducing (some doneSide)).side .front = some doneSide
      ∧ (∀ m : Condition, m.val < 13 → holds (itemWith .reducing none).potent m = false)
      ∧ chosen (disposing .rework 8) (some { doneSide with potent := 0x0100 }) = some 8 := by decide +kernel

theorem witness_EvaluationDispatchesTheItem :
    verdict (judged .mark 0) = some .mark ∧ verdict (judged .divert 0) = some (.divert 8)
      ∧ verdict ((judged .mark 0).withDisposition State.reset.disposition) = some (.fault 8 .beyondExtent)
      ∧ verdict (judged .rework 2) = some (.exhausted 8)
      ∧ (verdict (busy (judged .rework 0)) = some (.rework (some 8) none) ∧ ∀ u, (busy (judged .rework 0)).unit u ≠ none) := by
  decide +kernel

/-- The intake transmit side with its queues. -/
def sending (f : Flow) : State := served.withFlow f

/-- A verdict of rework with units FREE, and one with none. -/
theorem witness_EvaluationDispatchesTheItem_free :
    verdict (judged .rework 0) = some (.rework (some 8) none) ∧ (judged .rework 0).unit 0 = none
      ∧ ((evaluate 3 310 (judged .rework 0)).unit 0).map Binding.ref = some front310
      ∧ verdict (busy (judged .rework 0)) = some (.rework (some 8) none) := by decide +kernel

/-- A list whose first record of the sequence is evaluated, with a record before it and one behind it. -/
theorem witness_EvaluationDispatchesTheItem_list :
    let i := itemWith .reducing (some { doneSide with raised := 0x0100 })
    let s (cls : DescriptorClass) := (judged cls 0).modLane 3 fun c => { c with list := { i with seq := 309 } :: c.list ++ [{ i with seq := 311 }] }
    ((s .mark).lane 3).list = [{ i with seq := 309 }] ++ i :: [{ i with seq := 311 }]
      ∧ (∀ x ∈ [{ i with seq := 309 }], x.seq ≠ i.seq)
      ∧ judge (s .mark).disposition (s .mark).admission.profiles (formSets i) = .mark
      ∧ judge (s .divert).disposition (s .divert).admission.profiles (formSets i) = .divert 8 := by decide +kernel

theorem witness_RecordStartTakesTheNextReadyLane :
    let s := served.setLane 3 { Lane.reset with list := [readyItem] }
    s.egress.emission = none ∧ s.egress.inProgress = none ∧ s.egress.halted = false ∧ s.egress.replies = []
      ∧ 3 = s.egress.roundRobin + 3 ∧ (∀ k', k' < (3 : Fin 16) → headReady s (s.egress.roundRobin + k') = false)
      ∧ (s.lane 3).list = readyItem :: [] ∧ readyItem.state = .ready := by decide +kernel

theorem witness_NextFrameOfTheRecordFollows :
    let s := emitting .itemHead .itemHead
    s.egress.inProgress = some { type := .itemHead, lane := 3, seq := 310, payload := [] }
      ∧ s.egress.emission = some ⟨3, 310, .itemHead⟩ ∧ s.item? 3 310 = some { readyItem with state := .emitting } := by
  decide +kernel

theorem witness_NextFrameOfTheRecordFollows_layouts :
    readyItem.front = some doneSide ∧ 0 < doneSide.bodyLen ∧ doneSide.bodyLen ≤ 0 + 8192
      ∧ 8191 + 8192 < ({ doneSide with bodyLen := 16384 } : Side).bodyLen ∧ (itemWith .ready none).front = none
      ∧ ({ readyItem with front := none, back := some doneSide } : Item).back = some doneSide
      ∧ ({ doneSide with bodyLen := 0 } : Side).bodyLen = 0
      ∧ (emitting .itemEnd .itemEnd).egress.inProgress = some { type := .itemEnd, lane := 3, seq := 310, payload := [] }
      ∧ (sending { Flow.reset with inProgress := some ⟨.flow, flowWire .stopAll⟩ }).flow.inProgress =
        some ⟨.flow, flowWire .stopAll⟩ := by decide +kernel

theorem witness_BodyFramesCarryTheBody : doneSide.bodyLen ≤ doneSide.body.length ∧ 0 < (doneSide.bodyLen + 8191) / 8192 := by
  decide

theorem witness_RecordLeavesAfterItsLastFrame :
    (emitting .itemEnd .itemEnd).egress.emission = some ⟨3, readyItem.seq, .itemEnd⟩
      ∧ ((emitting .itemEnd .itemEnd).egress.inProgress.map Frame.type) = some .itemEnd
      ∧ ((emitting .itemEnd .itemEnd).lane 3).list = { readyItem with state := .emitting } :: []
      ∧ ((emitting .itemNotice .itemNotice).egress.inProgress.map Frame.type) = some .itemNotice := by decide +kernel

/-- A reply on the exchange link. -/
def replying : State :=
  served.withEgress { Egress.reset with
    replies := [[0, 1, 0], [0, 2, 0]], inProgress := some (replyWire [0, 1, 0]) }

theorem witness_ExchangePortStartsInItsOrder :
    (after .halt served).egress.halted = true ∧ (served.egress.halted = false ∧ served.egress.inProgress = none)
      ∧ ((emitting .itemHead .itemHead).withEgress
          { (emitting .itemHead .itemHead).egress with inProgress := none }).egress.emission = some ⟨3, 310, .itemHead⟩
      ∧ (served.withEgress { Egress.reset with replies := [[0, 1, 0]] }).egress.replies = [0, 1, 0] :: []
      ∧ (served.egress.emission = none ∧ served.egress.replies = [])
      ∧ replying.egress.inProgress = some (replyWire [0, 1, 0]) ∧ (replyWire [0, 1, 0]).type = .mgmtReply
      ∧ replying.egress.replies = [0, 1, 0] :: [[0, 2, 0]] ∧ replying.mgmt.requests = [] := by decide +kernel

/-- A reply sent on the exchange link with a request waiting for its place. -/
theorem witness_ExchangePortStartsInItsOrder_waiting :
    let s := (waitingRequest 1).withEgress { (waitingRequest 1).egress with inProgress := some (replyWire [0, 0, 0]) }
    s.egress.inProgress = some (replyWire [0, 0, 0]) ∧ s.egress.replies = [0, 0, 0] :: List.replicate 7 [0, 0, 0]
      ∧ s.mgmt.requests ≠ [] := by decide +kernel

/-- Lane 3 with a number of rows stored for one side. -/
def backlogState (n : Nat) : State := sideState { newSide with rowsStored := n }

theorem witness_FlowFlagsFollowTheirMarks :
    ((backlogState 256).lane 3).xoff ≤ (backlogState 256).backlog 3
      ∧ (((backlogState 128).lane 3).xon + 16 ≤ ((backlogState 128).lane 3).xoff
        ∧ (backlogState 128).backlog 3 ≤ ((backlogState 128).lane 3).xon ∧ ((backlogState 128).lane 3).list.length ≤ 7)
      ∧ (((backlogState 129).lane 3).xon < (backlogState 129).backlog 3
        ∧ (backlogState 255).backlog 3 < ((backlogState 255).lane 3).xoff ∧ ((backlogState 255).lane 3).list.length ≠ 8)
      ∧ false = (if served.freePages < served.mgmt.pageReserve then true
        else if served.mgmt.pageReserve + served.mgmt.resumeMargin ≤ served.freePages then false
        else served.flow.globalStop) := by decide +kernel

theorem witness_IntakeTransmitServesTheClassesInOrder :
    [FlowFrame.pause 2, .startAll].Pairwise (fun a b => sameScope a b = false)
      ∧ (sending { Flow.reset with flowQueue := [.pause 2] }).flow.inProgress = none
      ∧ (sending { Flow.reset with refusals := [⟨2, 7, 1⟩] }).flow.flowQueue = []
      ∧ (sending { Flow.reset with replies := [[0, 1, 0]] }).flow.refusals = []
      ∧ (sending { Flow.reset with inProgress := some ⟨.flow, flowWire .stopAll⟩ }).flow.inProgress ≠ none
      ∧ (sending { Flow.reset with refusals := [⟨2, 7, 1⟩], inProgress := some ⟨.refusal, refusalWire ⟨2, 7, 1⟩⟩ }).flow.refusals
        = ⟨2, 7, 1⟩ :: []
      ∧ (sending { Flow.reset with replies := [[0, 1, 0]], inProgress := some ⟨.reply, replyWire [0, 1, 0]⟩ }).mgmt.requests
        = [] := by decide +kernel

theorem witness_IntakeReplySent_settled :
    ExchangeSettled (sending { Flow.reset with replies := [[0, 1, 0]], inProgress := some ⟨.reply, replyWire [0, 1, 0]⟩ }) :=
  exchangeSettled_of_quiet _ rfl rfl (by decide +kernel)

/-- The hypotheses of the statements about requests (writes, reads, composites, resets, the service state). -/
theorem witness_ReadyFor : ReadyFor .intake served ∧ ReadyFor .exchange served := by
  unfold ReadyFor; decide +kernel

theorem witness_RequestPayloadsAreReadBack : parseRequest [0x22, 0, 1] = .request 1 .readIdentity := by decide

theorem witness_RequestIsCarriedOutWhenItArrives :
    ([0x10, 0, 9] : List Byte).length ≤ 16384 ∧ isBadPayload [0x10, 0, 9] = true ∧ isBadPayload [] = true
      ∧ (∀ g l, Request.readCounters 3 0 1 ≠ .readCounters g l 0) ∧ Request.resetEngine ≠ .readIdentity := by
  refine ⟨by decide, by decide, by decide, fun g l h => ?_, by decide⟩
  injection h with _ _ h3
  exact absurd h3 (by decide)

theorem waitingRequest_settled (n : Nat) (h : 0 < n) : RequestsSettled (waitingRequest n) := by
  intro e rest h'
  obtain ⟨m, rfl⟩ := Nat.exists_eq_succ_of_ne_zero (Nat.pos_iff_ne_zero.mp h)
  have : (waitingRequest (m + 1)).mgmt.requests = ⟨.exchange, [0x22, 0, 1]⟩ :: List.replicate m ⟨.exchange, [0x22, 0, 1]⟩ := rfl
  rw [this] at h'
  injection h' with h1 _
  subst h1
  rfl

theorem waitingRequest_exchangeSettled (n : Nat) : ExchangeSettled (waitingRequest n) :=
  ⟨fun e he => absurd he (by simp [waitingRequest, Egress.reset]), .inr (.inl rfl)⟩

theorem witness_RequestWaitsOrOverflows :
    (waitingRequest 1).taking = true ∧ RequestsSettled (waitingRequest 1) ∧ ExchangeSettled (waitingRequest 1)
      ∧ (waitingRequest 7).mgmt.requests.length < 8 ∧ (waitingRequest 1).mgmt.requests ≠ []
      ∧ RequestsSettled (waitingRequest 8) ∧ 8 ≤ (waitingRequest 8).mgmt.requests.length
      ∧ 8 ≤ (repliesOf .exchange (waitingRequest 0)).length :=
  ⟨rfl, waitingRequest_settled 1 (by decide), waitingRequest_exchangeSettled 1, by decide +kernel, by decide +kernel,
    waitingRequest_settled 8 (by decide), by decide +kernel, by decide +kernel⟩

/-- A head that waits, one whose link has a free place, and one that is no request. -/
theorem witness_RequestWaitsOrOverflows_taken :
    (waitingRequest 1).mgmt.requests = ⟨.exchange, Request.readIdentity.payload 1⟩ :: []
      ∧ 8 ≤ (repliesOf .exchange (waitingRequest 1)).length
      ∧ (repliesOf .exchange ((waitingRequest 1).withEgress Egress.reset)).length < 8
      ∧ isBadPayload [0x10, 0, 9] = true ∧ served.mgmt.requests = [] := by decide +kernel

/-- RESET_ENGINE at the head of the request queue with a request behind it. -/
theorem witness_EngineResetKeepsTheTables :
    let s := served.withMgmt { served.mgmt with
      requests := ⟨.intake, Request.resetEngine.payload 9⟩ :: [⟨.exchange, [0x22, 0, 1]⟩] }
    s.mgmt.requests = ⟨.intake, Request.resetEngine.payload 9⟩ :: [⟨.exchange, [0x22, 0, 1]⟩]
      ∧ s.flow.replies.length < 8 ∧ (takeRequests s).mgmt.requests = [] := by decide +kernel

theorem witness_ReadsReturnWhatIsStored :
    13 < (14 : Byte).toNat ∧ (3 : Byte) = BitVec.ofNat 8 (3 : Fin 16).val ∧ 15 < (16 : Byte).toNat ∧ 3 < (4 : Byte).toNat
      ∧ ProfileInRange worked := by
  unfold ProfileInRange; decide

theorem witness_TableWritesReplaceOneEntry : worked.outRes ∈ [100, 120, 150, 200, 240] ∧ ProfileInRange worked := by
  unfold ProfileInRange; decide

theorem witness_TableWritesReplaceOneEntry_operands :
    (memberOf? ⟨1, 1, 4, #v[255, 63, 0, 255, 255, 255, 255, 255]⟩).isSome = true
      ∧ memberOf? ⟨1, 1, 4, #v[255, 64, 0, 255, 255, 255, 255, 255]⟩ = none ∧ memberOf? ⟨1, 1, 64, .replicate 8 255⟩ = none
      ∧ descriptorOf? ⟨0, 2, 63, 200⟩ = some ⟨false, .rework, 63, 200⟩ ∧ descriptorOf? ⟨0, 3, 63, 200⟩ = none
      ∧ (profileOperand? (2 :: (profileData worked).tail)).map rawProfile? = some none
      ∧ (profileOperand? (profileData worked)).map rawProfile? = some (some worked) := by decide +kernel

theorem witness_LaneFieldAndSettingWrites :
    hasWriteRow 4 = false ∧ hasWriteRow 10 = false ∧ ((1 : BitVec 32) = 0 ∨ (1 : BitVec 32) = 1)
      ∧ ((2 : BitVec 32) ≠ 0 ∧ (2 : BitVec 32) ≠ 1) ∧ 32 = max 32 (min (20 : BitVec 32).toNat 1024)
      ∧ 16 = min (served.lane 3).xon (32 - 16) ∧ 240 = min (500 : BitVec 32).toNat ((served.lane 3).xoff - 16)
      ∧ 15 < (16 : Byte).toNat ∧ 15 < (255 : Byte).toNat := by
  decide +kernel

theorem witness_ClearAfterReadZeroesTheGroup :
    group? 0 3 = some (.lane 3) ∧ group? 3 0 = some .engine ∧ group? 0 16 = none
      ∧ CounterGroup.intakePort ≠ .exchangePort ∧ (2 : Byte) ≠ 0 ∧ (2 : Byte) ≠ 1 := by decide

/-- A state in service with a record in a list. -/
def occupied : State := served.setLane 3 { Lane.reset with list := [readyItem] }

theorem witness_ServiceStateFollowsTheTable :
    2 < (3 : Byte).toNat ∧ State.reset.mgmt.service = .standby ∧ listsEmpty served = true
      ∧ (served.mgmt.service ≠ .standby ∧ served.mgmt.service = .inService)
      ∧ (occupied.mgmt.service ≠ .standby ∧ listsEmpty occupied = false) := by decide +kernel

theorem witness_ServiceStateFollowsTheTable_ready : ReadyFor .intake State.reset ∧ ReadyFor .intake occupied := by
  unfold ReadyFor; decide +kernel

theorem witness_LaneResetWithdrawsTheRecords :
    ReadyFor .intake occupied ∧ readyItem ∈ (occupied.lane 3).list
      ∧ { readyItem with state := .emitting } ∈ ((emitting .itemHead .itemHead).lane 3).list := by
  unfold ReadyFor; decide +kernel

/-- The two kinds of withdrawn item: in REWORK, and not. -/
theorem witness_LaneResetWithdrawsTheRecords_rework :
    let i := itemWith .rework (some { doneSide with state := .reworkWait })
    i.state = .rework ∧ i.dispatch.disposition ≠ .withdrawn ∧ readyItem.state ≠ .rework
      ∧ readyItem.state ≠ .emitting ∧ readyItem.dispatch.disposition ≠ .withdrawn := by decide

theorem witness_LaneResetWithdrawsTheRecords_whole :
    let s := emitting .itemHead .itemHead
    (∀ r ∈ s.reduction.openWait ++ s.reduction.reworkWait, r.lane = 3)
      ∧ (∀ r ∈ (waitingState newSide [front310] [] (busy served).reduction.units).reduction.openWait, r.lane = 3)
      ∧ (∀ i ∈ (s.lane 3).list, ∀ x ∈ i.sides, x.state = .done)
      ∧ (s.lane 3).xon + 16 ≤ (s.lane 3).xoff ∧ (s.lane 3).list.length ≤ 8 ∧ 15 < (16 : Byte).toNat := by decide +kernel

theorem witness_CompositesStopAtARefusedStep :
    (8 : Byte).toNat = (8 : Fin 64).val ∧ ProfileInRange served.admission.profiles[(8 : Fin 64).val]
      ∧ 63 < (64 : Byte).toNat ∧ (63 : Byte).toNat ≤ 63 ∧ (5 : BitVec 16).toNat = (5 : Fin 1024).val
      ∧ (7 : Byte).toNat = (7 : Fin 8).val ∧ 1023 < (1024 : BitVec 16).toNat ∧ 7 < (8 : Byte).toNat
      ∧ (63 < (254 : Byte).toNat ∧ (254 : Byte) ≠ 255) ∧ 15 < (16 : Byte).toNat := by
  unfold ProfileInRange; decide +kernel

/-- Item 310 open on lane 3 with a page held by its FRONT, HALT waiting. -/
def lawful : State := ((sideState newSide).withFree 2047).withPending [.halt]

theorem witness_EveryStepConservesPages : PagesConserved lawful ∧ (step lawful matches .next _) = true := by
  unfold PagesConserved; decide +kernel

theorem witness_EveryStepLeavesNoGrantToMake : ArbiterSettled lawful ∧ ArbiterSettled (busy lawful) := by
  unfold ArbiterSettled; decide +kernel

theorem witness_EveryStepLeavesNothingToStart : StartsMade lawful :=
  .inl (exchangeSettled_of_quiet _ rfl rfl (by decide +kernel))

/-- A state with commands waiting behind the event. -/
def together (cs : List Instr) (s : State) : State := { s with pending := cs }

/-- Item 310, closed, whose only side reaches its end on RU1. -/
def lastSide : State :=
  (served.setLane 3 { Lane.reset with
    list := [itemWith .reducing (some { storedInput with state := .bound, boundUnit := some 1, inputClosed := true })]
    xoff := 256, xon := 128 }).setUnit 1 (some (unitWith .finishing storedInput))

/-- A side end that comes together with a reset of its lane: the item is withdrawn (R128, R139). One that does not: the item has
started and is left to complete (R143, R153). -/
theorem test_side_end_with_lane_reset :
    let s := after (.sideEnd 1) (together [.resetLane .intake 1 3] lastSide)
    let t := after (.resetLane .intake 1 3) (together [] s)
    s.egress.emission = none ∧ (s.lane 3).list.map Item.state = [.ready]
      ∧ (t.egress.inProgress.map Frame.type) = some .itemNotice
      ∧ (t.lane 3).list.map (fun i => i.dispatch.disposition) = [.withdrawn]
      ∧ ((after (.sideEnd 1) lastSide).egress.inProgress.map Frame.type) ≠ none := by decide +kernel

/-- A frame's end that comes together with an engine reset: no frame to abort (R155). -/
theorem test_frame_end_with_engine_reset :
    let s := after .exchangeFrameSent (together [.resetEngine .intake 1] (emitting .itemHead .itemHead))
    let t := after (.resetEngine .intake 1) (together [] s)
    s.egress.inProgress = none ∧ s.egress.port.framesOut = 1 ∧ t.egress.port.aborted = 0
      ∧ (after (.resetEngine .intake 1) (emitting .itemHead .itemHead)).egress.port.aborted = 1 := by decide +kernel

/-- A reset of lane 3 waits next, behind each event that can make its head READY. -/
theorem witness_StartsNoneOf :
    laneResetNext 3 (together [.resetLane .intake 1 3] lastSide) = true
      ∧ ((together [.resetLane .intake 1 3] lastSide).unit 1).isSome = true
      ∧ laneResetNext 3 (together [.mgmtRequest .intake [0x32, 0, 1, 3]] (stallState 0)) = true
      ∧ laneResetNext 3 (together [.resetLane .intake 1 3] openState) = true
      ∧ laneResetNext 3 (together [.resetLane .intake 1 3] (emitting .itemEnd .itemEnd)) = true
      ∧ engineResetNext (together [.resetEngine .intake 1] (emitting .itemEnd .itemEnd)) = true
      ∧ laneResetNext 3 lastSide = false ∧ laneResetNext 3 (together [.resetLane .exchange 1 3] lastSide) = false := by
  decide +kernel

/-- A head that is not started because a reset of its lane waits next, and one that is, because the reset is of another lane. -/
theorem witness_ExchangePortStartsInItsOrder_reset :
    let s := served.setLane 3 { Lane.reset with list := [readyItem] }
    laneResetNext 3 (together [.resetLane .intake 1 3] s) = true ∧ 3 = s.egress.roundRobin + 3
      ∧ headReady s 3 = true ∧ (∀ k', k' < (3 : Fin 16) → headReady s (s.egress.roundRobin + k') = false)
      ∧ (startBeside 3 (together [.resetLane .intake 1 3] s)).egress.emission = none
      ∧ (startBeside 3 (together [.resetLane .intake 1 4] s)).egress.emission.isSome = true := by decide +kernel

theorem witness_EveryStepKeepsTheQueues : RequestsSettled lawful ∧ QueuesBounded lawful := by
  refine ⟨requestsSettled_of_none _ rfl, ?_⟩
  unfold QueuesBounded; decide +kernel

theorem witness_EveryStepKeepsTheRecordsLawful : ListsLawful lawful ∧ ∀ l, LaneLawful (lawful.lane l) := by
  unfold ListsLawful LaneLawful; decide +kernel

theorem front_or_back_of_itemWith (x y : Side) (st : ItemState)
    (h : (itemWith st (some x)).front = some y ∨ (itemWith st (some x)).back = some y) : y = x := by
  rcases h with h | h
  · exact (Option.some.inj h).symm
  · cases h

theorem lawful_list (l : Fin 16) (i : Item) (h : i ∈ (lawful.lane l).list) : i = itemWith .receiving (some newSide) := by
  have key : ∀ l : Fin 16, (lawful.lane l).list = [] ∨ (lawful.lane l).list = [itemWith .receiving (some newSide)] := by
    decide +kernel
  rcases key l with e | e
  · rw [e] at h; cases h
  · rw [e] at h; exact List.mem_singleton.mp h

theorem witness_EveryStepKeepsTheRecordsLawful_sets : SetsLawful lawful ∧ ReworksBounded lawful := by
  constructor
  · intro l i hi n
    rw [lawful_list l i hi]
    refine ⟨?_, fun _ x hx => ?_⟩
    · revert n; decide +kernel
    · rw [front_or_back_of_itemWith _ _ _ hx]; revert n; decide +kernel
  · intro l i hi x hx
    rw [lawful_list l i hi] at hx
    rw [front_or_back_of_itemWith _ _ _ hx]
    decide

theorem worked_inRange : ProfileInRange worked := by
  unfold ProfileInRange; decide

theorem reset_inRange : ProfileInRange Profile.reset := by
  unfold ProfileInRange; decide

theorem lawful_profiles (k : Fin 64) :
    lawful.admission.profiles[k.val] = if (8 : Nat) = k.val then worked else Profile.reset := by
  show ((Vector.replicate 64 Profile.reset).set 8 worked)[k.val] = _
  rw [Vector.getElem_set]
  split
  · rfl
  · exact Vector.getElem_replicate _

theorem witness_EveryStepKeepsTheSettingsInRange : SettingsInRange lawful := by
  refine ⟨by decide +kernel, by decide +kernel, by decide +kernel, by decide +kernel, fun k => ?_⟩
  rw [lawful_profiles]
  split
  · exact worked_inRange
  · exact reset_inRange

theorem witness_EveryStepKeepsTheSettingsInRange_stop : StopSettled lawful := by
  unfold StopSettled; decide +kernel

end Sys2Proof.Tests
end

section
/-! SUPPORT. The scaled grey (spec/01_scaling.md, R10) and statement O10. -/

namespace Sys2Proof.Machine

/-- The scaled grey is the mean `sum / din²` rounded to the nearest whole number, a half upwards (R10). -/
theorem greyOf_eq_iff {din : Nat} (hdin : 0 < din) (sum g : Nat) :
    greyOf din sum = g ↔
      2 * (g * (din * din)) ≤ 2 * sum + din * din ∧ 2 * sum < 2 * (g * (din * din)) + din * din := by
  have hpos : 0 < 2 * (din * din) := by positivity
  have hmul : g * (2 * (din * din)) = 2 * (g * (din * din)) := Nat.mul_left_comm ..
  rw [greyOf, Nat.div_eq_iff hpos, hmul]
  omega

/-- A mean that is a whole number is its own scaled grey. -/
theorem greyOf_mul_sq {din : Nat} (hdin : 0 < din) (g : Nat) : greyOf din (g * (din * din)) = g := by
  have hpos : 0 < din * din := Nat.mul_pos hdin hdin
  rw [greyOf_eq_iff hdin]
  omega

theorem greyOf_mono (din : Nat) {a b : Nat} (h : a ≤ b) : greyOf din a ≤ greyOf din b :=
  Nat.div_le_div_right (by omega)

theorem greyOf_le_of_sum_le {din sum g : Nat} (hdin : 0 < din) (h : sum ≤ g * (din * din)) : greyOf din sum ≤ g :=
  (greyOf_mono din h).trans_eq (greyOf_mul_sq hdin g)

theorem greyOf_halfway {din sum m : Nat} (hdin : 0 < din) (h : (2 * m + 1) * (din * din) = 2 * sum) :
    greyOf din sum = m + 1 := by
  have hpos : 0 < din * din := Nat.mul_pos hdin hdin
  have hsum : 2 * sum = 2 * (m * (din * din)) + din * din := by rw [← h]; ring
  have hnext : (m + 1) * (din * din) = m * (din * din) + din * din := Nat.succ_mul ..
  rw [greyOf_eq_iff hdin, hnext]
  omega

/-- At 1/1 the scaled grey is the pixel itself. -/
theorem greyOf_one (v : Nat) : greyOf 1 v = v := by
  simpa using greyOf_mul_sq Nat.one_pos v

/-- Settles O10: the ends and 1/1 are whole means, the range follows from the upper end by monotonicity, and S = 2 over
D = 4 is the half-way mean above 0. -/
theorem scaledGreyIsTheRoundedMean : Obligations.ScaledGreyIsTheRoundedMean := by
  refine ⟨fun din sum _ => ?formula, fun din sum hdin => ?range, fun din hdin => ⟨?black, ?white⟩,
    fun din sum m hdin => ?halfway, greyOf_one, ?twoOverFour, fun x b => ?row⟩
  case formula => rfl
  case range => exact greyOf_le_of_sum_le hdin
  case black => simpa using greyOf_mul_sq hdin 0
  case white => exact greyOf_mul_sq hdin 255
  case halfway => exact greyOf_halfway hdin
  case twoOverFour => exact greyOf_halfway (m := 0) (by decide) (by decide)
  case row => rfl

end Sys2Proof.Machine
end

section
/-! SUPPORT. The bitonal converter (spec/02_bitonal_conversion.md): a pixel's threshold, colour and background, and
statements O12 and O13. -/

namespace Sys2Proof.Machine

/-! The relative threshold (R23). -/

/-- Every comparison with the threshold is one with the product `bg * tq`, formed in full before the division. -/
theorem lt_threshold_iff (v tq bg : Nat) : v < threshold tq bg ↔ 64 * (v + 1) ≤ bg * tq := by
  rw [threshold, ← Nat.succ_le_iff, Nat.le_div_iff_mul_le (by decide), Nat.mul_comm]

theorem threshold_zero_right (tq : Nat) : threshold tq 0 = 0 := by simp [threshold]

/-- The range of the threshold follows from its value at the largest fraction and the largest background. -/
theorem threshold_le {tq bg : Nat} (htq : tq ≤ 63) (hbg : bg ≤ 4080) : threshold tq bg ≤ 4016 :=
  calc bg * tq / 64 ≤ 4080 * 63 / 64 := Nat.div_le_div_right (Nat.mul_le_mul hbg htq)
    _ = 4016 := by decide

theorem threshold_lt {tq bg : Nat} (htq : tq ≤ 63) (hbg : 0 < bg) : threshold tq bg < bg :=
  Nat.div_lt_of_lt_mul <| by
    have : bg * tq ≤ bg * 63 := Nat.mul_le_mul_left bg htq
    omega

/-- A grey whose V is below the threshold leaves at least the part of the background that the fraction leaves out. -/
theorem mul_sub_le_of_lt_threshold {v tq bg : Nat} (h : v < threshold tq bg) : bg * (64 - tq) ≤ 64 * (bg - v) := by
  rw [lt_threshold_iff] at h
  rw [Nat.mul_sub, Nat.mul_sub]
  omega

/-! The colour of a pixel (R22). -/

/-- The two limits settle a pixel without its background; between them the relative test does. -/
theorem isBlack_iff (p : ConvertParams) (bg g : Nat) :
    isBlack p bg g = true ↔ g ≤ p.darkLimit ∨ (g < p.lightLimit ∧ 16 * g < threshold p.tq bg) := by
  unfold isBlack
  split
  case isTrue hdark => simp [hdark]
  case isFalse hdark =>
    split
    case isTrue hlight => simp [hdark, hlight]
    case isFalse hlight => simp [hdark, Nat.lt_of_not_le hlight]

theorem lt_threshold_of_isBlack {p : ConvertParams} {bg g : Nat} (hdark : p.darkLimit < g)
    (hblack : isBlack p bg g = true) : 16 * g < threshold p.tq bg :=
  ((isBlack_iff p bg g).mp hblack).elim (fun hle => absurd hle hdark.not_ge) And.right

theorem isBlack_eq_false_of_threshold_le {p : ConvertParams} {bg g : Nat} (hdark : p.darkLimit < g)
    (hv : threshold p.tq bg ≤ 16 * g) : isBlack p bg g = false :=
  Bool.eq_false_iff.mpr fun hblack => (lt_threshold_of_isBlack hdark hblack).not_ge hv

/-- Strictly between the limits the relative test alone decides. -/
theorem isBlack_eq_false_iff_between {p : ConvertParams} {bg g : Nat} (hdark : p.darkLimit < g)
    (hlight : g < p.lightLimit) : isBlack p bg g = false ↔ threshold p.tq bg ≤ 16 * g := by
  rw [Bool.eq_false_iff, ne_eq, isBlack_iff]
  omega

/-- Settles O12: the consequences for a pixel come from the relative test, which is all that is left to make a pixel above
the dark limit black. -/
theorem thresholdIsAFractionOfTheBackground : Obligations.ThresholdIsAFractionOfTheBackground := by
  refine fun q bg g => ⟨rfl, threshold_le, threshold_lt, threshold_zero_right q.tq, fun htq hdark hv => ?equal,
    fun hdark => ?overZero, fun _ hdark hblack => ?black, fun htq hbg hdark hlight => ?worked⟩
  case equal =>
    have hpos : 0 < bg := by omega
    exact isBlack_eq_false_of_threshold_le hdark (hv ▸ (threshold_lt htq hpos).le)
  case overZero =>
    exact isBlack_eq_false_of_threshold_le hdark ((threshold_zero_right q.tq).trans_le (Nat.zero_le _))
  case black => exact mul_sub_le_of_lt_threshold (lt_threshold_of_isBlack hdark hblack)
  case worked =>
    have hthreshold : threshold q.tq bg = 2400 := by rw [htq, hbg]; rfl
    rw [isBlack_eq_false_iff_between hdark hlight, hthreshold]
    omega

/-! The column background after a pixel (R24, R25, R26). -/

theorem nextBackground_of_black {p : ConvertParams} {bg g : Nat} (h : isBlack p bg g = true) :
    nextBackground p bg g = bg := if_pos h

theorem nextBackground_of_white {p : ConvertParams} {bg g : Nat} (h : isBlack p bg g = false) :
    nextBackground p bg g = moveBackground p bg (16 * g) := if_neg (Bool.eq_false_iff.mp h)

theorem foldl_nextBackground_of_black (p : ConvertParams) (bg : Nat) (gs : List Nat)
    (h : ∀ g ∈ gs, isBlack p bg g = true) : gs.foldl (nextBackground p) bg = bg := by
  induction gs with
  | nil => rfl
  | cons g gs ih =>
    obtain ⟨hg, hgs⟩ := List.forall_mem_cons.mp h
    rw [List.foldl_cons, nextBackground_of_black hg, ih hgs]

theorem moveBackground_attack {p : ConvertParams} {bg v : Nat} (h : bg ≤ v) :
    moveBackground p bg v = bg + (v - bg) / 2 ^ p.attackShift := if_pos h

theorem moveBackground_decay {p : ConvertParams} {bg v : Nat} (h : v < bg) :
    moveBackground p bg v = bg - (bg - v) / 2 ^ p.decayShift := if_neg h.not_ge

/-- No step is larger than the distance to V, so the new value lies between the old one and V. -/
theorem moveBackground_between (p : ConvertParams) (bg v : Nat) :
    min bg v ≤ moveBackground p bg v ∧ moveBackground p bg v ≤ max bg v := by
  rcases Nat.lt_or_ge v bg with hdecay | hattack
  · have hstep := Nat.div_le_self (bg - v) (2 ^ p.decayShift)
    rw [moveBackground_decay hdecay]
    generalize (bg - v) / 2 ^ p.decayShift = step at hstep ⊢
    omega
  · have hstep := Nat.div_le_self (v - bg) (2 ^ p.attackShift)
    rw [moveBackground_attack hattack]
    generalize (v - bg) / 2 ^ p.attackShift = step at hstep ⊢
    omega

/-- With a shift of at least 1 a step is less than the whole distance, so long as there is one to go. -/
theorem div_two_pow_lt_self {d k : Nat} (hd : 0 < d) (hk : 1 ≤ k) : d / 2 ^ k < d :=
  Nat.div_lt_self hd (Nat.one_lt_two_pow (Nat.one_le_iff_ne_zero.mp hk))

theorem moveBackground_eq_iff {p : ConvertParams} (hat : 1 ≤ p.attackShift) (hde : 1 ≤ p.decayShift) (bg v : Nat) :
    moveBackground p bg v = v ↔ bg = v := by
  rcases Nat.lt_trichotomy bg v with hattack | rfl | hdecay
  · have hstep := div_two_pow_lt_self (Nat.sub_pos_of_lt hattack) hat
    rw [moveBackground_attack hattack.le]
    omega
  · simp [moveBackground_attack]
  · have hstep := div_two_pow_lt_self (Nat.sub_pos_of_lt hdecay) hde
    rw [moveBackground_decay hdecay]
    omega

theorem nextBackground_le (p : ConvertParams) {bg g : Nat} (hbg : bg ≤ 4080) (hg : g ≤ 255) :
    nextBackground p bg g ≤ 4080 := by
  cases hcolour : isBlack p bg g with
  | true => exact (nextBackground_of_black hcolour).trans_le hbg
  | false =>
    rw [nextBackground_of_white hcolour]
    exact (moveBackground_between p bg (16 * g)).2.trans (max_le hbg (by omega))

theorem initialArray_le {n ib : Nat} (hib : ib ≤ 255) {bg : Nat} (h : bg ∈ initialArray n ib) : bg ≤ 4080 := by
  rw [List.eq_of_mem_replicate h]
  omega

/-- Settles O13: a column of black pixels by induction along it, the range from the step of a white pixel, which stays
between the old value and V. -/
theorem backgroundMovesOnlyByWhitePixelsAndStaysInRange :
    Obligations.BackgroundMovesOnlyByWhitePixelsAndStaysInRange := by
  refine ⟨⟨fun _ _ _ => nextBackground_of_black, foldl_nextBackground_of_black⟩,
    fun _ _ hib _ => initialArray_le hib,
    fun q bg g hat hde hbg hg => ⟨nextBackground_le q hbg hg, nextBackground_of_black, fun hwhite => ?white⟩⟩
  case white =>
    obtain ⟨hmin, hmax⟩ := moveBackground_between q bg (16 * g)
    rw [nextBackground_of_white hwhite]
    exact ⟨hmin, hmax, moveBackground_eq_iff hat hde bg (16 * g)⟩

end Sys2Proof.Machine
end

section
/-! SUPPORT. The coded row (spec/03_row_coding_and_side_measures.md, R34 to R36): its header, its runs and their bytes,
and statements O14 and O15. -/

namespace Sys2Proof.Machine

/-! The header of a coded row (R34). -/

theorem all_white_iff (row : List Bool) : (row.all fun p => !p) = true ↔ ∀ p ∈ row, p = false := by
  simp [List.all_eq_true]

theorem not_all_white_iff (row : List Bool) : ¬ (row.all fun p => !p) = true ↔ true ∈ row := by
  simp [List.all_eq_true]

theorem codeRow_of_white (prev : Option (List Bool)) {row : List Bool} (h : ∀ p ∈ row, p = false) :
    codeRow prev row = [headerWhite] :=
  if_pos ((all_white_iff row).mpr h)

theorem codeRow_of_repeat {prev : Option (List Bool)} {row : List Bool} (hblack : true ∈ row) (heq : prev = some row) :
    codeRow prev row = [headerRepeat] :=
  (if_neg ((not_all_white_iff row).mpr hblack)).trans (if_pos heq)

theorem codeRow_of_runs {prev : Option (List Bool)} {row : List Bool} (hblack : true ∈ row) (hne : prev ≠ some row) :
    codeRow prev row = headerRuns :: (runs row).flatMap codeRun :=
  (if_neg ((not_all_white_iff row).mpr hblack)).trans (if_neg hne)

/-- The three cases of R34 leave no row out. -/
theorem codeRow_cases (prev : Option (List Bool)) (row : List Bool) :
    (∀ p ∈ row, p = false) ∧ codeRow prev row = [headerWhite]
      ∨ (true ∈ row ∧ prev = some row) ∧ codeRow prev row = [headerRepeat]
      ∨ (true ∈ row ∧ prev ≠ some row) ∧ codeRow prev row = headerRuns :: (runs row).flatMap codeRun := by
  by_cases hblack : true ∈ row
  · by_cases heq : prev = some row
    · exact .inr (.inl ⟨⟨hblack, heq⟩, codeRow_of_repeat hblack heq⟩)
    · exact .inr (.inr ⟨⟨hblack, heq⟩, codeRow_of_runs hblack heq⟩)
  · have hwhite : ∀ p ∈ row, p = false := fun p hp => Bool.eq_false_iff.mpr fun h => hblack (h ▸ hp)
    exact .inl ⟨hwhite, codeRow_of_white prev hwhite⟩

/-- REPEAT stands for a row with a black pixel that equals the previous row, and for no other: the headers differ. -/
theorem codeRow_eq_repeat_iff (prev : Option (List Bool)) (row : List Bool) :
    codeRow prev row = [headerRepeat] ↔ true ∈ row ∧ prev = some row := by
  refine ⟨fun h => ?_, fun ⟨hblack, heq⟩ => codeRow_of_repeat hblack heq⟩
  rcases codeRow_cases prev row with ⟨-, hcode⟩ | ⟨hrow, -⟩ | ⟨-, hcode⟩
  · exact absurd (List.head_eq_of_cons_eq (hcode.symm.trans h)) (by decide)
  · exact hrow
  · exact absurd (List.head_eq_of_cons_eq (hcode.symm.trans h)) (by decide)

@[simp] theorem rowStages_previousRow (x : Side) (b : Binding) :
    (rowStages x b).previousRow = some (rowColours x b) := rfl

/-- Settles O14: one equation of the coder per case of R34, and the header tells the cases apart. -/
theorem headerIsTheFirstCaseThatApplies : Obligations.HeaderIsTheFirstCaseThatApplies := by
  refine ⟨fun prev row => ⟨codeRow_of_white prev, codeRow_of_repeat, codeRow_of_runs, fun hfirst => ?first,
    (codeRow_eq_repeat_iff prev row).mp⟩, rowStages_previousRow⟩
  case first =>
    obtain ⟨-, hnone⟩ := (codeRow_eq_repeat_iff none row).mp hfirst
    cases hnone

/-! The bytes of a run and their reader (R36). -/

theorem byteOf_toNat {n : Nat} (h : n < 256) : (byteOf n).toNat = n := by
  rw [byteOf, BitVec.toNat_ofNat, Nat.mod_eq_of_lt h]

theorem codeRun_short {n : Nat} (h : n < 128) : codeRun n = [byteOf n] := if_pos h

theorem codeRun_long {n : Nat} (h : 128 ≤ n) : codeRun n = [byteOf (128 + n / 256), byteOf (n % 256)] :=
  if_neg h.not_gt

/-- The first byte of the two-byte form does not overflow: a run is at most 16383. -/
theorem firstByte_toNat {n : Nat} (h : n ≤ 16383) : (byteOf (128 + n / 256)).toNat = 128 + n / 256 :=
  byteOf_toNat (by omega)

theorem readRun_short {b : Byte} (h : b.toNat < 128) (rest : List Byte) : readRun (b :: rest) = some (b.toNat, rest) :=
  if_pos h

theorem readRun_long {b : Byte} (h : 128 ≤ b.toNat) (c : Byte) (more : List Byte) :
    readRun (b :: c :: more) = some ((b.toNat - 128) * 256 + c.toNat, more) :=
  if_neg h.not_gt

theorem readRun_codeRun {n : Nat} (h : n ≤ 16383) (more : List Byte) : readRun (codeRun n ++ more) = some (n, more) := by
  rcases Nat.lt_or_ge n 128 with hshort | hlong
  · have hbyte : (byteOf n).toNat = n := byteOf_toNat (by omega)
    rw [codeRun_short hshort, List.singleton_append, readRun_short (hbyte.trans_lt hshort), hbyte]
  · have hfirst := firstByte_toNat h
    have hsecond : (byteOf (n % 256)).toNat = n % 256 := byteOf_toNat (by omega)
    have hvalue : (128 + n / 256 - 128) * 256 + n % 256 = n := by omega
    rw [codeRun_long hlong, List.cons_append, List.singleton_append, readRun_long (by omega), hfirst, hsecond, hvalue]

/-- The first byte alone tells the two forms apart. -/
theorem codeRun_first_byte {n : Nat} (h : n ≤ 16383) :
    ∃ b rest, codeRun n = b :: rest ∧ (b.toNat < 128 ↔ rest = []) := by
  rcases Nat.lt_or_ge n 128 with hshort | hlong
  · have hbyte : (byteOf n).toNat = n := byteOf_toNat (by omega)
    exact ⟨_, _, codeRun_short hshort, iff_of_true (hbyte.trans_lt hshort) rfl⟩
  · have hfirst := firstByte_toNat h
    exact ⟨_, _, codeRun_long hlong, iff_of_false (by omega) (List.cons_ne_nil _ _)⟩

/-- A run takes no more bytes than it has pixels, save a run of 0, which takes one. -/
theorem codeRun_length_le (n : Nat) : (codeRun n).length ≤ max 1 n := by
  rcases Nat.lt_or_ge n 128 with hshort | hlong
  · rw [codeRun_short hshort]
    exact le_max_left 1 n
  · rw [codeRun_long hlong]
    have htwo : 2 ≤ n := by omega
    exact le_max_of_le_right htwo

/-! The runs of a row (R35). -/

theorem runsFrom_cons_same (cur : Bool) (n : Nat) (ps : List Bool) :
    runsFrom cur n (cur :: ps) = runsFrom cur (n + 1) ps := if_pos rfl

theorem runsFrom_cons_change {cur p : Bool} (h : p ≠ cur) (n : Nat) (ps : List Bool) :
    runsFrom cur n (p :: ps) = n :: runsFrom p 1 ps := if_neg h

/-- Every pixel is counted in one run. -/
theorem sum_runsFrom (cur : Bool) (n : Nat) (row : List Bool) : (runsFrom cur n row).sum = n + row.length := by
  induction row generalizing cur n with
  | nil => rfl
  | cons p ps ih =>
    by_cases hp : p = cur
    · subst hp
      rw [runsFrom_cons_same, ih, List.length_cons]
      omega
    · rw [runsFrom_cons_change hp, List.sum_cons, ih, List.length_cons]
      omega

theorem sum_runs (row : List Bool) : (runs row).sum = row.length :=
  (sum_runsFrom false 0 row).trans (Nat.zero_add _)

theorem le_length_of_mem_runs {row : List Bool} {n : Nat} (h : n ∈ runs row) : n ≤ row.length :=
  (List.le_sum_of_mem h).trans_eq (sum_runs row)

/-- In a row whose pixels alternate every pixel is a run of its own, and the pixels before it are another. -/
theorem runsFrom_of_alternating {cur : Bool} {row : List Bool} (n : Nat) (h : List.IsChain (· ≠ ·) (cur :: row)) :
    runsFrom cur n row = n :: List.replicate row.length 1 := by
  induction row generalizing cur n with
  | nil => rfl
  | cons p ps ih =>
    obtain ⟨hchange, hrest⟩ := List.isChain_cons_cons.mp h
    rw [runsFrom_cons_change hchange.symm, ih 1 hrest, List.length_cons, List.replicate_succ]

/-! The length of a coded row (R36). -/

/-- The bytes that a list of runs takes. -/
def runBytes (ns : List Nat) : Nat := (ns.map fun n => (codeRun n).length).sum

theorem length_flatMap_codeRun (ns : List Nat) : (ns.flatMap codeRun).length = runBytes ns := List.length_flatMap

theorem runBytes_cons (n : Nat) (ns : List Nat) : runBytes (n :: ns) = (codeRun n).length + runBytes ns :=
  List.sum_cons

theorem runBytes_replicate_one (k : Nat) : runBytes (List.replicate k 1) = k := by
  simp [runBytes, codeRun_short]

theorem runBytes_runsFrom_le (cur : Bool) (n : Nat) (row : List Bool) :
    runBytes (runsFrom cur n row) ≤ max 1 n + row.length := by
  induction row generalizing cur n with
  | nil => exact codeRun_length_le n
  | cons p ps ih =>
    by_cases hp : p = cur
    · subst hp
      have hrest := ih p (n + 1)
      rw [runsFrom_cons_same, List.length_cons]
      omega
    · have hrun := codeRun_length_le n
      have hrest := ih p 1
      rw [runsFrom_cons_change hp, runBytes_cons, List.length_cons]
      omega

theorem runBytes_runs_le (row : List Bool) : runBytes (runs row) ≤ 1 + row.length := runBytes_runsFrom_le false 0 row

theorem length_codeRow_of_white_or_repeat {prev : Option (List Bool)} {row : List Bool}
    (h : (∀ p ∈ row, p = false) ∨ prev = some row) : (codeRow prev row).length = 1 := by
  rcases codeRow_cases prev row with ⟨-, hcode⟩ | ⟨-, hcode⟩ | ⟨⟨hblack, hne⟩, -⟩
  · rw [hcode, List.length_singleton]
  · rw [hcode, List.length_singleton]
  · rcases h with hwhite | heq
    · exact absurd (hwhite true hblack) (by decide)
    · exact absurd heq hne

theorem length_codeRow_of_runs {prev : Option (List Bool)} {row : List Bool} (hblack : true ∈ row)
    (hne : prev ≠ some row) : (codeRow prev row).length = 1 + runBytes (runs row) := by
  rw [codeRow_of_runs hblack hne, List.length_cons, length_flatMap_codeRun, Nat.add_comm]

/-- A coded row has a header, a byte for a first run of 0, and otherwise no more bytes than pixels. -/
theorem length_codeRow_le (prev : Option (List Bool)) (row : List Bool) :
    (codeRow prev row).length ≤ row.length + 2 := by
  rcases codeRow_cases prev row with ⟨-, hcode⟩ | ⟨-, hcode⟩ | ⟨⟨hblack, hne⟩, -⟩
  · simp [hcode]
  · simp [hcode]
  · have hruns := runBytes_runs_le row
    rw [length_codeRow_of_runs hblack hne]
    omega

/-- An alternating row that starts black, not the same as the row before it, takes the most bytes a row can. -/
theorem length_codeRow_of_alternating {prev : Option (List Bool)} {row : List Bool} (hblack : true ∈ row)
    (hne : prev ≠ some row) (h : List.IsChain (· ≠ ·) (false :: row)) : (codeRow prev row).length = row.length + 2 := by
  have hzero : (codeRun 0).length = 1 := rfl
  rw [length_codeRow_of_runs hblack hne, runs, runsFrom_of_alternating 0 h, runBytes_cons, hzero,
    runBytes_replicate_one]
  omega

/-- The row of `w` pixels whose even columns are black. -/
def alternatingRow (w : Nat) : List Bool := (List.range w).map fun c => decide (c % 2 = 0)

theorem length_alternatingRow (w : Nat) : (alternatingRow w).length = w := by simp [alternatingRow]

theorem true_mem_alternatingRow {w : Nat} (h : 0 < w) : true ∈ alternatingRow w :=
  List.mem_map.mpr ⟨0, List.mem_range.mpr h, rfl⟩

theorem alternatingRow_isChain (w : Nat) : List.IsChain (· ≠ ·) (false :: alternatingRow w) := by
  refine List.isChain_cons.mpr
    ⟨fun p hp => ?start, (List.isChain_map _).mpr ((List.isChain_range _ _).mpr fun c _ => ?step)⟩
  case start =>
    obtain ⟨-, rfl⟩ : w ≠ 0 ∧ true = p := by simpa [alternatingRow, List.head?_range] using hp
    exact Bool.false_ne_true
  case step =>
    rw [Ne, decide_eq_decide]
    omega

/-- Settles O15: the two forms of a run by its size, the bounds by induction along the row, the longest row as the
alternating one. -/
theorem runsTakeOneOrTwoBytes : Obligations.RunsTakeOneOrTwoBytes := by
  refine ⟨fun n hn => codeRun_short (Nat.lt_succ_of_le hn), fun n hn _ => codeRun_long hn, fun n => readRun_codeRun,
    fun n => codeRun_first_byte, rfl, rfl, rfl, fun prev row => length_codeRow_of_white_or_repeat,
    fun prev row => length_codeRow_of_runs, fun row hrow n hn => (le_length_of_mem_runs hn).trans hrow,
    fun prev row hrow => (length_codeRow_le prev row).trans (Nat.add_le_add_right hrow 2), ?longest⟩
  case longest =>
    have hlength := length_codeRow_of_alternating (prev := none) (true_mem_alternatingRow (w := 2560) (by decide))
      (Option.some_ne_none _).symm (alternatingRow_isChain 2560)
    rwa [length_alternatingRow] at hlength

end Sys2Proof.Machine
end

