-- ==== Sys2Proof/Proofs/Records.lean ====
section
/-! Reading a record after a write of it: the first record of a sequence in a list, an item of a lane, a side of an item. -/

namespace Sys2Proof.Machine

/-! ### The first entry of a list that meets a test -/

theorem modifyFirst_of_find?_none {α : Type} {p : α → Bool} {xs : List α} (f : α → α) (h : xs.find? p = none) :
    modifyFirst p f xs = xs := by
  induction xs with
  | nil => rfl
  | cons x xs ih =>
    by_cases hx : p x = true
    · simp [hx] at h
    · have htail : xs.find? p = none := by simpa [hx] using h
      simp [modifyFirst, hx, ih htail]

/-- The entry found stands between entries that do not meet the test and the rest, which a write and a removal of it keep. -/
theorem find?_split {α : Type} {p : α → Bool} {xs : List α} {x : α} (h : xs.find? p = some x) :
    ∃ as bs, xs = as ++ x :: bs ∧ (∀ a ∈ as, p a = false) ∧ p x = true
      ∧ (∀ f, modifyFirst p f xs = as ++ f x :: bs) ∧ dropFirst p xs = as ++ bs := by
  induction xs with
  | nil => simp at h
  | cons y ys ih =>
    by_cases hy : p y = true
    · obtain rfl : y = x := by simpa [hy] using h
      exact ⟨[], ys, rfl, by simp, hy, fun f => by simp [modifyFirst, hy], by simp [dropFirst, hy]⟩
    · obtain ⟨as, bs, rfl, has, hx, hmod, hdrop⟩ := ih (by simpa [hy] using h)
      refine ⟨y :: as, bs, rfl, ?_, hx, fun f => ?_, ?_⟩
      · simpa [hy] using has
      · simp [modifyFirst, hy, hmod]
      · simp [dropFirst, hy, hdrop]

theorem find?_modifyFirst_self {α : Type} {p : α → Bool} {xs : List α} {x : α} {f : α → α} (h : xs.find? p = some x)
    (hf : p (f x) = true) : (modifyFirst p f xs).find? p = some (f x) := by
  obtain ⟨as, bs, -, has, -, hmod, -⟩ := find?_split h
  rw [hmod, List.find?_append, List.find?_eq_none.mpr fun a ha => by simp [has a ha]]
  simp [hf]

theorem find?_modifyFirst_of_disjoint {α : Type} {p q : α → Bool} (xs : List α) {f : α → α}
    (hp : ∀ x, p x = true → q x = false) (hf : ∀ x, p x = true → q (f x) = false) :
    (modifyFirst p f xs).find? q = xs.find? q := by
  cases hx : xs.find? p with
  | none => rw [modifyFirst_of_find?_none f hx]
  | some x =>
    obtain ⟨as, bs, rfl, -, hpx, hmod, -⟩ := find?_split hx
    simp [hmod, List.find?_append, hp x hpx, hf x hpx]

/-- A write that changes nothing of the entry it finds changes nothing of the list. -/
theorem modifyFirst_of_fixed {α : Type} {p : α → Bool} {xs : List α} {f : α → α}
    (h : ∀ x, xs.find? p = some x → f x = x) : modifyFirst p f xs = xs := by
  cases hx : xs.find? p with
  | none => exact modifyFirst_of_find?_none f hx
  | some x =>
    obtain ⟨as, bs, hxs, -, -, hmod, -⟩ := find?_split hx
    rw [hmod, h x hx, hxs]

/-- Two writes that make the same of the entry found make the same of the list. -/
theorem modifyFirst_congr {α : Type} {p : α → Bool} {xs : List α} {f g : α → α}
    (h : ∀ x, xs.find? p = some x → f x = g x) : modifyFirst p f xs = modifyFirst p g xs := by
  cases hx : xs.find? p with
  | none => rw [modifyFirst_of_find?_none f hx, modifyFirst_of_find?_none g hx]
  | some x =>
    obtain ⟨as, bs, -, -, -, hmod, -⟩ := find?_split hx
    rw [hmod, hmod, h x hx]

/-! ### Sides of an item -/

@[simp] theorem Item.side_setSide_self (i : Item) (f : Face) (x : Option Side) : (i.setSide f x).side f = x := by
  cases f <;> rfl

theorem Item.side_setSide_ne (i : Item) {f g : Face} (x : Option Side) (h : f ≠ g) : (i.setSide f x).side g = i.side g := by
  cases f <;> cases g <;> simp_all [Item.setSide, Item.side]

@[simp] theorem Item.setSide_side (i : Item) (f : Face) : i.setSide f (i.side f) = i := by cases f <;> rfl

@[simp] theorem Item.setSide_setSide (i : Item) (f : Face) (x y : Option Side) :
    (i.setSide f x).setSide f y = i.setSide f y := by cases f <;> rfl

@[simp] theorem Item.setSide_state (i : Item) (f : Face) (x : Option Side) : (i.setSide f x).state = i.state := by
  cases f <;> rfl

@[simp] theorem Item.setSide_raised (i : Item) (f : Face) (x : Option Side) : (i.setSide f x).raised = i.raised := by
  cases f <;> rfl

@[simp] theorem Item.setSide_potent (i : Item) (f : Face) (x : Option Side) : (i.setSide f x).potent = i.potent := by
  cases f <;> rfl

@[simp] theorem Item.modSide_state (i : Item) (f : Face) (g : Side → Side) : (i.modSide f g).state = i.state :=
  Item.setSide_state ..

@[simp] theorem Item.side_modSide_self (i : Item) (f : Face) (g : Side → Side) :
    (i.modSide f g).side f = (i.side f).map g := Item.side_setSide_self ..

theorem Item.modSide_of_none {i : Item} {f : Face} (g : Side → Side) (h : i.side f = none) : i.modSide f g = i := by
  rw [Item.modSide, h, Option.map_none, ← h, Item.setSide_side]

theorem Item.modSide_congr {i : Item} {f : Face} {g h : Side → Side} (e : ∀ x, i.side f = some x → g x = h x) :
    i.modSide f g = i.modSide f h := by
  cases hx : i.side f with
  | none => rw [Item.modSide_of_none g hx, Item.modSide_of_none h hx]
  | some x => simp [Item.modSide, hx, e x hx]

theorem Item.modSide_modSide (i : Item) (f : Face) (g h : Side → Side) :
    (i.modSide f g).modSide f h = i.modSide f fun x => h (g x) := by
  simp [Item.modSide, Option.map_map, Function.comp_def]

theorem Item.mem_sides {i : Item} {x : Side} : x ∈ i.sides ↔ i.front = some x ∨ i.back = some x := by
  simp [Item.sides, Option.mem_toList]

theorem Item.mem_sides_iff_side {i : Item} {x : Side} : x ∈ i.sides ↔ ∃ f, i.side f = some x := by
  rw [Item.mem_sides]
  constructor
  · rintro (h | h)
    · exact ⟨.front, h⟩
    · exact ⟨.back, h⟩
  · rintro ⟨_ | _, h⟩
    · exact .inl h
    · exact .inr h

/-- A write of one side leaves each other side, or makes it the side written. -/
theorem Item.mem_sides_setSide {i : Item} {f : Face} {y : Option Side} {x : Side} (h : x ∈ (i.setSide f y).sides) :
    y = some x ∨ x ∈ i.sides := by
  rw [Item.mem_sides] at h ⊢
  cases f with
  | front => exact h.imp_right .inr
  | back => exact h.symm.imp_right .inl

theorem Item.pages_setSide (i : Item) (f : Face) (x : Option Side) :
    (i.setSide f x).pages + optPages (i.side f) = i.pages + optPages x := by
  cases f <;> simp [Item.pages, Item.setSide, Item.side] <;> omega

/-! ### Items of a lane -/

theorem Lane.item?_split {c : Lane} {q : Seq} {i : Item} (h : c.item? q = some i) :
    i.seq = q ∧ ∃ as bs, c.list = as ++ i :: bs ∧ (∀ f, (c.modItem q f).list = as ++ f i :: bs)
      ∧ dropFirst (fun j => j.seq == q) c.list = as ++ bs := by
  obtain ⟨as, bs, hlist, -, hseq, hmod, hdrop⟩ := find?_split h
  exact ⟨by simpa using hseq, as, bs, hlist, hmod, hdrop⟩

theorem Lane.seq_of_item? {c : Lane} {q : Seq} {i : Item} (h : c.item? q = some i) : i.seq = q := (Lane.item?_split h).1

theorem Lane.modItem_of_fixed {c : Lane} {q : Seq} {f : Item → Item} (h : ∀ i, c.item? q = some i → f i = i) :
    c.modItem q f = c := by
  rw [Lane.modItem, modifyFirst_of_fixed h]

theorem Lane.item?_modItem_self {c : Lane} {q : Seq} {i : Item} {f : Item → Item} (h : c.item? q = some i)
    (hf : (f i).seq = i.seq) : (c.modItem q f).item? q = some (f i) :=
  find?_modifyFirst_self h (by simp [hf, Lane.seq_of_item? h])

theorem Lane.item?_modItem_ne (c : Lane) {q p : Seq} {f : Item → Item} (h : q ≠ p)
    (hf : ∀ i, i.seq = q → (f i).seq = q) : (c.modItem q f).item? p = c.item? p :=
  find?_modifyFirst_of_disjoint _ (fun i hi => by simpa [show i.seq = q by simpa using hi] using h)
    (fun i hi => by simpa [hf i (by simpa using hi)] using h)

theorem Lane.item?_isSome_iff {c : Lane} {q : Seq} : (c.item? q).isSome = true ↔ q ∈ c.seqs := by
  simp [Lane.item?, Lane.seqs]

theorem Lane.item?_eq_none_iff {c : Lane} {q : Seq} : c.item? q = none ↔ q ∉ c.seqs := by
  rw [← Lane.item?_isSome_iff]; simp

/-! ### Items and sides of the state -/

theorem State.setLane_setLane (s : State) (l : Fin 16) (c e : Lane) : (s.setLane l c).setLane l e = s.setLane l e := by
  simp [State.setLane, State.withLanes]

theorem State.modLane_modLane (s : State) (l : Fin 16) (f g : Lane → Lane) :
    (s.modLane l f).modLane l g = s.modLane l fun c => g (f c) := by
  simp [State.modLane, State.setLane_setLane]

theorem State.modLane_congr {s : State} {l : Fin 16} {f g : Lane → Lane} (h : f (s.lane l) = g (s.lane l)) :
    s.modLane l f = s.modLane l g := by rw [State.modLane, h, ← State.modLane]

theorem State.modLane_of_fixed {s : State} {l : Fin 16} {f : Lane → Lane} (h : f (s.lane l) = s.lane l) :
    s.modLane l f = s := by rw [State.modLane, h, State.setLane_lane_self]

theorem State.modItem_of_fixed {s : State} {l : Fin 16} {q : Seq} {f : Item → Item}
    (h : ∀ i, s.item? l q = some i → f i = i) : s.modItem l q f = s :=
  State.modLane_of_fixed (Lane.modItem_of_fixed h)

theorem State.modItem_of_none {s : State} {l : Fin 16} {q : Seq} (f : Item → Item) (h : s.item? l q = none) :
    s.modItem l q f = s := State.modItem_of_fixed (by simp [h])

theorem State.modItem_congr {s : State} {l : Fin 16} {q : Seq} {f g : Item → Item}
    (h : ∀ i, s.item? l q = some i → f i = g i) : s.modItem l q f = s.modItem l q g := by
  apply State.modLane_congr
  rw [Lane.modItem, modifyFirst_congr h, ← Lane.modItem]

theorem State.modItem_modItem (s : State) (l : Fin 16) (q : Seq) (f g : Item → Item) (h : ∀ i, (f i).seq = i.seq) :
    (s.modItem l q f).modItem l q g = s.modItem l q fun i => g (f i) := by
  have key := modifyFirst_modifyFirst (fun i : Item => i.seq == q) g f fun i => by simp only [h i]
  simp only [State.modItem, State.modLane_modLane, Lane.modItem, key]

theorem State.side?_eq_some {s : State} {r : SideRef} {x : Side} :
    s.side? r = some x ↔ ∃ i, s.item? r.lane r.seq = some i ∧ i.side r.face = some x := by
  exact Option.bind_eq_some_iff

theorem State.modSide_of_none {s : State} {r : SideRef} (g : Side → Side) (h : s.side? r = none) : s.modSide r g = s :=
  State.modItem_of_fixed fun i hi => Item.modSide_of_none g (by simpa [State.side?, hi] using h)

theorem State.modSide_congr {s : State} {r : SideRef} {g h : Side → Side} (e : ∀ x, s.side? r = some x → g x = h x) :
    s.modSide r g = s.modSide r h :=
  State.modItem_congr fun i hi => Item.modSide_congr fun x hx => e x (State.side?_eq_some.mpr ⟨i, hi, hx⟩)

theorem State.modSide_modSide (s : State) (r : SideRef) (g h : Side → Side) :
    (s.modSide r g).modSide r h = s.modSide r fun x => h (g x) := by
  rw [State.modSide, State.modSide, State.modItem_modItem _ _ _ _ _ fun i => Item.modSide_seq ..]
  simp only [Item.modSide_modSide]
  rfl

theorem State.item?_modItem_self {s : State} {l : Fin 16} {q : Seq} {i : Item} {f : Item → Item}
    (h : s.item? l q = some i) (hf : (f i).seq = i.seq) : (s.modItem l q f).item? l q = some (f i) := by
  rw [State.item?, State.modItem, State.lane_modLane_self]
  exact Lane.item?_modItem_self h hf

theorem State.item?_modLane {s : State} {l k : Fin 16} {q : Seq} {f : Lane → Lane} (h : ∀ c, (f c).list = c.list) :
    (s.modLane l f).item? k q = s.item? k q := by
  rw [State.item?, State.lane_modLane]
  split
  next e => subst e; simp [State.item?, Lane.item?, h]
  next => rfl

theorem State.side?_modSide_self {s : State} {r : SideRef} {x : Side} (g : Side → Side) (h : s.side? r = some x) :
    (s.modSide r g).side? r = some (g x) := by
  obtain ⟨i, hi, hx⟩ := State.side?_eq_some.mp h
  refine State.side?_eq_some.mpr ⟨i.modSide r.face g, State.item?_modItem_self hi (Item.modSide_seq ..), ?_⟩
  simp [hx]

theorem State.side?_modSide (s : State) (r : SideRef) (g : Side → Side) :
    (s.modSide r g).side? r = (s.side? r).map g := by
  cases h : s.side? r with
  | none => rw [State.modSide_of_none g h, h, Option.map_none]
  | some x => rw [State.side?_modSide_self g h, Option.map_some]

theorem State.lane_modSide_ne (s : State) {r : SideRef} {k : Fin 16} (g : Side → Side) (h : r.lane ≠ k) :
    (s.modSide r g).lane k = s.lane k := State.lane_modLane_ne s _ h

theorem State.lane_modItem_ne (s : State) {l k : Fin 16} {q : Seq} (f : Item → Item) (h : l ≠ k) :
    (s.modItem l q f).lane k = s.lane k := State.lane_modLane_ne s _ h

end Sys2Proof.Machine
end

