-- ==== Sys2Proof/Proofs/Arbiter.lean ====
section
/-! The unit arbiter: one grant, and the grants made until none is left (R54). -/

namespace Sys2Proof.Machine

theorem mem_allUnits (u : Fin 4) : u ∈ allUnits := by revert u; decide

theorem freeUnit?_eq_none_iff {s : State} : freeUnit? s = none ↔ ∀ u, s.unit u ≠ none := by
  simp [freeUnit?, List.find?_eq_none, mem_allUnits]

theorem allUnits_eq_append (u : Fin 4) : ∃ as bs, allUnits = as ++ u :: bs ∧ ∀ v, v ∈ as ↔ v < u :=
  ⟨allUnits.take u.val, allUnits.drop (u.val + 1), by revert u; decide, by revert u; decide⟩

/-- The FREE unit found is the one with the lowest number. -/
theorem freeUnit?_eq_some {s : State} {u : Fin 4} (hu : s.unit u = none) (hlow : ∀ v, v < u → s.unit v ≠ none) :
    freeUnit? s = some u := by
  obtain ⟨as, bs, hlist, has⟩ := allUnits_eq_append u
  have hnone : as.find? (fun v => (s.unit v).isNone) = none :=
    List.find?_eq_none.mpr fun v hv => by simpa using hlow v ((has v).mp hv)
  rw [freeUnit?, hlist, List.find?_append, hnone]
  simp [hu]

theorem unit_of_freeUnit? {s : State} {u : Fin 4} (h : freeUnit? s = some u) : s.unit u = none := by
  simpa using List.find?_some h

theorem waitingSide?_eq_none_iff {s : State} :
    waitingSide? s = none ↔ s.reduction.openWait = [] ∧ s.reduction.reworkWait = [] := by
  unfold waitingSide?
  split
  next r rest hrework => simp [hrework]
  next hrework => simp [hrework]

theorem arbiterSettled_iff {s : State} : ArbiterSettled s ↔ freeUnit? s = none ∨ waitingSide? s = none := by
  rw [freeUnit?_eq_none_iff, waitingSide?_eq_none_iff, ArbiterSettled]

theorem ArbiterSettled.congr {s t : State} (h : t.reduction = s.reduction) (hs : ArbiterSettled s) : ArbiterSettled t := by
  simpa only [ArbiterSettled, State.unit, h] using hs

/-- A bound unit that goes on bound leaves no grant to make. -/
theorem ArbiterSettled.setUnit_some {s : State} (u : Fin 4) (b : Binding) (hs : ArbiterSettled s) :
    ArbiterSettled (s.setUnit u (some b)) := by
  refine hs.imp (fun hbound v => ?_) id
  by_cases huv : u = v
  · subst huv; simp
  · rw [State.unit_setUnit_ne s _ huv]; exact hbound v

theorem grant_of_settled {s : State} (h : ArbiterSettled s) : grant s = s := by
  unfold grant
  rcases arbiterSettled_iff.mp h with hfree | hwaiting
  · rw [hfree]
  · rw [hwaiting]; split <;> rfl

theorem grant_of_waiting {s : State} {u : Fin 4} {r : SideRef} (hu : freeUnit? s = some u) (hr : waitingSide? s = some r) :
    grant s = bindSide u r (popWaiting s) := by
  unfold grant
  rw [hu, hr]

theorem bindSide_waitingCount (u : Fin 4) (r : SideRef) (s : State) : waitingCount (bindSide u r s) = waitingCount s := by
  unfold bindSide
  split
  · rfl
  · split
    · rfl
    · dsimp only
      split <;> simp [waitingCount, State.setUnit]

theorem popWaiting_waitingCount {s : State} {r : SideRef} (h : waitingSide? s = some r) :
    waitingCount (popWaiting s) + 1 = waitingCount s := by
  unfold waitingSide? at h
  unfold popWaiting
  split at h
  next r' rest hrework => simp [waitingCount, hrework]; omega
  next hrework =>
    obtain ⟨rest, hopen⟩ : ∃ rest, s.reduction.openWait = r :: rest := List.head?_eq_some_iff.mp h
    simp [waitingCount, hrework, hopen]

/-- A grant that can be made takes a side from a wait list. -/
theorem grant_waitingCount {s : State} (h : ¬ ArbiterSettled s) : waitingCount (grant s) + 1 = waitingCount s := by
  rw [arbiterSettled_iff, not_or] at h
  obtain ⟨u, hu⟩ := Option.ne_none_iff_exists'.mp h.1
  obtain ⟨r, hr⟩ := Option.ne_none_iff_exists'.mp h.2
  rw [grant_of_waiting hu hr, bindSide_waitingCount, popWaiting_waitingCount hr]

theorem grantUpTo_of_settled (n : Nat) {s : State} (h : ArbiterSettled s) : grantUpTo n s = s := by
  induction n with
  | zero => rfl
  | succ n ih => rw [grantUpTo, grant_of_settled h, ih]

theorem settled_of_waitingCount_eq_zero {s : State} (h : waitingCount s = 0) : ArbiterSettled s := by
  simp only [waitingCount, Nat.add_eq_zero_iff, List.length_eq_zero_iff] at h
  exact .inr h

theorem grantUpTo_settled {n : Nat} {s : State} (h : waitingCount s ≤ n) : ArbiterSettled (grantUpTo n s) := by
  induction n generalizing s with
  | zero => exact settled_of_waitingCount_eq_zero (Nat.le_zero.mp h)
  | succ n ih =>
    by_cases hs : ArbiterSettled s
    · rwa [grantUpTo_of_settled _ hs]
    · have hcount := grant_waitingCount hs
      exact ih (by omega)

/-- After the grants none is left to make (R54). -/
theorem grantAll_settled (s : State) : ArbiterSettled (grantAll s) := grantUpTo_settled (le_refl _)

theorem grantAll_of_settled {s : State} (h : ArbiterSettled s) : grantAll s = s := grantUpTo_of_settled _ h

/-- With a grant to make, the grants are that one and those after it. -/
theorem grantAll_of_not_settled {s : State} (h : ¬ ArbiterSettled s) : grantAll s = grantAll (grant s) := by
  unfold grantAll
  rw [← grant_waitingCount h]
  rfl

end Sys2Proof.Machine
end

