-- ==== Sys2Proof/Proofs/Kept.lean ====
section
/-! What every event can do, said once. An event is made of a few elementary changes: of one lane's context, of the units,
of the queues, of the free pages, of a table. A property that each elementary change keeps is kept by every step, so an
invariant is proved by looking at the elementary changes alone. -/

namespace Sys2Proof.Machine

/-! ### Members of condition sets -/

theorem holds_single (m n : Condition) : holds (single m) n = decide (m = n) := by
  revert m n; decide

@[simp] theorem holds_zero (n : Condition) : holds 0 n = false := by simp [holds]

theorem holds_raise (m n : Condition) (c : CondSet) : holds (raise m c) n = (holds c n || decide (m = n)) := by
  rw [← holds_single]; simp [holds, raise]

theorem holds_raiseIf (b : Bool) (m n : Condition) (c : CondSet) :
    holds (raiseIf b m c) n = (holds c n || (b && decide (m = n))) := by
  cases b <;> simp [raiseIf, holds_raise]

theorem holds_lower (m n : Condition) (c : CondSet) : holds (lower m c) n = (holds c n && !decide (m = n)) := by
  rw [← holds_single]; simp [holds, lower]

theorem holds_potentUnder (mask c : CondSet) (n : Condition) :
    holds (potentUnder mask c) n = (holds c n && !holds mask n) := by
  simp [holds, potentUnder]

/-! ### The laws of one side, one item, one lane -/

/-- R110 and R132 for one side record. -/
def SideLawful (x : Side) : Prop :=
  (∀ n : Condition, 13 ≤ n.val → holds x.raised n = false ∧ holds x.potent n = false) ∧ x.reworkCount ≤ 2

/-- R110 and R132 for one item record. -/
def ItemLawful (i : Item) : Prop :=
  (∀ n : Condition, n.val < 13 → holds i.raised n = false ∧ holds i.potent n = false) ∧ ∀ x ∈ i.sides, SideLawful x

/-- R76 for one lane. -/
def ListLawful (c : Lane) : Prop := c.list.length ≤ 8 ∧ c.seqs.Nodup

/-- The ranges of the fields of one lane (R75, R158). -/
def LaneInRange (c : Lane) : Prop := 32 ≤ c.xoff ∧ c.xoff ≤ 1024 ∧ c.xon + 16 ≤ c.xoff ∧ c.stallMs ≤ 60000

theorem setsLawful_and_reworksBounded_iff (s : State) :
    SetsLawful s ∧ ReworksBounded s ↔ ∀ l, ∀ i ∈ (s.lane l).list, ItemLawful i := by
  constructor
  · rintro ⟨hsets, hreworks⟩ l i hi
    exact ⟨fun n hn => (hsets l i hi n).1 hn, fun x hx =>
      ⟨fun n hn => (hsets l i hi n).2 hn x (Item.mem_sides.mp hx), hreworks l i hi x (Item.mem_sides.mp hx)⟩⟩
  · intro h
    exact ⟨fun l i hi n => ⟨(h l i hi).1 n, fun hn x hx => ((h l i hi).2 x (Item.mem_sides.mpr hx)).1 n hn⟩,
      fun l i hi x hx => ((h l i hi).2 x (Item.mem_sides.mpr hx)).2⟩

/-- What every change of a side record in the part does: a lawful one stays lawful. -/
def SideStep (x y : Side) : Prop := SideLawful x → SideLawful y

/-- What every change of an item record in the part does: its sequence stays, and a lawful one stays lawful. -/
structure ItemStep (i j : Item) : Prop where
  seq : j.seq = i.seq
  lawful : ItemLawful i → ItemLawful j

/-- What every change of a lane context in the part does: each of the laws of a lane that held before holds after. -/
structure LaneStep (c e : Lane) : Prop where
  context : LaneLawful c → LaneLawful e
  settings : LaneInRange c → LaneInRange e
  list : ListLawful c → ListLawful e
  items : (∀ i ∈ c.list, ItemLawful i) → ∀ i ∈ e.list, ItemLawful i

/-- The sequence and the state of a record. -/
def Item.stamp (i : Item) : Seq × ItemState := (i.seq, i.state)

/-- The sequences and states of a lane's records, in list order. -/
def Lane.stamps (c : Lane) : List (Seq × ItemState) := c.list.map Item.stamp

theorem Lane.seqs_eq_of_stamps_eq {c e : Lane} (h : e.stamps = c.stamps) : e.seqs = c.seqs := by
  have := congrArg (List.map Prod.fst) h
  simpa [Lane.stamps, Lane.seqs, Item.stamp, Function.comp_def] using this

/-! ### Changes of items and sides -/

theorem ItemStep.refl (i : Item) : ItemStep i i := ⟨rfl, id⟩

theorem ItemStep.trans {i j k : Item} (h : ItemStep i j) (h' : ItemStep j k) : ItemStep i k :=
  ⟨h'.seq.trans h.seq, fun x => h'.lawful (h.lawful x)⟩

theorem ItemStep.setSide {i : Item} {f : Face} {x : Option Side}
    (h : ItemLawful i → ∀ y, x = some y → SideLawful y) : ItemStep i (i.setSide f x) where
  seq := Item.setSide_seq ..
  lawful hi := by
    refine ⟨fun n hn => by simpa using hi.1 n hn, fun y hy => ?_⟩
    rcases Item.mem_sides_setSide hy with rfl | hy
    · exact h hi y rfl
    · exact hi.2 y hy

theorem ItemStep.modSide {i : Item} {f : Face} {g : Side → Side} (h : ∀ x, i.side f = some x → SideStep x (g x)) :
    ItemStep i (i.modSide f g) := by
  refine ItemStep.setSide fun hi y hy => ?_
  obtain ⟨x, hx, rfl⟩ := Option.map_eq_some_iff.mp hy
  exact h x hx (hi.2 x (Item.mem_sides_iff_side.mpr ⟨f, hx⟩))

theorem Item.mem_sides_map {i j : Item} {g k : Side → Side} (hf : j.front = i.front.map g) (hb : j.back = i.back.map k)
    {y : Side} (h : y ∈ j.sides) : ∃ x ∈ i.sides, y = g x ∨ y = k x := by
  rw [Item.mem_sides, hf, hb] at h
  rcases h with h | h <;> obtain ⟨x, hx, rfl⟩ := Option.map_eq_some_iff.mp h
  · exact ⟨x, Item.mem_sides.mpr (.inl hx), .inl rfl⟩
  · exact ⟨x, Item.mem_sides.mpr (.inr hx), .inr rfl⟩

theorem ItemStep.mapSides {i j : Item} {g : Side → Side} (hj : ItemStep i j) (hg : ∀ x, SideStep x (g x))
    (k : Item) (hseq : k.seq = j.seq) (hraised : k.raised = j.raised) (hpotent : k.potent = j.potent)
    (hfront : k.front = j.front.map g) (hback : k.back = j.back.map g) : ItemStep i k where
  seq := hseq.trans hj.seq
  lawful hi := by
    have hl := hj.lawful hi
    refine ⟨fun n hn => by simpa [hraised, hpotent] using hl.1 n hn, fun y hy => ?_⟩
    obtain ⟨x, hx, rfl | rfl⟩ := Item.mem_sides_map hfront hback hy <;> exact hg x (hl.2 x hx)

theorem SideStep.of_sets {x y : Side} (hraised : y.raised = x.raised) (hpotent : y.potent = x.potent)
    (hcount : y.reworkCount = x.reworkCount) : SideStep x y := by
  intro h
  rw [SideLawful, hraised, hpotent, hcount]
  exact h

/-- A side condition raised leaves no item condition in the set of a side. -/
theorem SideStep.raise {x y : Side} {b : Bool} {n : Condition} (hn : n.val < 13)
    (hraised : y.raised = raiseIf b n x.raised) (hpotent : y.potent = x.potent)
    (hcount : y.reworkCount = x.reworkCount) : SideStep x y := by
  intro h
  refine ⟨fun m hm => ⟨?_, by rw [hpotent]; exact (h.1 m hm).2⟩, hcount ▸ h.2⟩
  have hne : n ≠ m := by rintro rfl; omega
  simp [hraised, holds_raiseIf, (h.1 m hm).1, hne]

theorem SideStep.sideEnded (b : Binding) (x : Side) : SideStep x (sideEnded b x) := by
  intro h
  refine ⟨fun n hn => ⟨?_, (h.1 n hn).2⟩, h.2⟩
  have hne : ∀ m : Condition, m.val < 13 → (m = n) = False := fun m hm => eq_false (by rintro rfl; omega)
  show holds (endRaised b x) n = false
  unfold endRaised
  split
  · exact (h.1 n hn).1
  · simp [sideEndTests, holds_raiseIf, (h.1 n hn).1, condSizeSmall, condSizeLarge, condTooLight, condTooDark, condStreak,
      condBrightnessLow, condBrightnessHigh, hne]

/-! ### Changes of lanes -/

theorem LaneLawful.of_context_eq {c e : Lane} (h : e.context = c.context) (hc : LaneLawful c) : LaneLawful e := by
  have hstate := congrArg LaneContext.state h
  have hseq := congrArg LaneContext.seq h
  have hactive := congrArg LaneContext.active h
  have hrunning := congrArg LaneContext.stallRunning h
  have hremaining := congrArg LaneContext.stallRemaining h
  simp only [Lane.context] at hstate hseq hactive hrunning hremaining
  simpa only [LaneLawful, hstate, hseq, hactive, hrunning, hremaining] using hc

theorem LaneInRange.of_context_eq {c e : Lane} (h : e.context = c.context) (hc : LaneInRange c) : LaneInRange e := by
  have hxoff := congrArg LaneContext.xoff h
  have hxon := congrArg LaneContext.xon h
  have hms := congrArg LaneContext.stallMs h
  simp only [Lane.context] at hxoff hxon hms
  simpa only [LaneInRange, hxoff, hxon, hms] using hc

theorem ListLawful.of_seqs_eq {c e : Lane} (h : e.seqs = c.seqs) (hc : ListLawful c) : ListLawful e := by
  have hlength := congrArg List.length h
  simp only [Lane.seqs, List.length_map] at hlength
  exact ⟨hlength ▸ hc.1, h ▸ hc.2⟩

/-- A change of the fields beside the list. -/
theorem LaneStep.of_list_eq {c e : Lane} (hlist : e.list = c.list) (hcontext : LaneLawful c → LaneLawful e)
    (hsettings : LaneInRange c → LaneInRange e) : LaneStep c e where
  context := hcontext
  settings := hsettings
  list := ListLawful.of_seqs_eq (by rw [Lane.seqs, hlist, Lane.seqs])
  items := by rw [hlist]; exact id

/-- A change of the records of the list that keeps their sequences. -/
theorem LaneStep.of_context_eq {c e : Lane} (hcontext : e.context = c.context) (hseqs : e.seqs = c.seqs)
    (hitems : (∀ i ∈ c.list, ItemLawful i) → ∀ i ∈ e.list, ItemLawful i) : LaneStep c e where
  context := LaneLawful.of_context_eq hcontext
  settings := LaneInRange.of_context_eq hcontext
  list := ListLawful.of_seqs_eq hseqs
  items := hitems

theorem LaneStep.refl (c : Lane) : LaneStep c c := ⟨id, id, id, id⟩

theorem LaneStep.modItem {c : Lane} {q : Seq} {i : Item} {f : Item → Item} (hi : c.item? q = some i)
    (h : ItemStep i (f i)) : LaneStep c (c.modItem q f) := by
  obtain ⟨-, as, bs, hlist, hmod, -⟩ := Lane.item?_split hi
  refine LaneStep.of_context_eq rfl ?seqs fun hc j hj => ?items
  case seqs => simp [Lane.seqs, hmod, hlist, h.seq]
  case items =>
    rw [hmod] at hj
    rcases List.mem_append.mp hj with hj | hj
    · exact hc j (by simp [hlist, hj])
    · rcases List.mem_cons.mp hj with rfl | hj
      · exact h.lawful (hc i (by simp [hlist]))
      · exact hc j (by simp [hlist, hj])

theorem listPages_append (as bs : List Item) : listPages (as ++ bs) = listPages as + listPages bs := by
  induction as with
  | nil => simp [listPages]
  | cons i as ih => simp [listPages, ih, Nat.add_assoc]

theorem Lane.pages_modItem {c : Lane} {q : Seq} {i : Item} {f : Item → Item} (hi : c.item? q = some i) :
    (c.modItem q f).pages + i.pages = c.pages + (f i).pages := by
  obtain ⟨-, as, bs, hlist, hmod, -⟩ := Lane.item?_split hi
  simp only [Lane.pages, hmod, hlist, listPages_append, listPages]
  omega

theorem Lane.stamps_modItem {c : Lane} {q : Seq} {i : Item} {f : Item → Item} (hi : c.item? q = some i)
    (h : (f i).stamp = i.stamp) : (c.modItem q f).stamps = c.stamps := by
  obtain ⟨-, as, bs, hlist, hmod, -⟩ := Lane.item?_split hi
  simp [Lane.stamps, hmod, hlist, h]

/-- What a judgement or a close makes of the stamp of a record: its sequence stays, and it is neither received nor started
anew. -/
def Moves (p p' : Seq × ItemState) : Prop := p'.1 = p.1 ∧ (p'.2 = p.2 ∨ p'.2 ≠ .receiving ∧ p'.2 ≠ .emitting)

/-- From one context of a lane to another, record by record. -/
def ItemsMove (c e : Lane) : Prop := List.Forall₂ Moves c.stamps e.stamps

theorem ItemsMove.of_stamps_eq {c e : Lane} (h : e.stamps = c.stamps) : ItemsMove c e := by
  rw [ItemsMove, h]
  exact List.forall₂_same.mpr fun _ _ => ⟨rfl, .inl rfl⟩

theorem ItemsMove.modItem {c : Lane} {q : Seq} {i : Item} {f : Item → Item} (hi : c.item? q = some i) (hseq : (f i).seq = i.seq)
    (hstate : (f i).state ≠ .receiving ∧ (f i).state ≠ .emitting) : ItemsMove c (c.modItem q f) := by
  obtain ⟨-, as, bs, hlist, hmod, -⟩ := Lane.item?_split hi
  have hsame (is : List Item) : List.Forall₂ Moves (is.map Item.stamp) (is.map Item.stamp) :=
    List.forall₂_same.mpr fun _ _ => ⟨rfl, .inl rfl⟩
  simp only [ItemsMove, Lane.stamps, hmod, hlist, List.map_append, List.map_cons]
  exact List.rel_append (hsame as) (.cons ⟨hseq, .inr hstate⟩ (hsame bs))

theorem map_fst_of_moves {ps ps' : List (Seq × ItemState)} (h : List.Forall₂ Moves ps ps') :
    ps'.map Prod.fst = ps.map Prod.fst := by
  induction h with
  | nil => rfl
  | cons hp _ ih => rw [List.map_cons, List.map_cons, hp.1, ih]

theorem ItemsMove.seqs {c e : Lane} (h : ItemsMove c e) : e.seqs = c.seqs := by
  have hfst : e.stamps.map Prod.fst = c.stamps.map Prod.fst := map_fst_of_moves h
  simpa [Lane.stamps, Lane.seqs, Item.stamp, Function.comp_def] using hfst

theorem LaneStep.counters (c : Lane) (k : LaneCounters) : LaneStep c { c with counters := k } :=
  LaneStep.of_list_eq rfl id id

theorem LaneStep.paused (c : Lane) (p : Bool) : LaneStep c { c with paused := p } := LaneStep.of_list_eq rfl id id

theorem LaneStep.held (c : Lane) (p : Bool) : LaneStep c { c with held := p } := LaneStep.of_list_eq rfl id id

theorem restartTimer_cases (c : Lane) :
    restartTimer c = c ∨ restartTimer c = { c with stallRunning := true, stallRemaining := c.stallMs } := by
  unfold restartTimer; split <;> simp

/-- A matching frame restarts the timer in OPEN and SIDE, unless the setting is 0, and does nothing else. -/
theorem matchTimer_cases (c : Lane) :
    matchTimer c = c ∨ (c.state = .opened ∨ c.state = .side)
      ∧ matchTimer c = { c with stallRunning := true, stallRemaining := c.stallMs } := by
  unfold matchTimer
  split
  next => exact .inl rfl
  next => exact .inl rfl
  next h => exact (restartTimer_cases c).imp_right fun e => ⟨.inl h, e⟩
  next h => exact (restartTimer_cases c).imp_right fun e => ⟨.inr h, e⟩

theorem LaneStep.enabled (c : Lane) (p : Bool) : LaneStep c { c with enabled := p } := LaneStep.of_list_eq rfl id id

theorem LaneStep.stalled (c : Lane) (q : Option Seq) (k : LaneCounters) :
    LaneStep c { c with lastTimedOut := q, counters := k } := LaneStep.of_list_eq rfl id id

theorem LaneStep.matchTimer (c : Lane) : LaneStep c (matchTimer c) := by
  rcases matchTimer_cases c with h | ⟨hstate, h⟩ <;> rw [h]
  · exact LaneStep.refl c
  · exact LaneStep.of_list_eq rfl (by simp_all [LaneLawful]) id

theorem LaneStep.toOpened (c : Lane) : LaneStep c { c with state := .opened, active := none } :=
  LaneStep.of_list_eq rfl (by simp_all [LaneLawful]) id

theorem LaneStep.toSide (c : Lane) (f : Face) : LaneStep c { c with state := .side, active := some f } :=
  LaneStep.of_list_eq rfl (by simp_all [LaneLawful]) id

theorem LaneStep.idleLane (c : Lane) : LaneStep c (idleLane c) :=
  LaneStep.of_list_eq rfl (by simp [LaneLawful, Machine.idleLane, stopTimer]) id

theorem LaneStep.resetContext (c : Lane) : LaneStep c (resetContext c) :=
  LaneStep.of_list_eq rfl (by simp [LaneLawful, Machine.resetContext, Machine.idleLane, stopTimer]) id

theorem LaneStep.refusedLane (q : Seq) (c : Lane) : LaneStep c (refusedLane q c) :=
  LaneStep.of_list_eq rfl (by simp [LaneLawful, Machine.refusedLane, stopTimer]) id

theorem LaneStep.tickLane (c : Lane) : LaneStep c (tickLane c) := by
  unfold Machine.tickLane
  split
  next hrunning => exact LaneStep.of_list_eq rfl (by simp [LaneLawful, hrunning]) id
  next => exact LaneStep.refl c

theorem LaneStep.stallLane {ms : Nat} (h : ms ≤ 60000) (c : Lane) : LaneStep c (stallLane ms c) := by
  unfold Machine.stallLane
  split
  · exact LaneStep.of_list_eq rfl (by simp_all [LaneLawful, stopTimer]) (by simp_all [LaneInRange, stopTimer])
  · exact LaneStep.of_list_eq rfl id (by simp_all [LaneInRange])

theorem LaneStep.marks {c : Lane} {xoff xon : Nat}
    (h : LaneInRange c → 32 ≤ xoff ∧ xoff ≤ 1024 ∧ xon + 16 ≤ xoff) : LaneStep c { c with xoff := xoff, xon := xon } :=
  LaneStep.of_list_eq rfl id fun hc => ⟨(h hc).1, (h hc).2.1, (h hc).2.2, hc.2.2.2⟩

/-- A new record joins a list that has room for it. -/
theorem LaneStep.admittedLane {c : Lane} {i : Item} (hlength : c.list.length < 8) (hseq : i.seq ∉ c.seqs)
    (hi : ItemLawful i) : LaneStep c (admittedLane i c) where
  context := by
    intro hc
    simp only [Machine.admittedLane, restartTimer]
    split <;> simp_all [LaneLawful]
  settings hc := by
    simp only [Machine.admittedLane, restartTimer]
    split <;> exact hc
  list hc := by
    have hlist : (Machine.admittedLane i c).list = c.list ++ [i] := rfl
    refine ⟨by simp [hlist]; omega, ?_⟩
    rw [Lane.seqs, hlist, List.map_append, List.nodup_append]
    refine ⟨hc.2, by simp, ?_⟩
    rintro q hq _ hqi rfl
    obtain rfl : q = i.seq := by simpa using hqi
    exact hseq hq
  items hc j hj := by
    rcases List.mem_append.mp (show j ∈ c.list ++ [i] from hj) with hj | hj
    · exact hc j hj
    · obtain rfl := List.mem_singleton.mp hj
      exact hi

theorem LaneStep.dropFirst (c : Lane) (q : Seq) (k : LaneCounters) :
    LaneStep c { c with list := dropFirst (fun j => j.seq == q) c.list, counters := k } := by
  have hsub : (Machine.dropFirst (fun j : Item => j.seq == q) c.list).Sublist c.list := by
    cases h : c.item? q with
    | some i =>
      obtain ⟨-, as, bs, hlist, -, hdrop⟩ := Lane.item?_split h
      rw [hdrop, hlist]
      simp
    | none =>
      have hnone : ∀ is : List Item, is.find? (fun j => j.seq == q) = none →
          Machine.dropFirst (fun j => j.seq == q) is = is := by
        intro is
        induction is with
        | nil => exact fun _ => rfl
        | cons i is ih =>
          intro hfind
          obtain ⟨hi, his⟩ : ¬ i.seq = q ∧ is.find? (fun j => j.seq == q) = none := by simpa using hfind
          simpa [Machine.dropFirst, hi] using ih (by simpa using his)
      rw [hnone c.list h]
  exact ⟨id, id, fun hc => ⟨hsub.length_le.trans hc.1, List.Nodup.sublist (hsub.map Item.seq) hc.2⟩,
    fun hc i hi => hc i (hsub.subset hi)⟩

end Sys2Proof.Machine
end

