-- ==== Sys2Proof/Proofs/Walk.lean ====
section
/-! The walk through the operations of the part: a property that the elementary changes keep is kept by each operation. `d`
is the number of pages that records have let go and the pool has not yet taken back, `ow` says that grants may be left to make;
a property that is not about these takes no notice of them. -/

namespace Sys2Proof.Machine

/-- The elementary changes that a side's events are made of: none changes the state of an item record. -/
structure SideKept (P : Int → Bool → State → Prop) : Prop where
  lane : ∀ {d ow s l c}, LaneStep (s.lane l) c → c.stamps = (s.lane l).stamps → P d ow s →
    P (d + (s.lane l).pages - c.pages) ow (s.setLane l c)
  reduction : ∀ {d ow s} x, P d ow s → P d true (s.withReduction x)
  rebind : ∀ {d ow s u b} c, s.unit u = some b → P d ow s → P d ow (s.setUnit u (some c))
  granted : ∀ {d s}, ArbiterSettled s → P d true s → P d false s
  owing : ∀ {d s}, P d false s → P d true s
  flowFrame : ∀ {d ow s} f, P d ow s → P d ow (queueFlow f s)
  free : ∀ {d ow s} (n : Nat), P d ow s → P (d + s.freePages - n) ow (setFree n s)

/-- The elementary changes that the judgement and the close of an item are made of: the sequences of a lane's list stay, and no
record is received or started. -/
structure ItemKept (P : Int → Bool → State → Prop) : Prop extends SideKept P where
  items : ∀ {d ow s l c}, LaneStep (s.lane l) c → ItemsMove (s.lane l) c → P d ow s →
    P (d + (s.lane l).pages - c.pages) ow (s.setLane l c)
  refusal : ∀ {d ow s} r, P d ow s → P d ow (queueRefusal r s)
  fault : ∀ {d ow s}, P d ow s → P d ow (countFault s)
  exhausted : ∀ {d ow s}, P d ow s → P d ow (countExhausted s)
  service : ∀ {d ow s} v, P d ow s → P d ow (setService v s)

/-- The elementary changes that the frames of a lane and the starts on the exchange link are made of. -/
structure LaneKept (P : Int → Bool → State → Prop) : Prop extends ItemKept P where
  records : ∀ {d ow s l c}, LaneStep (s.lane l) c → P d ow s → P (d + (s.lane l).pages - c.pages) ow (s.setLane l c)
  intakePort : ∀ {d ow s} x, P d ow s → P d ow (s.withIntakePort x)
  exchange : ∀ {d ow s e}, e.replies = s.egress.replies → P d ow s → P d ow (s.withEgress e)

theorem freshSide_lawful (f : Face) (res w y : Nat) (p : Fin 64) : SideLawful (freshSide f res w y p) :=
  ⟨fun n _ => ⟨holds_zero n, holds_zero n⟩, Nat.zero_le 2⟩

variable {P : Int → Bool → State → Prop} {d : Int} {ow : Bool} {s : State}

/-! ### Sides, units and grants -/

section
variable (h : SideKept P)
include h

theorem SideKept.setLane_of_list {l : Fin 16} {c : Lane} (hstep : LaneStep (s.lane l) c) (hlist : c.list = (s.lane l).list)
    (hp : P d ow s) : P d ow (s.setLane l c) := by
  have key := h.lane hstep (by rw [Lane.stamps, hlist, Lane.stamps]) hp
  rwa [Lane.pages, Lane.pages, hlist, Int.add_sub_cancel] at key

theorem SideKept.modLane {l : Fin 16} {f : Lane → Lane} (hstep : ∀ c, LaneStep c (f c)) (hlist : ∀ c, (f c).list = c.list)
    (hp : P d ow s) : P d ow (s.modLane l f) := h.setLane_of_list (hstep _) (hlist _) hp

theorem SideKept.countLane (l : Fin 16) (f : LaneCounters → LaneCounters) (hp : P d ow s) : P d ow (s.countLane l f) :=
  h.modLane (fun c => LaneStep.counters c _) (fun _ => rfl) hp

theorem SideKept.modItem {l : Fin 16} {q : Seq} {i : Item} {f : Item → Item} (hi : s.item? l q = some i)
    (hstep : ItemStep i (f i)) (hstamp : (f i).stamp = i.stamp) (hp : P d ow s) :
    P (d + i.pages - (f i).pages) ow (s.modItem l q f) := by
  have key := h.lane (LaneStep.modItem hi hstep) (Lane.stamps_modItem hi hstamp) hp
  have hpages := Lane.pages_modItem (f := f) hi
  rwa [show d + ((s.lane l).pages : Int) - (((s.lane l).modItem q f).pages : Int) = d + i.pages - (f i).pages by omega] at key

/-- A change of a side record that changes its pages. -/
theorem SideKept.modSide_pages {r : SideRef} {x : Side} {g : Side → Side} (hx : s.side? r = some x) (hstep : SideStep x (g x))
    (hp : P d ow s) : P (d + x.pages - (g x).pages) ow (s.modSide r g) := by
  obtain ⟨i, hi, hside⟩ := State.side?_eq_some.mp hx
  have key := h.modItem (f := fun j => j.modSide r.face g) hi
    (ItemStep.modSide fun y hy => by obtain rfl := Option.some.inj (hside.symm.trans hy); exact hstep)
    (by simp [Item.stamp]) hp
  have hpages := i.pages_setSide r.face ((i.side r.face).map g)
  rw [hside, Option.map_some] at hpages
  rw [Item.modSide, hside, Option.map_some] at key
  simp only [optPages] at hpages
  rwa [show d + (i.pages : Int) - ((i.setSide r.face (some (g x))).pages : Int) = d + x.pages - (g x).pages by omega] at key

/-- A change of a side record that keeps its pages. -/
theorem SideKept.modSide (r : SideRef) {g : Side → Side} (hstep : ∀ x, SideStep x (g x)) (hpages : ∀ x, (g x).pages = x.pages)
    (hp : P d ow s) : P d ow (s.modSide r g) := by
  cases hx : s.side? r with
  | none => rwa [State.modSide_of_none g hx]
  | some x => simpa [hpages] using h.modSide_pages hx (hstep x) hp

theorem SideKept.setUnit (u : Fin 4) (b : Option Binding) (hp : P d ow s) : P d true (s.setUnit u b) := h.reduction _ hp

/-- Grants may be left to make in a state that owes none. -/
theorem SideKept.owes (hp : P d ow s) : P d true s := by
  cases ow
  · exact h.owing hp
  · exact hp

/-- A state without a grant to make owes none. -/
theorem SideKept.owesNone (hs : ArbiterSettled s) (hp : P d true s) : P d ow s := by
  cases ow
  · exact h.granted hs hp
  · exact hp

theorem SideKept.evalPaused (l : Fin 16) (hp : P d ow s) : P d ow (evalPaused l s) := by
  unfold Machine.evalPaused
  dsimp only
  split
  · exact hp
  · exact h.flowFrame _ (h.setLane_of_list (LaneStep.paused _ _) rfl hp)

theorem SideKept.takePages {n : Nat} (hn : n ≤ s.freePages) (hp : P (d - n) ow s) : P d ow (takePages n s) := by
  unfold Machine.takePages
  split
  next hzero => simpa [hzero] using hp
  next =>
    have key := h.free (s.freePages - n) hp
    rwa [show d - (n : Int) + s.freePages - ((s.freePages - n : Nat) : Int) = d by omega] at key

theorem SideKept.returnPages {n : Nat} (hp : P (d + n) ow s) : P d ow (returnPages n s) := by
  unfold Machine.returnPages
  split
  next hzero => simpa [hzero] using hp
  next =>
    have key := h.free (s.freePages + n) hp
    rwa [show d + (n : Int) + s.freePages - ((s.freePages + n : Nat) : Int) = d by omega] at key

theorem SideKept.popWaiting (hp : P d true s) : P d true (popWaiting s) := by
  unfold Machine.popWaiting
  split <;> exact h.reduction _ hp

theorem SideKept.bindSide (u : Fin 4) (r : SideRef) (hp : P d true s) : P d true (bindSide u r s) := by
  unfold Machine.bindSide
  split
  · exact hp
  next x hx =>
    split
    · exact hp
    next p hsnapshot =>
      have hbound := h.modSide r (g := boundSide u p (newBinding r x p)) (fun _ => SideStep.of_sets rfl rfl rfl)
        (fun _ => rfl) (h.setUnit u (some (newBinding r x p)) hp)
      dsimp only
      split
      · exact h.evalPaused _ hbound
      · exact hbound

theorem SideKept.grant (hp : P d true s) : P d true (grant s) := by
  unfold Machine.grant
  split
  · exact hp
  · split
    · exact hp
    · exact h.bindSide _ _ (h.popWaiting hp)

theorem SideKept.grantUpTo (n : Nat) (hp : P d true s) : P d true (grantUpTo n s) := by
  induction n generalizing s with
  | zero => exact hp
  | succ n ih => exact ih (h.grant hp)

theorem SideKept.grantAll (hp : P d true s) : P d ow (grantAll s) := h.owesNone (grantAll_settled s) (h.grantUpTo _ hp)

theorem SideKept.completeRow (u : Fin 4) (hp : P d ow s) : P d ow (completeRow u s) := by
  unfold Machine.completeRow
  split
  · exact hp
  next b hb =>
    split
    · exact hp
    · exact hp
    · split
      · exact hp
      · exact h.evalPaused _ (h.modSide _ (fun x => SideStep.raise (n := condOversize) (by decide) rfl rfl rfl)
          (fun _ => rfl) (h.rebind _ hb hp))

/-! ### The input of a side -/

theorem SideKept.unitSeesClose (r : SideRef) (x : Side) (hp : P d ow s) : P d ow (unitSeesClose r x s) := by
  unfold Machine.unitSeesClose
  split
  · exact hp
  · split
    · exact hp
    next b hb => exact h.evalPaused _ (h.modSide _ (fun x => SideStep.of_sets rfl rfl rfl) (fun _ => rfl) (h.rebind _ hb hp))

theorem SideKept.closeInput (r : SideRef) (hp : P d ow s) : P d ow (closeInput r s) := by
  unfold Machine.closeInput
  split
  · exact hp
  · split
    · exact hp
    · exact h.unitSeesClose _ _ (h.modSide _ (fun x => SideStep.of_sets rfl rfl rfl) (fun _ => rfl) hp)

theorem SideKept.truncateSide (r : SideRef) (t : Truncation) {n : Condition} (hn : n.val < 13) (hp : P d ow s) :
    P d ow (truncateSide r t n s) :=
  h.closeInput _ (h.modSide _ (fun _ => SideStep.raise (b := true) hn rfl rfl rfl) (fun _ => rfl) hp)

theorem SideKept.closeSide (l : Fin 16) (hp : P d ow s) : P d ow (closeSide l s) := by
  unfold Machine.closeSide
  split
  · exact hp
  · exact h.modLane LaneStep.toOpened (fun _ => rfl) (h.closeInput _
      (h.modSide _ (fun _ => SideStep.raise (n := condRowShort) (by decide) rfl rfl rfl) (fun _ => rfl) hp))

theorem SideKept.stallSide (l : Fin 16) (hp : P d ow s) : P d ow (stallSide l s) := by
  unfold Machine.stallSide
  split
  · exact hp
  · refine h.modLane LaneStep.toOpened (fun _ => rfl) ?_
    split
    · exact hp
    · split
      · exact hp
      · exact h.truncateSide _ _ (by decide) hp

theorem SideKept.strayOn (l : Fin 16) (hp : P d ow s) : P d ow (strayOn l s) := h.countLane _ _ hp

theorem SideKept.lateOn (l : Fin 16) (hp : P d ow s) : P d ow (lateOn l s) := h.countLane _ _ hp

theorem SideKept.overrunOn (l : Fin 16) (hp : P d ow s) : P d ow (overrunOn l s) := h.countLane _ _ hp

theorem SideKept.unitSeesRows (x : Side) (n : Nat) (hp : P d ow s) : P d ow (unitSeesRows x n s) := by
  unfold Machine.unitSeesRows
  split
  · exact hp
  · split
    · exact hp
    next b hb => exact h.rebind _ hb hp

theorem SideKept.storeRows {r : SideRef} {x : Side} (hx : s.side? r = some x) (count : Nat) (rows : List Byte) (hp : P d ow s) :
    P d ow (storeRows r x count rows s) := by
  unfold Machine.storeRows
  dsimp only
  split
  next => exact h.overrunOn _ (h.truncateSide _ _ (by decide) hp)
  next hfree =>
    refine h.evalPaused _ (h.unitSeesRows _ _ (h.takePages (Nat.le_of_not_lt hfree) ?_))
    have key := h.modSide_pages (g := storedSide (keptRows x count) count rows (pagesNeeded x (keptRows x count))) hx
      (SideStep.raise (n := condRowExcess) (by decide) rfl rfl rfl) hp
    have hpages : (storedSide (keptRows x count) count rows (pagesNeeded x (keptRows x count)) x).pages
        = x.pages + pagesNeeded x (keptRows x count) := by
      simp only [storedSide, Side.pages]; omega
    rwa [hpages, Nat.cast_add, ← Int.sub_sub, Int.add_sub_cancel] at key

theorem SideKept.takeRows {r : SideRef} {x : Side} (hx : s.side? r = some x) (first count : Nat) (rows : List Byte)
    (hp : P d ow s) : P d ow (takeRows r x first count rows s) := by
  unfold Machine.takeRows
  split
  · exact hp
  · split
    · exact h.strayOn _ hp
    · split
      · exact h.strayOn _ hp
      · split
        · exact h.modSide _ (fun _ => SideStep.raise (b := true) (n := condRowExcess) (by decide) rfl rfl rfl) (fun _ => rfl) hp
        · split
          · exact h.truncateSide _ _ (by decide) hp
          · exact h.storeRows hx _ _ hp

theorem SideKept.takeSideData (l : Fin 16) (first count : Nat) (rows : List Byte) (hp : P d ow s) :
    P d ow (takeSideData l first count rows s) := by
  unfold Machine.takeSideData
  split
  · exact hp
  · exact hp
  · exact h.strayOn _ hp
  · split
    · exact hp
    · split
      · exact hp
      next hx => exact h.takeRows hx _ _ _ hp

theorem SideKept.takeSideClose (l : Fin 16) (hp : P d ow s) : P d ow (takeSideClose l s) := by
  unfold Machine.takeSideClose
  split
  · exact hp
  · exact hp
  · exact h.strayOn _ hp
  · exact h.closeSide _ hp

/-! ### Opening a side -/

/-- A side record joins its item, which has none of that face. -/
theorem SideKept.putSide {l : Fin 16} {q : Seq} {f : Face} {i : Item} {x : Side} (hi : s.item? l q = some i)
    (hnone : i.side f = none) (hx : SideLawful x) (hp : P (d + x.pages) ow s) : P d ow (putSide l q f x s) := by
  have key := h.modItem (f := fun j => j.setSide f (some x)) hi
    (ItemStep.setSide fun _ y hy => by obtain rfl := Option.some.inj hy; exact hx) (by simp [Item.stamp]) hp
  have hpages := i.pages_setSide f (some x)
  rw [hnone] at hpages
  simp only [optPages] at hpages
  rw [show d + (x.pages : Int) + i.pages - ((i.setSide f (some x)).pages : Int) = d by omega] at key
  exact h.modLane (fun c => LaneStep.toSide c f) (fun _ => rfl) key

theorem SideKept.openRecord {l : Fin 16} {q : Seq} {f : Face} {i : Item} {x : Side} (p : Profile)
    (hi : s.item? l q = some i) (hnone : i.side f = none) (hx : SideLawful x) (hpages : x.pages = 0)
    (hp : P d ow s) : P d ow (openRecord l q f x p s) := by
  have hraise : ∀ y : Side, y.raised = x.raised → y.potent = x.potent → y.reworkCount = x.reworkCount → ∀ n : Condition,
      n.val < 13 → SideLawful (notReduced n y) := fun y hr hq hc n hn =>
    (SideStep.raise (b := true) hn rfl rfl rfl : SideStep y (notReduced n y)) (SideStep.of_sets hr hq hc hx)
  unfold Machine.openRecord
  split
  · dsimp only
    split
    next =>
      refine h.overrunOn _ (h.putSide hi hnone (hraise _ rfl rfl rfl _ (by decide)) ?_)
      have hzero : (notReduced condInputOverrun { x with snapshot := some p }).pages = 0 := hpages
      simpa [hzero] using hp
    next hfree =>
      refine h.grantAll (h.reduction (ow := ow) _ (h.takePages (Nat.le_of_not_lt hfree)
        (h.putSide hi hnone (SideStep.of_sets rfl rfl rfl hx) ?_)))
      have hinput : x.inputPages = 0 := by simp only [Side.pages] at hpages; omega
      simpa [Side.pages, hinput] using hp
  · refine h.putSide hi hnone (hraise _ rfl rfl rfl _ (by decide)) ?_
    have hzero : (notReduced condProfileWithdrawn x).pages = 0 := hpages
    simpa [hzero] using hp

theorem SideKept.openSide (l : Fin 16) (face : Byte) (res w y : Nat) (hp : P d ow s) : P d ow (openSide l face res w y s) := by
  unfold Machine.openSide
  split
  next f i hface hi =>
    split
    next hgood =>
      have hroom : (i.side f).isNone = true ∧ sidesHeld i < i.sidesDeclared := by
        simpa [roomFor] using (Bool.and_eq_true_iff.mp hgood).2
      rw [← Lane.seq_of_item? hi] at hi
      exact h.openRecord _ hi (by simpa using hroom.1) (freshSide_lawful ..) rfl hp
    next => exact h.strayOn _ hp
  next => exact h.strayOn _ hp
  next => exact h.strayOn _ hp

theorem SideKept.takeSideOpen (l : Fin 16) (face : Byte) (res w y : Nat) (hp : P d ow s) :
    P d ow (takeSideOpen l face res w y s) := by
  unfold Machine.takeSideOpen
  split
  · exact hp
  · exact hp
  · exact h.openSide _ _ _ _ _ hp
  · exact h.openSide _ _ _ _ _ (h.closeSide _ hp)

/-- A frame of the lane is taken by an operation that keeps the property, or discarded. -/
theorem SideKept.withMatch (l : Fin 16) (q : Seq) {taken : State → State} (htaken : ∀ {t}, P d ow t → P d ow (taken t)) (hp : P d ow s) :
    P d ow (withMatch l q taken s) := by
  unfold Machine.withMatch
  split
  · exact h.strayOn _ hp
  · split
    · refine htaken (h.modLane LaneStep.matchTimer (fun c => ?_) hp)
      rcases matchTimer_cases c with e | ⟨-, e⟩ <;> rw [e]
    · split
      · exact h.lateOn _ hp
      · exact h.strayOn _ hp

end

end Sys2Proof.Machine
end

