-- ==== Sys2Proof/Proofs/WalkLanes.lean ====
section
/-! The walk through the operations that change the state of an item record: judgement, the close of an item, its
admission, its emission, and the reset of a lane. -/

namespace Sys2Proof.Machine

/-! ### What a judgement makes of its item -/

theorem holds_raisedAnew {i : Item} {n : Condition} (hn : n ≠ condPairMismatch) :
    holds (raisedAnew i) n = holds i.raised n := by
  have hne : (condPairMismatch = n) = False := eq_false fun e => hn e.symm
  unfold raisedAnew
  split
  · split <;> simp [holds_raise, holds_lower, hne]
  · rfl

theorem ItemStep.formSets (i : Item) : ItemStep i (formSets i) where
  seq := rfl
  lawful hi := by
    refine ⟨fun n hn => ?_, fun y hy => ?_⟩
    · have hraised : holds (raisedAnew i) n = false := by
        rw [holds_raisedAnew (by rintro rfl; exact absurd hn (by decide)), (hi.1 n hn).1]
      exact ⟨hraised, by simp [Machine.formSets, holds_potentUnder, hraised]⟩
    · obtain ⟨x, hx, rfl | rfl⟩ :=
          Item.mem_sides_map (i := i) (j := Machine.formSets i) (g := formSideSet i) (k := formSideSet i) rfl rfl hy <;>
        exact ⟨fun n hn => ⟨((hi.2 x hx).1 n hn).1, by simp [formSideSet, holds_potentUnder, ((hi.2 x hx).1 n hn).1]⟩,
          (hi.2 x hx).2⟩

theorem optPages_map {g : Side → Side} (hg : ∀ x, (g x).pages = x.pages) (x : Option Side) :
    optPages (x.map g) = optPages x := by
  cases x <;> simp [optPages, hg]

theorem optPages_map_le {g : Side → Side} (hg : ∀ x, (g x).pages ≤ x.pages) (x : Option Side) :
    optPages (x.map g) ≤ optPages x := by
  cases x <;> simp [optPages, hg]

theorem formSets_pages (i : Item) : (formSets i).pages = i.pages := by
  simp [Item.pages, formSets, optPages_map (g := formSideSet i) fun _ => rfl]

theorem mapSides_pages_le {g : Side → Side} (hg : ∀ x, (g x).pages ≤ x.pages) (i : Item) : (i.mapSides g).pages ≤ i.pages :=
  Nat.add_le_add (optPages_map_le hg _) (optPages_map_le hg _)

theorem dropInput_pages_le (x : Side) : (dropInput x).pages ≤ x.pages := by simp [dropInput, Side.pages]

theorem ItemStep.markedItem (d : DispositionUnit) (i : Item) : ItemStep i (markedItem d i) :=
  ItemStep.mapSides (ItemStep.refl i) (g := dropInput) (fun _ => SideStep.of_sets rfl rfl rfl) _ rfl rfl rfl rfl rfl

theorem ItemStep.divertedItem (reason : ReasonKind) (n : Condition) (k : FaultKind) (code : Byte) (i : Item) :
    ItemStep i (divertedItem reason n k code i) :=
  ItemStep.mapSides (ItemStep.refl i) (g := dropPages) (fun _ => SideStep.of_sets rfl rfl rfl) _ rfl rfl rfl rfl rfl

theorem lowerOf_eq_none_iff {a b : Option Condition} : lowerOf a b = none ↔ a = none ∧ b = none := by
  cases a <;> cases b <;> simp [lowerOf]
  split <;> simp

/-- Sides go to rework only when no affected side is exhausted, each with its chosen condition (R118, R122). -/
theorem judge_eq_rework {d : DispositionUnit} {ps : Vector Profile 64} {i : Item} {f b : Option Condition}
    (h : judge d ps i = .rework f b) :
    (exhaustedChoice d i.front = none ∧ exhaustedChoice d i.back = none) ∧ chosen d i.front = f ∧ chosen d i.back = b := by
  unfold judge at h
  split at h
  · cases h
  · split at h
    · cases h
    · split at h
      · cases h
      next hnone =>
        refine ⟨lowerOf_eq_none_iff.mp hnone, ?_⟩
        split at h
        · cases h
        · cases h; exact ⟨by assumption, rfl⟩
        · cases h; exact ⟨by assumption, by assumption⟩

/-- A side with a chosen condition that is not exhausted has been reworked less than twice. -/
theorem reworkCount_lt {d : DispositionUnit} {y : Side} {n : Condition} (hnone : exhaustedChoice d (some y) = none)
    (hchosen : chosen d (some y) = some n) : y.reworkCount < 2 := by
  by_contra hcount
  have hexhausted : isExhausted y = true := decide_eq_true (.inr (Nat.le_of_not_lt hcount))
  simp [exhaustedChoice, hexhausted, hchosen] at hnone

theorem reworkIf_lawful {d : DispositionUnit} {ps : Vector Profile 64} {x : Option Side} {y : Side}
    (hnone : exhaustedChoice d x = none) (hx : ∀ z, x = some z → SideLawful z)
    (hy : reworkIf d ps (chosen d x) x = some y) : SideLawful y := by
  unfold reworkIf at hy
  split at hy
  · exact hx y hy
  next n hchosen =>
    obtain ⟨z, rfl, rfl⟩ := Option.map_eq_some_iff.mp hy
    exact ⟨fun n _ => ⟨holds_zero n, holds_zero n⟩, reworkCount_lt hnone hchosen⟩

theorem ItemStep.reworkedItem {d : DispositionUnit} {ps : Vector Profile 64} {i : Item} {f b : Option Condition}
    (h : judge d ps i = .rework f b) : ItemStep i (reworkedItem d ps f b i) where
  seq := rfl
  lawful hi := by
    obtain ⟨⟨hfront, hback⟩, rfl, rfl⟩ := judge_eq_rework h
    refine ⟨hi.1, fun y hy => ?_⟩
    rcases Item.mem_sides.mp hy with hy | hy
    · exact reworkIf_lawful hfront (fun z hz => hi.2 z (Item.mem_sides.mpr (.inl hz))) hy
    · exact reworkIf_lawful hback (fun z hz => hi.2 z (Item.mem_sides.mpr (.inr hz))) hy

theorem optPages_reworkIf (d : DispositionUnit) (ps : Vector Profile 64) (n : Option Condition) (x : Option Side) :
    optPages (reworkIf d ps n x) = optPages x := by
  cases n with
  | none => rfl
  | some n => exact optPages_map (g := reworkSide d ps n) (fun _ => rfl) x

/-! ### What a close, a withdrawal and an admission make of a record or a list -/

theorem ItemStep.closedItem (i : Item) : ItemStep i (closedItem i) where
  seq := rfl
  lawful hi := ⟨fun n hn => ⟨by
    have hne : (condSideMissing = n) = False := eq_false (by rintro rfl; exact absurd hn (by decide))
    simp [Machine.closedItem, holds_raiseIf, (hi.1 n hn).1, hne], (hi.1 n hn).2⟩, hi.2⟩

theorem ItemStep.state (i : Item) (st : ItemState) : ItemStep i { i with state := st } := ⟨rfl, id⟩

theorem ItemStep.withdrawItem (i : Item) : ItemStep i (withdrawItem i) :=
  ItemStep.mapSides (ItemStep.refl i) (g := withdrawSide) (fun _ => SideStep.of_sets rfl rfl rfl) _ rfl rfl rfl rfl rfl

theorem withdrawSide_pages (x : Side) : (withdrawSide x).pages = 0 := rfl

theorem withdrawList_seqs (is : List Item) : (withdrawList is).map Item.seq = is.map Item.seq := by
  simp only [withdrawList, List.map_map]
  refine List.map_congr_left fun i _ => ?_
  simp only [Function.comp_apply]
  split <;> rfl

theorem listPages_withdrawList_le (is : List Item) : listPages (withdrawList is) ≤ listPages is := by
  induction is with
  | nil => exact Nat.le_refl 0
  | cons i is ih =>
    have hi : (if isWithdrawn i then withdrawItem i else i).pages ≤ i.pages := by
      split
      · exact mapSides_pages_le (fun x => (withdrawSide_pages x).le.trans (Nat.zero_le _)) i
      · exact Nat.le_refl _
    exact Nat.add_le_add hi ih

theorem LaneStep.withdrawList (c : Lane) : LaneStep c { c with list := withdrawList c.list } := by
  refine LaneStep.of_context_eq rfl (withdrawList_seqs c.list) fun hc j hj => ?_
  obtain ⟨i, hi, rfl⟩ := List.mem_map.mp hj
  split
  · exact (ItemStep.withdrawItem i).lawful (hc i hi)
  · exact hc i hi

theorem ItemsMove.withdrawList (c : Lane) : ItemsMove c { c with list := withdrawList c.list } := by
  have hitem (i : Item) : Moves i.stamp (if isWithdrawn i then withdrawItem i else i).stamp := by
    split
    · exact ⟨rfl, .inr ⟨by nofun, by nofun⟩⟩
    · exact ⟨rfl, .inl rfl⟩
  simp only [ItemsMove, Lane.stamps, Machine.withdrawList, List.map_map, List.forall₂_map_left_iff, List.forall₂_map_right_iff]
  exact List.forall₂_same.mpr fun i _ => hitem i

/-- An item is admitted only to a list with room for it that holds none of its sequence (R96, checks 4 and 5). -/
theorem room_of_admitted {s : State} {l : Fin 16} {q : Seq} {m : BitVec 16} {c n : Byte} {p : Fin 64} {fb : Bool}
    (h : checkAdmission s l q m c n = .admitted p fb) : (s.lane l).list.length < 8 ∧ q ∉ (s.lane l).seqs := by
  unfold checkAdmission at h
  split at h
  · cases h
  · cases h
  · split at h
    · cases h
    · split at h
      · cases h
      next hlength =>
        split at h
        · cases h
        next hseq =>
          rw [Lane.item?_isSome_iff] at hseq
          exact ⟨by simpa [Config.listCapacity] using hlength, hseq⟩

theorem freshItem_lawful (q : Seq) (m : BitVec 16) (c n : Byte) (date : BitVec 32) (p : Fin 64) (mask : CondSet) (fb : Bool) :
    ItemLawful (freshItem q m c n date p mask fb) := by
  refine ⟨fun k hk => ⟨?_, holds_zero k⟩, fun x hx => by simp [freshItem, Item.sides] at hx⟩
  have hne : (condProfileFallback = k) = False := eq_false (by rintro rfl; exact absurd hk (by decide))
  have hzero : holds (0#16) k = false := holds_zero k
  simp [freshItem, holds_raiseIf, hne, hzero]

/-! ### The walk -/

variable {P : Int → Bool → State → Prop} {d : Int} {ow : Bool} {s : State}

section
variable (h : ItemKept P)
include h

theorem ItemKept.modItem_pages {l : Fin 16} {q : Seq} {i : Item} {f : Item → Item} (hi : s.item? l q = some i)
    (hstep : ItemStep i (f i)) (hstate : (f i).state ≠ .receiving ∧ (f i).state ≠ .emitting) (hp : P d ow s) :
    P (d + i.pages - (f i).pages) ow (s.modItem l q f) := by
  have key := h.items (LaneStep.modItem hi hstep) (.modItem hi hstep.seq hstate) hp
  have hpages := Lane.pages_modItem (f := f) hi
  rwa [show d + ((s.lane l).pages : Int) - (((s.lane l).modItem q f).pages : Int) = d + i.pages - (f i).pages by omega] at key

/-- A change of an item record that keeps its pages. -/
theorem ItemKept.modItem (l : Fin 16) (q : Seq) {f : Item → Item} (hstep : ∀ i, ItemStep i (f i))
    (hstate : ∀ i, (f i).state ≠ .receiving ∧ (f i).state ≠ .emitting) (hpages : ∀ i, (f i).pages = i.pages) (hp : P d ow s) :
    P d ow (s.modItem l q f) := by
  cases hi : s.item? l q with
  | none => rwa [State.modItem_of_none f hi]
  | some i => simpa [hpages] using h.modItem_pages hi (hstep i) (hstate i) hp

theorem ItemKept.replaceItem {l : Fin 16} {i old new : Item} (hi : s.item? l old.seq = some i) (hstep : ItemStep i new)
    (hstate : new.state ≠ .receiving ∧ new.state ≠ .emitting) (hold : old.pages = i.pages) (hnew : new.pages ≤ old.pages) (hp : P d ow s) : P d ow (replaceItem l old new s) := by
  refine h.returnPages ?_
  have key := h.modItem_pages (f := fun _ => new) hi hstep hstate hp
  rwa [show d + (i.pages : Int) - (new.pages : Int) = d + ((old.pages - new.pages : Nat) : Int) by omega] at key

theorem ItemKept.joinReworkIf (n : Option Condition) (r : SideRef) (hp : P d true s) : P d true (joinReworkIf n r s) := by
  unfold Machine.joinReworkIf
  split
  · exact hp
  · exact h.countLane _ _ (h.reduction _ hp)

theorem ItemKept.evaluate (l : Fin 16) (q : Seq) (hp : P d ow s) : P d ow (evaluate l q s) := by
  unfold Machine.evaluate
  split
  next => exact hp
  next i hi =>
    obtain rfl : i.seq = q := Lane.seq_of_item? hi
    have hseq : s.item? l (formSets i).seq = some i := hi
    have hform := ItemStep.formSets i
    have hpages := formSets_pages i
    unfold Machine.dispatch
    split
    next n k _ =>
      exact h.replaceItem hseq (hform.trans (ItemStep.divertedItem _ n k 0 _)) ⟨by nofun, by nofun⟩ hpages
        (mapSides_pages_le (fun _ => Nat.zero_le _) _) (h.fault hp)
    next =>
      exact h.replaceItem hseq (hform.trans (ItemStep.divertedItem ..)) ⟨by nofun, by nofun⟩ hpages
        (mapSides_pages_le (fun _ => Nat.zero_le _) _) hp
    next =>
      exact h.replaceItem hseq (hform.trans (ItemStep.divertedItem ..)) ⟨by nofun, by nofun⟩ hpages
        (mapSides_pages_le (fun _ => Nat.zero_le _) _) (h.exhausted hp)
    next f b hjudge =>
      refine h.grantAll (h.joinReworkIf _ _ (h.joinReworkIf _ _
        (h.owes (h.replaceItem hseq (hform.trans (ItemStep.reworkedItem hjudge)) ⟨by nofun, by nofun⟩ hpages (Nat.le_of_eq ?_) hp))))
      simp [Item.pages, reworkedItem, optPages_reworkIf]
    next =>
      exact h.replaceItem hseq (hform.trans (ItemStep.markedItem ..)) ⟨by nofun, by nofun⟩ hpages (mapSides_pages_le dropInput_pages_le _) hp

theorem ItemKept.completeItem (l : Fin 16) (q : Seq) (hp : P d ow s) : P d ow (completeItem l q s) := by
  unfold Machine.completeItem
  split
  · exact h.modItem _ _ (fun i => ItemStep.state i _) (fun _ => ⟨by nofun, by nofun⟩) (fun _ => rfl) hp
  · exact h.evaluate _ _ hp

theorem ItemKept.checkComplete (l : Fin 16) (q : Seq) (hp : P d ow s) : P d ow (checkComplete l q s) := by
  unfold Machine.checkComplete
  split
  · exact hp
  · split
    · exact h.completeItem _ _ hp
    · exact hp

theorem ItemKept.writeHeld (l : Fin 16) (v : Bool) (hp : P d ow s) : P d ow (writeHeld l v s) := by
  unfold Machine.writeHeld
  split
  · exact hp
  · split
    · exact h.modLane (fun c => LaneStep.held c _) (fun _ => rfl) hp
    · generalize awaiting (s.lane l) = qs
      have hstart : P d ow (s.modLane l fun c => { c with held := false }) :=
        h.modLane (fun c => LaneStep.held c _) (fun _ => rfl) hp
      generalize s.modLane l (fun c => { c with held := false }) = t at hstart
      induction qs generalizing t with
      | nil => exact hstart
      | cons q qs ih => exact ih _ (h.evaluate l q hstart)

theorem ItemKept.closeItem (l : Fin 16) (hp : P d ow s) : P d ow (closeItem l s) :=
  h.checkComplete _ _ (h.modLane LaneStep.idleLane (fun _ => rfl) (h.modItem _ _ ItemStep.closedItem (fun _ => ⟨by nofun, by nofun⟩) (fun _ => rfl) hp))

theorem ItemKept.closeAll (l : Fin 16) (hp : P d ow s) : P d ow (closeAll l s) := by
  unfold Machine.closeAll
  split
  · exact hp
  · exact h.modLane LaneStep.idleLane (fun _ => rfl) hp
  · exact h.closeItem _ hp
  · exact h.closeItem _ (h.closeSide _ hp)

theorem ItemKept.expireStall (l : Fin 16) (hp : P d ow s) : P d ow (expireStall l s) :=
  h.modLane (fun c => LaneStep.stalled c _ _) (fun _ => rfl) (h.closeItem _ (h.stallSide _ hp))

theorem ItemKept.refuseItem (l : Fin 16) (q : Seq) (reason : Byte) (hp : P d ow s) : P d ow (refuseItem l q reason s) :=
  h.refusal _ (h.modLane (LaneStep.refusedLane q) (fun _ => rfl) hp)

theorem ItemKept.watchService (hp : P d ow s) : P d ow (watchService s) := by
  unfold Machine.watchService
  split
  · exact h.service .standby hp
  · exact hp

theorem ItemKept.resetLane (l : Fin 16) (hp : P d ow s) : P d ow (resetLane l s) := by
  refine h.evalPaused _ (h.modLane LaneStep.resetContext (fun _ => rfl) (h.returnPages (h.grantAll (h.reduction (ow := ow) _ ?_))))
  have key := h.items (LaneStep.withdrawList (s.lane l)) (.withdrawList _) hp
  have hle := listPages_withdrawList_le (s.lane l).list
  simp only [Lane.pages] at key
  rwa [show d + (listPages (s.lane l).list : Int) - (listPages (withdrawList (s.lane l).list) : Int)
    = d + ((releasedPages (s.lane l) : Nat) : Int) by simp only [releasedPages]; omega] at key

end

section
variable (h : LaneKept P)
include h

theorem LaneKept.admitItem {l : Fin 16} {i : Item} (hlength : (s.lane l).list.length < 8) (hseq : i.seq ∉ (s.lane l).seqs)
    (hi : ItemLawful i) (hpages : i.pages = 0) (hp : P d ow s) : P d ow (admitItem l i s) := by
  have key := h.records (LaneStep.admittedLane hlength hseq hi) hp
  have hsame : (admittedLane i (s.lane l)).pages = (s.lane l).pages := by
    simp [Lane.pages, admittedLane, listPages_append, listPages, hpages]
  rw [hsame, Int.add_sub_cancel] at key
  exact h.evalPaused _ key

theorem LaneKept.admission (l : Fin 16) (q : Seq) (m : BitVec 16) (c n : Byte) (date : BitVec 32) (hp : P d ow s) :
    P d ow (admission l q m c n date s) := by
  unfold Machine.admission
  split
  next => exact h.refuseItem _ _ _ hp
  next p fb hcheck => exact h.admitItem (room_of_admitted hcheck).1 (room_of_admitted hcheck).2 (freshItem_lawful ..) rfl hp

theorem LaneKept.takeItemOpen (l : Fin 16) (q : Seq) (m : BitVec 16) (c n : Byte) (date : BitVec 32) (hp : P d ow s) :
    P d ow (takeItemOpen l q m c n date s) := by
  unfold Machine.takeItemOpen
  split
  · exact h.strayOn _ hp
  · exact h.admission _ _ _ _ _ _ (h.closeAll _ hp)

/-! ### The exchange link -/

theorem LaneKept.modRecord (l : Fin 16) (q : Seq) {f : Item → Item} (hstep : ∀ i, ItemStep i (f i))
    (hpages : ∀ i, (f i).pages = i.pages) (hp : P d ow s) : P d ow (s.modItem l q f) := by
  cases hi : s.item? l q with
  | none => rwa [State.modItem_of_none f hi]
  | some i =>
    have key := h.records (LaneStep.modItem hi (hstep i)) hp
    have hsame : ((s.lane l).modItem q f).pages = (s.lane l).pages := by
      have := Lane.pages_modItem (f := f) hi
      rw [hpages] at this
      omega
    rwa [hsame, Int.add_sub_cancel] at key

theorem LaneKept.startRecordOn (l : Fin 16) (i : Item) (hp : P d ow s) : P d ow (startRecordOn l i s) :=
  h.exchange rfl (h.modRecord l i.seq (fun j => ItemStep.state j .emitting) (fun _ => rfl) hp)

theorem LaneKept.startRecord (hp : P d ow s) : P d ow (startRecord s) := by
  unfold Machine.startRecord
  split
  · exact hp
  · split
    · exact hp
    · split
      · exact hp
      · exact h.startRecordOn _ _ hp

theorem LaneKept.startExchange (hp : P d ow s) : P d ow (startExchange s) := by
  unfold Machine.startExchange
  split
  · exact hp
  · split
    · unfold startEmissionFrame
      split
      · exact hp
      · exact h.exchange rfl hp
    · split
      next hreplies => exact h.exchange rfl hp
      next => exact h.startRecord hp

theorem LaneKept.startBeside (l : Fin 16) (hp : P d ow s) : P d ow (startBeside l s) := by
  rcases startBeside_cases l s with e | e <;> rw [e]
  · exact hp
  · exact h.startExchange hp

theorem LaneKept.startAfterFrame (hp : P d ow s) : P d ow (startAfterFrame s) := by
  rcases startAfterFrame_cases s with e | e <;> rw [e]
  · exact hp
  · exact h.startExchange hp

theorem LaneKept.startAfterLast (l : Fin 16) (hp : P d ow s) : P d ow (startAfterLast l s) := by
  rcases startAfterLast_cases l s with e | e <;> rw [e]
  · exact hp
  · exact h.startExchange hp

theorem LaneKept.modExchangePort (f : PortCounters → PortCounters) (hp : P d ow s) : P d ow (modExchangePort f s) :=
  h.exchange rfl hp

theorem LaneKept.frameGone (hp : P d ow s) : P d ow (frameGone s) := h.exchange rfl (h.modExchangePort _ hp)

theorem LaneKept.innerFrameSent (hp : P d ow s) : P d ow (innerFrameSent s) := by
  unfold Machine.innerFrameSent
  split
  · split
    · split
      · exact hp
      · exact h.startAfterFrame (h.exchange rfl (h.frameGone hp))
    · exact hp
  · exact hp
  · exact hp

/-- A record that leaves its list lets its pages go, and they return. -/
theorem LaneKept.recordLeaves {l : Fin 16} {i : Item} (hi : s.item? l i.seq = some i) (count : LaneCounters → LaneCounters)
    (hp : P d ow s) : P d ow (recordLeaves l i count s) := by
  refine h.watchService (h.evalPaused _ (h.exchange rfl (h.returnPages ?_)))
  have key := h.records (LaneStep.dropFirst (s.lane l) i.seq (count (s.lane l).counters)) hp
  obtain ⟨-, as, bs, hlist, -, hdrop⟩ := Lane.item?_split hi
  have hbefore : (s.lane l).pages = listPages (as ++ bs) + i.pages := by
    simp only [Lane.pages, hlist, listPages_append, listPages]; omega
  have hafter : ({ s.lane l with
      list := dropFirst (fun j => j.seq == i.seq) (s.lane l).list
      counters := count (s.lane l).counters } : Lane).pages = listPages (as ++ bs) := congrArg listPages hdrop
  rwa [hafter, hbefore, Nat.cast_add, show d + (((listPages (as ++ bs) : Nat) : Int) + (i.pages : Int))
    - ((listPages (as ++ bs) : Nat) : Int) = d + i.pages by omega] at key

theorem LaneKept.lastFrameSent (last : FrameType) (count : Item → LaneCounters → LaneCounters) (hp : P d ow s) :
    P d ow (lastFrameSent last count s) := by
  unfold Machine.lastFrameSent
  split
  next f e hprogress hemission =>
    split
    · split
      · exact hp
      next i hi =>
        refine h.startAfterLast _ (h.recordLeaves ?_ _ (h.frameGone hp))
        rw [← Lane.seq_of_item? hi] at hi
        exact hi
    · exact hp
  next => exact hp
  next => exact hp

theorem LaneKept.takeHalt (hp : P d ow s) : P d ow (takeHalt s) := h.exchange rfl hp

theorem LaneKept.takeGo (hp : P d ow s) : P d ow (takeGo s) := by
  unfold Machine.takeGo
  split
  · exact h.startExchange (h.exchange rfl hp)
  · exact hp

/-! ### Lane reset, side end, stall expiry, and the frames of the intake link -/

theorem LaneKept.endSide (u : Fin 4) (b : Binding) (hp : P d ow s) : P d ow (endSide u b s) :=
  h.startBeside _ (h.checkComplete _ _ (h.grantAll (h.evalPaused _
    (h.modSide _ (SideStep.sideEnded b) (fun _ => rfl) (h.setUnit u none hp)))))

theorem LaneKept.finishUnit (u : Fin 4) (hp : P d ow s) : P d ow (finishUnit u s) := by
  unfold Machine.finishUnit
  split
  · exact hp
  · split
    · exact hp
    · exact hp
    · split
      · exact h.endSide _ _ hp
      · exact hp

theorem LaneKept.expireDue (l : Fin 16) (hp : P d ow s) : P d ow (expireDue l s) := by
  unfold Machine.expireDue
  split
  · exact h.startBeside _ (h.expireStall _ hp)
  · exact hp

theorem LaneKept.expireAllDue (hp : P d ow s) : P d ow (expireAllDue s) := by
  unfold Machine.expireAllDue
  generalize allLanes = ls
  induction ls generalizing s with
  | nil => exact hp
  | cons l ls ih => exact ih (h.expireDue l hp)

theorem LaneKept.arriveItemOpen (l : Fin 16) (q : Seq) (m : BitVec 16) (c n : Byte) (date : BitVec 32) (hp : P d ow s) :
    P d ow (arriveItemOpen l q m c n date s) := h.startBeside _ (h.takeItemOpen _ _ _ _ _ _ (h.intakePort _ hp))

theorem LaneKept.arriveSideOpen (l : Fin 16) (q : Seq) (face : Byte) (res w y : BitVec 16) (hp : P d ow s) :
    P d ow (arriveSideOpen l q face res w y s) :=
  h.withMatch _ _ (fun ht => h.takeSideOpen _ _ _ _ _ ht) (h.intakePort _ hp)

theorem LaneKept.arriveSideData (l : Fin 16) (q : Seq) (first count : BitVec 16) (rows : List Byte) (hp : P d ow s) :
    P d ow (arriveSideData l q first count rows s) := by
  unfold Machine.arriveSideData
  split
  · exact h.withMatch _ _ (fun ht => h.takeSideData _ _ _ _ ht) (h.intakePort _ hp)
  · exact h.intakePort _ (h.intakePort _ hp)

theorem LaneKept.arriveSideClose (l : Fin 16) (q : Seq) (hp : P d ow s) : P d ow (arriveSideClose l q s) :=
  h.withMatch _ _ (fun ht => h.takeSideClose _ ht) (h.intakePort _ hp)

theorem LaneKept.arriveItemClose (l : Fin 16) (q : Seq) (hp : P d ow s) : P d ow (arriveItemClose l q s) :=
  h.startBeside _ (h.withMatch _ _ (fun ht => h.closeAll _ ht) (h.intakePort _ hp))

end

end Sys2Proof.Machine
end

