-- ==== Sys2Proof/Proofs/Events.lean ====
section
/-! The events of the part: what a step is, once the command at the front of the queue has been read. -/

namespace Sys2Proof.Machine

/-- What a port makes of a frame that reaches it while the part takes frames. -/
inductive Received : (State → State) → Prop
  | intakeFailure : Received failIntakeCheck
  | exchangeFailure : Received failExchangeCheck
  | intakeStray : Received fun s => countIntakeStray (countIntakeIn s)
  | exchangeStray : Received fun s => countExchangeStray (countExchangeIn s)
  | itemOpen (l q m c n date) : Received (arriveItemOpen l q m c n date)
  | sideOpen (l q face res w h) : Received (arriveSideOpen l q face res w h)
  | sideData (l q first count rows) : Received (arriveSideData l q first count rows)
  | sideClose (l q) : Received (arriveSideClose l q)
  | itemClose (l q) : Received (arriveItemClose l q)
  | request (p payload) : Received fun s => handRequest p payload (countIn p s)
  | halt : Received fun s => takeHalt (countExchangeIn s)
  | go : Received fun s => takeGo (countExchangeIn s)

/-- The events that a command brings. -/
inductive Event : (State → State) → Prop
  | powerOn : Event powerOn
  | pinRelease : Event fun s => s.withTaking true
  | received {f} (h : Received f) : Event (whenTaking f)
  | stallExpiry (l) : Event (expireDue l)
  | binding : Event grant
  | outputRow (u) : Event (completeRow u)
  | sideEnd (u) : Event (finishUnit u)
  | recordStart : Event startRecord
  | innerFrame : Event innerFrameSent
  | itemEnd : Event (lastFrameSent .itemEnd countEmitted)
  | itemNotice : Event (lastFrameSent .itemNotice countNotice)
  | exchangeReply :
    Event fun s => if replyInProgress s then startAfterFrame (takeRequests (exchangeReplyGone s)) else s
  | intakeStart : Event startIntakeFrame
  | intakeSent : Event intakeSent

theorem Received.of_intake (bytes : List Byte) : Received (receiveIntake bytes) := by
  cases hread : readFrame? bytes with
  | none =>
    have hfun : receiveIntake bytes = failIntakeCheck := by funext s; simp only [receiveIntake, hread]
    exact hfun ▸ .intakeFailure
  | some f =>
    have hfun : receiveIntake bytes = arriveIntake f := by funext s; simp only [receiveIntake, hread]
    rw [hfun]
    cases hsort : sortIntake f <;> simp only [funext fun s => show arriveIntake f s = _ by rw [arriveIntake, hsort]]
    case stray => exact .intakeStray
    case itemOpen => exact .itemOpen ..
    case sideOpen => exact .sideOpen ..
    case sideData => exact .sideData ..
    case sideClose => exact .sideClose ..
    case itemClose => exact .itemClose ..
    case request payload => exact .request .intake payload

theorem Received.of_exchange (bytes : List Byte) : Received (receiveExchange bytes) := by
  cases hread : readFrame? bytes with
  | none =>
    have hfun : receiveExchange bytes = failExchangeCheck := by funext s; simp only [receiveExchange, hread]
    exact hfun ▸ .exchangeFailure
  | some f =>
    have hfun : receiveExchange bytes = arriveExchange f := by funext s; simp only [receiveExchange, hread]
    rw [hfun]
    cases hsort : sortExchange f <;> simp only [funext fun s => show arriveExchange f s = _ by rw [arriveExchange, hsort]]
    case stray => exact .exchangeStray
    case halt => exact .halt
    case go => exact .go
    case request payload => exact .request .exchange payload

theorem Event.of_request (p : Port) (payload : List Byte) : Event (receiveRequest p payload) := by
  by_cases hlength : payload.length ≤ Config.maxPayload
  · have hfun : receiveRequest p payload = whenTaking fun s => handRequest p payload (countIn p s) := by
      funext s; simp only [receiveRequest, whenTaking, hlength, if_true]
    exact hfun ▸ .received (.request p payload)
  · have hfun : receiveRequest p payload = whenTaking fun s => countStray p (countIn p s) := by
      funext s; simp only [receiveRequest, whenTaking, hlength, if_false]
    rw [hfun]
    cases p with
    | intake => exact .received .intakeStray
    | exchange => exact .received .exchangeStray

/-- Every command brings one event, which has a next state from every state. -/
theorem exec_event : ∀ c : Instr, ∃ f, Event f ∧ ∀ s, exec c s = .next (f s)
  | .powerOnReset => ⟨_, .powerOn, fun _ => rfl⟩
  | .resetPinRelease => ⟨_, .pinRelease, fun _ => rfl⟩
  | .intakeCheckFailure => ⟨_, .received .intakeFailure, fun _ => rfl⟩
  | .intakeStrayFrame bytes => ⟨_, .received (.of_intake bytes), fun _ => rfl⟩
  | .itemOpen .. => ⟨_, .received (.itemOpen ..), fun _ => rfl⟩
  | .sideOpen .. => ⟨_, .received (.sideOpen ..), fun _ => rfl⟩
  | .sideData .. => ⟨_, .received (.sideData ..), fun _ => rfl⟩
  | .sideClose .. => ⟨_, .received (.sideClose ..), fun _ => rfl⟩
  | .itemClose .. => ⟨_, .received (.itemClose ..), fun _ => rfl⟩
  | .halt => ⟨_, .received .halt, fun _ => rfl⟩
  | .go => ⟨_, .received .go, fun _ => rfl⟩
  | .exchangeCheckFailure => ⟨_, .received .exchangeFailure, fun _ => rfl⟩
  | .exchangeStrayFrame bytes => ⟨_, .received (.of_exchange bytes), fun _ => rfl⟩
  | .stallExpiry l => ⟨_, .stallExpiry l, fun _ => rfl⟩
  | .binding => ⟨_, .binding, fun _ => rfl⟩
  | .outputRowComplete u => ⟨_, .outputRow u, fun _ => rfl⟩
  | .sideEnd u => ⟨_, .sideEnd u, fun _ => rfl⟩
  | .recordStart => ⟨_, .recordStart, fun _ => rfl⟩
  | .exchangeFrameSent => ⟨_, .innerFrame, fun _ => rfl⟩
  | .itemEndSent => ⟨_, .itemEnd, fun _ => rfl⟩
  | .itemNoticeSent => ⟨_, .itemNotice, fun _ => rfl⟩
  | .exchangeReplySent => ⟨_, .exchangeReply, fun _ => rfl⟩
  | .intakeFrameStart => ⟨_, .intakeStart, fun _ => rfl⟩
  | .intakeFrameSent => ⟨_, .intakeSent, fun _ => rfl⟩
  | .mgmtRequest .. => ⟨_, .of_request .., fun _ => rfl⟩
  | .readMember .. => ⟨_, .of_request .., fun _ => rfl⟩
  | .writeMember .. => ⟨_, .of_request .., fun _ => rfl⟩
  | .readProfile .. => ⟨_, .of_request .., fun _ => rfl⟩
  | .writeProfile .. => ⟨_, .of_request .., fun _ => rfl⟩
  | .readDisposition .. => ⟨_, .of_request .., fun _ => rfl⟩
  | .writeDisposition .. => ⟨_, .of_request .., fun _ => rfl⟩
  | .readLaneField .. => ⟨_, .of_request .., fun _ => rfl⟩
  | .writeLaneField .. => ⟨_, .of_request .., fun _ => rfl⟩
  | .writeHeld .. => ⟨_, .of_request .., fun _ => rfl⟩
  | .writeEnabled .. => ⟨_, .of_request .., fun _ => rfl⟩
  | .writeXoffMark .. => ⟨_, .of_request .., fun _ => rfl⟩
  | .writeXonMark .. => ⟨_, .of_request .., fun _ => rfl⟩
  | .writeStallMs .. => ⟨_, .of_request .., fun _ => rfl⟩
  | .readSetting .. => ⟨_, .of_request .., fun _ => rfl⟩
  | .writeDispositionExtent .. => ⟨_, .of_request .., fun _ => rfl⟩
  | .writePageReserve .. => ⟨_, .of_request .., fun _ => rfl⟩
  | .writeResumeMargin .. => ⟨_, .of_request .., fun _ => rfl⟩
  | .readCounters .. => ⟨_, .of_request .., fun _ => rfl⟩
  | .readIdentity .. => ⟨_, .of_request .., fun _ => rfl⟩
  | .setServiceState .. => ⟨_, .of_request .., fun _ => rfl⟩
  | .resetLane .. => ⟨_, .of_request .., fun _ => rfl⟩
  | .resetEngine .. => ⟨_, .of_request .., fun _ => rfl⟩
  | .copyProfile .. => ⟨_, .of_request .., fun _ => rfl⟩
  | .moveClass .. => ⟨_, .of_request .., fun _ => rfl⟩
  | .quiesceLane .. => ⟨_, .of_request .., fun _ => rfl⟩
  | .badRequest .. => ⟨_, .of_request .., fun _ => rfl⟩

/-- A step is an idle millisecond, or the event of the command at the front of the queue with the rest of the queue. -/
theorem step_cases {s t : State} (h : step s = .next t) :
    s.pending = [] ∧ t = tick s ∨ ∃ c rest f, s.pending = c :: rest ∧ Event f ∧ t = f (s.withPending rest) := by
  unfold step at h
  split at h
  next hnil => exact .inl ⟨hnil, (Host.Outcome.next.inj h).symm⟩
  next c rest hcons =>
    obtain ⟨f, hf, hexec⟩ := exec_event c
    exact .inr ⟨c, rest, f, hcons, hf, (Host.Outcome.next.inj ((hexec _).symm.trans h)).symm⟩

end Sys2Proof.Machine
end

