-- ==== Sys2Proof/Proofs/WalkSteps.lean ====
section
/-! The walk through the management requests, the transmit sides and the resets, and through every step. -/

namespace Sys2Proof.Machine

/-- The elementary changes that the carrying out of a request is made of. -/
structure RequestKept (P : Int → Bool → State → Prop) : Prop extends ItemKept P where
  member : ∀ {s} k e, P 0 false s → P 0 false (putMember k e s)
  profile : ∀ {s} k {p}, ProfileInRange p → P 0 false s → P 0 false (putProfile k p s)
  descriptor : ∀ {s} k x, P 0 false s → P 0 false (putDescriptor k x s)
  extent : ∀ {s n}, n ≤ 16 → P 0 false s → P 0 false (s.withDisposition { s.disposition with extent := n })
  reserve : ∀ {s n}, n ≤ 1024 → P 0 false s → P 0 false (evalStop (s.withMgmt { s.mgmt with pageReserve := n }))
  margin : ∀ {s n}, 16 ≤ n → n ≤ 512 → P 0 false s → P 0 false (evalStop (s.withMgmt { s.mgmt with resumeMargin := n }))
  clear : ∀ {s} g, P 0 false s → P 0 false (clearGroup g s)
  engine : ∀ {s}, P 0 false s → P 0 false (resetEngine s)

/-- The elementary changes that every step is made of. -/
structure StepKept (P : Int → Bool → State → Prop) : Prop extends LaneKept P, RequestKept P where
  binding : ∀ {s}, P 0 false s → P 0 true (grant s) → P 0 false (grant s)
  pending : ∀ {s} x, P 0 false s → P 0 false (s.withPending x)
  taking : ∀ {s} x, P 0 false s → P 0 false (s.withTaking x)
  intakeStart : ∀ {s}, P 0 false s → P 0 false (startIntakeFrame s)
  intakeGone : ∀ {s} c, P 0 false s → P 0 false (intakeFrameGone c s)
  replyGone : ∀ {s}, P 0 false s → P 0 false (exchangeReplyGone s)
  join : ∀ {s} e, P 0 false s → P 0 false (joinRequests e s)
  taken : ∀ {s e rest}, s.mgmt.requests = e :: rest → P 0 false s → P 0 false (s.withMgmt { s.mgmt with requests := rest })
  reply : ∀ {s} p b, replyRoom p s = true → P 0 false s → P 0 false (queueReply p b s)
  countDown : ∀ {s}, P 0 false s → P 0 false (countDown s)
  powerOn : ∀ {s}, P 0 false s → P 0 false (powerOn s)

/-! ### The clamping of a profile -/

theorem clampTo_le {lo hi v : Nat} (h : lo ≤ hi) : clampTo lo hi v ≤ hi := by unfold clampTo; omega

theorem le_clampTo (lo hi v : Nat) : lo ≤ clampTo lo hi v := by unfold clampTo; omega

/-- The light limit gives way to the dark limit and stays a byte (R103, step 2). -/
theorem lightLimit_between {dark light : Nat} (hdark : dark ≤ 254) (hlight : light ≤ 255) :
    dark < (if light ≤ dark then dark + 1 else light) ∧ (if light ≤ dark then dark + 1 else light) ≤ 255 := by
  split <;> omega

/-- The clamping leaves every field of a record in its range (R103). -/
theorem clampProfile_inRange {p : Profile} (h : p.outRes ∈ outputResolutions) : ProfileInRange (clampProfile p) := by
  refine ⟨h, ?_⟩
  simp only [clampProfile, clampPairs, clampLimits, clampRanges]
  refine ⟨clampTo_le (by decide), ⟨le_clampTo .., clampTo_le (by decide)⟩, Nat.min_le_right _ _, ⟨?_, ?_⟩,
    ⟨le_clampTo .., clampTo_le (by decide)⟩, ⟨le_clampTo .., clampTo_le (by decide)⟩,
    ⟨Nat.le_max_left _ _, Nat.max_le.mpr ⟨clampTo_le (by decide), clampTo_le (by decide)⟩⟩,
    ⟨Nat.le_max_left _ _, Nat.max_le.mpr ⟨clampTo_le (by decide), clampTo_le (by decide)⟩⟩,
    ⟨Nat.le_max_left _ _, Nat.max_le.mpr ⟨clampTo_le (by decide), clampTo_le (by decide)⟩⟩,
    ⟨Nat.le_max_left _ _, Nat.max_le.mpr ⟨clampTo_le (by decide), clampTo_le (by decide)⟩⟩,
    ⟨le_clampTo .., clampTo_le (by decide)⟩, ⟨le_clampTo .., clampTo_le (by decide)⟩,
    ⟨le_clampTo .., clampTo_le (by decide)⟩, clampTo_le (by decide)⟩
  · exact (lightLimit_between (Nat.min_le_right _ _) (clampTo_le (by decide))).1
  · exact (lightLimit_between (Nat.min_le_right _ _) (clampTo_le (by decide))).2

/-! ### Requests -/

theorem serveReadMember_state (i : BitVec 16) (s : State) : (serveReadMember i s).2 = s := by
  unfold serveReadMember; split <;> rfl

theorem serveReadProfile_state (i : Byte) (s : State) : (serveReadProfile i s).2 = s := by
  unfold serveReadProfile; split <;> rfl

theorem serveReadDisposition_state (i : Byte) (s : State) : (serveReadDisposition i s).2 = s := by
  unfold serveReadDisposition; split <;> rfl

theorem serveReadLaneField_state (l f : Byte) (s : State) : (serveReadLaneField l f s).2 = s := by
  unfold serveReadLaneField
  split
  · rfl
  · split <;> rfl

theorem serveReadSetting_state (n : Byte) (s : State) : (serveReadSetting n s).2 = s := by
  unfold serveReadSetting
  split
  · rfl
  · split
    · rfl
    · split <;> rfl

theorem twoSteps_kept {P : Int → Bool → State → Prop} {first : Answer × State} {second : State → Answer × State} (hfirst : P 0 false first.2)
    (hsecond : ∀ {t}, P 0 false t → P 0 false (second t).2) : P 0 false (twoSteps first second).2 := by
  unfold Machine.twoSteps
  split
  · exact hsecond hfirst
  · exact hsecond hfirst
  · exact hfirst
  · exact hfirst

variable {P : Int → Bool → State → Prop} {s : State}

section
variable (h : RequestKept P)
include h

theorem RequestKept.storeProfile (i : Byte) (p : Option Profile) (hp : P 0 false s) : P 0 false (storeProfile i p s).2 := by
  unfold Machine.storeProfile
  split
  · exact hp
  · split
    · exact hp
    · split
      next hres => exact h.profile _ (clampProfile_inRange hres) hp
      next => exact hp

theorem RequestKept.storeLaneField (l : Fin 16) (field : Byte) (v : BitVec 32) (hp : P 0 false s) :
    P 0 false (storeLaneField l field v s).2 := by
  unfold Machine.storeLaneField
  split
  · unfold storeHeld
    split
    · exact hp
    · exact h.writeHeld _ _ hp
  · split
    · unfold storeEnabled
      split
      · exact hp
      · exact h.modLane (fun c => LaneStep.enabled c _) (fun _ => rfl) hp
    · split
      · refine h.evalPaused _ (h.setLane_of_list (LaneStep.marks fun _ => ⟨le_clampTo .., clampTo_le (by decide), ?_⟩) rfl hp)
        have hxoff := le_clampTo 32 1024 v.toNat
        omega
      · split
        · refine h.evalPaused _ (h.setLane_of_list
            (LaneStep.marks (xoff := (s.lane l).xoff) fun hc => ⟨hc.1, hc.2.1, ?_⟩) rfl hp)
          have hxoff := hc.1
          omega
        · split
          · refine h.modLane (LaneStep.stallLane (Nat.min_le_right _ _)) (fun c => ?_) hp
            unfold stallLane
            split <;> rfl
          · split
            · exact hp
            · exact hp

theorem RequestKept.writeLaneField (lane field : Byte) (v : BitVec 32) (hp : P 0 false s) :
    P 0 false (serveWriteLaneField lane field v s).2 := by
  unfold serveWriteLaneField
  split
  · exact hp
  · exact h.storeLaneField _ _ _ hp

theorem RequestKept.writeSetting (n : Byte) (v : BitVec 16) (hp : P 0 false s) : P 0 false (serveWriteSetting n v s).2 := by
  unfold serveWriteSetting
  split
  · exact h.extent (clampTo_le (by decide)) hp
  · split
    · exact h.reserve (clampTo_le (by decide)) hp
    · split
      · exact h.margin (le_clampTo ..) (clampTo_le (by decide)) hp
      · exact hp

theorem RequestKept.serveService (target : Byte) (hp : P 0 false s) : P 0 false (serveService target s).2 := by
  unfold Machine.serveService
  split
  · exact hp
  · split
    · exact hp
    · exact h.watchService (h.service _ hp)

theorem RequestKept.storeMoved (m : BitVec 16) (c p : Byte) (hp : P 0 false s) : P 0 false (storeMoved m c p s).2 := by
  unfold Machine.storeMoved
  split
  · exact hp
  · split
    · exact hp
    · exact h.member _ _ hp

theorem RequestKept.writeMember (i : BitVec 16) (o : MemberOperand) (hp : P 0 false s) : P 0 false (serveWriteMember i o s).2 := by
  unfold serveWriteMember
  split
  · exact hp
  · split
    · exact hp
    · exact h.member _ _ hp

theorem RequestKept.writeDisposition (i : Byte) (o : DescriptorOperand) (hp : P 0 false s) :
    P 0 false (serveWriteDisposition i o s).2 := by
  unfold serveWriteDisposition
  split
  · exact hp
  · split
    · exact hp
    · exact h.descriptor _ _ hp

theorem RequestKept.readCounters (g l c : Byte) (hp : P 0 false s) : P 0 false (serveReadCounters g l c s).2 := by
  unfold serveReadCounters
  split
  · exact hp
  · split
    · exact hp
    · dsimp only
      split
      · exact h.clear _ hp
      · exact hp

theorem RequestKept.serve (r : Request) (hp : P 0 false s) : P 0 false (serve r s).2 := by
  cases r with
  | readMember i => exact (serveReadMember_state i s).symm ▸ hp
  | writeMember i e => exact h.writeMember _ _ hp
  | readProfile i => exact (serveReadProfile_state i s).symm ▸ hp
  | writeProfile i r => exact h.storeProfile _ _ hp
  | readDisposition i => exact (serveReadDisposition_state i s).symm ▸ hp
  | writeDisposition i d => exact h.writeDisposition _ _ hp
  | readLaneField l f => exact (serveReadLaneField_state l f s).symm ▸ hp
  | writeLaneField l f v => exact h.writeLaneField _ _ _ hp
  | readSetting n => exact (serveReadSetting_state n s).symm ▸ hp
  | writeSetting n v => exact h.writeSetting _ _ hp
  | readCounters g l c => exact h.readCounters _ _ _ hp
  | readIdentity => exact hp
  | setServiceState t => exact h.serveService _ hp
  | resetLane l =>
    show P 0 false (serveResetLane l s).2
    unfold serveResetLane
    split
    · exact hp
    · exact h.resetLane _ hp
  | resetEngine => exact h.engine hp
  | copyProfile a b => exact twoSteps_kept ((serveReadProfile_state a s).symm ▸ hp) fun ht => h.storeProfile _ _ ht
  | moveClass m c p => exact twoSteps_kept ((serveReadMember_state m s).symm ▸ hp) fun ht => h.storeMoved _ _ _ ht
  | quiesceLane l => exact twoSteps_kept (h.writeLaneField _ _ _ hp) fun ht => h.writeLaneField _ _ _ ht

theorem RequestKept.carryOut (p : Port) (r : Request) (hp : P 0 false s) : P 0 false (carryOut p r s).2 := by
  unfold Machine.carryOut
  split
  · exact hp
  · exact h.serve _ hp

end

/-! ### Replies and waiting requests through the operations -/

theorem evalStop_replies (s : State) : (evalStop s).flow.replies = s.flow.replies := by
  unfold evalStop
  split
  · split <;> rfl
  · split
    · split <;> rfl
    · rfl

theorem queueRefusal_replies (r : RefusalFrame) (s : State) : (queueRefusal r s).flow.replies = s.flow.replies := by
  unfold queueRefusal
  split <;> rfl

/-- Lane events touch neither the waiting requests nor the reply queues. -/
theorem requestQueues_kept (Q : List RequestEntry → List (List Byte) → List (List Byte) → Prop) :
    LaneKept fun _ _ s => Q s.mgmt.requests s.flow.replies s.egress.replies where
  lane _ _ := id
  reduction _ := id
  rebind _ _ := id
  granted _ := id
  owing := id
  flowFrame _ := id
  free n hp := by simpa [setFree, evalStop_replies] using hp
  items _ _ := id
  records _ := id
  refusal r hp := by simpa [queueRefusal_replies] using hp
  fault := id
  exhausted := id
  service _ := id
  intakePort _ := id
  exchange he hp := by simpa [he] using hp

/-- No request that is carried out fills a reply queue or the request queue: the queues only become shorter, at a reset. -/
theorem queueRooms_kept (n m k : Nat) : RequestKept fun _ _ s =>
    s.mgmt.requests.length ≤ n ∧ s.flow.replies.length ≤ m ∧ s.egress.replies.length ≤ k where
  toItemKept := (requestQueues_kept fun a b c => a.length ≤ n ∧ b.length ≤ m ∧ c.length ≤ k).toItemKept
  member _ _ := id
  profile _ _ _ := id
  descriptor _ _ := id
  extent _ := id
  reserve _ hp := by simpa [evalStop_replies] using hp
  margin _ _ hp := by simpa [evalStop_replies] using hp
  clear g := by cases g <;> exact id
  engine _ := ⟨Nat.zero_le _, Nat.zero_le _, Nat.zero_le _⟩

theorem replyRoom_iff (p : Port) (s : State) : replyRoom p s = true ↔ (repliesOf p s).length ≤ 7 := by
  rw [replyRoom, decide_eq_true_iff]
  exact Nat.lt_succ_iff

theorem replyRoom_carryOut {p q : Port} {r : Request} (hroom : replyRoom p s = true) :
    replyRoom p (carryOut q r s).2 = true := by
  rw [replyRoom_iff] at hroom ⊢
  cases p with
  | intake => exact ((queueRooms_kept _ 7 _).carryOut q r ⟨le_refl _, hroom, le_refl _⟩).2.1
  | exchange => exact ((queueRooms_kept _ _ 7).carryOut q r ⟨le_refl _, le_refl _, hroom⟩).2.2

/-! ### Steps -/

section
variable (h : StepKept P)
include h

theorem StepKept.answerRequest (e : RequestEntry) (hroom : replyRoom e.port s = true) (hp : P 0 false s) :
    P 0 false (answerRequest e s) := by
  unfold Machine.answerRequest
  split
  · exact h.reply _ _ hroom hp
  · exact h.reply _ _ (replyRoom_carryOut hroom) (h.carryOut _ _ hp)

theorem StepKept.takeUpTo (n : Nat) (hp : P 0 false s) : P 0 false (takeUpTo n s) := by
  induction n generalizing s with
  | zero => exact hp
  | succ n ih =>
    unfold Machine.takeUpTo
    split
    next => exact hp
    next e rest hrequests =>
      split
      next hroom => exact ih (h.answerRequest e (by simpa [replyRoom] using hroom) (h.taken hrequests hp))
      next => exact hp

theorem StepKept.takeRequests (hp : P 0 false s) : P 0 false (takeRequests s) := h.takeUpTo _ hp

theorem StepKept.handRequest (p : Port) (payload : List Byte) (hp : P 0 false s) : P 0 false (handRequest p payload s) :=
  h.startExchange (h.takeRequests (h.join _ hp))

theorem StepKept.received {f : State → State} (hf : Received f) (hp : P 0 false s) : P 0 false (f s) := by
  cases hf with
  | intakeFailure => exact h.intakePort _ hp
  | exchangeFailure => exact h.modExchangePort _ hp
  | intakeStray => exact h.intakePort _ (h.intakePort _ hp)
  | exchangeStray => exact h.modExchangePort _ (h.modExchangePort _ hp)
  | itemOpen => exact h.arriveItemOpen _ _ _ _ _ _ hp
  | sideOpen => exact h.arriveSideOpen _ _ _ _ _ _ hp
  | sideData => exact h.arriveSideData _ _ _ _ _ hp
  | sideClose => exact h.arriveSideClose _ _ hp
  | itemClose => exact h.arriveItemClose _ _ hp
  | request p payload =>
    refine h.handRequest p payload ?_
    cases p with
    | intake => exact h.intakePort _ hp
    | exchange => exact h.exchange rfl hp
  | halt => exact h.takeHalt (h.modExchangePort _ hp)
  | go => exact h.takeGo (h.modExchangePort _ hp)

theorem StepKept.intakeSent (hp : P 0 false s) : P 0 false (intakeSent s) := by
  unfold Machine.intakeSent
  split
  · exact hp
  · split
    · exact h.intakeGone _ hp
    · exact h.intakeGone _ hp
    · exact h.startExchange (h.takeRequests (h.intakeGone _ hp))

theorem StepKept.event {f : State → State} (hf : Event f) (hp : P 0 false s) : P 0 false (f s) := by
  cases hf with
  | powerOn => exact h.powerOn hp
  | pinRelease => exact h.taking _ hp
  | received hf =>
    unfold whenTaking
    split
    · exact h.received hf hp
    · exact hp
  | stallExpiry l => exact h.expireDue l hp
  | binding => exact h.binding hp (h.grant (h.owes hp))
  | outputRow u => exact h.completeRow u hp
  | sideEnd u => exact h.finishUnit u hp
  | recordStart => exact h.startRecord hp
  | innerFrame => exact h.innerFrameSent hp
  | itemEnd => exact h.lastFrameSent _ _ hp
  | itemNotice => exact h.lastFrameSent _ _ hp
  | exchangeReply =>
    dsimp only
    split
    · exact h.startAfterFrame (h.takeRequests (h.replyGone hp))
    · exact hp
  | intakeStart => exact h.intakeStart hp
  | intakeSent => exact h.intakeSent hp

/-- A property that the elementary changes keep is kept by every step. -/
theorem StepKept.step {t : State} (hp : P 0 false s) (hstep : step s = .next t) : P 0 false t := by
  rcases step_cases hstep with ⟨-, rfl⟩ | ⟨c, rest, f, -, hf, rfl⟩
  · exact h.countDown (h.expireAllDue hp)
  · exact h.event hf (h.pending rest hp)

end

end Sys2Proof.Machine
end

