-- ==== Sys2Proof/Proofs/Invariants.lean ====
section
/-! The invariants that the elementary changes keep one by one: the pages, the lawful records and contexts, the settings,
the global stop, the capacities of the queues. -/

namespace Sys2Proof.Machine

/-! ### Laws of each lane (R74, R76, R110, R132, R75) -/

@[simp] theorem lane_engineReset (s : State) (l : Fin 16) : (resetEngine s).lane l = engineLane (s.lane l) := by
  simp [State.lane, resetEngine]

@[simp] theorem lane_countDown (s : State) (l : Fin 16) : (countDown s).lane l = tickLane (s.lane l) := by
  simp [State.lane, countDown]

@[simp] theorem lane_powerOn (s : State) (l : Fin 16) : (powerOn s).lane l = Lane.reset := by
  simp [State.lane, powerOn, State.reset]

@[simp] theorem lane_setFree (n : Nat) (s : State) (l : Fin 16) : (setFree n s).lane l = s.lane l := by
  simp [State.lane]

@[simp] theorem lane_evalStop (s : State) (l : Fin 16) : (evalStop s).lane l = s.lane l := by
  simp [State.lane]

@[simp] theorem lane_queueRefusal (r : RefusalFrame) (s : State) (l : Fin 16) : (queueRefusal r s).lane l = s.lane l := by
  simp [State.lane]

@[simp] theorem lane_startIntakeFrame (s : State) (l : Fin 16) : (startIntakeFrame s).lane l = s.lane l := by
  unfold startIntakeFrame
  split
  · rfl
  · split
    · rfl
    · split
      · rfl
      · split <;> rfl

@[simp] theorem lane_intakeFrameGone (c : TxClass) (s : State) (l : Fin 16) : (intakeFrameGone c s).lane l = s.lane l := by
  cases c <;> rfl

@[simp] theorem lane_joinRequests (e : RequestEntry) (s : State) (l : Fin 16) : (joinRequests e s).lane l = s.lane l := by
  unfold joinRequests
  split <;> rfl

@[simp] theorem lane_queueReply (p : Port) (b : List Byte) (s : State) (l : Fin 16) :
    (queueReply p b s).lane l = s.lane l := by cases p <;> rfl

/-- A law of single lanes that every change of a lane keeps holds of every lane for ever. -/
theorem laneWise_kept {Q : Lane → Prop} (hstep : ∀ c e, LaneStep c e → Q c → Q e) (hengine : ∀ c, Q c → Q (engineLane c))
    (hreset : Q Lane.reset) : StepKept fun _ _ s => ∀ l, Q (s.lane l) := by
  have hset : ∀ {s : State} {l : Fin 16} {c : Lane}, LaneStep (s.lane l) c → (∀ k, Q (s.lane k)) →
      ∀ k, Q ((s.setLane l c).lane k) := by
    intro s l c hc hp k
    rw [State.lane_setLane]
    split
    · exact hstep _ _ hc (hp l)
    · exact hp k
  exact {
    lane := fun hc _ hp => hset hc hp
    reduction := fun _ => id
    rebind := fun _ _ => id
    granted := fun _ => id
    owing := id
    binding := fun _ => id
    flowFrame := fun _ => id
    free := fun n hp l => by simpa using hp l
    items := fun hc _ hp => hset hc hp
    records := fun hc hp => hset hc hp
    refusal := fun r hp l => by simpa using hp l
    fault := id
    exhausted := id
    service := fun _ => id
    intakePort := fun _ => id
    exchange := fun _ => id
    member := fun _ _ => id
    profile := fun _ _ _ => id
    descriptor := fun _ _ => id
    extent := fun _ => id
    reserve := fun _ hp l => by simpa using hp l
    margin := fun _ _ hp l => by simpa using hp l
    clear := fun g hp => by
      cases g with
      | lane l => exact hset (LaneStep.counters _ _) hp
      | intakePort => exact hp
      | exchangePort => exact hp
      | engine => exact hp
    engine := fun hp l => by simpa using hengine _ (hp l)
    pending := fun _ => id
    taking := fun _ => id
    intakeStart := fun hp l => by simpa using hp l
    intakeGone := fun c hp l => by simpa using hp l
    replyGone := id
    join := fun e hp l => by simpa using hp l
    taken := fun _ => id
    reply := fun p b _ hp l => by simpa using hp l
    countDown := fun hp l => by simpa using hstep _ _ (LaneStep.tickLane _) (hp l)
    powerOn := fun _ l => by simpa using hreset }

/-- Settles O59: each law is one of single lanes, which every change of a lane keeps. -/
theorem everyStepKeepsTheRecordsLawful : Obligations.EveryStepKeepsTheRecordsLawful := by
  refine ⟨fun s t hs hstep => ?lists, fun s t hs hstep => ?contexts, fun s t hs hstep => ?sets⟩
  case lists =>
    exact (laneWise_kept (Q := ListLawful) (fun c e h => h.list) (fun _ _ => ⟨Nat.zero_le 8, List.nodup_nil⟩)
      ⟨Nat.zero_le 8, List.nodup_nil⟩).step hs hstep
  case contexts =>
    exact (laneWise_kept (Q := LaneLawful) (fun c e h => h.context) (fun _ _ => by simp [LaneLawful, engineLane, Lane.reset])
      (by simp [LaneLawful, Lane.reset])).step hs hstep
  case sets =>
    rw [setsLawful_and_reworksBounded_iff] at hs ⊢
    exact (laneWise_kept (Q := fun c => ∀ i ∈ c.list, ItemLawful i) (fun c e h => h.items)
      (fun _ _ i hi => absurd hi List.not_mem_nil) (fun i hi => absurd hi List.not_mem_nil)).step hs hstep

/-! ### The pages (R61) -/

theorem pagesHeld_eq_sum (s : State) : s.pagesHeld = ∑ l, (s.lane l).pages := by
  have hlist : s.lanes.toList = List.ofFn s.lane := by
    refine List.ext_getElem (by simp) fun i _ _ => ?_
    rw [List.getElem_ofFn]
    rfl
  rw [State.pagesHeld, hlist, List.map_ofFn, List.sum_ofFn]
  rfl

theorem pagesHeld_setLane (s : State) (l : Fin 16) (c : Lane) :
    (s.setLane l c).pagesHeld + (s.lane l).pages = s.pagesHeld + c.pages := by
  have hothers : ∑ k ∈ Finset.univ.erase l, ((s.setLane l c).lane k).pages = ∑ k ∈ Finset.univ.erase l, (s.lane k).pages :=
    Finset.sum_congr rfl fun k hk => by rw [State.lane_setLane_ne s c (Finset.ne_of_mem_erase hk).symm]
  rw [pagesHeld_eq_sum, pagesHeld_eq_sum, ← Finset.add_sum_erase _ _ (Finset.mem_univ l), hothers,
    ← Finset.add_sum_erase _ (fun k => (s.lane k).pages) (Finset.mem_univ l), State.lane_setLane_self]
  omega

theorem pagesHeld_congr {s t : State} (h : ∀ l, (t.lane l).pages = (s.lane l).pages) : t.pagesHeld = s.pagesHeld := by
  rw [pagesHeld_eq_sum, pagesHeld_eq_sum, Finset.sum_congr rfl fun l _ => h l]

theorem pagesHeld_eq_zero {s : State} (h : ∀ l, (s.lane l).pages = 0) : s.pagesHeld = 0 := by
  rw [pagesHeld_eq_sum, Finset.sum_eq_zero fun l _ => h l]

/-- Free pages, pages held and the pages let go and not yet returned equal 2048. -/
def PagesBalance (d : Int) (s : State) : Prop := (s.freePages : Int) + s.pagesHeld + d = 2048

theorem pagesBalance_zero_iff (s : State) : PagesBalance 0 s ↔ PagesConserved s := by
  unfold PagesBalance PagesConserved
  omega

theorem PagesBalance.congr {d : Int} {s t : State} (hfree : t.freePages = s.freePages) (hlane : ∀ l, t.lane l = s.lane l)
    (h : PagesBalance d s) : PagesBalance d t := by
  have hheld : t.pagesHeld = s.pagesHeld := pagesHeld_congr fun l => by rw [hlane l]
  simpa only [PagesBalance, hfree, hheld] using h

theorem tickLane_list (c : Lane) : (tickLane c).list = c.list := by
  unfold tickLane; split <;> rfl

theorem pagesBalance_kept : StepKept fun d _ s => PagesBalance d s := by
  have hset : ∀ {d : Int} {s : State} {l : Fin 16} {c : Lane}, PagesBalance d s →
      PagesBalance (d + (s.lane l).pages - c.pages) (s.setLane l c) := by
    intro d s l c hp
    have hpages := pagesHeld_setLane s l c
    have hfree : (s.setLane l c).freePages = s.freePages := rfl
    unfold PagesBalance at hp ⊢
    rw [hfree]
    omega
  exact {
    lane := fun _ _ hp => hset hp
    reduction := fun _ => .congr rfl fun _ => rfl
    rebind := fun _ _ => .congr rfl fun _ => rfl
    granted := fun _ => id
    owing := id
    binding := fun _ => id
    flowFrame := fun _ => .congr rfl fun _ => rfl
    free := fun {d _ s} n hp => by
      have hheld : (setFree n s).pagesHeld = s.pagesHeld := pagesHeld_congr fun l => by simp
      have hfree : (setFree n s).freePages = n := by simp [setFree]
      unfold PagesBalance at hp ⊢
      rw [hheld, hfree]
      omega
    items := fun _ _ hp => hset hp
    records := fun _ hp => hset hp
    refusal := fun r => .congr (by simp) fun l => by simp
    fault := .congr rfl fun _ => rfl
    exhausted := .congr rfl fun _ => rfl
    service := fun _ => .congr rfl fun _ => rfl
    intakePort := fun _ => .congr rfl fun _ => rfl
    exchange := fun _ => .congr rfl fun _ => rfl
    member := fun _ _ => .congr rfl fun _ => rfl
    profile := fun _ _ _ => .congr rfl fun _ => rfl
    descriptor := fun _ _ => .congr rfl fun _ => rfl
    extent := fun _ => .congr rfl fun _ => rfl
    reserve := fun _ => .congr (by simp) fun l => by simp
    margin := fun _ _ => .congr (by simp) fun l => by simp
    clear := fun {s} g hp => by
      cases g with
      | lane l =>
        have key := hset (l := l) (c := { s.lane l with counters := LaneCounters.zero }) hp
        rwa [show ({ s.lane l with counters := LaneCounters.zero } : Lane).pages = (s.lane l).pages from rfl,
          Int.add_sub_cancel] at key
      | intakePort => exact .congr (s := s) rfl (fun _ => rfl) hp
      | exchangePort => exact .congr (s := s) rfl (fun _ => rfl) hp
      | engine => exact .congr (s := s) rfl (fun _ => rfl) hp
    engine := fun {s} _ => by
      have hheld : (resetEngine s).pagesHeld = 0 := pagesHeld_eq_zero fun l => by rw [lane_engineReset]; rfl
      rw [PagesBalance, hheld]
      rfl
    pending := fun _ => .congr rfl fun _ => rfl
    taking := fun _ => .congr rfl fun _ => rfl
    intakeStart := fun {s} => .congr (by
      unfold startIntakeFrame
      split
      · rfl
      · split
        · rfl
        · split
          · rfl
          · split <;> rfl) fun l => by simp
    intakeGone := fun c => .congr (by cases c <;> rfl) fun l => by simp
    replyGone := .congr rfl fun _ => rfl
    join := fun e => .congr (by unfold joinRequests; split <;> rfl) fun l => by simp
    taken := fun _ => .congr rfl fun _ => rfl
    reply := fun p b _ => .congr (by cases p <;> rfl) fun l => by simp
    countDown := fun {s} hp => by
      have hheld : (countDown s).pagesHeld = s.pagesHeld := pagesHeld_congr fun l => by
        rw [lane_countDown]
        exact congrArg listPages (tickLane_list _)
      rwa [PagesBalance, hheld]
    powerOn := fun {s} _ => by
      have hheld : (powerOn s).pagesHeld = 0 := pagesHeld_eq_zero fun l => by rw [lane_powerOn]; rfl
      rw [PagesBalance, hheld]
      rfl }

/-- Settles O55: each elementary change moves pages between the records, the pool and what is on its way between them. -/
theorem everyStepConservesPages : Obligations.EveryStepConservesPages := by
  intro s t hs hstep
  rw [← pagesBalance_zero_iff] at hs ⊢
  exact pagesBalance_kept.step hs hstep

/-! ### The settings, the profiles and the global stop (R103, R116, R160, R161) -/

/-- The settings of the Disposition Unit and the Management Unit and the profile records stand in their ranges. -/
def TablesInRange (s : State) : Prop :=
  s.disposition.extent ≤ 16 ∧ s.mgmt.pageReserve ≤ 1024 ∧ (16 ≤ s.mgmt.resumeMargin ∧ s.mgmt.resumeMargin ≤ 512)
    ∧ ∀ k : Fin 64, ProfileInRange s.admission.profiles[k.val]

theorem settingsInRange_iff (s : State) : SettingsInRange s ↔ (∀ l, LaneInRange (s.lane l)) ∧ TablesInRange s := Iff.rfl

theorem TablesInRange.congr {s t : State} (hextent : t.disposition.extent = s.disposition.extent)
    (hreserve : t.mgmt.pageReserve = s.mgmt.pageReserve) (hmargin : t.mgmt.resumeMargin = s.mgmt.resumeMargin)
    (hadmission : t.admission = s.admission) (h : TablesInRange s) : TablesInRange t := by
  rwa [TablesInRange, hextent, hreserve, hmargin, hadmission]

theorem Profile.reset_inRange : ProfileInRange Profile.reset := by
  unfold ProfileInRange; decide

theorem startIntakeFrame_blocks (s : State) : startIntakeFrame s = s.withFlow (startIntakeFrame s).flow := by
  unfold startIntakeFrame
  split
  · rfl
  · split
    · rfl
    · split
      · rfl
      · split <;> rfl

theorem intakeFrameGone_blocks (c : TxClass) (s : State) :
    intakeFrameGone c s = (s.withIntakePort (intakeFrameGone c s).intakePort).withFlow (intakeFrameGone c s).flow := by
  cases c <;> rfl

theorem tablesInRange_kept : StepKept fun _ _ s => TablesInRange s where
  lane _ _ := id
  reduction _ := id
  rebind _ _ := id
  granted _ := id
  owing := id
  binding _ := id
  flowFrame _ := id
  free _ := .congr (by simp) (by simp) (by simp) (by simp)
  items _ _ := id
  records _ := id
  refusal _ := .congr (by simp) (by simp) (by simp) (by simp)
  fault := id
  exhausted := id
  service _ := id
  intakePort _ := id
  exchange _ := id
  member _ _ := id
  profile {s} k {p} hprofile hp := by
    refine ⟨hp.1, hp.2.1, hp.2.2.1, fun j => ?_⟩
    show ProfileInRange (_ : Vector Profile 64)[j.val]
    simp only [putProfile, State.withAdmission_admission, Vector.getElem_set]
    split
    · exact hprofile
    · exact hp.2.2.2 j
  descriptor _ _ := id
  extent hn hp := ⟨hn, hp.2⟩
  reserve {s n} hn hp := TablesInRange.congr (s := s.withMgmt { s.mgmt with pageReserve := n }) (by simp) (by simp) (by simp)
    (by simp) ⟨hp.1, hn, hp.2.2⟩
  margin {s n} hlow hhigh hp := TablesInRange.congr (s := s.withMgmt { s.mgmt with resumeMargin := n }) (by simp) (by simp)
    (by simp) (by simp) ⟨hp.1, hp.2.1, ⟨hlow, hhigh⟩, hp.2.2.2⟩
  clear g := by cases g <;> exact id
  engine := id
  pending _ := id
  taking _ := id
  intakeStart {s} := by rw [startIntakeFrame_blocks]; exact id
  intakeGone c := by rw [intakeFrameGone_blocks]; exact id
  replyGone := id
  join e := by unfold joinRequests; split <;> exact id
  taken _ := id
  reply p b _ := by cases p <;> exact id
  countDown := id
  powerOn _ := ⟨Nat.zero_le _, (by decide : 128 ≤ 1024), (by decide : 16 ≤ 64 ∧ 64 ≤ 512), fun k => by
    simpa [powerOn, State.reset] using Profile.reset_inRange⟩

/-- An evaluation of the stop leaves it as the two marks ask. -/
theorem evalStop_settled (s : State) : StopSettled (evalStop s) := by
  unfold StopSettled
  rw [evalStop_freePages, evalStop_mgmt]
  unfold evalStop
  split
  · refine ⟨fun _ => ?_, by omega⟩
    split
    · assumption
    · rfl
  · split
    · refine ⟨by omega, fun _ => ?_⟩
      split
      · rfl
      next hstop => exact Bool.eq_false_iff.mpr hstop
    · exact ⟨by omega, by omega⟩

theorem StopSettled.congr {s t : State} (hfree : t.freePages = s.freePages) (hmgmt : t.mgmt.pageReserve = s.mgmt.pageReserve
    ∧ t.mgmt.resumeMargin = s.mgmt.resumeMargin) (hstop : t.flow.globalStop = s.flow.globalStop) (h : StopSettled s) :
    StopSettled t := by
  rwa [StopSettled, hfree, hmgmt.1, hmgmt.2, hstop]

/-- The global stop is evaluated whenever the free pages or its settings change; an engine reset, which clears it, frees
more pages than any reserve. -/
theorem stopSettled_kept : StepKept fun _ _ s => TablesInRange s ∧ StopSettled s where
  lane _ _ := id
  reduction _ := id
  rebind _ _ := id
  granted _ := id
  owing := id
  binding _ := id
  flowFrame _ := id
  free n hp := ⟨tablesInRange_kept.free (d := 0) (ow := false) n hp.1, evalStop_settled _⟩
  items _ _ := id
  records _ := id
  refusal r hp := ⟨tablesInRange_kept.refusal (d := 0) (ow := false) r hp.1, hp.2.congr (by simp) (by simp) (by
    unfold queueRefusal; split <;> rfl)⟩
  fault := id
  exhausted := id
  service _ := id
  intakePort _ := id
  exchange _ := id
  member _ _ := id
  profile {s} k {p} hprofile hp := ⟨tablesInRange_kept.profile k hprofile hp.1, hp.2⟩
  descriptor _ _ := id
  extent hn hp := ⟨tablesInRange_kept.extent hn hp.1, hp.2⟩
  reserve hn hp := ⟨tablesInRange_kept.reserve hn hp.1, evalStop_settled _⟩
  margin hlow hhigh hp := ⟨tablesInRange_kept.margin hlow hhigh hp.1, evalStop_settled _⟩
  clear g := by cases g <;> exact id
  engine {s} hp := ⟨tablesInRange_kept.engine hp.1, fun hlow => by
    have hfree : 2048 < s.mgmt.pageReserve := hlow
    have hreserve := hp.1.2.1
    omega, fun _ => rfl⟩
  pending _ := id
  taking _ := id
  intakeStart {s} hp := by
    refine ⟨tablesInRange_kept.intakeStart hp.1, hp.2.congr (by rw [startIntakeFrame_blocks]; rfl)
      (by rw [startIntakeFrame_blocks]; exact ⟨rfl, rfl⟩) ?_⟩
    unfold startIntakeFrame
    split
    · rfl
    · split
      · rfl
      · split
        · rfl
        · split <;> rfl
  intakeGone c hp := ⟨tablesInRange_kept.intakeGone c hp.1, by cases c <;> exact hp.2⟩
  replyGone := id
  join e := by unfold joinRequests; split <;> exact id
  taken _ := id
  reply p b _ := by cases p <;> exact id
  countDown := id
  powerOn hp := ⟨tablesInRange_kept.powerOn hp.1, by simp [StopSettled, powerOn, State.reset, Mgmt.reset, Config.pageCount,
    Flow.reset]⟩

/-- Settles O60: the lane fields are a law of single lanes, the tables and the global stop are kept by each change. -/
theorem everyStepKeepsTheSettingsInRange : Obligations.EveryStepKeepsTheSettingsInRange := by
  refine ⟨fun s t hs hstep => ?settings, fun s t hs hstep => ?stop⟩
  case settings =>
    rw [settingsInRange_iff] at hs ⊢
    exact ⟨(laneWise_kept (Q := LaneInRange) (fun c e h => h.settings) (fun c hc => hc)
      (by simp [LaneInRange, Lane.reset])).step hs.1 hstep, tablesInRange_kept.step hs.2 hstep⟩
  case stop => exact (stopSettled_kept.step ⟨((settingsInRange_iff s).mp hs.1).2, hs.2⟩ hstep).2

/-! ### The capacities of the queues (R151, R162, R163, R166) -/

/-- What a flow frame is about: a lane, or none for the whole intake. -/
def FlowFrame.scope : FlowFrame → Option (Fin 16)
  | .pause l => some l
  | .resume l => some l
  | .stopAll => none
  | .startAll => none

theorem sameScope_iff (f g : FlowFrame) : sameScope f g = true ↔ f.scope = g.scope := by
  cases f <;> cases g <;> simp [sameScope, FlowFrame.scope]

theorem pairwise_scope_iff (q : List FlowFrame) :
    q.Pairwise (fun a b => sameScope a b = false) ↔ (q.map FlowFrame.scope).Nodup := by
  rw [List.Nodup, List.pairwise_map]
  simp only [← Bool.not_eq_true, sameScope_iff, ne_eq]

/-- There are 17 scopes, so a queue with one frame of each scope at most holds at most 17 frames. -/
theorem length_le_of_pairwise {q : List FlowFrame} (h : q.Pairwise fun a b => sameScope a b = false) : q.length ≤ 17 := by
  have hcard := ((pairwise_scope_iff q).mp h).length_le_card
  simpa using hcard

theorem enqueueFlow_pairwise {f : FlowFrame} {q : List FlowFrame} (h : q.Pairwise fun a b => sameScope a b = false) :
    (enqueueFlow f q).Pairwise fun a b => sameScope a b = false := by
  refine List.pairwise_append.mpr ⟨h.filter _, List.pairwise_singleton _ _, fun a ha b hb => ?_⟩
  obtain rfl := List.mem_singleton.mp hb
  have hne : sameScope b a = false := by simpa using (List.mem_filter.mp ha).2
  rw [← Bool.not_eq_true, sameScope_iff] at hne ⊢
  exact fun e => hne e.symm

/-- A flow queue within its capacity, one frame of each scope at most. -/
def FlowQueueLawful (q : List FlowFrame) : Prop := q.Pairwise (fun a b => sameScope a b = false) ∧ q.length ≤ 17

theorem FlowQueueLawful.of_pairwise {q : List FlowFrame} (h : q.Pairwise fun a b => sameScope a b = false) :
    FlowQueueLawful q := ⟨h, length_le_of_pairwise h⟩

theorem FlowQueueLawful.enqueue {q : List FlowFrame} (f : FlowFrame) (h : FlowQueueLawful q) :
    FlowQueueLawful (enqueueFlow f q) := .of_pairwise (enqueueFlow_pairwise h.1)

theorem evalStop_flowQueue {s : State} (h : FlowQueueLawful s.flow.flowQueue) : FlowQueueLawful (evalStop s).flow.flowQueue := by
  unfold evalStop
  split
  · split
    · exact h
    · exact h.enqueue _
  · split
    · split
      · exact h.enqueue _
      · exact h
    · exact h

theorem engineFlowQueue_lawful (s : State) : FlowQueueLawful (engineFlowQueue s) := by
  refine .of_pairwise ((pairwise_scope_iff _).mpr ?_)
  have hlanes : (allLanes.filter fun l => (s.lane l).paused).Nodup := List.Nodup.filter _ (by decide)
  simpa [engineFlowQueue, Function.comp_def, FlowFrame.scope] using hlanes.map (Option.some_injective _)

theorem evalStop_refusals (s : State) : (evalStop s).flow.refusals = s.flow.refusals := by
  unfold evalStop
  split
  · split <;> rfl
  · split
    · split <;> rfl
    · rfl

theorem QueuesBounded.iff (s : State) : QueuesBounded s ↔ (s.mgmt.requests.length ≤ 8 ∧ s.flow.replies.length ≤ 8
    ∧ s.egress.replies.length ≤ 8) ∧ s.flow.refusals.length ≤ 32 ∧ FlowQueueLawful s.flow.flowQueue := by
  simp only [QueuesBounded, FlowQueueLawful, and_assoc]

theorem tail_length_le {α : Type} {xs : List α} {n : Nat} (h : xs.length ≤ n) : xs.tail.length ≤ n := by
  rw [List.length_tail]; omega

/-- The queues of requests and replies, the refusals and the flow queue keep their capacities. -/
theorem queuesBounded_kept : StepKept fun _ _ s => QueuesBounded s := by
  simp only [QueuesBounded.iff]
  exact {
    lane := fun _ _ => id
    reduction := fun _ => id
    rebind := fun _ _ => id
    granted := fun _ => id
    owing := id
    binding := fun _ => id
    flowFrame := fun f hp => ⟨hp.1, hp.2.1, hp.2.2.enqueue f⟩
    free := fun n hp => ⟨by simpa [setFree, evalStop_replies] using hp.1, by simpa [setFree, evalStop_refusals] using hp.2.1,
      evalStop_flowQueue (s := State.withFree _ n) hp.2.2⟩
    items := fun _ _ => id
    records := fun _ => id
    refusal := fun r hp => by
      unfold queueRefusal
      split
      next hroom => exact ⟨hp.1, by simpa [Config.refusalCapacity] using hroom, hp.2.2⟩
      next => exact hp
    fault := id
    exhausted := id
    service := fun _ => id
    intakePort := fun _ => id
    exchange := fun he hp => by simpa [he] using hp
    member := fun _ _ => id
    profile := fun _ _ _ => id
    descriptor := fun _ _ => id
    extent := fun _ => id
    reserve := fun _ hp => ⟨by simpa [evalStop_replies] using hp.1, by simpa [evalStop_refusals] using hp.2.1,
      evalStop_flowQueue (s := State.withMgmt _ _) hp.2.2⟩
    margin := fun _ _ hp => ⟨by simpa [evalStop_replies] using hp.1, by simpa [evalStop_refusals] using hp.2.1,
      evalStop_flowQueue (s := State.withMgmt _ _) hp.2.2⟩
    clear := fun g => by cases g <;> exact id
    engine := fun {s} _ => ⟨⟨Nat.zero_le _, Nat.zero_le _, Nat.zero_le _⟩, Nat.zero_le _, engineFlowQueue_lawful s⟩
    pending := fun _ => id
    taking := fun _ => id
    intakeStart := fun {s} hp => by
      unfold startIntakeFrame
      split
      · exact hp
      · split
        next f rest hqueue =>
          refine ⟨hp.1, hp.2.1, .of_pairwise ?_⟩
          have hpairs := hp.2.2.1
          rw [hqueue] at hpairs
          exact (List.pairwise_cons.mp hpairs).2
        next =>
          split
          · exact hp
          · split
            · exact hp
            · exact hp
    intakeGone := fun c hp => by
      cases c with
      | flow => exact hp
      | refusal => exact ⟨hp.1, tail_length_le hp.2.1, hp.2.2⟩
      | reply => exact ⟨⟨hp.1.1, tail_length_le hp.1.2.1, hp.1.2.2⟩, hp.2⟩
    replyGone := fun hp => ⟨⟨hp.1.1, hp.1.2.1, tail_length_le hp.1.2.2⟩, hp.2⟩
    join := fun e hp => by
      unfold joinRequests
      split
      next hroom => exact ⟨⟨by simpa [Config.requestCapacity] using hroom, hp.1.2⟩, hp.2⟩
      next => exact hp
    taken := fun {s e rest} hrequests hp => by
      refine ⟨⟨?_, hp.1.2⟩, hp.2⟩
      have hlength := hp.1.1
      rw [hrequests, List.length_cons] at hlength
      exact Nat.le_of_succ_le hlength
    reply := fun {s} p b hroom hp => by
      rw [replyRoom_iff] at hroom
      cases p with
      | intake => exact ⟨⟨hp.1.1, by simpa [queueReply, repliesOf] using Nat.succ_le_succ hroom, hp.1.2.2⟩, hp.2⟩
      | exchange => exact ⟨⟨hp.1.1, hp.1.2.1, by simpa [queueReply, repliesOf] using Nat.succ_le_succ hroom⟩, hp.2⟩
    countDown := id
    powerOn := fun _ => ⟨⟨Nat.zero_le _, Nat.zero_le _, Nat.zero_le _⟩, Nat.zero_le _, .of_pairwise List.Pairwise.nil⟩ }

/-! ### Waiting requests (R167) -/

/-- The head of the request queue, if any, finds the reply queue of its link full. -/
def HeadWaits (requests : List RequestEntry) (intake exchange : List (List Byte)) : Prop :=
  ∀ e rest, requests = e :: rest → 8 ≤ (if e.port = .intake then intake else exchange).length

theorem requestsSettled_iff (s : State) :
    RequestsSettled s ↔ HeadWaits s.mgmt.requests s.flow.replies s.egress.replies := by
  refine forall_congr' fun e => forall_congr' fun rest => imp_congr_right fun _ => ?_
  rw [← Bool.not_eq_true, replyRoom_iff, Nat.not_le]
  cases e.port <;> simp [repliesOf, Nat.succ_le_iff]

theorem requestsSettled_lane_kept : LaneKept fun _ _ s => RequestsSettled s := by
  simp only [requestsSettled_iff]
  exact requestQueues_kept HeadWaits

theorem answerRequest_requests_le {e : RequestEntry} {s : State} {n : Nat} (h : s.mgmt.requests.length ≤ n) :
    (answerRequest e s).mgmt.requests.length ≤ n := by
  have hreply : ∀ p b (t : State), (queueReply p b t).mgmt = t.mgmt := fun p b t => by cases p <;> rfl
  unfold answerRequest
  split <;> rw [hreply]
  · exact h
  · exact ((queueRooms_kept n _ _).carryOut _ _ ⟨h, le_refl _, le_refl _⟩).1

theorem takeUpTo_settled {n : Nat} {s : State} (h : s.mgmt.requests.length ≤ n) : RequestsSettled (takeUpTo n s) := by
  induction n generalizing s with
  | zero =>
    intro e rest hrequests
    have hnil : s.mgmt.requests = [] := List.length_eq_zero_iff.mp (Nat.le_zero.mp h)
    exact absurd (hnil.symm.trans hrequests) (by simp)
  | succ n ih =>
    unfold takeUpTo
    split
    next hnil =>
      intro e rest hrequests
      exact absurd (hnil.symm.trans hrequests) (by simp)
    next e rest hcons =>
      split
      next =>
        refine ih (answerRequest_requests_le ?_)
        have hlength := h
        rw [hcons, List.length_cons] at hlength
        exact Nat.le_of_succ_le_succ hlength
      next hroom =>
        intro e' rest' hrequests
        obtain ⟨rfl, -⟩ := List.cons.inj (hcons.symm.trans hrequests)
        exact Bool.eq_false_iff.mpr hroom

/-- The Management Unit leaves a request only where its reply has no place (R167). -/
theorem takeRequests_settled (s : State) : RequestsSettled (takeRequests s) := takeUpTo_settled (le_refl _)

theorem handRequest_settled (p : Port) (payload : List Byte) (s : State) : RequestsSettled (handRequest p payload s) :=
  requestsSettled_lane_kept.startExchange (d := 0) (ow := false) (takeRequests_settled _)

theorem RequestsSettled.received {f : State → State} (hf : Received f) {s : State} (h : RequestsSettled s) :
    RequestsSettled (f s) := by
  have k := requestsSettled_lane_kept
  cases hf with
  | intakeFailure => exact h
  | exchangeFailure => exact h
  | intakeStray => exact h
  | exchangeStray => exact h
  | itemOpen => exact k.arriveItemOpen (d := 0) (ow := false) _ _ _ _ _ _ h
  | sideOpen => exact k.arriveSideOpen (d := 0) (ow := false) _ _ _ _ _ _ h
  | sideData => exact k.arriveSideData (d := 0) (ow := false) _ _ _ _ _ h
  | sideClose => exact k.arriveSideClose (d := 0) (ow := false) _ _ h
  | itemClose => exact k.arriveItemClose (d := 0) (ow := false) _ _ h
  | request p payload => exact handRequest_settled p payload _
  | halt => exact h
  | go => exact k.takeGo (d := 0) (ow := false) h

theorem startIntakeFrame_replies (s : State) : (startIntakeFrame s).flow.replies = s.flow.replies := by
  unfold startIntakeFrame
  split
  · rfl
  · split
    · rfl
    · split
      · rfl
      · split <;> rfl

theorem RequestsSettled.congr {s t : State} (hrequests : t.mgmt.requests = s.mgmt.requests)
    (hreplies : ∀ p, repliesOf p t = repliesOf p s) (h : RequestsSettled s) : RequestsSettled t := by
  intro e rest he
  rw [replyRoom, hreplies]
  exact h e rest (hrequests ▸ he)

theorem RequestsSettled.event {f : State → State} (hf : Event f) {s : State} (h : RequestsSettled s) :
    RequestsSettled (f s) := by
  have k := requestsSettled_lane_kept
  cases hf with
  | powerOn => exact fun e rest he => absurd he (by simp [Machine.powerOn, State.reset, Mgmt.reset])
  | pinRelease => exact h
  | received hf =>
    unfold whenTaking
    split
    · exact h.received hf
    · exact h
  | stallExpiry l => exact k.expireDue (d := 0) (ow := false) l h
  | binding => exact k.grant (d := 0) h
  | outputRow u => exact k.completeRow (d := 0) (ow := false) u h
  | sideEnd u => exact k.finishUnit (d := 0) (ow := false) u h
  | recordStart => exact k.startRecord (d := 0) (ow := false) h
  | innerFrame => exact k.innerFrameSent (d := 0) (ow := false) h
  | itemEnd => exact k.lastFrameSent (d := 0) (ow := false) _ _ h
  | itemNotice => exact k.lastFrameSent (d := 0) (ow := false) _ _ h
  | exchangeReply =>
    dsimp only
    split
    · exact k.startAfterFrame (d := 0) (ow := false) (takeRequests_settled _)
    · exact h
  | intakeStart =>
    refine h.congr (by rw [startIntakeFrame_blocks]; rfl) fun p => ?_
    cases p with
    | intake => exact startIntakeFrame_replies s
    | exchange => rw [startIntakeFrame_blocks]; rfl
  | intakeSent =>
    unfold intakeSent
    split
    · exact h
    · split
      · exact h
      · exact h
      · exact k.startExchange (d := 0) (ow := false) (takeRequests_settled _)

theorem RequestsSettled.countDown {s : State} (h : RequestsSettled s) : RequestsSettled (countDown s) := h

/-- Settles O58: each event that frees a reply place or brings a request takes the requests that can be taken. -/
theorem everyStepKeepsTheQueues : Obligations.EveryStepKeepsTheQueues := by
  intro s t hs hstep
  refine ⟨?_, queuesBounded_kept.step hs.2 hstep⟩
  rcases step_cases hstep with ⟨-, rfl⟩ | ⟨c, rest, f, -, hf, rfl⟩
  · exact RequestsSettled.countDown (requestsSettled_lane_kept.expireAllDue (d := 0) (ow := false) hs.1)
  · exact RequestsSettled.event (s := s.withPending rest) hf hs.1

/-! ### The unit arbiter (R54) -/

/-- Where no grants are owed, none is left to make. -/
theorem arbiterSettled_kept : StepKept fun _ ow s => ow = false → ArbiterSettled s where
  lane _ _ := id
  reduction _ _ := nofun
  rebind c _ hp how := (hp how).setUnit_some _ c
  granted hs _ _ := hs
  owing _ := nofun
  flowFrame _ := id
  free _ hp how := (hp how).congr (by simp)
  items _ _ := id
  records _ := id
  refusal _ hp how := (hp how).congr (by simp)
  fault := id
  exhausted := id
  service _ := id
  intakePort _ := id
  exchange _ := id
  member _ _ := id
  profile _ _ _ := id
  descriptor _ _ := id
  extent _ := id
  reserve _ hp how := (hp how).congr (by simp)
  margin _ _ hp how := (hp how).congr (by simp)
  clear g := by cases g <;> exact id
  engine _ _ := .inr ⟨rfl, rfl⟩
  binding hp _ how := (grant_of_settled (hp how)).symm ▸ hp how
  pending _ := id
  taking _ := id
  intakeStart hp how := (hp how).congr (by rw [startIntakeFrame_blocks]; rfl)
  intakeGone c := by cases c <;> exact id
  replyGone := id
  join e := by unfold joinRequests; split <;> exact id
  taken _ := id
  reply p b _ := by cases p <;> exact id
  countDown := id
  powerOn _ _ := .inr ⟨rfl, rfl⟩

/-- Settles O56: every operation that frees a unit or adds a waiter makes the grants that this allows. -/
theorem everyStepLeavesNoGrantToMake : Obligations.EveryStepLeavesNoGrantToMake := fun _ _ hs hstep =>
  arbiterSettled_kept.step (fun _ => hs) hstep rfl

end Sys2Proof.Machine
end

