-- ==== Sys2Proof/Proofs/Payloads.lean ====
section
/-! The payloads of management requests: their bytes by the tables of R187, read back as the request. -/

namespace Sys2Proof.Machine

/-! ### Fields of two, three and four bytes -/

theorem extract_append_high {n m j : Nat} (k : Nat) (a : BitVec n) (b : BitVec m) :
    (a ++ b).extractLsb' (m + k) j = a.extractLsb' k j := by
  apply BitVec.eq_of_getLsbD_eq
  intro i hi
  have hge : ¬ m + k + i < m := by omega
  have hsub : m + k + i - m = k + i := by omega
  simp [BitVec.getLsbD_extractLsb', BitVec.getLsbD_append, hge, hsub]

theorem extract_append_low {n m k j : Nat} (a : BitVec n) (b : BitVec m) (h : k + j ≤ m) :
    (a ++ b).extractLsb' k j = b.extractLsb' k j := by
  apply BitVec.eq_of_getLsbD_eq
  intro i hi
  have hlt : k + i < m := by omega
  simp [BitVec.getLsbD_extractLsb', BitVec.getLsbD_append, hlt]

theorem extract_byte (a : Byte) : a.extractLsb' 0 8 = a := by simp

@[simp] theorem be16_word16 (a b : Byte) : be16 (word16 a b) = [a, b] := by
  rw [be16, word16, extract_append_high 0, extract_append_low _ _ (by omega), extract_byte, extract_byte]

@[simp] theorem be24_word24 (a b c : Byte) : be24 (word24 a b c) = [a, b, c] := by
  rw [be24, word24, extract_append_high 8, extract_append_high 0, extract_append_high 0, extract_append_low _ _ (by omega),
    extract_append_low _ _ (by omega), extract_byte, extract_byte, extract_byte]

@[simp] theorem be32_word32 (a b c d : Byte) : be32 (word32 a b c d) = [a, b, c, d] := by
  rw [be32, word32, extract_append_high 16, extract_append_high 8, extract_append_high 8, extract_append_high 0,
    extract_append_high 0, extract_append_high 0, extract_append_low _ _ (by omega), extract_append_low _ _ (by omega),
    extract_append_low _ _ (by omega), extract_byte, extract_byte, extract_byte, extract_byte]

@[simp] theorem length_be16 (x : BitVec 16) : (be16 x).length = 2 := rfl
@[simp] theorem length_be24 (x : BitVec 24) : (be24 x).length = 3 := rfl
@[simp] theorem length_be32 (x : BitVec 32) : (be32 x).length = 4 := rfl

/-! ### Structured operands -/

theorem memberOperand?_memberBytes (e : MemberOperand) : memberOperand? (memberBytes e) = some e := by
  obtain ⟨p, s, d, ⟨⟨m⟩, hm⟩⟩ := e
  match m, hm with
  | [_, _, _, _, _, _, _, _], _ => rfl

theorem memberBytes_of_memberOperand? {bytes : List Byte} {e : MemberOperand} (h : memberOperand? bytes = some e) :
    bytes = memberBytes e := by
  unfold memberOperand? at h
  split at h
  · obtain rfl := Option.some.inj h
    rfl
  · cases h

theorem profileOperand?_profileBytes (o : ProfileOperand) : profileOperand? (profileBytes o) = some o := by
  cases o
  simp only [profileOperand?, profileBytes, be16, be24, List.cons_append, List.nil_append, word16_extract, word24_extract]

theorem profileBytes_of_profileOperand? {bytes : List Byte} {o : ProfileOperand} (h : profileOperand? bytes = some o) :
    bytes = profileBytes o := by
  unfold profileOperand? at h
  split at h
  · obtain rfl := Option.some.inj h
    simp only [profileBytes, be16_word16, be24_word24, List.cons_append, List.nil_append]
  · cases h

/-! ### Requests -/

theorem parseOperands_operands (r : Request) : parseOperands r.code r.operands = some r := by
  cases r <;>
    simp [parseOperands, Request.code, Request.operands, be16, be32, word16_extract, word32_extract, descriptorBytes,
      memberOperand?_memberBytes, profileOperand?_profileBytes]

theorem eq_some_of_ite {α : Type} {c : Prop} [Decidable c] {a b : Option α} {x : α} (h : (if c then a else b) = some x) :
    c ∧ a = some x ∨ ¬c ∧ b = some x := by
  split at h
  · exact .inl ⟨by assumption, h⟩
  · exact .inr ⟨by assumption, h⟩

/-- Each row of the table of codes reads its operands back; a code of no row reads nothing. -/
theorem operands_of_parseOperands {code : Byte} {ops : List Byte} {r : Request} (h : parseOperands code ops = some r) :
    code = r.code ∧ ops = r.operands := by
  unfold parseOperands at h
  iterate 18
    replace h := eq_some_of_ite h
    obtain ⟨hcode, h⟩ | ⟨-, h⟩ := h
    rotate_left
  case inr => cases h
  on_goal 2 =>
    split at h
    · obtain ⟨e, he, rfl⟩ := Option.map_eq_some_iff.mp h
      simp [hcode, Request.code, Request.operands, memberBytes_of_memberOperand? he]
    · cases h
  on_goal 3 =>
    split at h
    · obtain ⟨o, ho, rfl⟩ := Option.map_eq_some_iff.mp h
      simp [hcode, Request.code, Request.operands, profileBytes_of_profileOperand? ho]
    · cases h
  all_goals
    split at h
    · obtain rfl := Option.some.inj h
      simp [hcode, Request.code, Request.operands, descriptorBytes]
    · cases h

theorem parseRequest_payload (tag : BitVec 16) (r : Request) : parseRequest (r.payload tag) = .request tag r := by
  show (match parseOperands r.code r.operands with
    | some r => Parsed.request (word16 (tag.extractLsb' 8 8) (tag.extractLsb' 0 8)) r
    | none => Parsed.bad (word16 (tag.extractLsb' 8 8) (tag.extractLsb' 0 8))) = _
  rw [parseOperands_operands, word16_extract]

theorem payload_of_parseRequest {payload : List Byte} {tag : BitVec 16} {r : Request}
    (h : parseRequest payload = .request tag r) : payload = r.payload tag := by
  unfold parseRequest at h
  split at h
  next code t1 t0 ops =>
    split at h
    next r' hops =>
      obtain ⟨rfl, rfl⟩ := Parsed.request.inj h
      obtain ⟨rfl, rfl⟩ := operands_of_parseOperands hops
      simp [Request.payload]
    next => cases h
  next => cases h

/-- Settles O44: each row of the tables is laid out and read back, and nothing else is read as a request. -/
theorem requestPayloadsAreReadBack : Obligations.RequestPayloadsAreReadBack := by
  refine ⟨parseRequest_payload, fun _ _ _ => payload_of_parseRequest, fun tag => ?_⟩
  simp [Request.payload, Request.code, Request.operands, memberBytes, profileBytes, descriptorBytes]

end Sys2Proof.Machine
end

