-- ==== Sys2Proof/Proofs/Starts.lean ====
section
/-! What is left to start on the exchange link: nothing after any event, but for what a reset taken next holds back
(R143, R145, R151, R152; logs 32 and 33). -/

namespace Sys2Proof.Machine

/-! ### The record in EMITTING, and the idle link -/

/-- The record in EMITTING stands in its list (R141). -/
def EmissionStands (s : State) : Prop := ∀ e, s.egress.emission = some e → e.seq ∈ (s.lane e.lane).seqs

/-- Nothing is left to start: a frame is in progress, the port is halted, or there is nothing to send. -/
def NothingToStart (s : State) : Prop :=
  s.egress.inProgress.isSome = true ∨ s.egress.halted = true
    ∨ (s.egress.emission = none ∧ s.egress.replies = [] ∧ ∀ l, headReady s l = false)

/-- No reset comes together with the event just taken. -/
def NoResetNext (s : State) : Prop := engineResetNext s = false ∧ ∀ l, laneResetNext l s = false

/-- What may be started has been, unless a reset taken next holds it back. -/
def StartsDone (s : State) : Prop := EmissionStands s ∧ (NoResetNext s → NothingToStart s)

theorem emissionStands_iff (s : State) :
    EmissionStands s ↔ ∀ e, s.egress.emission = some e → (s.item? e.lane e.seq).isSome = true := by
  simp only [EmissionStands, State.item?, Lane.item?_isSome_iff]

theorem exchangeSettled_iff (s : State) : ExchangeSettled s ↔ EmissionStands s ∧ NothingToStart s := by
  rw [emissionStands_iff]; rfl

theorem not_noResetNext_iff (s : State) : ¬ NoResetNext s ↔ engineResetNext s = true ∨ ∃ l, laneResetNext l s = true := by
  simp only [NoResetNext, not_and_or, not_forall, Bool.not_eq_false]

theorem startsMade_iff (s : State) : StartsMade s ↔ StartsDone s := by
  rw [StartsMade, exchangeSettled_iff, ← emissionStands_iff, ← not_noResetNext_iff, ← and_or_left, StartsDone,
    imp_iff_not_or, or_comm]

theorem EmissionStands.congr {s t : State} (hemission : t.egress.emission = s.egress.emission)
    (hseqs : ∀ l, (t.lane l).seqs = (s.lane l).seqs) (h : EmissionStands s) : EmissionStands t := by
  intro e he
  rw [hseqs]
  exact h e (hemission ▸ he)

theorem EmissionStands.of_none {s : State} (h : s.egress.emission = none) : EmissionStands s := by
  simp [EmissionStands, h]

theorem headReady_eq (s : State) (l : Fin 16) :
    headReady s l = (s.lane l).stamps.head?.any fun p => decide (p.2 = .ready) := by
  rw [headReady, Lane.stamps]
  cases (s.lane l).list <;> rfl

theorem NothingToStart.congr {s t : State} (hegress : t.egress = s.egress)
    (hstamps : ∀ l, (t.lane l).stamps = (s.lane l).stamps) (h : NothingToStart s) : NothingToStart t := by
  simpa only [NothingToStart, headReady_eq, hegress, hstamps] using h

theorem State.lane_setLane_cases (s : State) (l k : Fin 16) (c : Lane) :
    l = k ∧ (s.setLane l c).lane k = c ∨ (s.setLane l c).lane k = s.lane k := by
  rw [State.lane_setLane]
  split
  · exact .inl ⟨by assumption, rfl⟩
  · exact .inr rfl

theorem State.stamps_setLane {s : State} {l : Fin 16} {c : Lane} (h : c.stamps = (s.lane l).stamps) (k : Fin 16) :
    ((s.setLane l c).lane k).stamps = (s.lane k).stamps := by
  rcases s.lane_setLane_cases l k c with ⟨rfl, e⟩ | e <;> rw [e]
  exact h

theorem State.seqs_setLane {s : State} {l : Fin 16} {c : Lane} (h : c.seqs = (s.lane l).seqs) (k : Fin 16) :
    ((s.setLane l c).lane k).seqs = (s.lane k).seqs := by
  rcases s.lane_setLane_cases l k c with ⟨rfl, e⟩ | e <;> rw [e]
  exact h

/-- No event of a side makes a head READY or touches the exchange link. -/
theorem nothingToStart_kept : SideKept fun _ _ s => NothingToStart s where
  lane _ hstamps := .congr rfl (State.stamps_setLane hstamps)
  reduction _ := id
  rebind _ _ := id
  granted _ := id
  owing := id
  flowFrame _ := id
  free _ := .congr (by simp) fun l => by simp

/-- No request and no judgement takes a record out of a list, or changes which record is in EMITTING but at an engine reset. -/
theorem emissionStands_kept : RequestKept fun _ _ s => EmissionStands s where
  lane _ hstamps := .congr rfl (State.seqs_setLane (Lane.seqs_eq_of_stamps_eq hstamps))
  reduction _ := id
  rebind _ _ := id
  granted _ := id
  owing := id
  flowFrame _ := id
  free _ := .congr (by simp) fun l => by simp
  items _ hmove := .congr rfl (State.seqs_setLane hmove.seqs)
  refusal _ := .congr (by simp) fun l => by simp
  fault := id
  exhausted := id
  service _ := id
  member _ _ := id
  profile _ _ _ := id
  descriptor _ _ := id
  extent _ := id
  reserve _ := .congr (by simp) fun l => by simp
  margin _ _ := .congr (by simp) fun l => by simp
  clear g := by
    cases g with
    | lane l => exact .congr rfl fun k => State.seqs_countLane ..
    | intakePort => exact id
    | exchangePort => exact id
    | engine => exact id
  engine _ := .of_none rfl

/-! ### Starts -/

theorem find?_lanesFrom_eq_none {s : State} (h : nextReadyLane? s = none) (l : Fin 16) : headReady s l = false := by
  have hall : ∀ p l : Fin 16, l ∈ lanesFrom p := by decide +kernel
  simpa using List.find?_eq_none.mp h l (hall _ l)

theorem headItem?_of_nextReadyLane? {s : State} {l : Fin 16} (h : nextReadyLane? s = some l) :
    ∃ i, headItem? s l = some i ∧ i.state = .ready := by
  have hready : headReady s l = true := List.find?_some h
  unfold headReady at hready
  split at hready
  · cases hready
  next i is hlist => exact ⟨i, by rw [headItem?, hlist, List.head?_cons], by simpa using hready⟩

theorem seq_mem_of_headItem? {s : State} {l : Fin 16} {i : Item} (h : headItem? s l = some i) : i.seq ∈ (s.lane l).seqs :=
  List.mem_map.mpr ⟨i, List.mem_of_head? h, rfl⟩

theorem startRecordOn_emissionStands {s : State} {l : Fin 16} {i : Item} (h : headItem? s l = some i) :
    EmissionStands (startRecordOn l i s) := by
  intro e he
  obtain rfl : (⟨l, i.seq, firstPoint i⟩ : Emission) = e := Option.some.inj he
  rw [startRecordOn_seqs]
  exact seq_mem_of_headItem? h

theorem startRecord_emissionStands {s : State} (h : EmissionStands s) : EmissionStands (startRecord s) := by
  unfold startRecord
  split
  · exact h
  · split
    · exact h
    · split
      · exact h
      next hi => exact startRecordOn_emissionStands hi

theorem startExchange_emissionStands {s : State} (h : EmissionStands s) : EmissionStands (startExchange s) := by
  unfold startExchange
  split
  · exact h
  · split
    · unfold startEmissionFrame
      split
      · exact h
      · exact h
    · split
      · exact h
      · exact startRecord_emissionStands h

/-- The port leaves nothing to start that it can start (R143, R145, R151). -/
theorem startExchange_nothingToStart {s : State} (h : EmissionStands s) : NothingToStart (startExchange s) := by
  unfold startExchange
  split
  next hbusy => exact hbusy.imp id .inl
  next hidle =>
    split
    next e he =>
      have hstands := (emissionStands_iff s).mp h e he
      unfold startEmissionFrame
      split
      next hnone => rw [hnone] at hstands; cases hstands
      next => exact .inl rfl
    next hemission =>
      split
      next => exact .inl rfl
      next hreplies =>
        unfold startRecord
        rw [if_neg (by simpa [hemission, hreplies] using hidle)]
        split
        next hnone => exact .inr (.inr ⟨hemission, hreplies, find?_lanesFrom_eq_none hnone⟩)
        next l hl =>
          obtain ⟨i, hi, -⟩ := headItem?_of_nextReadyLane? hl
          rw [hi]
          exact .inl rfl

theorem StartsDone.startExchange {s : State} (h : EmissionStands s) : StartsDone (startExchange s) :=
  ⟨startExchange_emissionStands h, fun _ => startExchange_nothingToStart h⟩

theorem StartsDone.startBeside {s : State} (l : Fin 16) (h : EmissionStands s) : StartsDone (startBeside l s) := by
  unfold Machine.startBeside
  split
  next hheld =>
    have hreset : laneResetNext l s = true := (Bool.and_eq_true_iff.mp hheld).1
    exact ⟨h, fun hno => absurd (hno.2 l) (by simp [hreset])⟩
  next => exact .startExchange h

theorem StartsDone.startAfterFrame {s : State} (h : EmissionStands s) : StartsDone (startAfterFrame s) := by
  unfold Machine.startAfterFrame
  split
  next hreset => exact ⟨h, fun hno => absurd hno.1 (by simp [hreset])⟩
  next => exact .startExchange h

theorem StartsDone.startAfterLast {s : State} (l : Fin 16) (h : EmissionStands s) : StartsDone (startAfterLast l s) := by
  unfold Machine.startAfterLast
  split
  next hreset => exact ⟨h, fun hno => absurd hno.1 (by simp [hreset])⟩
  next => exact .startBeside l h

/-- What a state with nothing to start has still nothing to start after. -/
theorem StartsDone.of_nothing {s : State} (hstands : EmissionStands s) (h : NothingToStart s) : StartsDone s :=
  ⟨hstands, fun _ => h⟩

/-! ### The events -/

theorem queueReply_emissionStands {p : Port} {b : List Byte} {s : State} (h : EmissionStands s) :
    EmissionStands (queueReply p b s) := by cases p <;> exact h

theorem takeUpTo_emissionStands (n : Nat) {s : State} (h : EmissionStands s) : EmissionStands (takeUpTo n s) := by
  induction n generalizing s with
  | zero => exact h
  | succ n ih =>
    unfold takeUpTo
    split
    · exact h
    · split
      · refine ih ?_
        unfold answerRequest
        split
        · exact queueReply_emissionStands h
        · exact queueReply_emissionStands (emissionStands_kept.carryOut _ _ h)
      · exact h

theorem handRequest_startsDone {p : Port} {payload : List Byte} {s : State} (h : EmissionStands s) :
    StartsDone (handRequest p payload s) := by
  refine .startExchange (takeUpTo_emissionStands _ ?_)
  unfold joinRequests
  split <;> exact h

theorem admission_emissionStands {l : Fin 16} {q : Seq} {m : BitVec 16} {c n : Byte} {date : BitVec 32} {s : State}
    (h : EmissionStands s) : EmissionStands (admission l q m c n date s) := by
  unfold admission
  split
  next => exact emissionStands_kept.refuseItem (d := 0) (ow := false) _ _ _ h
  next =>
    intro e he
    rw [admitItem_egress] at he
    rw [admitItem, evalPaused_seqs, State.lane_modLane]
    split
    next hlane =>
      subst hlane
      simpa [Lane.seqs, admittedLane] using Or.inl (h e he)
    next => exact h e he

theorem takeItemOpen_emissionStands {l : Fin 16} {q : Seq} {m : BitVec 16} {c n : Byte} {date : BitVec 32} {s : State}
    (h : EmissionStands s) : EmissionStands (takeItemOpen l q m c n date s) := by
  unfold takeItemOpen
  split
  · exact emissionStands_kept.strayOn (d := 0) (ow := false) _ h
  · exact admission_emissionStands (emissionStands_kept.closeAll (d := 0) (ow := false) _ h)

theorem takeGo_startsDone {s : State} (hstands : EmissionStands s) (h : NothingToStart s) : StartsDone (takeGo s) := by
  unfold takeGo
  split
  · exact .startExchange hstands
  · exact .of_nothing hstands h

theorem Received.startsDone {f : State → State} (hf : Received f) {s : State} (hstands : EmissionStands s)
    (h : NothingToStart s) : StartsDone (f s) := by
  have k := emissionStands_kept
  have k' := nothingToStart_kept
  cases hf with
  | intakeFailure => exact .of_nothing hstands h
  | exchangeFailure => exact .of_nothing hstands h
  | intakeStray => exact .of_nothing hstands h
  | exchangeStray => exact .of_nothing hstands h
  | itemOpen l q m c n date => exact .startBeside l (takeItemOpen_emissionStands hstands)
  | sideOpen l q face res w y =>
    exact .of_nothing (k.withMatch (d := 0) (ow := false) l q (fun ht => k.takeSideOpen (d := 0) (ow := false) _ _ _ _ _ ht) hstands)
      (k'.withMatch (d := 0) (ow := false) l q (fun ht => k'.takeSideOpen (d := 0) (ow := false) _ _ _ _ _ ht) h)
  | sideData l q first count rows =>
    unfold arriveSideData
    split
    · exact .of_nothing (k.withMatch (d := 0) (ow := false) l q (fun ht => k.takeSideData (d := 0) (ow := false) _ _ _ _ ht) hstands)
        (k'.withMatch (d := 0) (ow := false) l q (fun ht => k'.takeSideData (d := 0) (ow := false) _ _ _ _ ht) h)
    · exact .of_nothing hstands h
  | sideClose l q =>
    exact .of_nothing (k.withMatch (d := 0) (ow := false) l q (fun ht => k.takeSideClose (d := 0) (ow := false) _ ht) hstands)
      (k'.withMatch (d := 0) (ow := false) l q (fun ht => k'.takeSideClose (d := 0) (ow := false) _ ht) h)
  | itemClose l q =>
    exact .startBeside l (k.withMatch (d := 0) (ow := false) l q (fun ht => k.closeAll (d := 0) (ow := false) _ ht) hstands)
  | request p payload =>
    refine handRequest_startsDone ?_
    cases p <;> exact hstands
  | halt => exact .of_nothing hstands (.inr (.inl rfl))
  | go => exact takeGo_startsDone hstands h

theorem expireDue_startsDone {l : Fin 16} {s : State} (hstands : EmissionStands s) (h : NothingToStart s) :
    StartsDone (expireDue l s) := by
  unfold expireDue
  split
  · exact .startBeside l (emissionStands_kept.expireStall (d := 0) (ow := false) l hstands)
  · exact .of_nothing hstands h

theorem finishUnit_startsDone {u : Fin 4} {s : State} (hstands : EmissionStands s) (h : NothingToStart s) :
    StartsDone (finishUnit u s) := by
  have k := emissionStands_kept
  unfold finishUnit
  split
  · exact .of_nothing hstands h
  next b hb =>
    split
    · exact .of_nothing hstands h
    · exact .of_nothing hstands h
    · split
      · have hrecorded : EmissionStands (recordSideEnd u b s) :=
          k.modSide (d := 0) (ow := false) _ (SideStep.sideEnded b) (fun _ => rfl)
            (k.setUnit (d := 0) (ow := false) u none hstands)
        have hgranted := k.grantAll (d := 0) (ow := false) (k.evalPaused (d := 0) (ow := false) b.ref.lane hrecorded)
        exact .startBeside _ (k.checkComplete (d := 0) (ow := false) _ _ hgranted)
      · exact .of_nothing hstands h

theorem startRecord_nothingToStart {s : State} (h : NothingToStart s) : NothingToStart (startRecord s) := by
  unfold startRecord
  split
  · exact h
  · split
    · exact h
    · split
      · exact h
      · exact .inl rfl

theorem innerFrameSent_startsDone {s : State} (hstands : EmissionStands s) (h : NothingToStart s) :
    StartsDone (innerFrameSent s) := by
  unfold innerFrameSent
  split
  next f e _ he =>
    split
    · split
      · exact .of_nothing hstands h
      · refine .startAfterFrame fun e' he' => ?_
        obtain rfl := Option.some.inj he'
        exact hstands e he
    · exact .of_nothing hstands h
  next => exact .of_nothing hstands h
  next => exact .of_nothing hstands h

theorem recordLeaves_emission (l : Fin 16) (i : Item) (count : LaneCounters → LaneCounters) (s : State) :
    (recordLeaves l i count s).egress.emission = none := by
  simp [recordLeaves]

theorem lastFrameSent_startsDone {last : FrameType} {count : Item → LaneCounters → LaneCounters} {s : State}
    (hstands : EmissionStands s) (h : NothingToStart s) : StartsDone (lastFrameSent last count s) := by
  unfold lastFrameSent
  split
  · split
    · split
      · exact .of_nothing hstands h
      · exact .startAfterLast _ (.of_none (recordLeaves_emission ..))
    · exact .of_nothing hstands h
  · exact .of_nothing hstands h
  · exact .of_nothing hstands h

theorem Event.startsDone {f : State → State} (hf : Event f) {s : State} (hstands : EmissionStands s)
    (h : NothingToStart s) : StartsDone (f s) := by
  cases hf with
  | powerOn => exact .of_nothing (.of_none rfl) (.inr (.inr ⟨rfl, rfl, fun l => by rw [headReady, lane_powerOn]; rfl⟩))
  | pinRelease => exact .of_nothing hstands h
  | received hf =>
    unfold whenTaking
    split
    · exact hf.startsDone hstands h
    · exact .of_nothing hstands h
  | stallExpiry l => exact expireDue_startsDone hstands h
  | binding => exact .of_nothing (emissionStands_kept.grant (d := 0) hstands) (nothingToStart_kept.grant (d := 0) h)
  | outputRow u =>
    exact .of_nothing (emissionStands_kept.completeRow (d := 0) (ow := false) u hstands)
      (nothingToStart_kept.completeRow (d := 0) (ow := false) u h)
  | sideEnd u => exact finishUnit_startsDone hstands h
  | recordStart => exact .of_nothing (startRecord_emissionStands hstands) (startRecord_nothingToStart h)
  | innerFrame => exact innerFrameSent_startsDone hstands h
  | itemEnd => exact lastFrameSent_startsDone hstands h
  | itemNotice => exact lastFrameSent_startsDone hstands h
  | exchangeReply =>
    dsimp only
    split
    · exact .startAfterFrame (takeUpTo_emissionStands _ hstands)
    · exact .of_nothing hstands h
  | intakeStart => rw [startIntakeFrame_blocks]; exact .of_nothing hstands h
  | intakeSent =>
    unfold Machine.intakeSent
    split
    · exact .of_nothing hstands h
    · split
      · exact .of_nothing hstands h
      · exact .of_nothing hstands h
      · exact .startExchange (takeUpTo_emissionStands _ hstands)

/-! ### The reset that is taken next, and the idle millisecond -/

theorem nextRequest?_of_reset {s : State} (h : ¬ NoResetNext s) : ∃ r, nextRequest? s = some r := by
  rcases (not_noResetNext_iff s).mp h with hengine | ⟨l, hlane⟩
  · exact ⟨_, of_decide_eq_true hengine⟩
  · exact ⟨_, of_decide_eq_true hlane⟩

theorem length_le_of_requestOf? {payload : List Byte} {r : Request} (h : intakeRequest?.requestOf? payload = some r) :
    payload.length ≤ Config.maxPayload := by
  unfold intakeRequest?.requestOf? at h
  split at h
  next tag r' hparse =>
    rw [payload_of_parseRequest hparse]
    exact Request.payload_length_le tag r'
  next => cases h

theorem receiveRequest_of_length {p : Port} {payload : List Byte} {s : State} (htaking : s.taking = true)
    (hlength : payload.length ≤ Config.maxPayload) :
    receiveRequest p payload s = handRequest p payload (countIn p s) := by
  rw [receiveRequest, if_pos htaking, if_pos hlength]

/-- A command of the intake link that brings a request hands it to the Management Unit in its event. -/
theorem exec_of_intakeRequest? {c : Instr} {r : Request} {s : State} (hc : intakeRequest? c = some r)
    (htaking : s.taking = true) :
    ∃ payload, exec c s = .next (handRequest .intake payload (countIntakeIn s)) := by
  unfold intakeRequest? at hc
  split at hc
  next tag lane =>
    exact ⟨_, congrArg Host.Outcome.next (receiveRequest_of_length htaking (Request.payload_length_le tag (.resetLane lane)))⟩
  next tag =>
    exact ⟨_, congrArg Host.Outcome.next (receiveRequest_of_length htaking (Request.payload_length_le tag .resetEngine))⟩
  next payload =>
    exact ⟨payload, congrArg Host.Outcome.next (receiveRequest_of_length htaking (length_le_of_requestOf? hc))⟩
  next bytes =>
    obtain ⟨f, hread, hframe⟩ := Option.bind_eq_some_iff.mp hc
    unfold intakeRequest?.framedRequest? at hframe
    split at hframe
    next payload hsort =>
      refine ⟨payload, congrArg Host.Outcome.next ?_⟩
      rw [whenTaking, if_pos htaking, receiveIntake, hread]
      show arriveIntake f s = _
      rw [arriveIntake, hsort]
    next => cases hframe
  next => cases hc

/-- Where a reset holds a start back, the next step is the event of that reset, which ends in a start. -/
theorem step_of_resetNext {s t : State} (h : EmissionStands s) (hreset : ¬ NoResetNext s) (hstep : step s = .next t) :
    StartsDone t := by
  obtain ⟨r, hr⟩ := nextRequest?_of_reset hreset
  unfold nextRequest? at hr
  split at hr
  next hready =>
    obtain ⟨c, hhead, hc⟩ := Option.bind_eq_some_iff.mp hr
    obtain ⟨rest, hpending⟩ := List.head?_eq_some_iff.mp hhead
    obtain ⟨payload, hexec⟩ := exec_of_intakeRequest? (s := s.withPending rest) hc hready.1
    have hnext : step s = exec c (s.withPending rest) := by unfold step; rw [hpending]
    obtain rfl := Host.Outcome.next.inj (hexec.symm.trans (hnext.symm.trans hstep))
    exact handRequest_startsDone h
  next => cases hr

theorem noResetNext_of_pending {s : State} (h : s.pending = []) : NoResetNext s := by
  have hnone : nextRequest? s = none := by unfold nextRequest?; rw [h]; split <;> rfl
  simp [NoResetNext, engineResetNext, laneResetNext, hnone]

@[simp] theorem expireDue_pending (l : Fin 16) (s : State) : (expireDue l s).pending = s.pending := by
  unfold expireDue
  split <;> simp

theorem expireAllDue_startsDone {s : State} (hpending : s.pending = []) (h : StartsDone s) : StartsDone (expireAllDue s) := by
  unfold expireAllDue
  generalize allLanes = ls
  induction ls generalizing s with
  | nil => exact h
  | cons l ls ih =>
    exact ih (by simpa using hpending) (expireDue_startsDone h.1 (h.2 (noResetNext_of_pending hpending)))

theorem expireAllDue_pending (s : State) : (expireAllDue s).pending = s.pending := by
  unfold expireAllDue
  generalize allLanes = ls
  induction ls generalizing s with
  | nil => rfl
  | cons l ls ih => exact (ih _).trans (expireDue_pending l s)

theorem tickLane_stamps (c : Lane) : (tickLane c).stamps = c.stamps := congrArg (List.map Item.stamp) (tickLane_list c)

theorem countDown_startsDone {s : State} (hpending : s.pending = []) (h : StartsDone s) : StartsDone (countDown s) :=
  .of_nothing (.congr (s := s) rfl (fun l => by rw [lane_countDown, Lane.seqs_eq_of_stamps_eq (tickLane_stamps _)]) h.1)
    (.congr (s := s) rfl (fun l => by rw [lane_countDown, tickLane_stamps]) (h.2 (noResetNext_of_pending hpending)))

/-- Settles O57: each event ends in the starts that it allows, and where it leaves one to a reset taken next, the event of
that reset makes it. -/
theorem everyStepLeavesNothingToStart : Obligations.EveryStepLeavesNothingToStart := by
  intro s t hs hstep
  rw [startsMade_iff] at hs ⊢
  have hdone : StartsDone t := by
    by_cases hreset : NoResetNext s
    · have hnothing := hs.2 hreset
      rcases step_cases hstep with ⟨hpending, rfl⟩ | ⟨c, rest, f, -, hf, rfl⟩
      · exact countDown_startsDone ((expireAllDue_pending s).trans hpending) (expireAllDue_startsDone hpending hs)
      · exact hf.startsDone (s := s.withPending rest) hs.1 hnothing
    · exact step_of_resetNext hs.1 hreset hstep
  exact ⟨hdone, fun hengine hlane => (exchangeSettled_iff t).mpr ⟨hdone.1, hdone.2 ⟨hengine, hlane⟩⟩⟩

end Sys2Proof.Machine
end

