-- ==== Sys2Proof/Proofs/Ports.lean ====
section
/-! One step, the reset pin and the two ports: what each frame received does, and how its header and payload are read
(R71, R72, R152, R154, R182 to R184, R188). -/

namespace Sys2Proof.Machine

/-! ### The step and the resets -/

/-- Settles O1: `step` reads the command at the front of the queue. -/
theorem stepRunsTheFrontCommand : Obligations.StepRunsTheFrontCommand := by
  intro c rest s hpending
  rw [step, hpending]

@[simp] theorem lane_reset (l : Fin 16) : State.reset.lane l = Lane.reset := by
  simp [State.lane, State.reset]

@[simp] theorem unit_reset (u : Fin 4) : State.reset.unit u = none := by
  simp [State.unit, State.reset, Reduction.reset]

theorem reset_atPowerOn : AtPowerOn State.reset := by
  refine ⟨lane_reset, ?_, ?_, ?_, rfl, rfl, rfl, rfl, unit_reset, rfl, rfl, rfl, rfl, rfl, rfl⟩ <;> intro k <;>
    exact Vector.getElem_replicate ..

theorem powerOn_atPowerOn (s : State) : AtPowerOn (powerOn s) := reset_atPowerOn

/-- Settles O3: the state after the reset is the power-on state, but for the taking of frames and the queue of commands. -/
theorem powerOnResetRestoresEveryBlock : Obligations.PowerOnResetRestoresEveryBlock :=
  fun s => ⟨powerOn s, rfl, powerOn_atPowerOn s, rfl, rfl⟩

theorem pagesHeld_reset : State.reset.pagesHeld = 0 := by
  simp [State.pagesHeld, State.reset, Lane.reset, Lane.pages, listPages]

theorem settingsInRange_reset : SettingsInRange State.reset := by
  refine ⟨fun l => ?_, by decide, by decide, by decide, fun k => ?_⟩
  · rw [lane_reset]; decide
  · have hprofile : State.reset.admission.profiles[k.val] = Profile.reset := Vector.getElem_replicate ..
    rw [hprofile]; unfold ProfileInRange; decide

/-- Settles O4: the blocks are read off the reset state; with no record, no binding and no queue the invariants hold. -/
theorem resetStateMeetsItsValuesAndLaws : Obligations.ResetStateMeetsItsValuesAndLaws := by
  refine ⟨⟨reset_atPowerOn, rfl, rfl⟩, ?_, .inr ⟨rfl, rfl⟩, ?_, ?_, ?_, fun l => ?_, fun l => ?_, settingsInRange_reset, ?_,
    fun l => ?_, fun l => ?_⟩
  · rw [PagesConserved, pagesHeld_reset]; rfl
  · refine (exchangeSettled_iff _).mpr ⟨.of_none rfl, .inr (.inr ⟨rfl, rfl, fun l => ?_⟩)⟩
    rw [headReady, lane_reset]; rfl
  · intro e rest hcons; cases hcons
  · refine ⟨?_, ?_, ?_, ?_, .nil, ?_⟩ <;> exact Nat.zero_le _
  · rw [lane_reset]; exact ⟨Nat.zero_le _, .nil⟩
  · rw [lane_reset]; simp [LaneLawful, Lane.reset]
  · exact ⟨fun h => absurd h (by decide), fun _ => rfl⟩
  · rw [lane_reset]; intro i hi; cases hi
  · rw [lane_reset]; intro i hi; cases hi

theorem exec_of_not_taking {c : Instr} {s : State} (htaking : s.taking = false) (hframe : isReceivedFrame c = true) :
    exec c s = .next s := by
  cases c <;> simp only [isReceivedFrame, Bool.false_eq_true] at hframe
  all_goals exact congrArg Host.Outcome.next (if_neg (by simp [htaking]))

/-- Settles O5: every frame is guarded by the taking of frames. -/
theorem framesAreTakenAfterPinRelease : Obligations.FramesAreTakenAfterPinRelease :=
  ⟨fun _ => rfl, fun _ _ => exec_of_not_taking⟩

/-! ### Discarded frames -/

theorem whenTaking_of_taking {s : State} (h : s.taking = true) (f : State → State) : whenTaking f s = f s := if_pos h

theorem arriveIntake_of_stray {f : RawFrame} (h : isIntakeStray f = true) (s : State) :
    arriveIntake f s = countIntakeStray (countIntakeIn s) := by
  rw [arriveIntake, of_decide_eq_true h]

theorem arriveExchange_of_stray {f : RawFrame} (h : isExchangeStray f = true) (s : State) :
    arriveExchange f s = countExchangeStray (countExchangeIn s) := by
  rw [arriveExchange, of_decide_eq_true h]

/-- A frame with a whole header is sorted by its port. -/
theorem exec_intakeStrayFrame {bytes : List Byte} {f : RawFrame} (h : readFrame? bytes = some f) (s : State) :
    exec (.intakeStrayFrame bytes) s = .next (whenTaking (arriveIntake f) s) := by
  have hreceive : receiveIntake bytes = arriveIntake f := by funext t; rw [receiveIntake, h]
  exact congrArg (fun g => Host.Outcome.next (whenTaking g s)) hreceive

theorem exec_exchangeStrayFrame {bytes : List Byte} {f : RawFrame} (h : readFrame? bytes = some f) (s : State) :
    exec (.exchangeStrayFrame bytes) s = .next (whenTaking (arriveExchange f) s) := by
  have hreceive : receiveExchange bytes = arriveExchange f := by funext t; rw [receiveExchange, h]
  exact congrArg (fun g => Host.Outcome.next (whenTaking g s)) hreceive

/-- Settles O6: each port's check and sorting only count. -/
theorem portsCountTheFramesTheyDiscard : Obligations.PortsCountTheFramesTheyDiscard := by
  refine ⟨fun s htaking => ⟨?_, ?_⟩, fun s bytes f htaking hread => ⟨fun hstray => ?_, fun hstray => ?_⟩,
    fun s bytes hread => ⟨?_, ?_⟩⟩
  · exact congrArg Host.Outcome.next (whenTaking_of_taking htaking _)
  · exact congrArg Host.Outcome.next (whenTaking_of_taking htaking _)
  · rw [exec_intakeStrayFrame hread, whenTaking_of_taking htaking, arriveIntake_of_stray hstray]; rfl
  · rw [exec_exchangeStrayFrame hread, whenTaking_of_taking htaking, arriveExchange_of_stray hstray]; rfl
  · have hreceive : receiveIntake bytes = failIntakeCheck := by funext t; rw [receiveIntake, hread]
    exact congrArg (fun g => Host.Outcome.next (whenTaking g s)) hreceive
  · have hreceive : receiveExchange bytes = failExchangeCheck := by funext t; rw [receiveExchange, hread]
    exact congrArg (fun g => Host.Outcome.next (whenTaking g s)) hreceive

/-- Settles O9: HALT and GO count their frame and set or clear the flag. -/
theorem haltAndGoPaceTheExchangePort : Obligations.HaltAndGoPaceTheExchangePort := by
  intro s htaking
  have hgo : exec .go s = .next (takeGo (countExchangeIn s)) :=
    congrArg Host.Outcome.next (whenTaking_of_taking htaking _)
  refine ⟨congrArg Host.Outcome.next (whenTaking_of_taking htaking _), fun hrunning => ?_, fun hhalted => ?_⟩
  · rw [hgo, takeGo, if_neg (by simpa [countExchangeIn, modExchangePort] using hrunning)]; rfl
  · rw [hgo, takeGo, if_pos (by simpa [countExchangeIn, modExchangePort] using hhalted)]; rfl

/-! ### Sorting by the tables -/

theorem lane?_eq_none_iff (b : Byte) : lane? b = none ↔ 15 < b.toNat := by
  unfold lane?
  split <;> simp <;> omega

theorem lane?_of_toNat {b : Byte} {l : Fin 16} (h : b.toNat = l.val) : lane? b = some l := by
  have hlt : b.toNat < 16 := h ▸ l.isLt
  rw [lane?, dif_pos hlt]
  exact congrArg some (Fin.ext h)

@[simp] theorem lane?_ofNat (l : Fin 16) : lane? (BitVec.ofNat 8 l.val) = some l :=
  lane?_of_toNat (by rw [BitVec.toNat_ofNat]; omega)

theorem rawLengthGood_iff (f : RawFrame) :
    rawLengthGood f = true ↔ f.payload.length = f.length.toNat ∧ f.length.toNat ≤ 16384 := by
  rw [rawLengthGood, Bool.and_eq_true, beq_iff_eq, decide_eq_true_iff]
  show _ ∧ _ ≤ 16384 ↔ _
  omega

/-- The item frame types and the payload lengths that each admits (R72, R183). -/
theorem sortItemFrame_eq_stray_iff (type : Byte) (l : Fin 16) (payload : List Byte) :
    sortItemFrame type l payload = .stray ↔
      type ∉ [0x10#8, 0x11#8, 0x12#8, 0x13#8, 0x14#8] ∨ (type = 0x10#8 ∧ payload.length ≠ 8)
        ∨ (type = 0x11#8 ∧ payload.length ≠ 7) ∨ (type = 0x12#8 ∧ payload.length < 4)
        ∨ (type = 0x13#8 ∧ payload.length ≠ 0) ∨ (type = 0x14#8 ∧ payload.length ≠ 0) := by
  unfold sortItemFrame
  split_ifs with h10 h11 h12 h13 h14
  · subst h10
    split
    · simp
    next hlayout =>
      have hlength : payload.length ≠ 8 := fun h => by
        match payload, h with
        | [_, _, _, _, _, _, _, _], _ => exact hlayout _ _ _ _ _ _ _ _ rfl
      simp [hlength]
  · subst h11
    split
    · simp
    next hlayout =>
      have hlength : payload.length ≠ 7 := fun h => by
        match payload, h with
        | [_, _, _, _, _, _, _], _ => exact hlayout _ _ _ _ _ _ _ rfl
      simp [hlength]
  · subst h12
    split
    · simp
    next hlayout =>
      have hlength : payload.length < 4 := by
        by_contra h
        match payload, h with
        | _ :: _ :: _ :: _ :: _, _ => exact hlayout _ _ _ _ _ rfl
        | [], h | [_], h | [_, _], h | [_, _, _], h => exact h (by simp)
      simp [hlength]
  · subst h13; cases payload <;> simp
  · subst h14; cases payload <;> simp
  · simp_all

/-- The frames that the Intake Port discards as stray (R72). -/
theorem isIntakeStray_iff (f : RawFrame) :
    isIntakeStray f = true ↔
      f.payload.length ≠ f.length.toNat ∨ 16384 < f.length.toNat
        ∨ (f.type ≠ 0x20#8 ∧ (15 < f.lane.toNat ∨ ∃ l, lane? f.lane = some l ∧ sortItemFrame f.type l f.payload = .stray)) := by
  rw [isIntakeStray, decide_eq_true_iff, sortIntake]
  by_cases hgood : rawLengthGood f = true
  · have hlength := (rawLengthGood_iff f).mp hgood
    rw [if_pos hgood]
    by_cases hrequest : f.type = 0x20#8
    · rw [if_pos (show f.type = 0x20 from hrequest)]; simp [hrequest, hlength]
    · rw [if_neg (show ¬ f.type = 0x20 from hrequest)]
      cases hlane : lane? f.lane with
      | none =>
        have := (lane?_eq_none_iff _).mp hlane
        simp [hrequest, this]
      | some l =>
        have : ¬ 15 < f.lane.toNat := fun h => by simp [(lane?_eq_none_iff _).mpr h] at hlane
        simp [hrequest, hlength, this]
  · rw [if_neg hgood]
    have hlength := mt (rawLengthGood_iff f).mpr hgood
    simp only [true_iff]
    omega

/-- The frames that the Exchange Port discards as stray (R154). -/
theorem isExchangeStray_iff (f : RawFrame) :
    isExchangeStray f = true ↔
      f.payload.length ≠ f.length.toNat ∨ 16384 < f.length.toNat ∨ f.type ∉ [0x20#8, 0x40#8, 0x41#8]
        ∨ (f.type ∈ [0x40#8, 0x41#8] ∧ f.payload ≠ []) := by
  rw [isExchangeStray, decide_eq_true_iff, sortExchange]
  by_cases hgood : rawLengthGood f = true
  · have hlength := (rawLengthGood_iff f).mp hgood
    rw [if_pos hgood]
    split_ifs with h20 h40 hempty h41 hempty <;> simp_all
  · rw [if_neg hgood]
    have hlength := mt (rawLengthGood_iff f).mpr hgood
    simp only [true_iff]
    omega

theorem mem_intakeTypes_iff (t : Byte) :
    t ∈ [0x10#8, 0x11#8, 0x12#8, 0x13#8, 0x14#8, 0x20#8] ↔ t ∈ [0x10#8, 0x11#8, 0x12#8, 0x13#8, 0x14#8] ∨ t = 0x20#8 := by
  simp only [List.mem_cons, List.not_mem_nil, or_false, or_assoc]

/-- Settles O7: the sorting of each port, case by case. -/
theorem strayFramesAreThoseOfTheTables : Obligations.StrayFramesAreThoseOfTheTables := by
  intro f
  constructor
  · rw [isIntakeStray_iff, mem_intakeTypes_iff]
    by_cases hlength : f.payload.length = f.length.toNat
    · cases hlane : lane? f.lane with
      | none =>
        have hbad : 15 < f.lane.toNat := (lane?_eq_none_iff _).mp hlane
        grind
      | some l =>
        have hgood : ¬ 15 < f.lane.toNat := fun h => by simp [(lane?_eq_none_iff _).mpr h] at hlane
        simp only [Option.some.injEq, exists_eq_left', sortItemFrame_eq_stray_iff, hlength, hgood]
        grind
    · simp [hlength]
  · rw [isExchangeStray_iff]
    by_cases hlength : f.payload.length = f.length.toNat
    · rw [← hlength, ← List.length_pos_iff, Nat.pos_iff_ne_zero]
    · simp [hlength]

/-! ### The bytes of a received frame -/

theorem toNat_append_byte {n : Nat} (a : BitVec n) (b : Byte) : (a ++ b).toNat = 256 * a.toNat + b.toNat := by
  rw [BitVec.toNat_append, ← Nat.shiftLeft_add_eq_or_of_lt b.isLt, Nat.shiftLeft_eq, Nat.mul_comm]

theorem word16_toNat (a b : Byte) : (word16 a b).toNat = 256 * a.toNat + b.toNat := toNat_append_byte a b

theorem word32_toNat (a b c d : Byte) :
    (word32 a b c d).toNat = 16777216 * a.toNat + 65536 * b.toNat + 256 * c.toNat + d.toNat := by
  simp only [word32, toNat_append_byte]
  omega

theorem readFrame?_eq_none_iff (bytes : List Byte) : readFrame? bytes = none ↔ bytes.length < 8 := by
  unfold readFrame?
  split
  · simp
  next hshort =>
    simp only [true_iff]
    by_contra h
    match bytes, h with
    | _ :: _ :: _ :: _ :: _ :: _ :: _ :: _ :: _, _ => exact hshort _ _ _ _ _ _ _ _ _ rfl
    | [], h | [_], h | [_, _], h | [_, _, _], h | [_, _, _, _], h | [_, _, _, _, _], h | [_, _, _, _, _, _], h
    | [_, _, _, _, _, _, _], h => exact h (by simp)

theorem readFrame?_bytes (f : RawFrame) : readFrame? f.bytes = some f := by
  simp [readFrame?, RawFrame.bytes, be16, be32, word16_extract, word32_extract]

theorem length_rawFrame_bytes (f : RawFrame) : f.bytes.length = 8 + f.payload.length := by
  simp [RawFrame.bytes]; omega

/-! ### Item frames are sorted by their layouts -/

theorem sortIntake_item {f : RawFrame} {l : Fin 16} (hgood : rawLengthGood f = true) (htype : f.type ≠ 0x20)
    (hlane : lane? f.lane = some l) : sortIntake f = sortItemFrame f.type l f.payload := by
  rw [sortIntake, if_pos hgood, if_neg htype, hlane]

theorem sortIntake_request {f : RawFrame} (hgood : rawLengthGood f = true) (htype : f.type = 0x20) :
    sortIntake f = .request f.payload := by
  rw [sortIntake, if_pos hgood, if_pos htype]

theorem sortExchange_request {f : RawFrame} (hgood : rawLengthGood f = true) (htype : f.type = 0x20) :
    sortExchange f = .request f.payload := by
  rw [sortExchange, if_pos hgood, if_pos htype]

/-- A frame of the intake link acts as the command whose event it brings. -/
theorem exec_intakeStrayFrame_congr {bytes : List Byte} {f : RawFrame} (hread : readFrame? bytes = some f)
    {g : State → State} (hg : ∀ s, arriveIntake f s = g s) (s : State) :
    exec (.intakeStrayFrame bytes) s = .next (whenTaking g s) := by
  rw [exec_intakeStrayFrame hread, funext hg]

theorem exec_exchangeStrayFrame_congr {bytes : List Byte} {f : RawFrame} (hread : readFrame? bytes = some f)
    {g : State → State} (hg : ∀ s, arriveExchange f s = g s) (s : State) :
    exec (.exchangeStrayFrame bytes) s = .next (whenTaking g s) := by
  rw [exec_exchangeStrayFrame hread, funext hg]

theorem exec_mgmtRequest_of_length (p : Port) {payload : List Byte} (h : payload.length ≤ 16384) (s : State) :
    exec (.mgmtRequest p payload) s = .next (whenTaking (fun t => handRequest p payload (countIn p t)) s) := by
  show Host.Outcome.next (receiveRequest p payload s) = _
  rw [receiveRequest, whenTaking, if_pos (show payload.length ≤ Config.maxPayload from h)]

/-- The frames of the intake link, read from their bytes, act as the commands of the item frames (log 18). -/
theorem intakeFrames_act_as_commands {s : State} {bytes : List Byte} {f : RawFrame} (hread : readFrame? bytes = some f) :
    (∀ l m c n d, sortIntake f = .itemOpen l m c n d →
        exec (.intakeStrayFrame bytes) s = exec (.itemOpen l f.seq m c n d) s)
      ∧ (∀ l a r w h, sortIntake f = .sideOpen l a r w h →
        exec (.intakeStrayFrame bytes) s = exec (.sideOpen l f.seq a r w h) s)
      ∧ (∀ l a b rows, sortIntake f = .sideData l a b rows →
        exec (.intakeStrayFrame bytes) s = exec (.sideData l f.seq a b rows) s)
      ∧ (∀ l, sortIntake f = .sideClose l → exec (.intakeStrayFrame bytes) s = exec (.sideClose l f.seq) s)
      ∧ (∀ l, sortIntake f = .itemClose l → exec (.intakeStrayFrame bytes) s = exec (.itemClose l f.seq) s) := by
  refine ⟨?_, ?_, ?_, ?_, ?_⟩ <;> intros <;>
    exact exec_intakeStrayFrame_congr hread (fun t => by rw [arriveIntake, ‹sortIntake f = _›]) s

theorem sortIntake_layouts (l : Fin 16) (seq : Seq) :
    (∀ (m : BitVec 16) (c n : Byte) (d : BitVec 32),
      sortIntake ⟨0x10, BitVec.ofNat 8 l.val, 8, seq, be16 m ++ [c, n] ++ be32 d⟩ = .itemOpen l m c n d)
      ∧ (∀ (f : Byte) (r w h : BitVec 16),
        sortIntake ⟨0x11, BitVec.ofNat 8 l.val, 7, seq, f :: be16 r ++ be16 w ++ be16 h⟩ = .sideOpen l f r w h)
      ∧ (∀ (a b : BitVec 16) (rows : List Byte), rows.length ≤ 16380 →
        sortIntake ⟨0x12, BitVec.ofNat 8 l.val, BitVec.ofNat 16 (rows.length + 4), seq, be16 a ++ be16 b ++ rows⟩ =
          .sideData l a b rows)
      ∧ sortIntake ⟨0x13, BitVec.ofNat 8 l.val, 0, seq, []⟩ = .sideClose l
      ∧ sortIntake ⟨0x14, BitVec.ofNat 8 l.val, 0, seq, []⟩ = .itemClose l := by
  refine ⟨fun m c n d => ?_, fun f r w h => ?_, fun a b rows hrows => ?_, ?_, ?_⟩
  · rw [sortIntake_item (l := l) rfl (by simp) (lane?_ofNat l)]
    simp [sortItemFrame, be16, be32, word16_extract, word32_extract]
  · rw [sortIntake_item (l := l) rfl (by simp) (lane?_ofNat l)]
    simp [sortItemFrame, be16, word16_extract]
  · have hgood : (BitVec.ofNat 16 (rows.length + 4)).toNat = rows.length + 4 := by
      rw [BitVec.toNat_ofNat]; omega
    rw [sortIntake_item (l := l) ?_ (by simp) (lane?_ofNat l)]
    · simp [sortItemFrame, be16, word16_extract]
    · rw [rawLengthGood_iff, hgood]; simp; omega
  · exact sortIntake_item (l := l) rfl (by simp) (lane?_ofNat l)
  · exact sortIntake_item (l := l) rfl (by simp) (lane?_ofNat l)

/-- Settles O8: the layouts, the header read back, and each frame as the command it is. -/
theorem itemFramePayloadsAreRead : Obligations.ItemFramePayloadsAreRead := by
  refine ⟨sortIntake_layouts, ?_, readFrame?_eq_none_iff, fun f => ⟨readFrame?_bytes f, length_rawFrame_bytes f⟩, ?_⟩
  · intro type lane n₁ n₀ q₃ q₂ q₁ q₀ payload
    exact ⟨_, rfl, rfl, rfl, rfl, word16_toNat n₁ n₀, word32_toNat q₃ q₂ q₁ q₀⟩
  · intro s bytes f hread
    obtain ⟨hopen, hside, hdata, hclose, hitem⟩ := intakeFrames_act_as_commands (s := s) hread
    refine ⟨hopen, hside, hdata, hclose, hitem, fun htype hlength hmax => ?_, fun htype hlength hempty => ?_,
      fun htype hlength hempty => ?_⟩
    · have hgood := (rawLengthGood_iff f).mpr ⟨hlength, hlength ▸ hmax⟩
      rw [exec_mgmtRequest_of_length _ hmax, exec_mgmtRequest_of_length _ hmax]
      exact ⟨exec_intakeStrayFrame_congr hread (fun t => by rw [arriveIntake, sortIntake_request hgood htype]; rfl) s,
        exec_exchangeStrayFrame_congr hread (fun t => by rw [arriveExchange, sortExchange_request hgood htype]; rfl) s⟩
    · have hsort : sortExchange f = .halt := by
        simp [sortExchange, (rawLengthGood_iff f).mpr, hlength, hempty, htype]
      exact exec_exchangeStrayFrame_congr hread (fun t => by rw [arriveExchange, hsort]) s
    · have hsort : sortExchange f = .go := by
        simp [sortExchange, (rawLengthGood_iff f).mpr, hlength, hempty, htype]
      exact exec_exchangeStrayFrame_congr hread (fun t => by rw [arriveExchange, hsort]) s

end Sys2Proof.Machine
end

