-- ==== Sys2Proof/Proofs/Stages.lean ====
section
/-! The stages of a Reduction Unit: area weights and scaled greys (R7 to R10), the coded body and its reader (R34 to R39, R49),
the figures of a side and its end tests (R42 to R44). -/

namespace Sys2Proof.Machine

/-! ### Area weights (R7) -/

/-- The part of output pixel j's span that lies to the left of input pixel i. -/
def covered (din dout j i : Nat) : Nat := max (j * din) (min (i * dout) ((j + 1) * din)) - j * din

theorem covered_le (din dout j i : Nat) : covered din dout j i ≤ din := by
  have hspan : (j + 1) * din = j * din + din := Nat.succ_mul j din
  unfold covered
  omega

theorem covered_eq_din {din dout j i : Nat} (h : (j + 1) * din ≤ i * dout) : covered din dout j i = din := by
  have hspan : (j + 1) * din = j * din + din := Nat.succ_mul j din
  unfold covered
  omega

@[simp] theorem covered_zero (din dout j : Nat) : covered din dout j 0 = 0 := by simp [covered]

/-- The weights telescope: each input pixel adds its weight to the part covered. -/
theorem covered_succ (din dout j i : Nat) : covered din dout j (i + 1) = covered din dout j i + weight din dout i j := by
  have hspan : (j + 1) * din = j * din + din := Nat.succ_mul j din
  have hnext : (i + 1) * dout = i * dout + dout := Nat.succ_mul i dout
  unfold covered weight
  omega

theorem covered_add_sum (din dout j a n : Nat) :
    covered din dout j a + ((List.range' a n).map fun i => weight din dout i j).sum = covered din dout j (a + n) := by
  induction n generalizing a with
  | zero => simp
  | succ n ih =>
    rw [List.range'_succ, List.map_cons, List.sum_cons, ← Nat.add_assoc, ← covered_succ, ih, Nat.add_right_comm,
      Nat.add_assoc]

theorem sum_weight_range' (din dout j a n : Nat) : ((List.range' a n).map fun i => weight din dout i j).sum ≤ din :=
  calc _ ≤ covered din dout j a + ((List.range' a n).map fun i => weight din dout i j).sum := Nat.le_add_left ..
    _ ≤ din := (covered_add_sum ..).trans_le (covered_le ..)

theorem sum_weight_range {din dout j m : Nat} (h : (j + 1) * din ≤ m * dout) :
    ((List.range m).map fun i => weight din dout i j).sum = din := by
  have hsum := covered_add_sum din dout j 0 m
  rw [covered_zero, Nat.zero_add, Nat.zero_add, covered_eq_din h] at hsum
  rwa [List.range_eq_range']

/-! ### The needed pixels (R7, R9) -/

theorem weight_eq_zero_of_lt {din dout i j : Nat} (h : i < firstNeeded din dout j) : weight din dout i j = 0 := by
  have hend : (i + 1) * dout ≤ j * din := (Nat.mul_le_mul_right dout h).trans (Nat.div_mul_le_self ..)
  unfold weight
  omega

theorem le_ceilDiv_mul {a b : Nat} (hb : 0 < b) : a ≤ ceilDiv a b * b := by
  have := Nat.lt_div_mul_add hb (a := a + b - 1)
  unfold ceilDiv
  omega

theorem ceilDiv_le_of_le_mul {a b m : Nat} (hb : 0 < b) (h : a ≤ m * b) : ceilDiv a b ≤ m := by
  have hlt : a + b - 1 < (m + 1) * b := by rw [Nat.succ_mul]; omega
  exact Nat.le_of_lt_succ ((Nat.div_lt_iff_lt_mul hb).mpr hlt)

theorem weight_eq_zero_of_le {din dout i j : Nat} (hdout : 0 < dout) (h : endNeeded din dout j ≤ i) :
    weight din dout i j = 0 := by
  have hstart : (j + 1) * din ≤ i * dout := (le_ceilDiv_mul hdout).trans (Nat.mul_le_mul_right dout h)
  unfold weight
  omega

theorem firstNeeded_le_endNeeded {din dout j : Nat} (hdout : 0 < dout) :
    firstNeeded din dout j ≤ endNeeded din dout j := by
  refine Nat.div_le_of_le_mul ((Nat.mul_le_mul_right din (Nat.le_succ j)).trans ?_)
  rw [Nat.mul_comm dout]
  exact le_ceilDiv_mul hdout

theorem sum_map_eq_zero {f : Nat → Nat} {is : List Nat} (h : ∀ i ∈ is, f i = 0) : (is.map f).sum = 0 :=
  List.sum_eq_zero (by simpa using h)

/-- A sum over input pixels of non-zero weight is the sum over all of them. -/
theorem sum_neededPixels {din dout j m : Nat} (hdout : 0 < dout) (hm : (j + 1) * din ≤ m * dout) {f : Nat → Nat}
    (hf : ∀ i, weight din dout i j = 0 → f i = 0) : ((neededPixels din dout j).map f).sum = ((List.range m).map f).sum := by
  have hle := firstNeeded_le_endNeeded (din := din) (j := j) hdout
  have hend : endNeeded din dout j ≤ m := ceilDiv_le_of_le_mul hdout hm
  obtain ⟨n, hn⟩ := Nat.exists_eq_add_of_le hle
  obtain ⟨r, hr⟩ := Nat.exists_eq_add_of_le hend
  have hneeded : neededPixels din dout j = List.range' (firstNeeded din dout j) n := by
    rw [neededPixels, hn, Nat.add_sub_cancel_left]
  have hsplit : List.range m = List.range' 0 (firstNeeded din dout j) ++ List.range' (firstNeeded din dout j) n
      ++ List.range' (endNeeded din dout j) r := by
    rw [hr, hn, List.range_eq_range', ← List.range'_append_1, ← List.range'_append_1, Nat.zero_add, Nat.zero_add]
  have hbefore : ((List.range' 0 (firstNeeded din dout j)).map f).sum = 0 :=
    sum_map_eq_zero fun i hi => hf i (weight_eq_zero_of_lt (by simpa using hi))
  have hafter : ((List.range' (endNeeded din dout j) r).map f).sum = 0 :=
    sum_map_eq_zero fun i hi => hf i (weight_eq_zero_of_le hdout (by simp at hi; omega))
  rw [hsplit, hneeded, List.map_append, List.map_append, List.sum_append, List.sum_append, hbefore, hafter, Nat.zero_add,
    Nat.add_zero]

theorem weightedSum_eq {din dout j k m n : Nat} (px : Nat → Nat → Nat) (hdout : 0 < dout)
    (hm : (j + 1) * din ≤ m * dout) (hn : (k + 1) * din ≤ n * dout) :
    weightedSum din dout px j k =
      ((List.range n).map fun r =>
        ((List.range m).map fun c => px r c * weight din dout c j * weight din dout r k).sum).sum := by
  have hcolumns (r : Nat) := sum_neededPixels hdout hm (f := fun c => px r c * weight din dout c j * weight din dout r k)
    (fun c hc => by simp [hc])
  simp only [weightedSum, hcolumns]
  exact sum_neededPixels hdout hn fun r hr => by simp [hr]

/-! ### Scaled greys (R8 to R10) -/

theorem inputPixel_le (x : Side) (r c : Nat) : inputPixel x r c ≤ 255 :=
  Nat.le_of_lt_succ (BitVec.isLt _)

theorem sum_neededWeights_le (din dout j : Nat) : ((neededPixels din dout j).map fun i => weight din dout i j).sum ≤ din :=
  sum_weight_range' ..

/-- The weighted sum of bytes is at most 255 Din². -/
theorem weightedSum_le {din dout j k : Nat} {px : Nat → Nat → Nat} (hpx : ∀ r c, px r c ≤ 255) :
    weightedSum din dout px j k ≤ 255 * (din * din) := by
  have hrow (r : Nat) : ((neededPixels din dout j).map fun c => px r c * weight din dout c j * weight din dout r k).sum
      ≤ 255 * din * weight din dout r k :=
    calc _ ≤ ((neededPixels din dout j).map fun c => 255 * (weight din dout c j * weight din dout r k)).sum :=
          List.sum_le_sum fun c _ => by rw [Nat.mul_assoc]; exact Nat.mul_le_mul_right _ (hpx r c)
      _ = 255 * (((neededPixels din dout j).map fun c => weight din dout c j).sum * weight din dout r k) := by
          rw [List.sum_map_mul_left, List.sum_map_mul_right]
      _ ≤ 255 * (din * weight din dout r k) :=
          Nat.mul_le_mul_left _ (Nat.mul_le_mul_right _ (sum_neededWeights_le ..))
      _ = 255 * din * weight din dout r k := (Nat.mul_assoc ..).symm
  calc weightedSum din dout px j k ≤ ((neededPixels din dout k).map fun r => 255 * din * weight din dout r k).sum :=
        List.sum_le_sum fun r _ => hrow r
    _ = 255 * din * ((neededPixels din dout k).map fun r => weight din dout r k).sum := List.sum_map_mul_left ..
    _ ≤ 255 * din * din := Nat.mul_le_mul_left _ (sum_neededWeights_le ..)
    _ = 255 * (din * din) := Nat.mul_assoc ..

/-- Settles O11: a weighted mean of bytes is a byte. -/
theorem scaledGreysAreBytes : Obligations.ScaledGreysAreBytes := by
  intro x b _ g hg
  obtain ⟨j, -, rfl⟩ := List.mem_map.mp hg
  rcases Nat.eq_zero_or_pos b.din with hzero | hpos
  · simp [hzero, greyOf]
  · exact greyOf_le_of_sum_le hpos (weightedSum_le (inputPixel_le x))

/-! ### The reader of a coded body (R49, R186) -/

theorem readRuns_codeRun {n left : Nat} (fuel : Nat) (colour : Bool) (more : List Byte) (hleft : 0 < left) (hle : n ≤ left)
    (hn : n ≤ 16383) :
    readRuns (fuel + 1) colour left (codeRun n ++ more) =
      (readRuns fuel (!colour) (left - n) more).map fun r => (List.replicate n colour ++ r.1, r.2) := by
  obtain ⟨left, rfl⟩ := Nat.exists_eq_succ_of_ne_zero hleft.ne'
  rw [readRuns, readRun_codeRun hn]
  exact if_neg (by omega)

theorem readRuns_runsFrom {row : List Bool} (fuel : Nat) (colour : Bool) (n : Nat) (more : List Byte) (hfuel : row.length < fuel)
    (hpos : 0 < n + row.length) (hmax : n + row.length ≤ 16383) :
    readRuns fuel colour (n + row.length) ((runsFrom colour n row).flatMap codeRun ++ more) =
      some (List.replicate n colour ++ row, more) := by
  induction row generalizing fuel colour n with
  | nil =>
    obtain ⟨fuel, rfl⟩ := Nat.exists_eq_succ_of_ne_zero (Nat.ne_of_gt hfuel)
    rw [List.length_nil, Nat.add_zero] at hpos hmax ⊢
    rw [runsFrom, List.flatMap_singleton, readRuns_codeRun fuel colour more hpos le_rfl hmax, Nat.sub_self]
    cases fuel <;> rfl
  | cons p ps ih =>
    rw [List.length_cons] at hfuel hpos hmax
    by_cases hp : p = colour
    · subst hp
      have hsame := ih fuel p (n + 1) (by omega) (by omega) (by omega)
      rw [runsFrom_cons_same, List.length_cons, ← Nat.add_assoc, Nat.add_right_comm, hsame, List.replicate_succ',
        List.append_assoc]
      rfl
    · obtain ⟨fuel, rfl⟩ := Nat.exists_eq_succ_of_ne_zero (Nat.ne_of_gt (Nat.zero_lt_of_lt hfuel))
      have hother : (!colour) = p := by cases p <;> cases colour <;> simp_all
      have hchange := ih fuel p 1 (by omega) (by omega) (by omega)
      rw [runsFrom_cons_change hp, List.flatMap_cons, List.append_assoc, List.length_cons,
        readRuns_codeRun fuel colour _ (by omega) (by omega) (by omega), hother, Nat.add_sub_cancel_left, Nat.add_comm ps.length,
        hchange]
      rfl

theorem readRow_codeRow {width : Nat} {row : List Bool} (prev : Option (List Bool)) (more : List Byte) (hlength : row.length = width)
    (hwidth : width ≤ 2560) : readRow width prev (codeRow prev row ++ more) = some (row, more) := by
  rcases codeRow_cases prev row with ⟨hwhite, hcode⟩ | ⟨⟨-, rfl⟩, hcode⟩ | ⟨⟨hblack, -⟩, hcode⟩ <;> rw [hcode]
  · rw [List.singleton_append, readRow, if_pos rfl, ← hlength, ← List.eq_replicate_of_mem hwhite]
  · rfl
  · have hpos : 0 < row.length := List.length_pos_of_mem hblack
    have hruns := readRuns_runsFrom (width + 1) false 0 more (by omega : row.length < width + 1) (by omega) (by omega)
    rw [Nat.zero_add, hlength] at hruns
    exact hruns

theorem readRows_codeRows {width : Nat} (hwidth : width ≤ 2560) (prev : Option (List Bool)) {rows : List (List Bool)}
    (hrows : ∀ r ∈ rows, r.length = width) : readRows width rows.length prev (codeRows prev rows) = some rows := by
  induction rows generalizing prev with
  | nil => rfl
  | cons r rs ih =>
    obtain ⟨hr, hrs⟩ := List.forall_mem_cons.mp hrows
    rw [codeRows, List.length_cons, readRows, readRow_codeRow prev _ hr hwidth]
    simp only [ih (some r) hrs, Option.map_some]

/-- Settles O16, row by row, each row run by run. -/
theorem readerRebuildsTheRows : Obligations.ReaderRebuildsTheRows :=
  fun _ _ hwidth hrows => readRows_codeRows hwidth none hrows

/-! ### Storing the body (R37 to R39) -/

theorem appendBytes_cons (budget : Nat) (c : CoderState) (x : Byte) (xs : List Byte) :
    appendBytes budget c (x :: xs) = appendBytes budget (appendByte budget c x) xs := rfl

theorem appendBytes_append (budget : Nat) (c : CoderState) (xs ys : List Byte) :
    appendBytes budget c (xs ++ ys) = appendBytes budget (appendBytes budget c xs) ys := List.foldl_append

theorem appendBytes_of_oversize (budget : Nat) (bytes : List Byte) (c : CoderState) (h : c.oversize = true)
    (htop : c.fullLen + bytes.length ≤ 16777215) :
    appendBytes budget c bytes = { c with fullLen := c.fullLen + bytes.length } := by
  induction bytes generalizing c with
  | nil => rfl
  | cons x xs ih =>
    rw [List.length_cons] at htop
    have hfirst : appendByte budget c x = { c with fullLen := c.fullLen + 1 } := by
      rw [appendByte, if_pos h, Nat.min_eq_left (by unfold Config.fullLenTop; omega)]
    rw [appendBytes_cons, hfirst, ih { c with fullLen := c.fullLen + 1 } h (by dsimp only; omega), List.length_cons, Nat.add_assoc,
      Nat.add_comm 1]

theorem appendBytes_of_fits (budget : Nat) (bytes : List Byte) (c : CoderState) (h : c.oversize = false)
    (hlen : c.bodyLen = c.fullLen) (hfits : c.fullLen + bytes.length ≤ budget) (htop : c.fullLen + bytes.length ≤ 16777215) :
    appendBytes budget c bytes =
      ⟨c.fullLen + bytes.length, c.fullLen + bytes.length, false, c.writePos + bytes.length, c.body ++ bytes⟩ := by
  induction bytes generalizing c with
  | nil =>
    obtain ⟨full, body, crossed, pos, bytes⟩ := c
    obtain rfl : body = full := hlen
    obtain rfl : crossed = false := h
    simp [appendBytes]
  | cons x xs ih =>
    rw [List.length_cons] at hfits htop
    have hfull : min (c.fullLen + 1) Config.fullLenTop = c.fullLen + 1 := Nat.min_eq_left (by unfold Config.fullLenTop; omega)
    have hfirst : appendByte budget c x = ⟨c.fullLen + 1, c.fullLen + 1, false, c.writePos + 1, c.body ++ [x]⟩ := by
      rw [appendByte, hfull, h, if_neg Bool.false_ne_true, if_pos (by omega)]
    rw [appendBytes_cons, hfirst, ih _ rfl rfl (by dsimp only; omega) (by dsimp only; omega)]
    simp [Nat.add_assoc, Nat.add_comm 1]

/-- The bytes up to the budget are stored, the next one sets OVERSIZE and the rest are counted. -/
theorem appendBytes_of_crossing (budget : Nat) (bytes : List Byte) (c : CoderState) (h : c.oversize = false)
    (hlen : c.bodyLen = c.fullLen) (hbudget : c.fullLen ≤ budget) (hcross : budget < c.fullLen + bytes.length)
    (htop : c.fullLen + bytes.length ≤ 16777215) :
    appendBytes budget c bytes =
      ⟨c.fullLen + bytes.length, 0, true, c.writePos + (budget - c.fullLen), c.body ++ bytes.take (budget - c.fullLen)⟩ := by
  obtain ⟨x, rest, hdrop⟩ : ∃ x rest, bytes.drop (budget - c.fullLen) = x :: rest :=
    List.exists_cons_of_length_pos (by rw [List.length_drop]; omega)
  have htake : (bytes.take (budget - c.fullLen)).length = budget - c.fullLen := List.length_take_of_le (by omega)
  have hrest : bytes.length = budget - c.fullLen + 1 + rest.length := by
    have := congrArg List.length (List.take_append_drop (budget - c.fullLen) bytes)
    rw [List.length_append, htake, hdrop, List.length_cons] at this
    omega
  have hfull : min (budget + 1) Config.fullLenTop = budget + 1 := Nat.min_eq_left (by unfold Config.fullLenTop; omega)
  have hstored := appendBytes_of_fits budget (bytes.take (budget - c.fullLen)) c h hlen (by omega) (by omega)
  rw [htake, Nat.add_sub_cancel' hbudget] at hstored
  have hfirst : appendByte budget (appendBytes budget c (bytes.take (budget - c.fullLen))) x =
      ⟨budget + 1, 0, true, c.writePos + (budget - c.fullLen), c.body ++ bytes.take (budget - c.fullLen)⟩ := by
    rw [hstored, appendByte, hfull, if_neg Bool.false_ne_true, if_neg (by omega)]
  have hsplit : appendBytes budget c bytes =
      appendBytes budget (appendBytes budget c (bytes.take (budget - c.fullLen))) (x :: rest) := by
    rw [← appendBytes_append, ← hdrop, List.take_append_drop]
  have hcount : budget + 1 + rest.length = c.fullLen + bytes.length := by omega
  rw [hsplit, appendBytes_cons, hfirst, appendBytes_of_oversize _ _ _ rfl (by dsimp only; omega)]
  simp only [hcount]

/-- Settles O17: below the top of the count, the bytes fit or cross the budget. -/
theorem bodyIsStoredWithinTheBudget : Obligations.BodyIsStoredWithinTheBudget := by
  intro budget bytes c hover hlen hbudget htop
  rcases Nat.lt_or_ge budget (c.fullLen + bytes.length) with hcross | hfits
  · rw [appendBytes_of_crossing budget bytes c hover hlen hbudget hcross htop.le]
    exact ⟨rfl, fun h => absurd h hcross.not_ge, fun _ => ⟨rfl, rfl, rfl⟩⟩
  · rw [appendBytes_of_fits budget bytes c hover hlen hfits htop.le]
    exact ⟨rfl, fun _ => ⟨rfl, rfl, rfl, rfl⟩, fun h => absurd h hfits.not_gt⟩

/-! ### Figures and end tests (R42 to R44) -/

theorem figures_of_empty {w h : Nat} (black grey sp : Nat) (columns : List Nat) (hempty : w * h = 0) :
    figures w h black grey columns sp = ⟨0, 0, 0⟩ := if_pos hempty

theorem figures_of_pos {w h : Nat} (black grey sp : Nat) (columns : List Nat) (hpos : 0 < w * h) :
    figures w h black grey columns sp =
      ⟨black * 1000 / (w * h), grey / (w * h), columns.countP fun n => decide (h * sp ≤ n * 1000)⟩ := by
  rw [figures, if_neg hpos.ne', List.countP_eq_length_filter]

/-- Settles O18: the figures by their equations; each test raises its own condition. -/
theorem sideFiguresAndTestsFollowTheCounts : Obligations.SideFiguresAndTestsFollowTheCounts := by
  refine ⟨fun w h black grey sp columns => ⟨figures_of_empty black grey sp columns, fun hpos => ?_⟩, fun p w h f c n => ?_⟩
  · rw [figures_of_pos black grey sp columns hpos]
    refine ⟨rfl, rfl, rfl, fun hblack => ?_, fun hgrey => ?_⟩
    · exact Nat.div_le_of_le_mul (Nat.mul_le_mul_right 1000 hblack)
    · exact Nat.div_le_of_le_mul (hgrey.trans_eq (Nat.mul_comm ..))
  · simp only [sideEndTests, holds_raiseIf, Bool.or_eq_true, Bool.and_eq_true, decide_eq_true_eq, condSizeSmall, condSizeLarge,
      condTooLight, condTooDark, condStreak, condBrightnessLow, condBrightnessHigh]
    simp only [eq_comm (b := n)]
    tauto

end Sys2Proof.Machine
end

