-- ==== Sys2Proof/Proofs/Flow.lean ====
section
/-! Flow control: the paused flag and the global stop follow their marks, and the intake link serves its classes in order
(R156 to R163). -/

namespace Sys2Proof.Machine

/-! ### What an evaluation of the paused flag changes (R157) -/

/-- The paused flag that an evaluation leaves. -/
def pausedAfter (l : Fin 16) (s : State) : Bool := pausedBy (s.lane l) (s.backlog l) (s.lane l).list.length

theorem evalPaused_eq (l : Fin 16) (s : State) :
    evalPaused l s =
      if pausedAfter l s = (s.lane l).paused then s
      else queueFlow (if pausedAfter l s then .pause l else .resume l)
        (s.setLane l { s.lane l with paused := pausedAfter l s }) := rfl

theorem lane_evalPaused_self (l : Fin 16) (s : State) :
    (evalPaused l s).lane l = { s.lane l with paused := pausedAfter l s } := by
  rw [evalPaused_eq]
  split
  next hsame => rw [hsame]
  next => exact State.lane_setLane_self ..

theorem lane_evalPaused_ne (s : State) {l k : Fin 16} (h : l ≠ k) : (evalPaused l s).lane k = s.lane k := by
  rw [evalPaused_eq]
  split
  · rfl
  · exact State.lane_setLane_ne s _ h

@[simp] theorem list_evalPaused (l k : Fin 16) (s : State) : ((evalPaused l s).lane k).list = (s.lane k).list := by
  by_cases h : l = k
  · subst h; rw [lane_evalPaused_self]
  · rw [lane_evalPaused_ne s h]

@[simp] theorem item?_evalPaused (l k : Fin 16) (q : Seq) (s : State) : (evalPaused l s).item? k q = s.item? k q := by
  rw [State.item?, Lane.item?, list_evalPaused]; rfl

@[simp] theorem side?_evalPaused (l : Fin 16) (r : SideRef) (s : State) : (evalPaused l s).side? r = s.side? r := by
  rw [State.side?, item?_evalPaused]; rfl

@[simp] theorem unit_evalPaused (l : Fin 16) (u : Fin 4) (s : State) : (evalPaused l s).unit u = s.unit u := by
  simp [State.unit]

/-- An evaluation as one change of the lane's flag and of the flow queue. -/
theorem evalPaused_eq_blocks (l : Fin 16) (s : State) :
    evalPaused l s = { s with
      lanes := s.lanes.set l.val { s.lane l with paused := pausedAfter l s }
      flow := { s.flow with
        flowQueue :=
          if pausedAfter l s = (s.lane l).paused then s.flow.flowQueue
          else enqueueFlow (if pausedAfter l s = true then .pause l else .resume l) s.flow.flowQueue } } := by
  rw [evalPaused_eq]
  split
  next hsame =>
    rw [hsame]
    exact (State.setLane_lane_self s l).symm
  next => rfl

/-! ### What an evaluation of the global stop changes (R160) -/

/-- The global stop flag that an evaluation leaves. -/
def stopAfter (s : State) : Bool :=
  if s.freePages < s.mgmt.pageReserve then true
  else if s.mgmt.pageReserve + s.mgmt.resumeMargin ≤ s.freePages then false else s.flow.globalStop

theorem evalStop_eq_blocks (s : State) :
    evalStop s = { s with
      flow := { s.flow with
        globalStop := stopAfter s
        globalStops := if s.flow.globalStop = false ∧ stopAfter s = true then bump s.flow.globalStops else s.flow.globalStops
        flowQueue :=
          if stopAfter s = s.flow.globalStop then s.flow.flowQueue
          else enqueueFlow (if stopAfter s = true then .stopAll else .startAll) s.flow.flowQueue } } := by
  obtain ⟨_, _, _, _, free, _, _, _, ⟨stop, _, _, _, _, _⟩, mgmt, _⟩ := s
  unfold evalStop stopAfter
  dsimp only
  split
  next => cases stop <;> rfl
  next =>
    split
    next => cases stop <;> rfl
    next => cases stop <;> rfl

/-! ### The backlog (R156) -/

theorem rowsConsumed_eq (s : State) (x : Side) :
    s.rowsConsumed x = ((x.boundUnit.bind fun u => s.unit u).map Binding.rowsConsumed).getD 0 := by
  unfold State.rowsConsumed
  split
  next h => rw [h]; rfl
  next u h =>
    rw [h, Option.bind_some]
    split
    next hfree => rw [hfree]; rfl
    next b hbound => rw [hbound]; rfl

theorem sideBacklog_eq (s : State) (x : Side) :
    s.sideBacklog x =
      if x.state = .storing then x.rowsStored
      else if x.state = .bound then x.rowsStored - s.rowsConsumed x else 0 := by
  unfold State.sideBacklog
  split <;> simp_all

theorem backlog_eq (s : State) (l : Fin 16) :
    s.backlog l = (((s.lane l).list.flatMap Item.sides).map s.sideBacklog).sum := by
  rw [State.backlog]
  induction (s.lane l).list with
  | nil => rfl
  | cons i is ih => rw [List.map_cons, List.sum_cons, ih, List.flatMap_cons, List.map_append, List.sum_append]

theorem pausedBy_set {c : Lane} {b n : Nat} (h : c.xoff ≤ b ∨ n = 8) : pausedBy c b n = true := if_pos h

theorem pausedBy_clear {c : Lane} {b n : Nat} (hmarks : c.xon + 16 ≤ c.xoff) (hb : b ≤ c.xon) (hn : n ≤ 7) :
    pausedBy c b n = false := by
  rw [pausedBy, if_neg (by omega), if_pos ⟨hb, hn⟩]

theorem pausedBy_keep {c : Lane} {b n : Nat} (hon : c.xon < b) (hoff : b < c.xoff) (hn : n ≠ 8) : pausedBy c b n = c.paused := by
  rw [pausedBy, if_neg (by omega), if_neg (by omega)]

/-- Settles O42: the three cases of the marks, and the evaluation as one change. -/
theorem flowFlagsFollowTheirMarks : Obligations.FlowFlagsFollowTheirMarks := by
  refine ⟨fun s l => ?_, fun s g hg => ?_, fun s l => ?_⟩
  · simp only [lane_evalPaused_self]
    exact ⟨pausedBy_set, pausedBy_clear, pausedBy_keep, evalPaused_eq_blocks l s⟩
  · rw [evalStop_eq_blocks, hg]; rfl
  · rw [backlog_eq]
    refine congrArg List.sum (List.map_congr_left fun x _ => ?_)
    rw [sideBacklog_eq, rowsConsumed_eq]

/-! ### The Exchange Port with nothing to start -/

theorem startExchange_of_nothing {s : State} (h : NothingToStart s) : startExchange s = s := by
  unfold startExchange
  rcases h with hbusy | hhalted | ⟨hemission, hreplies, hready⟩
  · exact if_pos (.inl hbusy)
  · exact if_pos (.inr hhalted)
  · have hnone : nextReadyLane? s = none := List.find?_eq_none.mpr fun l _ => by simp [hready l]
    rw [hemission, hreplies, startRecord, hnone]
    split_ifs <;> rfl

theorem startBeside_of_nothing {s : State} (l : Fin 16) (h : NothingToStart s) : startBeside l s = s := by
  rcases startBeside_cases l s with e | e
  · exact e
  · rw [e, startExchange_of_nothing h]

/-! ### The intake link (R162, R163) -/

theorem takeRequests_of_nil {s : State} (h : s.mgmt.requests = []) : takeRequests s = s := by
  rw [takeRequests, h]; rfl

theorem mem_lane_frames (f : FlowFrame) (l : Fin 16) : f ∈ [.pause l, .resume l] ↔ f.scope = some l := by
  cases f <;> simp [FlowFrame.scope, eq_comm]

theorem mem_intake_frames (f : FlowFrame) : f ∈ [.stopAll, .startAll] ↔ f.scope = none := by
  cases f <;> simp [FlowFrame.scope]

theorem sameScope_iff_mem (f g : FlowFrame) :
    sameScope f g = true ↔ (f ∈ [.stopAll, .startAll] ∧ g ∈ [.stopAll, .startAll])
      ∨ ∃ l, f ∈ [.pause l, .resume l] ∧ g ∈ [.pause l, .resume l] := by
  simp only [sameScope_iff, mem_lane_frames, mem_intake_frames]
  cases f.scope <;> cases g.scope <;> simp [eq_comm]

/-- Settles O43: the queue by its equation, each start and end by the class of its frame. -/
theorem intakeTransmitServesTheClassesInOrder : Obligations.IntakeTransmitServesTheClassesInOrder := by
  refine ⟨fun f q => ⟨rfl, fun h => ⟨enqueueFlow_pairwise h, length_le_of_pairwise (enqueueFlow_pairwise h)⟩⟩, fun s => ?_,
    fun l => ⟨rfl, rfl⟩, rfl, rfl, sameScope_iff_mem⟩
  have hstart : exec .intakeFrameStart s = .next (startIntakeFrame s) := rfl
  have hsent : exec .intakeFrameSent s = .next (intakeSent s) := rfl
  have hreply (f : Frame) (p : List Byte) (rest : List (List Byte)) (hbusy : s.flow.inProgress = some ⟨.reply, f⟩)
      (hreplies : s.flow.replies = p :: rest) :
      intakeSent s = startExchange (takeRequests { s with
        flow := { s.flow with inProgress := none, replies := rest }
        intakePort := { s.intakePort with framesOut := bump s.intakePort.framesOut } }) := by
    have htail : rest = s.flow.replies.tail := by rw [hreplies, List.tail_cons]
    rw [Machine.intakeSent, hbusy, htail]; rfl
  rw [hstart, hsent]
  refine ⟨fun hbusy => ?_, fun f rest hidle hflow => ?_, fun r rest hidle hflow hrefusals => ?_,
    fun p rest hidle hflow hrefusals hreplies => ?_, fun f hbusy => ?_, fun f r rest hbusy hrefusals => ?_,
    fun f p rest hbusy hreplies hrequests hsettled => ?_, fun f p rest hbusy hreplies => ?_⟩
  · obtain ⟨t, ht⟩ := Option.ne_none_iff_exists'.mp hbusy
    rw [startIntakeFrame, ht]
  · rw [startIntakeFrame, hidle, hflow]; rfl
  · rw [startIntakeFrame, hidle, hflow, hrefusals]; rfl
  · rw [startIntakeFrame, hidle, hflow, hrefusals, hreplies]; rfl
  · rw [Machine.intakeSent, hbusy]; rfl
  · have htail : rest = s.flow.refusals.tail := by rw [hrefusals, List.tail_cons]
    rw [Machine.intakeSent, hbusy, htail]; rfl
  · have hnothing := ((exchangeSettled_iff s).mp hsettled).2
    rw [hreply f p rest hbusy hreplies, takeRequests_of_nil (by exact hrequests), startExchange_of_nothing]
    exact hnothing.congr rfl fun _ => rfl
  · rw [hreply f p rest hbusy hreplies]

end Sys2Proof.Machine
end

