-- ==== Sys2Proof/Proofs/Withheld.lean ====
section
/-! No record of a lane starts in an event that comes together with a reset of the lane (R95, R128, R139, R153; log 33). -/

namespace Sys2Proof.Machine

theorem mem_stamps_iff {c : Lane} {q : Seq} {st : ItemState} : (q, st) ∈ c.stamps ↔ ∃ i ∈ c.list, i.seq = q ∧ i.state = st := by
  simp [Lane.stamps, Item.stamp]

/-- No record of a lane has been started from one context of it to another. -/
def StartsNone (c e : Lane) : Prop := ∀ q, (q, .emitting) ∈ e.stamps → (q, .emitting) ∈ c.stamps

theorem emitting_mem_of_moves {ps ps' : List (Seq × ItemState)} (h : List.Forall₂ Moves ps ps') {q : Seq}
    (hq : (q, .emitting) ∈ ps') : (q, .emitting) ∈ ps := by
  induction h with
  | nil => exact hq
  | @cons p p' _ _ hp _ ih =>
    rcases List.mem_cons.mp hq with heq | hq
    · obtain rfl : p = (q, .emitting) := by
        obtain rfl := heq
        exact Prod.ext hp.1.symm (hp.2.resolve_right fun h => h.2 rfl).symm
      exact List.mem_cons_self
    · exact List.mem_cons_of_mem _ (ih hq)

theorem ItemsMove.startsNone {c e : Lane} (h : ItemsMove c e) : StartsNone c e := fun _ => emitting_mem_of_moves h

theorem startsNoneOf_iff (l : Fin 16) (s t : State) : StartsNoneOf l s t ↔ StartsNone (s.lane l) (t.lane l) := by
  simp only [StartsNoneOf, StartsNone, mem_stamps_iff]
  constructor
  · rintro h q ⟨i, hi, rfl, hstate⟩
    exact h i hi hstate
  · intro h i hi hstate
    exact h i.seq ⟨i, hi, rfl, hstate⟩

theorem StartsNone.refl (c : Lane) : StartsNone c c := fun _ => id

theorem StartsNone.trans {a b c : Lane} (hab : StartsNone a b) (hbc : StartsNone b c) : StartsNone a c := fun q hq => hab q (hbc q hq)

theorem StartsNone.setLane {c : Lane} {s : State} {l k : Fin 16} {e : Lane} (he : StartsNone (s.lane l) e)
    (h : StartsNone c (s.lane k)) : StartsNone c ((s.setLane l e).lane k) := by
  rcases s.lane_setLane_cases l k e with ⟨rfl, hlane⟩ | hlane <;> rw [hlane]
  · exact h.trans he
  · exact h

/-- No event of a side and no judgement starts a record. -/
theorem startsNone_kept (c : Lane) (k : Fin 16) : ItemKept fun _ _ s => StartsNone c (s.lane k) where
  lane _ hstamps := .setLane (ItemsMove.of_stamps_eq hstamps).startsNone
  reduction _ := id
  rebind _ _ := id
  granted _ := id
  owing := id
  flowFrame _ := id
  free _ h := by simpa using h
  items _ hmove := .setLane hmove.startsNone
  refusal _ h := by simpa using h
  fault := id
  exhausted := id
  service _ := id

/-! ### The request that is taken next -/

theorem nextRequest?_congr {s t : State} (htaking : t.taking = s.taking) (hrequests : t.mgmt.requests = s.mgmt.requests)
    (hreplies : t.flow.replies = s.flow.replies) (hpending : t.pending = s.pending) : nextRequest? t = nextRequest? s := by
  simp only [nextRequest?, htaking, hrequests, hreplies, hpending]

/-- No event of a side and no judgement takes a request, answers one or reads a command. -/
theorem nextRequest_kept (r : Option Request) : ItemKept fun _ _ s => nextRequest? s = r where
  lane _ _ := id
  reduction _ := id
  rebind _ _ := id
  granted _ := id
  owing := id
  flowFrame _ := id
  free _ := (nextRequest?_congr (by simp) (by simp) (by simp [evalStop_replies]) (by simp)).trans
  items _ _ := id
  refusal _ := (nextRequest?_congr (by simp [queueRefusal_taking]) (by simp) (queueRefusal_replies ..) (by simp)).trans
  fault := id
  exhausted := id
  service _ := id

theorem laneResetNext_congr {l : Fin 16} {s t : State} (h : nextRequest? t = nextRequest? s) :
    laneResetNext l t = laneResetNext l s := by simp only [laneResetNext, h]

theorem engineResetNext_congr {s t : State} (h : nextRequest? t = nextRequest? s) : engineResetNext t = engineResetNext s := by
  simp only [engineResetNext, h]

/-! ### The start that is held back -/

/-- What the Exchange Port starts is a frame of an emission, a reply, or the next READY head. -/
theorem startExchange_lane_of_not_wouldStart {l : Fin 16} {s : State} (h : wouldStart l s = false) :
    (startExchange s).lane l = s.lane l := by
  have hnot : ¬ (s.egress.emission = none ∧ s.egress.replies = [] ∧ nextReadyLane? s = some l) := of_decide_eq_false h
  unfold startExchange
  split
  · rfl
  · split
    · unfold startEmissionFrame; split <;> rfl
    next hemission =>
      split
      · rfl
      next hreplies =>
        unfold startRecord
        split
        · rfl
        · split
          · rfl
          next k hk =>
            split
            · rfl
            · have hne : k ≠ l := fun e => hnot ⟨hemission, hreplies, e ▸ hk⟩
              exact State.lane_modItem_ne _ _ hne

theorem startBeside_lane_of_reset {l : Fin 16} {s : State} (h : laneResetNext l s = true) :
    (startBeside l s).lane l = s.lane l := by
  unfold startBeside
  cases hwould : wouldStart l s
  · rw [Bool.and_false]
    exact startExchange_lane_of_not_wouldStart hwould
  · rw [h]; rfl

/-- The start at the end of an event starts no record of the lane that did not start before it. -/
theorem startBeside_startsNone {l : Fin 16} {s v : State} (hnone : StartsNone (s.lane l) (v.lane l))
    (hnext : nextRequest? v = nextRequest? s) (hreset : laneResetNext l s = true) :
    StartsNone (s.lane l) ((startBeside l v).lane l) := by
  rwa [startBeside_lane_of_reset ((laneResetNext_congr hnext).trans hreset)]

theorem startAfterLast_lane_of_reset {l : Fin 16} {s : State} (h : laneResetNext l s = true) :
    (startAfterLast l s).lane l = s.lane l := by
  unfold startAfterLast
  split
  · rfl
  · exact startBeside_lane_of_reset h

end Sys2Proof.Machine
end

