-- ==== Sys2Proof/Proofs/Units.lean ====
section
/-! The Reduction Units: what a binding sets up, what a completed output row does, and the end of a side (R1 to R16, R50 to R58). -/

namespace Sys2Proof.Machine

/-! ### Records and units apart -/

@[simp] theorem unit_modSide (s : State) (r : SideRef) (g : Side → Side) (u : Fin 4) : (s.modSide r g).unit u = s.unit u := rfl

@[simp] theorem side?_setUnit (s : State) (u : Fin 4) (b : Option Binding) (r : SideRef) : (s.setUnit u b).side? r = s.side? r :=
  rfl

@[simp] theorem side?_popWaiting (s : State) (r : SideRef) : (popWaiting s).side? r = s.side? r := by
  unfold popWaiting; split <;> rfl

@[simp] theorem unit_popWaiting (s : State) (u : Fin 4) : (popWaiting s).unit u = s.unit u := by
  unfold popWaiting; split <;> rfl

@[simp] theorem context_popWaiting (s : State) (k : Fin 16) : (popWaiting s).lane k = s.lane k := by
  unfold popWaiting; split <;> rfl

/-! ### The ratio and the sub-state (R1, R2, R13) -/

theorem ratio_of_lt {rin rout : Nat} (h : rin < rout) : ratio rin rout = (1, 1) := if_pos h

theorem ratio_of_ge {rin rout : Nat} (h : rout ≤ rin) :
    ratio rin rout = (rin / Nat.gcd rin rout, rout / Nat.gcd rin rout) := if_neg h.not_gt

theorem ratio_lowestTerms {rin rout : Nat} (hin : 0 < rin) (h : rout ≤ rin) :
    (ratio rin rout).1 * rout = (ratio rin rout).2 * rin ∧ Nat.gcd (ratio rin rout).1 (ratio rin rout).2 = 1 := by
  rw [ratio_of_ge h]
  refine ⟨?_, Nat.coprime_div_gcd_div_gcd (Nat.gcd_pos_of_pos_left _ hin)⟩
  dsimp only
  rw [Nat.div_mul_right_comm (Nat.gcd_dvd_left ..), Nat.div_mul_right_comm (Nat.gcd_dvd_right ..), Nat.mul_comm]

theorem rowReady_iff {din dout k n : Nat} (hdout : 0 < dout) : rowReady din dout k n = true ↔ (k + 1) * din ≤ n * dout := by
  rw [rowReady, decide_eq_true_iff]
  exact ⟨fun h => (le_ceilDiv_mul hdout).trans (Nat.mul_le_mul_right dout h), ceilDiv_le_of_le_mul hdout⟩

theorem chooseSub_of_rows_left {b : Binding} (n : Nat) (closed : Bool) (hdout : 0 < b.dout) (h : b.nextRow < b.target) :
    chooseSub b n closed = if (b.nextRow + 1) * b.din ≤ n * b.dout then .running else .waitInput := by
  rw [chooseSub, if_pos h]
  exact if_congr (rowReady_iff hdout) rfl rfl

theorem chooseSub_of_no_row_left {b : Binding} (n : Nat) (closed : Bool) (h : b.target ≤ b.nextRow) :
    chooseSub b n closed = if closed = true then .finishing else .waitInput := by
  rw [chooseSub, if_neg h.not_gt]

/-! ### The binding (R54, R56) -/

theorem bindSide_eq {s : State} {u : Fin 4} {r : SideRef} {x : Side} {p : Profile} (hx : s.side? r = some x)
    (hp : x.snapshot = some p) :
    bindSide u r s =
      if x.state = .reworkWait then
        evalPaused r.lane ((s.setUnit u (some (newBinding r x p))).modSide r (boundSide u p (newBinding r x p)))
      else (s.setUnit u (some (newBinding r x p))).modSide r (boundSide u p (newBinding r x p)) := by
  rw [bindSide, hx]
  dsimp only
  rw [hp]

/-- What a rework binding does beyond a first one is the evaluation of the paused flag, which leaves the units, the records and
most blocks. -/
theorem evalPausedIf_frame (c : Prop) [Decidable c] (l : Fin 16) (v : State) :
    (∀ u, (if c then evalPaused l v else v).unit u = v.unit u)
      ∧ (∀ r, (if c then evalPaused l v else v).side? r = v.side? r)
      ∧ (∀ k, k ≠ l → (if c then evalPaused l v else v).lane k = v.lane k)
      ∧ ((if c then evalPaused l v else v).lane l).context = (v.lane l).context
      ∧ (if c then evalPaused l v else v).reduction = v.reduction
      ∧ ((if c then evalPaused l v else v).intakePort, (if c then evalPaused l v else v).admission,
          (if c then evalPaused l v else v).freePages, (if c then evalPaused l v else v).disposition,
          (if c then evalPaused l v else v).egress, (if c then evalPaused l v else v).mgmt) =
          (v.intakePort, v.admission, v.freePages, v.disposition, v.egress, v.mgmt) := by
  split
  · refine ⟨fun u => unit_evalPaused .., fun r => side?_evalPaused .., fun k hk => lane_evalPaused_ne v hk.symm,
      evalPaused_context .., evalPaused_reduction .., ?_⟩
    simp
  · exact ⟨fun _ => rfl, fun _ => rfl, fun _ _ => rfl, rfl, rfl, rfl⟩

theorem popWaiting_eq {s : State} {r : SideRef} {rest : List SideRef}
    (hwait : s.reduction.reworkWait = r :: rest ∨ (s.reduction.reworkWait = [] ∧ s.reduction.openWait = r :: rest)) :
    waitingSide? s = some r ∧ popWaiting s = { s with
      reduction := { s.reduction with
        openWait := if s.reduction.reworkWait = [] then rest else s.reduction.openWait
        reworkWait := if s.reduction.reworkWait = [] then [] else rest } } := by
  rcases hwait with hrework | ⟨hrework, hopen⟩
  · rw [waitingSide?, popWaiting, hrework]
    exact ⟨rfl, rfl⟩
  · rw [waitingSide?, popWaiting, hrework, hopen]
    refine ⟨rfl, ?_⟩
    simp only [if_true, List.tail_cons, State.withReduction, hrework]

/-- Settles O19: the grant is one equation; each part is read off the binding that it sets up. -/
theorem grantBindsTheHeadWaiterToTheLowestUnit : Obligations.GrantBindsTheHeadWaiterToTheLowestUnit := by
  refine ⟨fun s u r x p rest hfree hlow hx hp hwait => ?_, fun rin rout hin _ => ⟨ratio_of_lt, ratio_lowestTerms hin⟩,
    fun b n closed hdout => ⟨chooseSub_of_rows_left n closed hdout, chooseSub_of_no_row_left n closed⟩⟩
  obtain ⟨hhead, hpop⟩ := popWaiting_eq hwait
  have hrecord : (popWaiting s).side? r = some x := by rw [side?_popWaiting, hx]
  have hgrant := (grant_of_waiting (freeUnit?_eq_some hfree hlow) hhead).trans (bindSide_eq (u := u) hrecord hp)
  generalize hb : newBinding r x p = b at hgrant
  generalize hv : ((popWaiting s).setUnit u (some b)).modSide r (boundSide u p b) = v at hgrant
  obtain ⟨hunits, hsides, hlanes, hcontext, hreduction, hblocks⟩ := evalPausedIf_frame (x.state = .reworkWait) r.lane v
  refine ⟨_, b, v, congrArg Host.Outcome.next hgrant, rfl, ?_, ?_, ?_, ?_, ?_, ?_, ?_, ?_, ?_, ?_, ?_, ?_, ?_, ?_, ?_, ?_, ?_⟩
  · rw [← hv, ← hpop]
    refine State.modSide_congr fun y hy => ?_
    obtain rfl : y = x := by simpa [hx] using hy.symm
    rfl
  · rw [hunits, ← hv]; simp
  · intro w hw
    rw [hunits, ← hv]; simp [State.unit_setUnit_ne _ _ hw.symm]
  · intro hrework
    rw [hreduction, ← hv, hpop]
    simp [State.setUnit, hrework]
  · intro hrework
    rw [hreduction, ← hv, hpop]
    simp [State.setUnit, hrework]
  · rw [← hb]; rfl
  · rw [← hb]; rfl
  · rw [← hb]; rfl
  · rw [← hb]; rfl
  · rw [← hb, Nat.mul_comm]; rfl
  · rw [← hb]; rfl
  · rw [← hb]; rfl
  · rw [← hb]; rfl
  · rw [hsides, ← hv, State.side?_modSide_self _ ((side?_setUnit ..).trans hrecord), ← hb]; rfl
  · intro k hk
    rw [hlanes k hk, ← hv, State.lane_modSide_ne _ _ hk.symm]; simp
  · rw [hcontext, ← hv]; simp
  · rw [hblocks, ← hv, hpop]; rfl

/-! ### A completed output row (R11 to R16, R21, R34 to R41) -/

theorem completeRow_eq {s : State} {u : Fin 4} {b : Binding} {x : Side} (hb : s.unit u = some b) (hsub : b.sub = .running)
    (hx : s.side? b.ref = some x) :
    completeRow u s = evalPaused b.ref.lane ((s.setUnit u (some (rowDone x b))).modSide b.ref (rowRecorded b)) := by
  rw [completeRow, hb]
  dsimp only
  rw [hsub]
  dsimp only
  rw [hx]

theorem blackIn_eq_count (row : List Bool) : blackIn row = row.count true := by
  rw [blackIn, List.count_eq_length_filter]
  congr 1
  exact List.filter_congr fun p _ => by cases p <;> rfl

theorem rowRecorded_raised (b : Binding) (x : Side) :
    (rowRecorded b x).raised = if (rowCoded x b).oversize = true ∧ b.oversize = false then x.raised ||| 0x1000 else x.raised := by
  simp only [rowRecorded, raiseIf, Bool.and_eq_true, Bool.not_eq_true']
  rfl

/-- Settles O20: the row by the stages in order, and the sums over the needed pixels. -/
theorem outputRowPassesThroughTheStages : Obligations.OutputRowPassesThroughTheStages := by
  refine ⟨fun s u b x hb hsub hx => ⟨rowDone x b, ?_, rfl, rfl, rfl, rfl, rfl, rfl, rfl, ?_, rfl, rfl, rfl, rfl, rfl⟩,
    fun _ _ _ _ => rfl, fun din dout j m h => sum_weight_range h, fun x r c v hv => ?_,
    fun din dout px j k m n hdout hm hn => weightedSum_eq px hdout hm hn⟩
  · refine congrArg Host.Outcome.next ((completeRow_eq hb hsub hx).trans ?_)
    refine congrArg (evalPaused b.ref.lane) (State.modSide_congr fun y hy => ?_)
    obtain rfl : y = x := Option.some.inj (hy.symm.trans hx)
    rw [← rowRecorded_raised]; rfl
  · exact congrArg (b.blackCount + ·) (blackIn_eq_count _)
  · simp [inputPixel, hv]

/-! ### The results of a side (R42 to R45) -/

/-- The figures and lengths that a side end records. -/
def Side.endResults (x : Side) : Nat × Nat × Nat × Nat × Nat :=
  (x.blackPermille, x.meanGrey, x.streakColumns, x.fullLen, x.bodyLen)

/-- What no binding, no judgement and no start on the exchange link changes of a side record. -/
def Side.lasting (x : Side) : (Nat × Nat × Nat × Nat × Nat) × Bool × Nat × Option Truncation :=
  (x.endResults, x.inputClosed, x.rowsStored, x.truncation)

/-- The side records are those from before, with the same results, the same rows and the same close of their input. -/
def LastingKept (s t : State) : Prop := ∀ r, (t.side? r).map Side.lasting = (s.side? r).map Side.lasting

theorem LastingKept.refl (s : State) : LastingKept s s := fun _ => rfl

theorem LastingKept.trans {s t v : State} (h : LastingKept s t) (h' : LastingKept t v) : LastingKept s v :=
  fun r => (h' r).trans (h r)

theorem LastingKept.of_lists {s t : State} (h : ∀ l, (t.lane l).list = (s.lane l).list) : LastingKept s t := fun r => by
  simp only [State.side?, State.item?, Lane.item?, h]

theorem State.item?_modItem (s : State) (l k : Fin 16) (q p : Seq) {f : Item → Item} (hf : ∀ i, i.seq = q → (f i).seq = q) :
    (s.modItem l q f).item? k p = if l = k ∧ q = p then (s.item? k p).map f else s.item? k p := by
  split
  next h =>
    obtain ⟨rfl, rfl⟩ := h
    cases hi : s.item? l q with
    | none => rw [State.modItem_of_none f hi, hi]; rfl
    | some i => exact State.item?_modItem_self hi ((hf i (Lane.seq_of_item? hi)).trans (Lane.seq_of_item? hi).symm)
  next h =>
    by_cases hl : l = k
    · subst hl
      have hq : q ≠ p := fun e => h ⟨rfl, e⟩
      rw [State.item?, State.modItem, State.lane_modLane_self, Lane.item?_modItem_ne _ hq hf]; rfl
    · rw [State.item?, State.lane_modItem_ne s f hl]; rfl

theorem LastingKept.modItem {s : State} {l : Fin 16} {q : Seq} {f : Item → Item} (hseq : ∀ i, i.seq = q → (f i).seq = q)
    (hsides : ∀ i, s.item? l q = some i → ∀ face, ((f i).side face).map Side.lasting = (i.side face).map Side.lasting) :
    LastingKept s (s.modItem l q f) := by
  intro r
  rw [State.side?, State.item?_modItem s _ _ _ _ hseq, State.side?]
  split
  next h =>
    obtain ⟨rfl, rfl⟩ := h
    cases hi : s.item? r.lane r.seq with
    | none => rfl
    | some i => exact hsides i hi r.face
  next => rfl

theorem Item.map_side_modSide {α : Type} (i : Item) (f face : Face) {g : Side → Side} {k : Side → α} (hg : ∀ x, k (g x) = k x) :
    ((i.modSide f g).side face).map k = (i.side face).map k := by
  cases f <;> cases face <;> simp [Item.modSide, Item.setSide, Item.side, Function.comp_def, hg]

theorem LastingKept.modSide (s : State) (r : SideRef) {g : Side → Side} (hg : ∀ x, (g x).lasting = x.lasting) :
    LastingKept s (s.modSide r g) :=
  LastingKept.modItem (fun _ h => (Item.modSide_seq ..).trans h) fun i _ face => Item.map_side_modSide i r.face face hg

theorem LastingKept.evalPaused (l : Fin 16) (s : State) : LastingKept s (evalPaused l s) := fun r => by rw [side?_evalPaused]

theorem LastingKept.returnPages (n : Nat) (s : State) : LastingKept s (returnPages n s) :=
  .of_lists fun l => by
    unfold Machine.returnPages
    split <;> simp

theorem LastingKept.grant (s : State) : LastingKept s (grant s) := by
  unfold Machine.grant
  split
  · exact .refl s
  · split
    · exact .refl s
    next u _ _ r _ =>
      have hpop : LastingKept s (popWaiting s) := .of_lists fun l => by rw [context_popWaiting]
      refine hpop.trans ?_
      unfold bindSide
      split
      · exact .refl _
      · split
        · exact .refl _
        next x _ _ p _ =>
          have hbound : LastingKept (popWaiting s)
              (((popWaiting s).setUnit u (some (newBinding r x p))).modSide r (boundSide u p (newBinding r x p))) :=
            (LastingKept.of_lists fun _ => rfl).trans (.modSide _ r fun _ => rfl)
          dsimp only
          split
          · exact hbound.trans (.evalPaused _ _)
          · exact hbound

theorem LastingKept.grantUpTo (n : Nat) (s : State) : LastingKept s (grantUpTo n s) := by
  induction n generalizing s with
  | zero => exact .refl s
  | succ n ih => exact (LastingKept.grant s).trans (ih _)

theorem LastingKept.grantAll (s : State) : LastingKept s (grantAll s) := .grantUpTo _ s

theorem LastingKept.replaceItem {s : State} {l : Fin 16} {old new : Item} (hseq : new.seq = old.seq)
    (hsides : ∀ i, s.item? l old.seq = some i → ∀ face, (new.side face).map Side.lasting = (i.side face).map Side.lasting) :
    LastingKept s (replaceItem l old new s) :=
  (LastingKept.modItem (f := fun _ => new) (fun _ _ => hseq) hsides).trans (.returnPages _ _)

theorem Item.map_side_mapSides {α : Type} (i : Item) (face : Face) {g : Side → Side} {k : Side → α} (hg : ∀ x, k (g x) = k x) :
    ((i.mapSides g).side face).map k = (i.side face).map k := by
  cases face <;> simp [Item.mapSides, Item.side, Function.comp_def, hg]

theorem map_lasting_reworkIf (d : DispositionUnit) (ps : Vector Profile 64) (n : Option Condition) (x : Option Side) :
    (reworkIf d ps n x).map Side.lasting = x.map Side.lasting := by
  unfold reworkIf
  split
  · rfl
  · rw [Option.map_map]; rfl

theorem LastingKept.joinReworkIf (n : Option Condition) (r : SideRef) (s : State) : LastingKept s (joinReworkIf n r s) := by
  unfold Machine.joinReworkIf
  split
  · exact .refl s
  · exact .of_lists fun l => by simp only [joinRework, State.countLane, State.lane_modLane]; split <;> simp_all

theorem LastingKept.evaluate (l : Fin 16) (q : Seq) (s : State) : LastingKept s (evaluate l q s) := by
  unfold Machine.evaluate
  split
  · exact .refl s
  next i hi =>
    obtain rfl : i.seq = q := Lane.seq_of_item? hi
    have hformed (face : Face) : ((formSets i).side face).map Side.lasting = (i.side face).map Side.lasting := by
      cases face <;> simp [formSets, Item.side, Function.comp_def] <;> rfl
    have hsides {new : Item} (hnew : ∀ face, (new.side face).map Side.lasting = ((formSets i).side face).map Side.lasting)
        (j : Item) (hj : s.item? l (formSets i).seq = some j) (face : Face) :
        (new.side face).map Side.lasting = (j.side face).map Side.lasting := by
      obtain rfl : j = i := Option.some.inj (hj.symm.trans hi)
      rw [hnew, hformed]
    unfold Machine.dispatch
    split
    · exact .replaceItem (s := countFault s) rfl (hsides fun face => Item.map_side_mapSides _ face (g := dropPages) fun _ => rfl)
    · exact .replaceItem rfl (hsides fun face => Item.map_side_mapSides _ face (g := dropPages) fun _ => rfl)
    · exact .replaceItem (s := countExhausted s) rfl (hsides fun face => Item.map_side_mapSides _ face (g := dropPages) fun _ => rfl)
    next f b _ =>
      have hreplaced := LastingKept.replaceItem (s := s) (old := formSets i)
        (new := reworkedItem s.disposition s.admission.profiles f b (formSets i))
        rfl (hsides fun face => by cases face <;> exact map_lasting_reworkIf ..)
      have hfront := hreplaced.trans (.joinReworkIf f ⟨l, (formSets i).seq, .front⟩ _)
      have hback := hfront.trans (.joinReworkIf b ⟨l, (formSets i).seq, .back⟩ _)
      exact hback.trans (.grantAll _)
    · exact .replaceItem rfl (hsides fun face => Item.map_side_mapSides _ face (g := dropInput) fun _ => rfl)

theorem LastingKept.checkComplete (l : Fin 16) (q : Seq) (s : State) : LastingKept s (checkComplete l q s) := by
  unfold Machine.checkComplete
  split
  · exact .refl s
  · split
    · unfold completeItem
      split
      · exact .modItem (fun _ h => h) fun _ _ face => by cases face <;> rfl
      · exact .evaluate _ _ _
    · exact .refl s

theorem LastingKept.startExchange (s : State) : LastingKept s (startExchange s) := by
  unfold Machine.startExchange
  split
  · exact .refl s
  · split
    · unfold startEmissionFrame; split <;> exact .of_lists fun _ => rfl
    · split
      · exact .of_lists fun _ => rfl
      · unfold startRecord
        split
        · exact .refl s
        · split
          · exact .refl s
          · split
            · exact .refl s
            · exact .modItem (fun _ h => h) fun _ _ face => by cases face <;> rfl

theorem LastingKept.startBeside (l : Fin 16) (s : State) : LastingKept s (startBeside l s) := by
  rcases startBeside_cases l s with e | e <;> rw [e]
  · exact .refl s
  · exact .startExchange s

/-! ### The end of a side (R45, R54, R58) -/

theorem finishUnit_eq {s : State} {u : Fin 4} {b : Binding} {x : Side} (hb : s.unit u = some b) (hsub : b.sub = .finishing)
    (hx : s.side? b.ref = some x) : finishUnit u s = endSide u b s := by
  rw [finishUnit, hb]
  dsimp only
  rw [hsub]
  exact if_pos (by rw [boundRecord?, hx]; rfl)

/-- The record at its end, for a side with a snapshot (R44, R45). -/
def endedUnder (b : Binding) (p : Profile) (x z : Side) : Side :=
  { z with
    blackPermille := (endFigures b p).blackPermille
    meanGrey := (endFigures b p).meanGrey
    streakColumns := (endFigures b p).streakColumns
    fullLen := b.fullLen
    bodyLen := b.bodyLen
    raised := sideEndTests p b.outWidth (b.finalHeight.getD 0) (endFigures b p) x.raised
    boundUnit := none
    state := .done }

theorem sideEnded_eq {b : Binding} {x : Side} {p : Profile} (hp : x.snapshot = some p) : sideEnded b x = endedUnder b p x x := by
  simp only [sideEnded, endedUnder, endFiguresOf, endRaised, hp]

theorem recordSideEnd_eq {s : State} {u : Fin 4} {b : Binding} {x : Side} {p : Profile} (hx : s.side? b.ref = some x)
    (hp : x.snapshot = some p) : recordSideEnd u b s = (s.setUnit u none).modSide b.ref (endedUnder b p x) :=
  State.modSide_congr fun y hy => by
    obtain rfl : y = x := Option.some.inj (hy.symm.trans hx)
    exact sideEnded_eq hp

/-- The tables and the settings of the Disposition Unit are not touched by an event of a side or by a judgement. -/
theorem dispositionTable_kept (d : Vector Descriptor 16) (n : Nat) :
    ItemKept fun _ _ s => s.disposition.descriptors = d ∧ s.disposition.extent = n where
  lane _ _ := id
  reduction _ := id
  rebind _ _ := id
  granted _ := id
  owing := id
  flowFrame _ := id
  free _ h := by simpa using h
  items _ _ := id
  refusal _ h := by simpa using h
  fault := id
  exhausted := id
  service _ := id

theorem ItemKept.endOfSide {P : Int → Bool → State → Prop} (h : ItemKept P) {d : Int} {s : State} (u : Fin 4) (b : Binding)
    (hp : P d false s) :
    P d false (Machine.checkComplete b.ref.lane b.ref.seq
      (Machine.grantAll (Machine.evalPaused b.ref.lane (recordSideEnd u b s)))) := by
  have hrecorded : P d true (recordSideEnd u b s) :=
    h.modSide _ (SideStep.sideEnded b) (fun _ => rfl) (h.setUnit u none hp)
  exact h.checkComplete _ _ (h.grantAll (h.evalPaused _ hrecorded))

theorem endSide_frame (u : Fin 4) (b : Binding) (s : State) :
    (∀ k, ((endSide u b s).lane k).context = (s.lane k).context)
      ∧ ((endSide u b s).intakePort, (endSide u b s).admission, (endSide u b s).mgmt) = (s.intakePort, s.admission, s.mgmt)
      ∧ ((endSide u b s).disposition.descriptors, (endSide u b s).disposition.extent) =
          (s.disposition.descriptors, s.disposition.extent) := by
  refine ⟨fun k => ?_, ?_, ?_⟩
  · simp [endSide, recordSideEnd]
  · simp [endSide, recordSideEnd]
  · have htable := (dispositionTable_kept _ _).endOfSide (d := 0) (s := s) u b ⟨rfl, rfl⟩
    simp [endSide, htable]

theorem endSide_results {s : State} {u : Fin 4} {b : Binding} {x : Side} {p : Profile} (hx : s.side? b.ref = some x)
    (hp : x.snapshot = some p) :
    ∃ y, (endSide u b s).side? b.ref = some y ∧ y.endResults = (endedUnder b p x x).endResults := by
  have hkept : LastingKept (recordSideEnd u b s) (endSide u b s) :=
    (LastingKept.evalPaused b.ref.lane _).trans ((LastingKept.grantAll _).trans ((LastingKept.checkComplete _ _ _).trans
      (.startBeside b.ref.lane _)))
  have hrecorded : (recordSideEnd u b s).side? b.ref = some (endedUnder b p x x) := by
    rw [recordSideEnd_eq hx hp, State.side?_modSide_self _ ((side?_setUnit ..).trans hx)]
  have hlasting := hkept b.ref
  rw [hrecorded] at hlasting
  obtain ⟨y, hy, hsame⟩ := Option.map_eq_some_iff.mp hlasting
  exact ⟨y, hy, congrArg Prod.fst hsame⟩

theorem recordSideEnd_settled {s : State} {u : Fin 4} {b : Binding} (hopen : s.reduction.openWait = [])
    (hrework : s.reduction.reworkWait = []) : ArbiterSettled (evalPaused b.ref.lane (recordSideEnd u b s)) :=
  .inr (by simp [recordSideEnd, State.setUnit, hopen, hrework])

/-- A side that is not the last of its item leaves the item as it is. -/
theorem checkComplete_of_not_complete {s : State} {l : Fin 16} {q : Seq} {i : Item} (hi : s.item? l q = some i)
    (h : isComplete i = false) : checkComplete l q s = s := by
  rw [checkComplete, hi]
  dsimp only
  rw [h]; rfl

theorem isComplete_eq_false {i : Item}
    (h : i.state ≠ .reducing ∧ i.state ≠ .rework ∨ ∃ g y, i.side g = some y ∧ y.state ≠ .done ∧ y.state ≠ .notReduced) :
    isComplete i = false := by
  unfold isComplete
  rw [Bool.and_eq_false_iff]
  refine h.imp (fun h => ?_) fun ⟨g, y, hy, hstate⟩ => ?_
  · simpa using h
  · rw [List.all_eq_false]
    exact ⟨y, Item.mem_sides_iff_side.mpr ⟨g, hy⟩, by simpa [sideSettled] using hstate⟩

/-- Settles O21: the end of a side is one chain of operations; each clause follows it. -/
theorem sideEndRecordsTheResults : Obligations.SideEndRecordsTheResults := by
  refine ⟨fun s u b x p hb hsub hx hp => ?_, fun s u b x p i hb hsub hi hx hp hopen hrework hsettled hrest => ?_,
    fun s u b x p hb hsub hx hp => ?_, fun s t hbind => ?_, fun s t u b hb hreset hend => ?_⟩
  · obtain ⟨y, hy, hresults⟩ := endSide_results (u := u) hx hp
    obtain ⟨hcontext, hblocks, htable⟩ := endSide_frame u b s
    exact ⟨_, y, _, congrArg Host.Outcome.next (finishUnit_eq hb hsub hx), hy, rfl, hresults, hcontext, hblocks, htable⟩
  · have hside : s.side? b.ref = some x := State.side?_eq_some.mpr ⟨i, hi, hx⟩
    have hitem : (evalPaused b.ref.lane (recordSideEnd u b s)).item? b.ref.lane b.ref.seq
        = some (i.modSide b.ref.face (sideEnded b)) := by
      rw [item?_evalPaused]
      exact State.item?_modItem_self hi (Item.modSide_seq ..)
    have hincomplete : isComplete (i.modSide b.ref.face (sideEnded b)) = false := by
      refine isComplete_eq_false (hrest.imp (by simp) fun ⟨g, y, hg, hy, hstate⟩ => ⟨g, y, ?_, hstate⟩)
      rw [Item.modSide, Item.side_setSide_ne _ _ hg.symm, hy]
    have hnothing : NothingToStart (evalPaused b.ref.lane (recordSideEnd u b s)) :=
      nothingToStart_kept.evalPaused (d := 0) (ow := true) _ (nothingToStart_kept.modSide (d := 0) (ow := true) _
        (SideStep.sideEnded b) (fun _ => rfl)
        (nothingToStart_kept.setUnit (d := 0) (ow := false) u none ((exchangeSettled_iff s).mp hsettled).2))
    refine congrArg Host.Outcome.next ((finishUnit_eq hb hsub hside).trans ?_)
    rw [endSide, grantAll_of_settled (recordSideEnd_settled hopen hrework), checkComplete_of_not_complete hitem hincomplete,
      startBeside_of_nothing _ hnothing, recordSideEnd_eq hside hp]
    rfl
  · refine congrArg Host.Outcome.next ((finishUnit_eq hb hsub hx).trans ?_)
    rw [endSide, recordSideEnd_eq hx hp]
    rfl
  · obtain rfl : grant s = t := Host.Outcome.next.inj hbind
    exact ⟨grantAll_of_settled, grantAll_of_not_settled⟩
  · obtain rfl : finishUnit u s = t := Host.Outcome.next.inj hend
    rw [startsNoneOf_iff, finishUnit, hb]
    dsimp only
    split
    · exact .refl _
    · exact .refl _
    · split
      · exact startBeside_startsNone ((startsNone_kept _ _).endOfSide (d := 0) u b (.refl _))
          ((nextRequest_kept _).endOfSide (d := 0) u b rfl) hreset
      · exact .refl _

end Sys2Proof.Machine
end

