-- ==== Sys2Proof/Proofs/Frames.lean ====
section
/-! The frames of the intake link as they reach a lane: the match, the admission of an item, and the frames discarded
(R79, R80, R89, R96 to R100). -/

namespace Sys2Proof.Machine

/-! ### A frame that passes the Intake Port -/

section
variable {s : State} (htaking : s.taking = true)
include htaking

theorem exec_itemOpen (l : Fin 16) (q : Seq) (m : BitVec 16) (c n : Byte) (d : BitVec 32) :
    exec (.itemOpen l q m c n d) s = .next (startBeside l (takeItemOpen l q m c n d (countIntakeIn s))) :=
  congrArg Host.Outcome.next (whenTaking_of_taking htaking _)

theorem exec_sideOpen (l : Fin 16) (q : Seq) (face : Byte) (res w h : BitVec 16) :
    exec (.sideOpen l q face res w h) s =
      .next (withMatch l q (takeSideOpen l face res.toNat w.toNat h.toNat) (countIntakeIn s)) :=
  congrArg Host.Outcome.next (whenTaking_of_taking htaking _)

theorem exec_sideData (l : Fin 16) (q : Seq) (first count : BitVec 16) {rows : List Byte} (hrows : rows.length ≤ 16380) :
    exec (.sideData l q first count rows) s =
      .next (withMatch l q (takeSideData l first.toNat count.toNat rows) (countIntakeIn s)) :=
  congrArg Host.Outcome.next ((whenTaking_of_taking htaking _).trans
    (if_pos (show rows.length + 4 ≤ 16384 by omega)))

theorem exec_sideClose (l : Fin 16) (q : Seq) :
    exec (.sideClose l q) s = .next (withMatch l q (takeSideClose l) (countIntakeIn s)) :=
  congrArg Host.Outcome.next (whenTaking_of_taking htaking _)

theorem exec_itemClose (l : Fin 16) (q : Seq) :
    exec (.itemClose l q) s = .next (startBeside l (withMatch l q (takeItemClose l) (countIntakeIn s))) :=
  congrArg Host.Outcome.next (whenTaking_of_taking htaking _)

end

@[simp] theorem lane_countIntakeIn (s : State) (l : Fin 16) : (countIntakeIn s).lane l = s.lane l := rfl

theorem matchTimer_of_open {c : Lane} (h : c.state = .opened ∨ c.state = .side) : matchTimer c = restartTimer c := by
  unfold matchTimer
  rcases h with h | h <;> rw [h]

theorem matchTimer_of_drain {c : Lane} (h : c.state = .drain) : matchTimer c = c := by
  unfold matchTimer
  rw [h]

/-- A frame of the current sequence of a lane that is not IDLE is taken (R79). -/
theorem withMatch_of_match {l : Fin 16} {q : Seq} {s : State} (hq : q ≠ 0) (hstate : (s.lane l).state ≠ .idle)
    (hseq : (s.lane l).seq = q) (taken : State → State) : withMatch l q taken s = taken (s.modLane l matchTimer) := by
  rw [withMatch, if_neg hq, isMatch, if_pos (decide_eq_true ⟨hstate, hseq⟩)]

/-- A frame of the open item restarts the timer and is taken (R79, R90). -/
theorem withMatch_of_open {l : Fin 16} {q : Seq} {s : State} (hq : q ≠ 0)
    (hstate : (s.lane l).state = .opened ∨ (s.lane l).state = .side) (hseq : (s.lane l).seq = q) (taken : State → State) :
    withMatch l q taken s = taken (s.modLane l restartTimer) := by
  have hnot : (s.lane l).state ≠ .idle := by rcases hstate with h | h <;> rw [h] <;> decide
  rw [withMatch_of_match hq hnot hseq, State.modLane_congr (matchTimer_of_open hstate)]

/-- A frame of a sequence being drained is taken, its lane as it was (R89). -/
theorem withMatch_of_drain {l : Fin 16} {q : Seq} {s : State} (hq : q ≠ 0) (hstate : (s.lane l).state = .drain)
    (hseq : (s.lane l).seq = q) (taken : State → State) : withMatch l q taken s = taken s := by
  rw [withMatch_of_match hq (by rw [hstate]; decide) hseq, State.modLane_of_fixed (matchTimer_of_drain hstate)]

/-- A frame that matches no lane is counted as late or stray and does nothing else (R79). -/
theorem withMatch_of_no_match {l : Fin 16} {q : Seq} {s : State}
    (h : q = 0 ∨ (s.lane l).state = .idle ∨ (s.lane l).seq ≠ q) (taken : State → State) :
    withMatch l q taken s = s.countLane l fun k =>
      if q ≠ 0 ∧ (s.lane l).lastTimedOut = some q then { k with late := bump k.late } else { k with stray := bump k.stray } := by
  unfold withMatch
  by_cases hq : q = 0
  · simp only [hq, if_true, ne_eq, not_true_eq_false, false_and, if_false]; rfl
  · have hno : isMatch (s.lane l) q = false := decide_eq_false fun hmatch => by
      rcases h with h | h | h
      · exact hq h
      · exact hmatch.1 h
      · exact h hmatch.2
    rw [if_neg hq, hno, if_neg Bool.false_ne_true]
    by_cases hlate : (s.lane l).lastTimedOut = some q
    · simp only [hq, hlate, if_true, ne_eq, not_false_eq_true, and_self]; rfl
    · simp only [hlate, and_false, if_false]; rfl

/-! ### The admission checks (R96, R100) -/

theorem presentMember?_eq (a : Admission) (m : BitVec 16) :
    presentMember? a m = (a.members[m.toNat]?).filter MemberEntry.present := by
  unfold presentMember? memberEntry?
  split
  next h => rw [Vector.getElem?_eq_getElem h]
  next h => rw [Vector.getElem?_eq_none (Nat.le_of_not_lt h)]

theorem class?_eq_some_iff {c : Byte} {k : Fin 8} : class? c = some k ↔ c.toNat = k.val := by
  unfold class?
  split
  · simp [Fin.ext_iff]
  next h => simp only [reduceCtorEq, false_iff]; omega

theorem class?_eq_none_iff {c : Byte} : class? c = none ↔ 8 ≤ c.toNat := by
  unfold class?
  split <;> simp <;> omega

theorem resolveProfile_eq (e : MemberEntry) (k : Fin 8) :
    resolveProfile e k = ((e.classMap[k.val]).getD e.defaultProfile, (e.classMap[k.val]).isNone) := by
  unfold resolveProfile
  split
  next h => rw [h]; rfl
  next h => rw [h]; rfl

theorem checkItem_eq (a : Admission) (m : BitVec 16) (c : Byte) :
    checkItem a m c =
      match a.members[m.toNat]? with
      | none => .refused 7
      | some e =>
        if e.present = false then .refused 7
        else if e.status = .suspended then .refused 8
        else
          match e.classMap[c.toNat]? with
          | none => .refused 9
          | some entry =>
            if a.profiles[(entry.getD e.defaultProfile).val].valid = false then .refused 10
            else .admitted (entry.getD e.defaultProfile) entry.isNone := by
  unfold checkItem
  rw [presentMember?_eq]
  cases hmember : a.members[m.toNat]? with
  | none => rfl
  | some e =>
    by_cases hpresent : e.present = true
    · rw [Option.filter_some, if_pos hpresent]
      simp only [hpresent, Bool.true_eq_false, if_false]
      cases hstatus : e.status with
      | suspended => rfl
      | active =>
        simp only [reduceCtorEq, if_false]
        cases hclass : class? c with
        | none =>
          have hnone : e.classMap[c.toNat]? = none := Vector.getElem?_eq_none (class?_eq_none_iff.mp hclass)
          rw [hnone]
        | some k =>
          have hk : c.toNat = k.val := class?_eq_some_iff.mp hclass
          have hsome : e.classMap[c.toNat]? = some e.classMap[k.val] := by rw [hk, Vector.getElem?_eq_getElem]
          rw [hsome]
          simp only [resolveProfile_eq]
          cases a.profiles[((e.classMap[k.val]).getD e.defaultProfile).val].valid <;> rfl
    · rw [Option.filter_some, if_neg hpresent]
      simp only [Bool.eq_false_iff.mpr hpresent, if_true]

/-- Settles O22: the service state, the lane and the item, in the order of the checks. -/
theorem admissionChecksAreMadeInOrder : Obligations.AdmissionChecksAreMadeInOrder := by
  intro s l q m c n
  have hitem := checkItem_eq s.admission m c
  rw [checkAdmission]
  cases s.mgmt.service with
  | standby => rfl
  | draining => rfl
  | inService =>
    simp only [reduceCtorEq, if_false, Config.listCapacity, Lane.item?_isSome_iff, Lane.seqs, hitem] <;> rfl

/-! ### Frames that match no lane, and frames of a drain (R79, R89) -/

/-- An event that leaves the exchange link and the stamps of the records starts nothing. -/
theorem startBeside_of_settled {s v : State} (l : Fin 16) (h : ExchangeSettled s) (hegress : v.egress = s.egress)
    (hstamps : ∀ k, (v.lane k).stamps = (s.lane k).stamps) : startBeside l v = v :=
  startBeside_of_nothing l (((exchangeSettled_iff s).mp h).2.congr hegress hstamps)

theorem startBeside_setLane {s : State} {l : Fin 16} {c : Lane} (h : ExchangeSettled s) (hstamps : c.stamps = (s.lane l).stamps) :
    startBeside l ((countIntakeIn s).setLane l c) = (countIntakeIn s).setLane l c :=
  startBeside_of_settled l h rfl fun k => State.stamps_setLane (s := countIntakeIn s) hstamps k

theorem startBeside_countLane {s : State} (l : Fin 16) (f : LaneCounters → LaneCounters) (h : ExchangeSettled s) :
    startBeside l ((countIntakeIn s).countLane l f) = (countIntakeIn s).countLane l f := startBeside_setLane h rfl

/-- A lane's drain ends: its context was that of an IDLE lane but for the state and the sequence (R74). -/
theorem idleLane_of_drain {c : Lane} (h : LaneLawful c) (hstate : c.state = .drain) :
    idleLane c = { c with state := .idle, seq := 0 } := by
  obtain ⟨-, hactive, hrunning, hremaining⟩ := h
  have hnone : c.active = none := by simpa [hstate] using hactive
  have hstopped : c.stallRunning = false := by simpa [hstate] using hrunning
  simp only [idleLane, stopTimer, hnone, hstopped, hremaining hstopped]

/-- Settles O25: the match decides what a frame does. -/
theorem unmatchedAndDrainingFramesAreDiscarded : Obligations.UnmatchedAndDrainingFramesAreDiscarded := by
  refine ⟨fun s l q f htaking hsettled hf => ?_, fun s l q htaking hsettled hlawful hstate hseq hq => ⟨fun f hf => ?_, ?_⟩⟩
  · rcases hf with ⟨rfl, m, c, n, d, rfl⟩ | ⟨hno, hframe⟩
    · rw [exec_itemOpen htaking, takeItemOpen, if_pos rfl, strayOn, startBeside_countLane l _ hsettled]
      rfl
    · have hmatch := withMatch_of_no_match (s := countIntakeIn s) hno
      rcases hframe with ⟨a, r, w, h, rfl⟩ | ⟨a, b, rows, rfl, hrows⟩ | rfl | rfl
      · rw [exec_sideOpen htaking, hmatch]; rfl
      · rw [exec_sideData htaking _ _ _ _ hrows, hmatch]; rfl
      · rw [exec_sideClose htaking, hmatch]; rfl
      · rw [exec_itemClose htaking, hmatch, startBeside_countLane l _ hsettled]; rfl
  · have hmatch := withMatch_of_drain (s := countIntakeIn s) hq hstate hseq
    have hdrain : ((countIntakeIn s).lane l).state = .drain := hstate
    rcases hf with ⟨a, r, w, h, rfl⟩ | ⟨a, b, rows, rfl, hrows⟩ | rfl
    · rw [exec_sideOpen htaking, hmatch, takeSideOpen, hdrain]; rfl
    · rw [exec_sideData htaking _ _ _ _ hrows, hmatch, takeSideData, hdrain]; rfl
    · rw [exec_sideClose htaking, hmatch, takeSideClose, hdrain]; rfl
  · have hdrain : ((countIntakeIn s).lane l).state = .drain := hstate
    rw [exec_itemClose htaking, withMatch_of_drain (s := countIntakeIn s) hq hstate hseq, takeItemClose, closeAll, hdrain]
    dsimp only
    rw [endDrain, State.modLane, startBeside_setLane hsettled (by rfl), lane_countIntakeIn, idleLane_of_drain hlawful hstate]
    rfl

/-! ### Admission and refusal (R80, R98, R99) -/

theorem nothingToStart_admittedLane {s : State} (l : Fin 16) {i : Item} (hi : i.state ≠ .ready) (h : NothingToStart s) :
    NothingToStart (s.modLane l (admittedLane i)) := by
  have hhead (k : Fin 16) : headReady (s.modLane l (admittedLane i)) k = headReady s k := by
    rw [headReady_eq, headReady_eq, State.modLane]
    rcases s.lane_setLane_cases l k (admittedLane i (s.lane l)) with ⟨rfl, e⟩ | e <;> rw [e]
    have hstamps : (admittedLane i (s.lane l)).stamps = (s.lane l).stamps ++ [i.stamp] := by
      simp [Lane.stamps, admittedLane]
    rw [hstamps]
    cases (s.lane l).stamps with
    | nil => simpa [Item.stamp] using hi
    | cons p ps => rfl
  have hegress : (s.modLane l (admittedLane i)).egress = s.egress := rfl
  simpa only [NothingToStart, hhead, hegress] using h

/-- The lane of an item admitted while it was IDLE: the timer stood, and starts when its setting is not 0 (R74, R90). -/
theorem admittedLane_of_idle {c : Lane} (h : LaneLawful c) (hstate : c.state = .idle) (i : Item) :
    admittedLane i c = { c with
      state := .opened
      seq := i.seq
      active := none
      stallRunning := decide (c.stallMs ≠ 0)
      stallRemaining := c.stallMs
      counters := { c.counters with admitted := bump c.counters.admitted }
      list := c.list ++ [i] } := by
  obtain ⟨-, -, hrunning, hremaining⟩ := h
  have hstopped : c.stallRunning = false := by simpa [hstate] using hrunning
  unfold admittedLane restartTimer
  by_cases hms : c.stallMs = 0
  · simp only [hms, if_true, hstopped, hremaining hstopped, ne_eq, not_true_eq_false, decide_false]
  · simp only [hms, if_false, ne_eq, not_false_eq_true, decide_true]

theorem closeAll_of_idle {l : Fin 16} {s : State} (h : (s.lane l).state = .idle) : closeAll l s = s := by
  rw [closeAll, h]

theorem closeAll_of_drain {l : Fin 16} {s : State} (h : (s.lane l).state = .drain) : closeAll l s = s.modLane l idleLane := by
  rw [closeAll, h]; rfl

theorem closeAll_of_opened {l : Fin 16} {s : State} (h : (s.lane l).state = .opened) : closeAll l s = closeItem l s := by
  rw [closeAll, h]

theorem closeAll_of_side {l : Fin 16} {s : State} (h : (s.lane l).state = .side) :
    closeAll l s = closeItem l (closeSide l s) := by
  rw [closeAll, h]

theorem takeItemOpen_of_ne_zero {l : Fin 16} {q : Seq} (hq : q ≠ 0) (m : BitVec 16) (c n : Byte) (d : BitVec 32) (s : State) :
    takeItemOpen l q m c n d s = admission l q m c n d (closeAll l s) := if_neg hq

theorem admission_of_admitted {s : State} {l : Fin 16} {q : Seq} {m : BitVec 16} {c n : Byte} {p : Fin 64} {fb : Bool}
    (h : checkAdmission s l q m c n = .admitted p fb) (d : BitVec 32) :
    admission l q m c n d s = admitItem l (freshItem q m c n d p (s.admission.profiles[p.val]).mask fb) s := by
  rw [admission, h]

theorem admission_of_refused {s : State} {l : Fin 16} {q : Seq} {m : BitVec 16} {c n reason : Byte}
    (h : checkAdmission s l q m c n = .refused reason) (d : BitVec 32) :
    admission l q m c n d s = refuseItem l q reason s := by
  rw [admission, h]

theorem refuseItem_eq (l : Fin 16) (q : Seq) (reason : Byte) (s : State) :
    refuseItem l q reason s = (s.setLane l (refusedLane q (s.lane l))).withFlow { s.flow with
      refusals := if s.flow.refusals.length < 32 then s.flow.refusals ++ [⟨l, q, reason⟩] else s.flow.refusals } := by
  rw [refuseItem, queueRefusal]
  split
  next h => rw [if_pos (by exact h)]; rfl
  next h => rw [if_neg (by exact h)]; rfl

/-- A refusal does not show whether the lane's drain was ended first. -/
theorem refuseItem_idleLane (l : Fin 16) (q : Seq) (reason : Byte) (s : State) :
    refuseItem l q reason (s.modLane l idleLane) = refuseItem l q reason s := by
  rw [refuseItem, State.modLane_modLane]; rfl

theorem checkAdmission_congr {s t : State} {l : Fin 16} (hservice : t.mgmt.service = s.mgmt.service)
    (hadmission : t.admission = s.admission) (henabled : (t.lane l).enabled = (s.lane l).enabled)
    (hlist : (t.lane l).list = (s.lane l).list) (q : Seq) (m : BitVec 16) (c n : Byte) :
    checkAdmission t l q m c n = checkAdmission s l q m c n := by
  rw [checkAdmission, checkAdmission, hservice]
  cases s.mgmt.service with
  | standby => rfl
  | draining => rfl
  | inService => rw [Lane.item?, Lane.item?, henabled, hlist, hadmission]

/-- Settles O23: on an IDLE lane nothing is closed first, and the end of a drain leaves the refusal the same lane. -/
theorem itemOpenIsAdmittedOrRefused : Obligations.ItemOpenIsAdmittedOrRefused := by
  refine ⟨fun s l q m c n d p fb htaking hsettled hlawful hstate hq hcheck => ?_,
    fun s l q m c n d reason htaking hsettled hstate hq hcheck => ?_⟩
  · have hidle : ((countIntakeIn s).lane l).state = .idle := hstate
    have hnothing : NothingToStart (countIntakeIn s) := ((exchangeSettled_iff s).mp hsettled).2
    rw [exec_itemOpen htaking, takeItemOpen_of_ne_zero hq, closeAll_of_idle hidle,
      admission_of_admitted (s := countIntakeIn s) (by exact hcheck), admitItem,
      startBeside_of_nothing l (nothingToStart_kept.evalPaused (d := 0) (ow := false) l
        (nothingToStart_admittedLane l (by exact ItemState.noConfusion) hnothing)),
      State.modLane, lane_countIntakeIn, admittedLane_of_idle hlawful hstate]
    cases fb <;> rfl
  · have hclosed : admission l q m c n d (closeAll l (countIntakeIn s)) = refuseItem l q reason (countIntakeIn s) := by
      rcases hstate with hstate | hstate
      · rw [closeAll_of_idle (s := countIntakeIn s) hstate, admission_of_refused (s := countIntakeIn s) hcheck]
      · rw [closeAll_of_drain (s := countIntakeIn s) hstate, admission_of_refused (reason := reason), refuseItem_idleLane]
        rw [← hcheck]
        exact checkAdmission_congr (s := s) (t := (countIntakeIn s).modLane l idleLane) rfl rfl (by rw [State.lane_modLane_self]; rfl)
          (by rw [State.lane_modLane_self]; rfl) q m c n
    rw [exec_itemOpen htaking, takeItemOpen_of_ne_zero hq, hclosed, refuseItem_eq,
      startBeside_of_settled l hsettled (by rfl) (by
        exact State.stamps_setLane (s := countIntakeIn s) (l := l) (c := refusedLane q (s.lane l)) rfl)]
    rfl

end Sys2Proof.Machine
end

