-- ==== Sys2Proof/Proofs/Inputs.lean ====
section
/-! The input of a side: rows stored, a side truncated, an input closed (R13 to R16, R78, R83 to R88). -/

namespace Sys2Proof.Machine

/-! ### The stall timer restarted (R90) -/

@[simp] theorem restartTimer_list (c : Lane) : (restartTimer c).list = c.list := by unfold restartTimer; split <;> rfl

@[simp] theorem restartTimer_state (c : Lane) : (restartTimer c).state = c.state := by unfold restartTimer; split <;> rfl

@[simp] theorem restartTimer_seq (c : Lane) : (restartTimer c).seq = c.seq := by unfold restartTimer; split <;> rfl

@[simp] theorem restartTimer_active (c : Lane) : (restartTimer c).active = c.active := by unfold restartTimer; split <;> rfl

@[simp] theorem restartTimer_counters (c : Lane) : (restartTimer c).counters = c.counters := by
  unfold restartTimer; split <;> rfl

@[simp] theorem restartTimer_restartTimer (c : Lane) : restartTimer (restartTimer c) = restartTimer c := by
  unfold restartTimer; split <;> simp_all

/-! ### The state in which a frame of the open item is taken (R79, R90) -/

/-- The frame is counted by its port and the timer restarted. -/
def matched (l : Fin 16) (s : State) : State := (countIntakeIn s).modLane l restartTimer

@[simp] theorem lane_matched_self (l : Fin 16) (s : State) : (matched l s).lane l = restartTimer (s.lane l) :=
  State.lane_modLane_self (countIntakeIn s) l restartTimer

theorem lane_matched_ne (s : State) {l k : Fin 16} (h : l ≠ k) : (matched l s).lane k = s.lane k :=
  State.lane_modLane_ne (countIntakeIn s) restartTimer h

@[simp] theorem item?_matched (l k : Fin 16) (q : Seq) (s : State) : (matched l s).item? k q = s.item? k q :=
  State.item?_modLane (s := countIntakeIn s) restartTimer_list

@[simp] theorem side?_matched (l : Fin 16) (r : SideRef) (s : State) : (matched l s).side? r = s.side? r := by
  rw [State.side?, item?_matched]; rfl

@[simp] theorem unit_matched (l : Fin 16) (u : Fin 4) (s : State) : (matched l s).unit u = s.unit u := rfl

/-- A frame of the open item is taken in that state. -/
theorem withMatch_eq_matched {l : Fin 16} {q : Seq} {s : State} (hq : q ≠ 0)
    (hstate : (s.lane l).state = .opened ∨ (s.lane l).state = .side) (hseq : (s.lane l).seq = q) (taken : State → State) :
    withMatch l q taken (countIntakeIn s) = taken (matched l s) := withMatch_of_open (s := countIntakeIn s) hq hstate hseq taken

theorem strayOn_matched (l : Fin 16) (s : State) :
    strayOn l (matched l s) = (countIntakeIn s).setLane l { restartTimer (s.lane l) with
      counters := { (s.lane l).counters with stray := bump (s.lane l).counters.stray } } := by
  rw [strayOn, State.countLane, State.modLane, lane_matched_self, restartTimer_counters, matched, State.modLane,
    State.setLane_setLane]

/-! ### What the bound unit makes of a close (R6, R13, R15, R16) -/

theorem inputCloses_finalHeight (b : Binding) (n : Nat) : (b.inputCloses n).finalHeight = some (n * b.dout / b.din) := by
  unfold Binding.inputCloses
  cases b.sub <;> rfl

/-- The unit's set-up with its final output height (R15). -/
def Binding.closedAt (b : Binding) (n : Nat) : Binding := { b with finalHeight := some (n * b.dout / b.din) }

theorem inputCloses_of_waiting {b : Binding} (n : Nat) (hsub : b.sub = .waitInput) :
    b.inputCloses n = { b.closedAt n with
      sub := chooseSub (b.closedAt n) n true
      rowsConsumed := if (b.closedAt n).nextRow < (b.closedAt n).target then b.rowsConsumed else n } := by
  rw [Binding.inputCloses, hsub]
  rfl

theorem inputCloses_of_rows_left {b : Binding} {n : Nat} (hsub : b.sub = .waitInput) (hrow : b.nextRow < n * b.dout / b.din) :
    b.inputCloses n = { b with
      finalHeight := some (n * b.dout / b.din)
      sub := if (b.nextRow + 1) * b.din ≤ n * b.dout then .running else .waitInput } := by
  have hdout : 0 < b.dout := by
    rcases Nat.eq_zero_or_pos b.dout with h | h
    · simp [h] at hrow
    · exact h
  have hleft : (b.closedAt n).nextRow < (b.closedAt n).target := hrow
  rw [inputCloses_of_waiting n hsub, chooseSub_of_rows_left (b := b.closedAt n) n true hdout hleft, if_pos hleft]
  rfl

theorem inputCloses_of_no_row_left {b : Binding} {n : Nat} (hsub : b.sub = .waitInput) (hrow : n * b.dout / b.din ≤ b.nextRow) :
    b.inputCloses n = { b with finalHeight := some (n * b.dout / b.din), sub := .finishing, rowsConsumed := n } := by
  have hdone : (b.closedAt n).target ≤ (b.closedAt n).nextRow := hrow
  rw [inputCloses_of_waiting n hsub, chooseSub_of_no_row_left (b := b.closedAt n) n true hdone, if_neg (Nat.not_lt.mpr hdone)]
  rfl

theorem inputCloses_of_not_waiting {b : Binding} {n : Nat} (hsub : b.sub ≠ .waitInput) :
    b.inputCloses n = { b with finalHeight := some (n * b.dout / b.din) } := by
  unfold Binding.inputCloses
  split
  next h => exact absurd h hsub
  next => rfl
  next => rfl

/-! ### The close of a side's input -/

/-- The close of a side bound to a unit: the unit, the height in the record, the lane's paused flag. -/
def seenClosed (r : SideRef) (u : Fin 4) (b : Binding) (n : Nat) (s : State) : State :=
  evalPaused r.lane ((s.setUnit u (some (b.inputCloses n))).modSide r fun y => { y with outHeight := n * b.dout / b.din })

theorem unitSeesClose_of_unbound {s : State} {x : Side} (r : SideRef) (h : ∀ u, x.boundUnit = some u → s.unit u = none) :
    unitSeesClose r x s = s := by
  unfold unitSeesClose
  split
  · rfl
  next u hu => rw [h u hu]

theorem unitSeesClose_of_bound {s : State} {x : Side} {u : Fin 4} {b : Binding} (r : SideRef) (hu : x.boundUnit = some u)
    (hb : s.unit u = some b) : unitSeesClose r x s = seenClosed r u b x.rowsStored s := by
  have hheight (y : Side) : closedHeight (b.inputCloses x.rowsStored) y = { y with outHeight := x.rowsStored * b.dout / b.din } := by
    rw [closedHeight, inputCloses_finalHeight]; rfl
  rw [unitSeesClose, hu]
  dsimp only
  rw [hb]
  dsimp only
  rw [funext hheight]
  rfl

/-- A side is bound to a unit that works on it, or is not. -/
theorem unbound_or_bound (s : State) (x : Side) :
    (∀ u, x.boundUnit = some u → s.unit u = none) ∨ ∃ u b, x.boundUnit = some u ∧ s.unit u = some b := by
  by_cases h : ∃ u b, x.boundUnit = some u ∧ s.unit u = some b
  · exact .inr h
  · refine .inl fun u hu => Option.eq_none_iff_forall_ne_some.mpr fun b hb => h ⟨u, b, hu, hb⟩

theorem closeInput_of_closed {s : State} {r : SideRef} {x : Side} (hx : s.side? r = some x) (h : x.inputClosed = true) :
    closeInput r s = s := by
  rw [closeInput, hx]
  exact if_pos h

theorem closeInput_of_open {s : State} {r : SideRef} {x : Side} (hx : s.side? r = some x) (h : x.inputClosed = false) :
    closeInput r s = unitSeesClose r x (s.modSide r fun y => { y with inputClosed := true }) := by
  rw [closeInput, hx]
  exact if_neg (by rw [h]; exact Bool.false_ne_true)

/-- A truncation of an open side: one change of its record, and the unit sees the close. -/
theorem truncateSide_eq {s : State} {r : SideRef} {x : Side} (hx : s.side? r = some x) (h : x.inputClosed = false)
    (t : Truncation) (n : Condition) :
    truncateSide r t n s = unitSeesClose r x (s.modSide r fun y => { y with
      truncation := some t, raised := raise n y.raised, inputClosed := true }) := by
  rw [truncateSide, closeInput_of_open (State.side?_modSide_self _ hx) h, State.modSide_modSide]
  rfl

/-! ### What the close of an input leaves -/

@[simp] theorem counters_modSide (s : State) (r : SideRef) (g : Side → Side) (k : Fin 16) :
    ((s.modSide r g).lane k).counters = (s.lane k).counters := by
  rw [State.modSide, State.modItem, State.lane_modLane]
  split
  next h => subst h; rfl
  next => rfl

@[simp] theorem counters_evalPaused (l k : Fin 16) (s : State) : ((evalPaused l s).lane k).counters = (s.lane k).counters := by
  by_cases h : l = k
  · subst h; rw [lane_evalPaused_self]
  · rw [lane_evalPaused_ne s h]

/-- What the bound unit's view of a close leaves: all but the output height of the record. -/
theorem unitSeesClose_frame (r : SideRef) (x : Side) (s : State) :
    (∃ height : Side → Nat, (unitSeesClose r x s).side? r = (s.side? r).map fun y => { y with outHeight := height y })
      ∧ (∀ k, ((unitSeesClose r x s).lane k).counters = (s.lane k).counters)
      ∧ ∀ k, r.lane ≠ k → (unitSeesClose r x s).lane k = s.lane k := by
  rcases unbound_or_bound s x with h | ⟨u, b, hu, hb⟩
  · rw [unitSeesClose_of_unbound r h]
    exact ⟨⟨Side.outHeight, by simp⟩, fun _ => rfl, fun _ _ => rfl⟩
  · rw [unitSeesClose_of_bound r hu hb]
    refine ⟨⟨fun _ => x.rowsStored * b.dout / b.din, ?_⟩, fun k => ?_, fun k hk => ?_⟩
    · rw [seenClosed, side?_evalPaused, State.side?_modSide, side?_setUnit]
    · rw [seenClosed, counters_evalPaused, counters_modSide]; rfl
    · rw [seenClosed, lane_evalPaused_ne _ hk, State.lane_modSide_ne _ _ hk]; rfl

/-! ### Rows taken for the active side (R83 to R86) -/

theorem takeSideData_of_active {v : State} {l : Fin 16} {q : Seq} {f : Face} {x : Side} (hstate : (v.lane l).state = .side)
    (hseq : (v.lane l).seq = q) (hactive : (v.lane l).active = some f) (hx : v.side? ⟨l, q, f⟩ = some x) (first count : Nat)
    (rows : List Byte) : takeSideData l first count rows v = takeRows ⟨l, q, f⟩ x first count rows v := by
  subst hseq
  rw [takeSideData, hstate]
  dsimp only
  rw [hactive]
  dsimp only
  rw [activeRef, hx]

theorem takeRows_of_closed {r : SideRef} {x : Side} (h : x.inputClosed = true) (first count : Nat) (rows : List Byte) (s : State) :
    takeRows r x first count rows s = s := if_pos h

section
variable {r : SideRef} {x : Side} {first count : Nat} {rows : List Byte} (s : State) (hopen : x.inputClosed = false)
include hopen

theorem takeRows_of_bad (hbad : count = 0 ∨ rows.length ≠ count * x.width ∨ first < x.rowsStored) :
    takeRows r x first count rows s = strayOn r.lane s := by
  rw [takeRows, if_neg (by simp [hopen])]
  split
  · rfl
  next hgood => exact if_pos (by tauto)

variable (hcount : 0 < count) (hlength : rows.length = count * x.width)
include hcount hlength

theorem takeRows_of_not_before (hfirst : x.rowsStored ≤ first) :
    takeRows r x first count rows s =
      if x.height ≤ first then s.modSide r fun y => { y with raised := raise condRowExcess y.raised }
      else if x.rowsStored < first then truncateSide r .gap condRowShort s
      else storeRows r x count rows s := by
  have hgood : ¬ (count = 0 ∨ rows.length ≠ count * x.width) := by simp [hlength]; omega
  rw [takeRows, if_neg (by simp [hopen]), if_neg hgood, if_neg (Nat.not_lt.mpr hfirst)]

theorem takeRows_of_gap (hheight : first < x.height) (hgap : x.rowsStored < first) :
    takeRows r x first count rows s = truncateSide r .gap condRowShort s := by
  rw [takeRows_of_not_before s hopen hcount hlength hgap.le, if_neg (Nat.not_le.mpr hheight), if_pos hgap]

theorem takeRows_of_continuing (hheight : first < x.height) (hfirst : x.rowsStored = first) :
    takeRows r x first count rows s = storeRows r x count rows s := by
  rw [takeRows_of_not_before s hopen hcount hlength hfirst.le, if_neg (Nat.not_le.mpr hheight), if_neg hfirst.not_lt]

end

theorem raiseIf_decide (p : Prop) [Decidable p] (n : Condition) (c : CondSet) :
    raiseIf (decide p) n c = if p then c ||| single n else c := by
  by_cases h : p <;> simp [raiseIf, raise, h]

theorem rowsArrived_eq (b : Binding) (n : Nat) :
    b.rowsArrived n =
      if b.sub = .waitInput then
        if b.nextRow < b.declaredHeight then { b with sub := chooseSub b n false } else { b with rowsConsumed := n }
      else b := by
  unfold Binding.rowsArrived
  split
  next h => rw [if_pos h]
  next h => rw [if_neg (by simp [h])]
  next h => rw [if_neg (by simp [h])]

theorem unitSeesRows_of_unbound {s : State} {x : Side} (n : Nat) (h : ∀ u, x.boundUnit = some u → s.unit u = none) :
    unitSeesRows x n s = s := by
  unfold unitSeesRows
  split
  · rfl
  next u hu => rw [h u hu]

theorem unitSeesRows_of_bound {s : State} {x : Side} {u : Fin 4} {b : Binding} (n : Nat) (hu : x.boundUnit = some u)
    (hb : s.unit u = some b) : unitSeesRows x n s = s.setUnit u (some (b.rowsArrived n)) := by
  rw [unitSeesRows, hu]
  dsimp only
  rw [hb]

theorem unit_takePages (n : Nat) (s : State) (u : Fin 4) : (takePages n s).unit u = s.unit u := by
  unfold takePages
  split
  · rfl
  · rw [State.unit, setFree_reduction]; rfl

theorem exec_sideData_of_active {s : State} {l : Fin 16} {q : Seq} {f : Face} {x : Side} {rows : List Byte}
    (htaking : s.taking = true) (hstate : (s.lane l).state = .side) (hseq : (s.lane l).seq = q) (hq : q ≠ 0)
    (hactive : (s.lane l).active = some f) (hx : s.side? ⟨l, q, f⟩ = some x) (first count : BitVec 16)
    (hrows : rows.length ≤ 16380) :
    exec (.sideData l q first count rows) s =
      .next (takeRows ⟨l, q, f⟩ x first.toNat count.toNat rows (matched l s)) := by
  rw [exec_sideData htaking _ _ _ _ hrows, withMatch_eq_matched hq (.inr hstate) hseq,
    takeSideData_of_active (by simpa using hstate) (by simpa using hseq) (by simpa using hactive) (by simpa using hx)]

/-- Settles O29: the rows are stored, their pages taken, the unit shown them, the flag evaluated. -/
theorem sideDataStoresContinuingRows : Obligations.SideDataStoresContinuingRows := by
  intro s l q f x first count rows kept need s₁ s₂ htaking hstate hseq hq hactive hx hopen hrows hcount hlength hfirst hheight
    hkept hneed hfree hs₁ hs₂
  have hstored : s₁ = (matched l s).modSide ⟨l, q, f⟩ (storedSide kept count.toNat rows need) := by
    rw [hs₁]
    exact State.modSide_congr fun y _ => by rw [storedSide, raiseIf_decide]; rfl
  have hpages : takePages need s₁ = s₂ := by rw [hs₂, hstored]; rfl
  have hexec : exec (.sideData l q first count rows) s = .next (evalPaused l (unitSeesRows x (x.rowsStored + kept) s₂)) := by
    have hkeptRows : keptRows x count.toNat = kept := hkept.symm
    have hpagesNeeded : pagesNeeded x kept = need := hneed.symm
    have hroom : ¬ (matched l s).freePages < need := Nat.not_lt.mpr hfree
    rw [exec_sideData_of_active htaking hstate hseq hq hactive hx first count hrows,
      takeRows_of_continuing _ hopen hcount hlength (by omega) hfirst.symm, storeRows]
    simp only [hkeptRows, hpagesNeeded, if_neg hroom, ← hstored, hpages]
  have hunit (u : Fin 4) : s₂.unit u = s.unit u := by rw [← hpages, unit_takePages, hstored]; rfl
  refine ⟨?_, fun u b hu hb => ?_, fun hfree => ?_⟩
  · rw [hs₁]
    exact State.side?_modSide_self _ (by exact (side?_matched l _ s).trans hx)
  · rw [hexec, unitSeesRows_of_bound _ hu ((hunit u).trans hb), rowsArrived_eq]
  · rw [hexec, unitSeesRows_of_unbound _ fun u hu => (hunit u).trans (hfree u hu)]

/-! ### A side truncated (R85, R86, R91) -/

theorem side?_countLane (s : State) (l : Fin 16) (f : LaneCounters → LaneCounters) (r : SideRef) :
    (s.countLane l f).side? r = s.side? r := by
  have hitem : (s.countLane l f).item? r.lane r.seq = s.item? r.lane r.seq := State.item?_modLane fun _ => rfl
  rw [State.side?, hitem]; rfl

theorem lane_countLane_ne (s : State) {l k : Fin 16} (f : LaneCounters → LaneCounters) (h : l ≠ k) :
    (s.countLane l f).lane k = s.lane k := State.lane_modLane_ne s _ h

theorem lane_countLane_self (s : State) (l : Fin 16) (f : LaneCounters → LaneCounters) :
    (s.countLane l f).lane l = { s.lane l with counters := f (s.lane l).counters } := State.lane_modLane_self ..

/-- What a truncation leaves: the record's cause, condition and closed input, its rows as they were; no page is taken and no
counter rises. -/
theorem truncateSide_frame {s : State} {r : SideRef} {x : Side} (hx : s.side? r = some x) (h : x.inputClosed = false)
    (cause : Truncation) (n : Condition) :
    (∃ y, (truncateSide r cause n s).side? r = some y
      ∧ (y.inputClosed, y.truncation, y.raised, y.rowsStored, y.inputPages, y.input, y.state) =
          (true, some cause, x.raised ||| single n, x.rowsStored, x.inputPages, x.input, x.state))
      ∧ (∀ k, ((truncateSide r cause n s).lane k).counters = (s.lane k).counters)
      ∧ ∀ k, r.lane ≠ k → (truncateSide r cause n s).lane k = s.lane k := by
  rw [truncateSide_eq hx h]
  obtain ⟨⟨height, hside⟩, hcounters, hlanes⟩ := unitSeesClose_frame r x (s.modSide r fun y => { y with
    truncation := some cause, raised := raise n y.raised, inputClosed := true })
  rw [State.side?_modSide_self _ hx] at hside
  exact ⟨⟨_, hside, rfl⟩, fun k => (hcounters k).trans (counters_modSide ..),
    fun k hk => (hlanes k hk).trans (State.lane_modSide_ne _ _ hk)⟩

/-- The state that the close of a side leaves, by the unit that is bound to it. -/
theorem unitSeesClose_eq {s w : State} {r : SideRef} {x : Side}
    (h : (∀ u, x.boundUnit = some u → s.unit u = none) ∧ w = s
      ∨ ∃ u b, x.boundUnit = some u ∧ s.unit u = some b ∧ w = seenClosed r u b x.rowsStored s) : unitSeesClose r x s = w := by
  rcases h with ⟨hfree, rfl⟩ | ⟨u, b, hu, hb, rfl⟩
  · exact unitSeesClose_of_unbound r hfree
  · exact unitSeesClose_of_bound r hu hb

theorem storeRows_of_overrun {s : State} {r : SideRef} {x : Side} {count : Nat} (rows : List Byte)
    (h : s.freePages < ((x.rowsStored + min count (x.height - x.rowsStored)) * x.width + 65535) / 65536 - x.inputPages) :
    storeRows r x count rows s = overrunOn r.lane (truncateSide r .overrun condInputOverrun s) := by
  have hneed : pagesNeeded x (keptRows x count) =
      ((x.rowsStored + min count (x.height - x.rowsStored)) * x.width + 65535) / 65536 - x.inputPages := by
    rw [pagesNeeded, ceilDiv, Config.pageSize, keptRows, Nat.add_sub_assoc (by decide)]
  rw [storeRows, hneed, if_pos h]

/-- Settles O30: the tests of R83 in order, and what a truncation makes of the side. -/
theorem sideDataThatIsNotStored : Obligations.SideDataThatIsNotStored := by
  refine ⟨fun s l q f x first count rows htaking hstate hseq hq hactive hx hrows => ?_,
    fun s l q f x first count rows htaking hstate hseq hq hactive hx hopen hrows hcount hlength hheight => ?_,
    fun s l q f x first count rows cause bit s₁ w htaking hstate hseq hq hactive hx hopen hrows hcount hlength hheight hs₁ hw => ?_,
    fun s l q first count rows htaking hstate hseq hq hrows => ?_⟩
  · rw [exec_sideData_of_active htaking hstate hseq hq hactive hx first count hrows]
    refine ⟨fun hclosed => ?_, fun hopen hbad => ?_, fun hopen hcount hlength hstored hheight => ?_⟩
    · rw [takeRows_of_closed hclosed]; rfl
    · rw [takeRows_of_bad _ hopen hbad, strayOn_matched]; rfl
    · rw [takeRows_of_not_before _ hopen hcount hlength hstored, if_pos hheight]; rfl
  · have hside : (matched l s).side? ⟨l, q, f⟩ = some x := (side?_matched ..).trans hx
    have hcontext : ((matched l s).lane l).context = (restartTimer (s.lane l)).context := by rw [lane_matched_self]
    have hcounters : ((matched l s).lane l).counters = (s.lane l).counters := by simp
    rw [exec_sideData_of_active htaking hstate hseq hq hactive hx first count hrows]
    refine ⟨fun hgap => ?_, fun hfirst hfree => ?_⟩
    · obtain ⟨⟨y, hy, hfields⟩, hcount', hlanes⟩ := truncateSide_frame hside hopen .gap condRowShort
      rw [takeRows_of_gap _ hopen hcount hlength hheight hgap]
      exact ⟨_, y, rfl, hy, hfields, by rw [truncateSide_freePages]; rfl, (hcount' l).trans hcounters,
        (truncateSide_context ..).trans hcontext, fun k hk => (hlanes k hk.symm).trans (lane_matched_ne s hk.symm)⟩
    · obtain ⟨⟨y, hy, hfields⟩, hcount', hlanes⟩ := truncateSide_frame hside hopen .overrun condInputOverrun
      rw [takeRows_of_continuing _ hopen hcount hlength hheight hfirst, storeRows_of_overrun _ (by exact hfree)]
      refine ⟨_, y, rfl, (side?_countLane ..).trans hy, hfields, ?_, ?_, ?_, fun k hk => ?_⟩
      · exact (truncateSide_freePages ..).trans rfl
      · rw [overrunOn, lane_countLane_self]
        dsimp only
        rw [hcount', hcounters]
      · rw [overrunOn, lane_countLane_self, ← hcontext, ← truncateSide_context ⟨l, q, f⟩ .overrun condInputOverrun]
        rfl
      · exact (lane_countLane_ne _ _ hk.symm).trans ((hlanes k hk.symm).trans (lane_matched_ne s hk.symm))
  · have hside : (matched l s).side? ⟨l, q, f⟩ = some x := (side?_matched ..).trans hx
    have htruncated (n : Condition) (hbit : bit = single n) : truncateSide ⟨l, q, f⟩ cause n (matched l s) = w := by
      rw [truncateSide_eq hside hopen]
      refine unitSeesClose_eq ?_
      rw [hs₁, hbit] at hw
      exact hw
    rw [exec_sideData_of_active htaking hstate hseq hq hactive hx first count hrows]
    refine ⟨fun hgap hcause hbit => ?_, fun hfirst hfree hcause hbit => ?_⟩
    · rw [takeRows_of_gap _ hopen hcount hlength hheight hgap, ← hcause, htruncated condRowShort hbit]
    · rw [takeRows_of_continuing _ hopen hcount hlength hheight hfirst, storeRows_of_overrun _ (by exact hfree), ← hcause,
        htruncated condInputOverrun hbit]
      rfl
  · have hopened : ((matched l s).lane l).state = .opened := by simpa using hstate
    rw [exec_sideData htaking _ _ _ _ hrows, withMatch_eq_matched hq (.inl hstate) hseq, takeSideData, hopened]
    dsimp only
    rw [strayOn_matched]
    rfl

/-! ### The close of the active side (R87) -/

/-- The record of a side whose input closes by SIDE_CLOSE: ROW_SHORT when rows are missing without a cause. -/
def shortClosed (y : Side) : Side :=
  { y with
    raised :=
      if y.state ≠ .notReduced ∧ y.truncation = none ∧ y.rowsStored < y.height then y.raised ||| 0x0004 else y.raised
    inputClosed := true }

/-- A record with its output height (R15). -/
def withOutHeight (n : Nat) (y : Side) : Side := { y with outHeight := n }

/-- The lane after the close of its active side. -/
def toOpened (c : Lane) : Lane := { c with state := .opened, active := none }

/-- ROW_SHORT at a close (R87). -/
def shortMarked (y : Side) : Side := { y with raised := raiseIf (closesShort y) condRowShort y.raised }

theorem closeSide_of_active {v : State} {l : Fin 16} {f : Face} (hactive : (v.lane l).active = some f) :
    closeSide l v = (closeInput ⟨l, (v.lane l).seq, f⟩ (v.modSide ⟨l, (v.lane l).seq, f⟩ shortMarked)).modLane l toOpened := by
  rw [closeSide, hactive]
  rfl

/-- The active side closes: its record, then what the unit makes of the close if the input was open, then the lane. -/
theorem closeSide_eq {v : State} {l : Fin 16} {q : Seq} {f : Face} {x : Side} (hseq : (v.lane l).seq = q)
    (hactive : (v.lane l).active = some f) (hx : v.side? ⟨l, q, f⟩ = some x) :
    closeSide l v = (if x.inputClosed = true then v.modSide ⟨l, q, f⟩ shortClosed
      else unitSeesClose ⟨l, q, f⟩ x (v.modSide ⟨l, q, f⟩ shortClosed)).modLane l toOpened := by
  subst hseq
  have hshort := State.side?_modSide_self shortMarked hx
  rw [closeSide_of_active hactive]
  refine congrArg (fun w => State.modLane w l toOpened) ?_
  split
  next hclosed =>
    rw [closeInput_of_closed hshort hclosed]
    refine State.modSide_congr fun y hy => ?_
    obtain rfl : y = x := Option.some.inj (hy.symm.trans hx)
    rw [shortMarked, closesShort, raiseIf_decide, shortClosed, ← hclosed]
    rfl
  next hopen =>
    rw [closeInput_of_open hshort (Bool.eq_false_iff.mpr hopen), State.modSide_modSide]
    refine congrArg (unitSeesClose ⟨l, (v.lane l).seq, f⟩ x) (State.modSide_congr fun y _ => ?_)
    rw [shortMarked, closesShort, raiseIf_decide, shortClosed]
    rfl

theorem unit_seenClosed (r : SideRef) (u : Fin 4) (b : Binding) (n : Nat) (s : State) :
    (seenClosed r u b n s).unit u = some (b.inputCloses n) := by
  rw [seenClosed, unit_evalPaused, unit_modSide, State.unit_setUnit_self]

theorem side?_seenClosed {s : State} {r : SideRef} {y : Side} (u : Fin 4) (b : Binding) (n : Nat) (hy : s.side? r = some y) :
    (seenClosed r u b n s).side? r = some (withOutHeight (n * b.dout / b.din) y) := by
  rw [seenClosed, side?_evalPaused]
  exact State.side?_modSide_self _ ((side?_setUnit ..).trans hy)

theorem side?_modLane (s : State) {l : Fin 16} {f : Lane → Lane} (h : ∀ c, (f c).list = c.list) (r : SideRef) :
    (s.modLane l f).side? r = s.side? r := by
  rw [State.side?, State.item?_modLane h]; rfl

/-- What the close of the active side leaves: the rest of its record, the counters, the other lanes, the settings. -/
theorem closeSide_frame {v : State} {l : Fin 16} {q : Seq} {f : Face} {x : Side} (hseq : (v.lane l).seq = q)
    (hactive : (v.lane l).active = some f) (hx : v.side? ⟨l, q, f⟩ = some x) :
    (∃ height, (closeSide l v).side? ⟨l, q, f⟩ = some (withOutHeight height (shortClosed x)))
      ∧ ((closeSide l v).lane l).counters = (v.lane l).counters
      ∧ ((closeSide l v).lane l).context = { (v.lane l).context with state := .opened, active := none }
      ∧ ∀ k, l ≠ k → (closeSide l v).lane k = v.lane k := by
  have hclosed := State.side?_modSide_self shortClosed hx
  obtain ⟨⟨height, hside⟩, hcounters, hlanes⟩ := unitSeesClose_frame ⟨l, q, f⟩ x (v.modSide ⟨l, q, f⟩ shortClosed)
  rw [hclosed] at hside
  rw [closeSide_eq hseq hactive hx]
  refine ⟨?_, ?_, ?_, fun k hk => ?_⟩
  · rw [side?_modLane (f := toOpened) _ fun _ => rfl]
    split
    · exact ⟨_, hclosed⟩
    · exact ⟨_, hside⟩
  · rw [State.lane_modLane_self]
    split
    · exact counters_modSide ..
    · exact (hcounters l).trans (counters_modSide ..)
  · rw [State.lane_modLane_self]
    have hcontext (c : Lane) : (toOpened c).context = { c.context with state := .opened, active := none } := rfl
    rw [hcontext]
    split <;> simp
  · rw [State.lane_modLane_ne _ _ hk]
    split
    · exact State.lane_modSide_ne _ _ hk
    · exact (hlanes k hk).trans (State.lane_modSide_ne _ _ hk)

theorem exec_sideClose_of_side {s : State} {l : Fin 16} {q : Seq} (htaking : s.taking = true)
    (hstate : (s.lane l).state = .side) (hseq : (s.lane l).seq = q) (hq : q ≠ 0) :
    exec (.sideClose l q) s = .next (closeSide l (matched l s)) := by
  have hside : ((matched l s).lane l).state = .side := by simpa using hstate
  rw [exec_sideClose htaking, withMatch_eq_matched hq (.inr hstate) hseq, takeSideClose, hside]

/-- Settles O31: the close of the active side by its equation, and the unit's close by the cases of its sub-state. -/
theorem sideCloseClosesTheInput : Obligations.SideCloseClosesTheInput := by
  refine ⟨fun s l q htaking hseq hq => ⟨fun f x hstate hactive hx => ?_, fun hstate => ?_⟩,
    fun s l q f x s₁ w htaking hseq hq hstate hactive hx hs₁ hw => ?_,
    fun b n => ⟨inputCloses_of_rows_left, inputCloses_of_no_row_left, inputCloses_of_not_waiting⟩⟩
  · have hside : (matched l s).side? ⟨l, q, f⟩ = some x := (side?_matched ..).trans hx
    have hseq' : ((matched l s).lane l).seq = q := by simpa using hseq
    have hactive' : ((matched l s).lane l).active = some f := by simpa using hactive
    obtain ⟨⟨height, hy⟩, hcounters, hcontext, hlanes⟩ := closeSide_frame hseq' hactive' hside
    refine ⟨_, _, exec_sideClose_of_side htaking hstate hseq hq, hy, rfl, rfl, fun u b hopen hu hb => ?_, ?_, ?_, ?_,
      fun k hk => ?_, ?_⟩
    · have hwhole : closeSide l (matched l s) =
          (seenClosed ⟨l, q, f⟩ u b x.rowsStored ((matched l s).modSide ⟨l, q, f⟩ shortClosed)).modLane l toOpened := by
        rw [closeSide_eq hseq' hactive' hside, if_neg (by simp [hopen]), unitSeesClose_of_bound _ hu (by exact hb)]
      refine ⟨?_, b.inputCloses x.rowsStored, ?_, inputCloses_finalHeight .., fun hsub => ?_, fun hsub hrow => ?_⟩
      · rw [hwhole, side?_modLane (f := toOpened) _ fun _ => rfl, side?_seenClosed _ _ _ (State.side?_modSide_self shortClosed hside)] at hy
        exact (congrArg Side.outHeight (Option.some.inj hy)).symm
      · rw [hwhole]
        exact unit_seenClosed ..
      · rw [inputCloses_of_not_waiting (by simp [hsub])]
        exact hsub
      · rw [inputCloses_of_no_row_left hsub hrow]
    · rw [hcontext, lane_matched_self]
    · rw [closeSide_freePages]; rfl
    · rw [hcounters, lane_matched_self, restartTimer_counters]
    · rw [hlanes k hk.symm, lane_matched_ne s hk.symm]
    · rw [closeSide_admission, closeSide_disposition, closeSide_egress, closeSide_mgmt]; rfl
  · have hopened : ((matched l s).lane l).state = .opened := by simpa using hstate
    rw [exec_sideClose htaking, withMatch_eq_matched hq (.inl hstate) hseq, takeSideClose, hopened]
    dsimp only
    rw [strayOn_matched]
    rfl
  · have hside : (matched l s).side? ⟨l, q, f⟩ = some x := (side?_matched ..).trans hx
    have hs : s₁ = (matched l s).modSide ⟨l, q, f⟩ shortClosed := hs₁
    rw [exec_sideClose_of_side htaking hstate hseq hq, closeSide_eq (by simpa using hseq) (by simpa using hactive) hside, ← hs]
    refine congrArg (fun v => Host.Outcome.next (State.modLane v l toOpened)) ?_
    split
    next hclosed =>
      rcases hw with ⟨-, rfl⟩ | ⟨u, b, hopen, -⟩
      · rfl
      · exact absurd hclosed (by simp [hopen])
    next hopen =>
      refine unitSeesClose_eq ?_
      subst hs
      rcases hw with ⟨hunbound, rfl⟩ | ⟨u, b, -, hu, hb, rfl⟩
      · exact .inl ⟨hunbound.resolve_left hopen, rfl⟩
      · exact .inr ⟨u, b, hu, hb, rfl⟩

end Sys2Proof.Machine
end

