-- ==== Sys2Proof/Proofs/Closes.lean ====
section
/-! The close of an item and of what stood open on a lane (R80, R82, R88). -/

namespace Sys2Proof.Machine

/-! ### A close does not show whether the timer was restarted first -/

theorem restartTimer_of_fixed {c : Lane} (h : c.stallMs = 0 ∨ c.stallRunning = true ∧ c.stallRemaining = c.stallMs) :
    restartTimer c = c := by
  unfold restartTimer
  split
  · rfl
  next hms =>
    obtain ⟨hrunning, hremaining⟩ := h.resolve_left hms
    cases c
    simp_all

theorem restartTimer_fixed (c : Lane) : (restartTimer c).stallMs = 0
    ∨ (restartTimer c).stallRunning = true ∧ (restartTimer c).stallRemaining = (restartTimer c).stallMs := by
  unfold restartTimer
  split
  next h => exact .inl h
  next => exact .inr ⟨rfl, rfl⟩

@[simp] theorem idleLane_restartTimer (c : Lane) : idleLane (restartTimer c) = idleLane c := by
  unfold restartTimer; split <;> rfl

theorem modItem_restartTimer (c : Lane) (q : Seq) (f : Item → Item) :
    (restartTimer c).modItem q f = restartTimer (c.modItem q f) := by
  unfold restartTimer Lane.modItem; split <;> rfl

theorem closedItem_eq (i : Item) :
    closedItem i = { i with
      raised := if i.sides.length < i.sidesDeclared then i.raised ||| 0x2000 else i.raised
      state := .reducing } := by
  rw [closedItem, raiseIf_decide, sidesHeld]
  rfl

/-- The item closes and its lane is IDLE, before the item is judged (R88). -/
def itemClosed (l : Fin 16) (q : Seq) (s : State) : State := (s.modItem l q closedItem).modLane l idleLane

theorem closeItem_eq {l : Fin 16} {q : Seq} {s : State} (h : (s.lane l).seq = q) :
    closeItem l s = checkComplete l q (itemClosed l q s) := by rw [closeItem, h]; rfl

theorem itemClosed_restartTimer (l : Fin 16) (q : Seq) (s : State) :
    itemClosed l q (s.modLane l restartTimer) = itemClosed l q s := by
  simp only [itemClosed, State.modItem, State.modLane_modLane, modItem_restartTimer, idleLane_restartTimer]

theorem closeItem_restartTimer (l : Fin 16) (s : State) : closeItem l (s.modLane l restartTimer) = closeItem l s := by
  rw [closeItem_eq (q := (s.lane l).seq) (by rw [State.lane_modLane_self, restartTimer_seq]), itemClosed_restartTimer,
    closeItem_eq rfl]

theorem item?_itemClosed {l : Fin 16} {q : Seq} {s : State} {i : Item} (hi : s.item? l q = some i) :
    (itemClosed l q s).item? l q = some (closedItem i) :=
  (State.item?_modLane (f := idleLane) fun _ => rfl).trans (State.item?_modItem_self (f := closedItem) hi rfl)

theorem lane_itemClosed_ne (s : State) {l k : Fin 16} (q : Seq) (h : l ≠ k) : (itemClosed l q s).lane k = s.lane k :=
  (State.lane_modLane_ne _ _ h).trans (State.lane_modItem_ne _ _ h)

/-- A frame of a lane starts no record that did not start before it, when a reset of the lane comes together with it. -/
theorem startsNoneOf_of_frame {c : Instr} {l : Fin 16} {s t v : State} (hframe : isReceivedFrame c = true)
    (hexec : s.taking = true → exec c s = .next (startBeside l v)) (hnone : StartsNone (s.lane l) (v.lane l))
    (hnext : nextRequest? v = nextRequest? s) (hreset : laneResetNext l s = true) (ht : exec c s = .next t) :
    StartsNoneOf l s t := by
  rw [startsNoneOf_iff]
  cases htaking : s.taking with
  | false =>
    obtain rfl : s = t := Host.Outcome.next.inj ((exec_of_not_taking htaking hframe).symm.trans ht)
    exact .refl _
  | true =>
    obtain rfl : startBeside l v = t := Host.Outcome.next.inj ((hexec htaking).symm.trans ht)
    exact startBeside_startsNone hnone hnext hreset

/-- Settles O32: a close of an item in OPEN is one change of its record and of its lane, and the judgement starts nothing. -/
theorem itemCloseClosesTheItem : Obligations.ItemCloseClosesTheItem := by
  refine ⟨fun s l q i htaking hstate hseq hq hi => ?_, fun s t l q hreset hexec => ?_⟩
  · have hopened : ((matched l s).lane l).state = .opened := by simpa using hstate
    refine ⟨itemClosed l q (countIntakeIn s), ?_, ?_, ?_, ?_, ?_, fun k hk => ?_, rfl⟩
    · rw [exec_itemClose htaking, withMatch_eq_matched hq (.inl hstate) hseq, takeItemClose, closeAll_of_opened hopened,
        matched, closeItem_restartTimer, closeItem_eq (s := countIntakeIn s) hseq]
    · rw [itemClosed, funext closedItem_eq]; rfl
    · rw [item?_itemClosed (s := countIntakeIn s) hi, closedItem_eq]
    · rw [itemClosed, State.lane_modLane_self, State.modItem, State.lane_modLane_self]; rfl
    · rw [itemClosed, State.lane_modLane_self, State.modItem, State.lane_modLane_self]; rfl
    · exact lane_itemClosed_ne (countIntakeIn s) q hk.symm
  · have hkept {P : Int → Bool → State → Prop} (h : ItemKept P) (hp : P 0 false (countIntakeIn s)) :
        P 0 false (withMatch l q (takeItemClose l) (countIntakeIn s)) := h.withMatch l q (h.closeAll l) hp
    exact startsNoneOf_of_frame rfl (fun htaking => exec_itemClose htaking l q)
      (hkept (startsNone_kept (s.lane l) l) (.refl _)) (hkept (nextRequest_kept (nextRequest? s)) rfl) hreset hexec

/-! ### A frame that closes the active side first (R82, R88) -/

/-- A lane in SIDE has no active side to close, or is in OPEN once it is closed. -/
theorem closeSide_cases (l : Fin 16) (v : State) :
    (v.lane l).active = none ∧ closeSide l v = v ∨ ((closeSide l v).lane l).state = .opened := by
  cases hactive : (v.lane l).active with
  | none => exact .inl ⟨rfl, by rw [closeSide, hactive]⟩
  | some f =>
    refine .inr ?_
    rw [closeSide_of_active hactive, State.lane_modLane_self]
    rfl

/-- The close of a side keeps the sequence and the timer of its lane. -/
theorem closeSide_timer (l : Fin 16) (v : State) :
    ((closeSide l v).lane l).seq = (v.lane l).seq ∧ ((closeSide l v).lane l).stallMs = (v.lane l).stallMs
      ∧ ((closeSide l v).lane l).stallRunning = (v.lane l).stallRunning
      ∧ ((closeSide l v).lane l).stallRemaining = (v.lane l).stallRemaining := by
  cases hactive : (v.lane l).active with
  | none => rw [closeSide, hactive]; exact ⟨rfl, rfl, rfl, rfl⟩
  | some f =>
    have hcontext (r : SideRef) : ((closeInput r (v.modSide r shortMarked)).lane l).context = (v.lane l).context := by simp
    replace hcontext := hcontext ⟨l, (v.lane l).seq, f⟩
    rw [closeSide_of_active hactive, State.lane_modLane_self]
    exact ⟨congrArg LaneContext.seq hcontext, congrArg LaneContext.stallMs hcontext,
      congrArg LaneContext.stallRunning hcontext, congrArg LaneContext.stallRemaining hcontext⟩

theorem closeSide_state {l : Fin 16} {v : State} (h : (v.lane l).state = .side) :
    ((closeSide l v).lane l).state = .opened ∨ ((closeSide l v).lane l).state = .side := by
  rcases closeSide_cases l v with ⟨-, hsame⟩ | hopened
  · rw [hsame]; exact .inr h
  · exact .inl hopened

theorem closeAll_closeSide {l : Fin 16} {v : State} (h : (v.lane l).state = .side) :
    closeAll l (closeSide l v) = closeItem l (closeSide l v) := by
  rcases closeSide_cases l v with ⟨-, hsame⟩ | hopened
  · rw [hsame, closeAll_of_side h, hsame]
  · exact closeAll_of_opened hopened

theorem takeSideOpen_closeSide {l : Fin 16} {v : State} (h : (v.lane l).state = .side) (face : Byte) (res w y : Nat) :
    takeSideOpen l face res w y (closeSide l v) = openSide l face res w y (closeSide l v) := by
  rcases closeSide_cases l v with ⟨-, hsame⟩ | hopened
  · rw [hsame, takeSideOpen, h]
    dsimp only
    rw [hsame]
  · rw [takeSideOpen, hopened]

theorem closeSide_matched_fixed (l : Fin 16) (s : State) :
    restartTimer ((closeSide l (matched l s)).lane l) = (closeSide l (matched l s)).lane l := by
  obtain ⟨-, hms, hrunning, hremaining⟩ := closeSide_timer l (matched l s)
  apply restartTimer_of_fixed
  rw [hms, hrunning, hremaining, lane_matched_self]
  exact restartTimer_fixed _

/-- The port's count taken back and made again. -/
theorem countIntakeIn_withIntakePort {s t : State} (h : t.intakePort = (countIntakeIn s).intakePort) :
    countIntakeIn (t.withIntakePort s.intakePort) = t := by
  cases t
  subst h
  rfl

/-- Settles O28: once the active side has closed, the frame finds the lane in OPEN, its timer just restarted. -/
theorem framesInSideCloseTheActiveSideFirst : Obligations.FramesInSideCloseTheActiveSideFirst := by
  intro s l q htaking hstate hseq hq
  have hside : ((matched l s).lane l).state = .side := by simpa using hstate
  have hcount := countIntakeIn_withIntakePort (closeSide_intakePort l (matched l s))
  have hmatched : matched l ((closeSide l (matched l s)).withIntakePort s.intakePort) = closeSide l (matched l s) := by
    rw [matched, hcount, State.modLane_of_fixed (closeSide_matched_fixed l s)]
  have htake (taken : State → State) : withMatch l q taken (countIntakeIn ((closeSide l (matched l s)).withIntakePort s.intakePort))
      = taken (closeSide l (matched l s)) := by
    rw [withMatch_eq_matched (s := (closeSide l (matched l s)).withIntakePort s.intakePort) hq (closeSide_state hside) ((closeSide_timer l (matched l s)).1.trans (by simpa using hseq)), hmatched]
  have htaking' : ((closeSide l (matched l s)).withIntakePort s.intakePort).taking = true := (closeSide_taking ..).trans htaking
  refine ⟨closeSide l (matched l s), exec_sideClose_of_side htaking hstate hseq hq, fun a r w h => ?_, ?_⟩
  · rw [exec_sideOpen htaking, exec_sideOpen htaking', htake, withMatch_eq_matched hq (.inr hstate) hseq,
      takeSideOpen_closeSide hside, takeSideOpen, hside]
  · rw [exec_itemClose htaking, exec_itemClose htaking', htake, withMatch_eq_matched hq (.inr hstate) hseq, takeItemClose,
      takeItemClose, closeAll_closeSide hside, closeAll_of_side hside]

end Sys2Proof.Machine
end

