-- ==== Sys2Proof/Proofs/Tallies.lean ====
section
/-! What the events of a lane leave of its counters, and of the state of its records. -/

namespace Sys2Proof.Machine

/-! ### The counters of a lane (R94) -/

/-- The counters that no binding and no judgement raises. -/
def LaneCounters.tally (k : LaneCounters) : Counter × Counter × Counter := (k.admitted, k.refused, k.stalls)

/-- The counters of a lane that no binding and no judgement raises. -/
def Lane.tally (c : Lane) : Counter × Counter × Counter := c.counters.tally

theorem tally_modLane {s : State} {l : Fin 16} {f : Lane → Lane} (h : ∀ c, (f c).tally = c.tally) (k : Fin 16) :
    ((s.modLane l f).lane k).tally = (s.lane k).tally := by
  rw [State.lane_modLane]
  split
  next hk => subst hk; exact h _
  next => rfl

@[simp] theorem tally_modItem (s : State) (l : Fin 16) (q : Seq) (f : Item → Item) (k : Fin 16) :
    ((s.modItem l q f).lane k).tally = (s.lane k).tally := tally_modLane (f := fun c => c.modItem q f) (fun _ => rfl) k

@[simp] theorem tally_modSide (s : State) (r : SideRef) (g : Side → Side) (k : Fin 16) :
    ((s.modSide r g).lane k).tally = (s.lane k).tally := tally_modItem ..

@[simp] theorem tally_evalPaused (l : Fin 16) (s : State) (k : Fin 16) :
    ((evalPaused l s).lane k).tally = (s.lane k).tally := congrArg LaneCounters.tally (counters_evalPaused ..)

@[simp] theorem tally_returnPages (n : Nat) (s : State) (k : Fin 16) :
    ((returnPages n s).lane k).tally = (s.lane k).tally := by
  unfold returnPages
  split
  · rfl
  · rw [lane_setFree]

theorem tally_grant (s : State) (k : Fin 16) : ((grant s).lane k).tally = (s.lane k).tally := by
  unfold grant
  split
  · rfl
  · split
    · rfl
    next u _ _ r _ =>
      unfold bindSide
      split
      · rw [context_popWaiting]
      · split
        · rw [context_popWaiting]
        next p _ =>
          have hbound (g : Side → Side) (b : Option Binding) :
              ((((popWaiting s).setUnit u b).modSide r g).lane k).tally = (s.lane k).tally := by
            rw [tally_modSide]
            exact congrArg Lane.tally (context_popWaiting s k)
          dsimp only
          split
          · rw [tally_evalPaused, hbound]
          · exact hbound _ _

theorem tally_grantUpTo (n : Nat) (s : State) (k : Fin 16) : ((grantUpTo n s).lane k).tally = (s.lane k).tally := by
  induction n generalizing s with
  | zero => rfl
  | succ n ih => exact (ih _).trans (tally_grant s k)

@[simp] theorem tally_grantAll (s : State) (k : Fin 16) : ((grantAll s).lane k).tally = (s.lane k).tally := tally_grantUpTo ..

@[simp] theorem tally_replaceItem (l : Fin 16) (old new : Item) (s : State) (k : Fin 16) :
    ((replaceItem l old new s).lane k).tally = (s.lane k).tally := by rw [replaceItem, tally_returnPages, tally_modItem]

@[simp] theorem tally_joinReworkIf (n : Option Condition) (r : SideRef) (s : State) (k : Fin 16) :
    ((joinReworkIf n r s).lane k).tally = (s.lane k).tally := by
  unfold joinReworkIf
  split
  · rfl
  · unfold joinRework State.countLane
    rw [tally_modLane (by intro; rfl)]
    rfl

@[simp] theorem tally_evaluate (l : Fin 16) (q : Seq) (s : State) (k : Fin 16) :
    ((evaluate l q s).lane k).tally = (s.lane k).tally := by
  unfold evaluate
  split
  · rfl
  · unfold dispatch
    split
    · rw [tally_replaceItem]; rfl
    · rw [tally_replaceItem]
    · rw [tally_replaceItem]; rfl
    · rw [tally_grantAll, tally_joinReworkIf, tally_joinReworkIf, tally_replaceItem]
    · rw [tally_replaceItem]

@[simp] theorem tally_checkComplete (l : Fin 16) (q : Seq) (s : State) (k : Fin 16) :
    ((checkComplete l q s).lane k).tally = (s.lane k).tally := by
  unfold checkComplete
  split
  · rfl
  · split
    · unfold completeItem
      split
      · rw [tally_modItem]
      · rw [tally_evaluate]
    · rfl

@[simp] theorem tally_itemClosed (l : Fin 16) (q : Seq) (s : State) (k : Fin 16) :
    ((itemClosed l q s).lane k).tally = (s.lane k).tally := by
  rw [itemClosed, tally_modLane (f := idleLane) (fun _ => rfl), tally_modItem]

@[simp] theorem tally_closeItem (l : Fin 16) (s : State) (k : Fin 16) :
    ((closeItem l s).lane k).tally = (s.lane k).tally := by rw [closeItem_eq rfl, tally_checkComplete, tally_itemClosed]

@[simp] theorem tally_closeInput (r : SideRef) (s : State) (k : Fin 16) :
    ((closeInput r s).lane k).tally = (s.lane k).tally := by
  cases hx : s.side? r with
  | none => rw [closeInput, hx]
  | some x =>
    cases hclosed : x.inputClosed with
    | true => rw [closeInput_of_closed hx hclosed]
    | false =>
      rw [closeInput_of_open hx hclosed]
      exact (congrArg LaneCounters.tally ((unitSeesClose_frame ..).2.1 k)).trans (tally_modSide ..)

@[simp] theorem tally_closeSide (l : Fin 16) (s : State) (k : Fin 16) :
    ((closeSide l s).lane k).tally = (s.lane k).tally := by
  cases hactive : (s.lane l).active with
  | none => rw [closeSide, hactive]
  | some f => rw [closeSide_of_active hactive, tally_modLane (f := toOpened) (fun _ => rfl), tally_closeInput, tally_modSide]

@[simp] theorem tally_closeAll (l : Fin 16) (s : State) (k : Fin 16) :
    ((closeAll l s).lane k).tally = (s.lane k).tally := by
  unfold closeAll
  split
  · rfl
  · exact tally_modLane (f := idleLane) (fun _ => rfl) k
  · rw [tally_closeItem]
  · rw [tally_closeItem, tally_closeSide]

/-! ### What the port's start changes of the records -/

/-- The port's start changes at most the state of one record, which is EMITTING then. -/
theorem startExchange_lanes (s : State) :
    (startExchange s).lanes = s.lanes
      ∨ ∃ l q, (startExchange s).lanes = (s.modItem l q fun j => { j with state := .emitting }).lanes := by
  unfold startExchange
  split
  · exact .inl rfl
  · split
    · unfold startEmissionFrame
      split <;> exact .inl rfl
    · split
      · exact .inl rfl
      · unfold startRecord
        split
        · exact .inl rfl
        · split
          · exact .inl rfl
          next l _ =>
            split
            · exact .inl rfl
            next i _ => exact .inr ⟨l, i.seq, rfl⟩

theorem startBeside_lanes (l : Fin 16) (s : State) :
    (startBeside l s).lanes = s.lanes
      ∨ ∃ k q, (startBeside l s).lanes = (s.modItem k q fun j => { j with state := .emitting }).lanes := by
  rcases startBeside_cases l s with e | e <;> rw [e]
  · exact .inl rfl
  · exact startExchange_lanes s

theorem lane_congr {s t : State} (h : t.lanes = s.lanes) (k : Fin 16) : t.lane k = s.lane k := by rw [State.lane, h]; rfl

@[simp] theorem tally_startBeside (l : Fin 16) (s : State) (k : Fin 16) :
    ((startBeside l s).lane k).tally = (s.lane k).tally := by
  rcases startBeside_lanes l s with h | ⟨_, _, h⟩ <;> rw [lane_congr h k]
  exact tally_modItem ..

/-! ### Records that are no longer received -/

theorem item?_of_moves {is js : List Item} (h : List.Forall₂ Moves (is.map Item.stamp) (js.map Item.stamp)) {q : Seq} {j : Item}
    (hj : js.find? (fun i => i.seq == q) = some j) :
    ∃ i, is.find? (fun i => i.seq == q) = some i ∧ Moves i.stamp j.stamp := by
  rw [List.forall₂_map_left_iff, List.forall₂_map_right_iff] at h
  induction h with
  | nil => cases hj
  | @cons a b as bs hab _ ih =>
    have hseq : b.seq = a.seq := hab.1
    rw [List.find?_cons] at hj
    by_cases hb : a.seq = q
    · rw [hseq, hb, beq_self_eq_true] at hj
      obtain rfl := Option.some.inj hj
      exact ⟨a, by rw [List.find?_cons, hb, beq_self_eq_true], hab⟩
    · rw [hseq, beq_eq_false_iff_ne.mpr hb] at hj
      obtain ⟨i, hi, hmoves⟩ := ih hj
      exact ⟨i, by rw [List.find?_cons, beq_eq_false_iff_ne.mpr hb]; exact hi, hmoves⟩

/-- The record of a sequence, if the lane has one, is not being received. -/
def NotReceiving (q : Seq) (c : Lane) : Prop := ∀ j, c.item? q = some j → j.state ≠ .receiving

theorem NotReceiving.move {q : Seq} {c e : Lane} (hmove : ItemsMove c e) (h : NotReceiving q c) : NotReceiving q e := by
  intro j hj hreceiving
  obtain ⟨i, hi, -, hstate | ⟨hnot, -⟩⟩ := item?_of_moves hmove hj
  · exact h i hi (hstate.symm.trans hreceiving)
  · exact hnot hreceiving

theorem NotReceiving.setLane {q : Seq} {s : State} {l k : Fin 16} {e : Lane} (hmove : ItemsMove (s.lane l) e)
    (h : NotReceiving q (s.lane k)) : NotReceiving q ((s.setLane l e).lane k) := by
  rcases s.lane_setLane_cases l k e with ⟨rfl, hlane⟩ | hlane <;> rw [hlane]
  · exact h.move hmove
  · exact h

/-- No event of a side and no judgement makes a record one that is being received. -/
theorem notReceiving_kept (q : Seq) (k : Fin 16) : ItemKept fun _ _ s => NotReceiving q (s.lane k) where
  lane _ hstamps := .setLane (.of_stamps_eq hstamps)
  reduction _ := id
  rebind _ _ := id
  granted _ := id
  owing := id
  flowFrame _ := id
  free _ h := by simpa using h
  items _ hmove := .setLane hmove
  refusal _ h := by simpa using h
  fault := id
  exhausted := id
  service _ := id

theorem NotReceiving.modItem {s : State} {l k : Fin 16} {q p : Seq} {f : Item → Item} (hseq : ∀ i, (f i).seq = i.seq)
    (hstate : ∀ i, (f i).state ≠ .receiving) (h : (l = k ∧ p = q) ∨ NotReceiving q (s.lane k)) :
    NotReceiving q ((s.modItem l p f).lane k) := by
  intro j hj hreceiving
  have hitem : (s.modItem l p f).item? k q = some j := hj
  rw [State.item?_modItem s l k p q fun i hi => (hseq i).trans hi] at hitem
  split at hitem
  · obtain ⟨i, -, rfl⟩ := Option.map_eq_some_iff.mp hitem
    exact hstate i hreceiving
  next hne => exact h.resolve_left hne j hitem hreceiving

theorem NotReceiving.startBeside {s : State} {k : Fin 16} {q : Seq} (l : Fin 16) (h : NotReceiving q (s.lane k)) :
    NotReceiving q ((Machine.startBeside l s).lane k) := by
  rcases startBeside_lanes l s with e | ⟨_, _, e⟩ <;> rw [lane_congr e k]
  · exact h
  · exact .modItem (fun _ => rfl) (fun _ => nofun) (.inr h)

/-- A closed item is no longer received. -/
theorem NotReceiving.closeItem (l : Fin 16) (s : State) : NotReceiving (s.lane l).seq ((Machine.closeItem l s).lane l) := by
  rw [closeItem_eq rfl]
  refine (notReceiving_kept _ l).checkComplete (d := 0) (ow := false) _ _ ?_
  rw [itemClosed, State.lane_modLane_self]
  exact NotReceiving.modItem (fun _ => rfl) (fun _ => nofun) (.inl ⟨rfl, rfl⟩)

end Sys2Proof.Machine
end

