-- ==== Sys2Proof/Proofs/Opens.lean ====
section
/-! ITEM_OPEN in every state of its lane: what stood open closes first (R80, R88). -/

namespace Sys2Proof.Machine

/-! ### The close of a side does not show whether the timer was restarted first -/

theorem modSide_restartTimer (s : State) (r : SideRef) (g : Side → Side) :
    (s.modLane r.lane restartTimer).modSide r g = (s.modSide r g).modLane r.lane restartTimer := by
  simp only [State.modSide, State.modItem, State.modLane_modLane, modItem_restartTimer]

theorem backlog_congr {s t : State} {l : Fin 16} (hlist : (t.lane l).list = (s.lane l).list)
    (hunits : t.reduction.units = s.reduction.units) : t.backlog l = s.backlog l := by
  have hside : t.sideBacklog = s.sideBacklog := funext fun x => by
    simp only [State.sideBacklog, State.rowsConsumed, State.unit, hunits]
  rw [backlog_eq, backlog_eq, hlist, hside]

theorem pausedBy_restartTimer (c : Lane) (b n : Nat) : pausedBy (restartTimer c) b n = pausedBy c b n := by
  unfold restartTimer; split <;> rfl

theorem pausedAfter_restartTimer (l : Fin 16) (s : State) :
    pausedAfter l (s.modLane l restartTimer) = pausedAfter l s := by
  have hlist : ((s.modLane l restartTimer).lane l).list = (s.lane l).list := by rw [State.lane_modLane_self, restartTimer_list]
  rw [pausedAfter, backlog_congr (s := s) hlist rfl, hlist, State.lane_modLane_self, pausedBy_restartTimer]
  rfl

theorem evalPaused_restartTimer (l : Fin 16) (s : State) :
    evalPaused l (s.modLane l restartTimer) = (evalPaused l s).modLane l restartTimer := by
  have hpaused : (restartTimer (s.lane l)).paused = (s.lane l).paused := by unfold restartTimer; split <;> rfl
  rw [evalPaused_eq, evalPaused_eq, pausedAfter_restartTimer, State.lane_modLane_self, hpaused]
  split
  · rfl
  · have hlane : { restartTimer (s.lane l) with paused := pausedAfter l s }
        = restartTimer { s.lane l with paused := pausedAfter l s } := by unfold restartTimer; split <;> rfl
    have hqueue (f : FlowFrame) (t : State) : (queueFlow f t).modLane l restartTimer = queueFlow f (t.modLane l restartTimer) := rfl
    rw [hlane, State.modLane, State.setLane_setLane, hqueue, State.modLane, State.lane_setLane_self, State.setLane_setLane]

theorem unitSeesClose_restartTimer (r : SideRef) (x : Side) (s : State) :
    unitSeesClose r x (s.modLane r.lane restartTimer) = (unitSeesClose r x s).modLane r.lane restartTimer := by
  rcases unbound_or_bound s x with h | ⟨u, b, hu, hb⟩
  · rw [unitSeesClose_of_unbound r h, unitSeesClose_of_unbound (s := s.modLane _ _) r h]
  · rw [unitSeesClose_of_bound r hu hb, unitSeesClose_of_bound (s := s.modLane _ _) r hu hb, seenClosed, seenClosed,
      ← evalPaused_restartTimer, ← modSide_restartTimer]
    rfl

theorem closeInput_restartTimer (r : SideRef) (s : State) :
    closeInput r (s.modLane r.lane restartTimer) = (closeInput r s).modLane r.lane restartTimer := by
  have hside : (s.modLane r.lane restartTimer).side? r = s.side? r := side?_modLane s restartTimer_list r
  cases hx : s.side? r with
  | none => rw [closeInput, closeInput, hside, hx]
  | some x =>
    cases hclosed : x.inputClosed with
    | true => rw [closeInput_of_closed hx hclosed, closeInput_of_closed (hside.trans hx) hclosed]
    | false =>
      rw [closeInput_of_open hx hclosed, closeInput_of_open (hside.trans hx) hclosed, modSide_restartTimer,
        unitSeesClose_restartTimer]

theorem closeSide_restartTimer (l : Fin 16) (s : State) :
    closeSide l (s.modLane l restartTimer) = (closeSide l s).modLane l restartTimer := by
  have hlane : (s.modLane l restartTimer).lane l = restartTimer (s.lane l) := State.lane_modLane_self ..
  have hopened (c : Lane) : toOpened (restartTimer c) = restartTimer (toOpened c) := by unfold restartTimer toOpened; split <;> rfl
  cases hactive : (s.lane l).active with
  | none => rw [closeSide, closeSide, hlane, restartTimer_active, hactive]
  | some f =>
    have hactive' : ((s.modLane l restartTimer).lane l).active = some f := by rw [hlane, restartTimer_active, hactive]
    rw [closeSide_of_active hactive, closeSide_of_active hactive', hlane, restartTimer_seq,
      modSide_restartTimer s ⟨l, (s.lane l).seq, f⟩, closeInput_restartTimer ⟨l, (s.lane l).seq, f⟩]
    simp only [State.modLane_modLane, hopened]

/-! ### No operation of a lane reads the counters of the Intake Port -/

section
variable (p : PortCounters) (s : State)

theorem evalPaused_withIntakePort (l : Fin 16) : evalPaused l (s.withIntakePort p) = (evalPaused l s).withIntakePort p := by
  rw [evalPaused_eq, evalPaused_eq, apply_ite (fun t : State => t.withIntakePort p)]
  rfl

theorem returnPages_withIntakePort (n : Nat) : returnPages n (s.withIntakePort p) = (returnPages n s).withIntakePort p := by
  rw [returnPages, returnPages, apply_ite (fun t : State => t.withIntakePort p), setFree, setFree, evalStop_eq_blocks,
    evalStop_eq_blocks]
  rfl

theorem popWaiting_withIntakePort : popWaiting (s.withIntakePort p) = (popWaiting s).withIntakePort p := by
  unfold popWaiting
  rw [State.withIntakePort_reduction]
  cases s.reduction.reworkWait with
  | nil => rfl
  | cons r rest => rfl

theorem bindSide_withIntakePort (u : Fin 4) (r : SideRef) :
    bindSide u r (s.withIntakePort p) = (bindSide u r s).withIntakePort p := by
  have hside : (s.withIntakePort p).side? r = s.side? r := rfl
  unfold bindSide
  rw [hside]
  cases s.side? r with
  | none => rfl
  | some x =>
    dsimp only
    cases x.snapshot with
    | none => rfl
    | some q =>
      dsimp only
      split
      · rw [← evalPaused_withIntakePort]; rfl
      · rfl

theorem grant_withIntakePort : grant (s.withIntakePort p) = (grant s).withIntakePort p := by
  have hfree : freeUnit? (s.withIntakePort p) = freeUnit? s := rfl
  have hwaiting : waitingSide? (s.withIntakePort p) = waitingSide? s := rfl
  unfold grant
  rw [hfree, hwaiting]
  cases freeUnit? s with
  | none => rfl
  | some u =>
    cases waitingSide? s with
    | none => rfl
    | some r =>
      dsimp only
      rw [popWaiting_withIntakePort, bindSide_withIntakePort]

theorem grantUpTo_withIntakePort (n : Nat) : grantUpTo n (s.withIntakePort p) = (grantUpTo n s).withIntakePort p := by
  induction n generalizing s with
  | zero => rfl
  | succ n ih => rw [grantUpTo, grantUpTo, grant_withIntakePort, ih]

theorem grantAll_withIntakePort : grantAll (s.withIntakePort p) = (grantAll s).withIntakePort p :=
  grantUpTo_withIntakePort p s (waitingCount s)

theorem replaceItem_withIntakePort (l : Fin 16) (old new : Item) :
    replaceItem l old new (s.withIntakePort p) = (replaceItem l old new s).withIntakePort p :=
  returnPages_withIntakePort p (s.modItem l old.seq fun _ => new) _

theorem joinReworkIf_withIntakePort (n : Option Condition) (r : SideRef) :
    joinReworkIf n r (s.withIntakePort p) = (joinReworkIf n r s).withIntakePort p := by
  cases n <;> rfl

theorem evaluate_withIntakePort (l : Fin 16) (q : Seq) :
    evaluate l q (s.withIntakePort p) = (evaluate l q s).withIntakePort p := by
  have hitem : (s.withIntakePort p).item? l q = s.item? l q := rfl
  unfold evaluate
  rw [hitem]
  cases s.item? l q with
  | none => rfl
  | some i =>
    dsimp only [State.withIntakePort_disposition, State.withIntakePort_admission]
    unfold dispatch
    split
    · exact replaceItem_withIntakePort p (countFault s) ..
    · exact replaceItem_withIntakePort p s ..
    · exact replaceItem_withIntakePort p (countExhausted s) ..
    · rw [← grantAll_withIntakePort, ← joinReworkIf_withIntakePort, ← joinReworkIf_withIntakePort, ← replaceItem_withIntakePort]
      rfl
    · exact replaceItem_withIntakePort p s ..

theorem checkComplete_withIntakePort (l : Fin 16) (q : Seq) :
    checkComplete l q (s.withIntakePort p) = (checkComplete l q s).withIntakePort p := by
  have hitem : (s.withIntakePort p).item? l q = s.item? l q := rfl
  unfold checkComplete
  rw [hitem]
  cases s.item? l q with
  | none => rfl
  | some i =>
    dsimp only
    rw [apply_ite (fun t : State => t.withIntakePort p), completeItem, completeItem, evaluate_withIntakePort,
      apply_ite (fun t : State => t.withIntakePort p)]
    rfl

end

theorem countIntakeIn_checkComplete (l : Fin 16) (q : Seq) (s : State) :
    countIntakeIn (checkComplete l q s) = checkComplete l q (countIntakeIn s) := by
  have hport : (checkComplete l q s).intakePort = s.intakePort := checkComplete_intakePort ..
  rw [countIntakeIn, hport]
  exact (checkComplete_withIntakePort _ s l q).symm

/-! ### What closes before an ITEM_OPEN is admitted or refused -/

/-- No event of a side and no judgement changes the sequences of a lane's list. -/
theorem seqs_kept (k : Fin 16) (qs : List Seq) : ItemKept fun _ _ s => (s.lane k).seqs = qs where
  lane _ hstamps := (State.seqs_setLane (Lane.seqs_eq_of_stamps_eq hstamps) k).trans
  reduction _ := id
  rebind _ _ := id
  granted _ := id
  owing := id
  flowFrame _ := id
  free _ h := by simpa using h
  items _ hmove := (State.seqs_setLane hmove.seqs k).trans
  refusal _ h := by simpa using h
  fault := id
  exhausted := id
  service _ := id

theorem lane_closeSide_ne {l k : Fin 16} (h : l ≠ k) (s : State) : (closeSide l s).lane k = s.lane k := by
  cases hactive : (s.lane l).active with
  | none => rw [closeSide, hactive]
  | some f =>
    rw [closeSide_of_active hactive, State.lane_modLane_ne _ _ h]
    generalize hr : (⟨l, (s.lane l).seq, f⟩ : SideRef) = r
    have hk : r.lane ≠ k := by rw [← hr]; exact h
    rw [← State.lane_modSide_ne s shortMarked hk]
    generalize s.modSide r shortMarked = v
    cases hx : v.side? r with
    | none => rw [closeInput, hx]
    | some x =>
      cases hclosed : x.inputClosed with
      | true => rw [closeInput_of_closed hx hclosed]
      | false =>
        rw [closeInput_of_open hx hclosed, (unitSeesClose_frame r x _).2.2 k hk]
        exact State.lane_modSide_ne _ _ hk

theorem closeItem_context_self (l : Fin 16) (s : State) :
    ((closeItem l s).lane l).context = (idleLane (s.lane l)).context := by
  rw [closeItem_eq rfl, checkComplete_context, itemClosed, State.lane_modLane_self, State.modItem, State.lane_modLane_self]
  rfl

theorem closeItem_context_ne {l k : Fin 16} (h : l ≠ k) (s : State) :
    ((closeItem l s).lane k).context = (s.lane k).context := by
  rw [closeItem_eq rfl, checkComplete_context, lane_itemClosed_ne s _ h]

theorem closeAll_state (l : Fin 16) (s : State) : ((closeAll l s).lane l).state = .idle := by
  have hclosed (v : State) : ((closeItem l v).lane l).state = .idle := congrArg LaneContext.state (closeItem_context_self l v)
  unfold closeAll
  split
  next h => exact h
  next => rw [endDrain, State.lane_modLane_self]; rfl
  next => exact hclosed _
  next => exact hclosed _

theorem closeAll_context_ne {l k : Fin 16} (h : l ≠ k) (s : State) : ((closeAll l s).lane k).context = (s.lane k).context := by
  unfold closeAll
  split
  · rfl
  · rw [endDrain, State.lane_modLane_ne _ _ h]
  · exact closeItem_context_ne h s
  · rw [closeItem_context_ne h, lane_closeSide_ne h]

theorem closeAll_notReceiving {l : Fin 16} {s : State} (h : (s.lane l).state = .opened ∨ (s.lane l).state = .side) :
    NotReceiving (s.lane l).seq ((closeAll l s).lane l) := by
  rcases h with h | h
  · rw [closeAll_of_opened h]
    exact .closeItem l s
  · rw [closeAll_of_side h, ← (closeSide_timer l s).1]
    exact .closeItem l _

/-! ### The lane after admission or refusal -/

theorem lane_admitItem_self (l : Fin 16) (i : Item) (s : State) :
    ∃ paused, (admitItem l i s).lane l = { admittedLane i (s.lane l) with paused := paused } :=
  ⟨_, (lane_evalPaused_self ..).trans (by rw [State.lane_modLane_self])⟩

theorem lane_admitItem_ne (s : State) {l k : Fin 16} (i : Item) (h : l ≠ k) : (admitItem l i s).lane k = s.lane k :=
  (lane_evalPaused_ne _ h).trans (State.lane_modLane_ne _ _ h)

theorem lane_refuseItem_self (l : Fin 16) (q : Seq) (reason : Byte) (s : State) :
    (refuseItem l q reason s).lane l = refusedLane q (s.lane l) := (lane_queueRefusal ..).trans (State.lane_modLane_self ..)

theorem lane_refuseItem_ne (s : State) {l k : Fin 16} (q : Seq) (reason : Byte) (h : l ≠ k) :
    (refuseItem l q reason s).lane k = s.lane k := (lane_queueRefusal ..).trans (State.lane_modLane_ne _ _ h)

theorem NotReceiving.append {q : Seq} {c e : Lane} {i : Item} (hlist : e.list = c.list ++ [i]) (hne : i.seq ≠ q)
    (h : NotReceiving q c) : NotReceiving q e := by
  intro j hj
  rw [Lane.item?, hlist, List.find?_append, List.find?_singleton, beq_eq_false_iff_ne.mpr hne] at hj
  exact h j (Option.or_none.symm.trans hj)

/-- What an ITEM_OPEN leaves of its lane and of the others, from the state in which its lane is IDLE: the outcome of R80. -/
structure Opened (l : Fin 16) (q : Seq) (w t : State) : Prop where
  seq : (t.lane l).seq = q
  active : (t.lane l).active = none
  outcome :
    (q ∉ (w.lane l).seqs ∧ (t.lane l).state = .opened ∧ (t.lane l).tally.1 = bump (w.lane l).tally.1
        ∧ (t.lane l).seqs = (w.lane l).seqs ++ [q])
      ∨ ((t.lane l).state = .drain ∧ (t.lane l).tally.2.1 = bump (w.lane l).tally.2.1 ∧ (t.lane l).seqs = (w.lane l).seqs)
  notReceiving : ∀ p, (q ≠ p ∨ p ∈ (w.lane l).seqs) → NotReceiving p (w.lane l) → NotReceiving p (t.lane l)
  others : ∀ k, l ≠ k → (t.lane k).context = (w.lane k).context

theorem Opened.of_admission (l : Fin 16) (q : Seq) (m : BitVec 16) (c n : Byte) (d : BitVec 32) (w : State) :
    Opened l q w (admission l q m c n d w) := by
  cases hcheck : checkAdmission w l q m c n with
  | admitted p fb =>
    have hnew : q ∉ (w.lane l).seqs := (room_of_admitted hcheck).2
    rw [admission_of_admitted hcheck]
    generalize hi : freshItem q m c n d p (w.admission.profiles[p.val]).mask fb = i
    obtain ⟨paused, hlane⟩ := lane_admitItem_self l i w
    have hseq : i.seq = q := by rw [← hi]; rfl
    have hlist : ((admitItem l i w).lane l).list = (w.lane l).list ++ [i] := by rw [hlane]; rfl
    refine ⟨by rw [hlane]; exact hseq, by rw [hlane]; rfl, .inl ⟨hnew, by rw [hlane]; rfl, by rw [hlane]; rfl, ?_⟩,
      fun r hr => NotReceiving.append hlist ?_, fun k hk => by rw [lane_admitItem_ne w i hk]⟩
    · rw [Lane.seqs, hlist, List.map_append, ← hseq]; rfl
    · rw [hseq]
      rintro rfl
      exact hnew (hr.resolve_left fun h => h rfl)
  | refused reason =>
    rw [admission_of_refused hcheck]
    have hlane := lane_refuseItem_self l q reason w
    exact ⟨by rw [hlane]; rfl, by rw [hlane]; rfl, .inr ⟨by rw [hlane]; rfl, by rw [hlane]; rfl, by rw [hlane]; rfl⟩,
      fun r _ h => by rw [hlane]; exact h, fun k hk => by rw [lane_refuseItem_ne w q reason hk]⟩

theorem Opened.startBeside {l : Fin 16} {q : Seq} {w t : State} (h : Opened l q w t) : Opened l q w (Machine.startBeside l t) := by
  have hcontext := startBeside_context l t
  obtain ⟨hseq, hactive, houtcome, hnot, hothers⟩ := h
  refine ⟨?_, ?_, ?_, fun p hp hw => (hnot p hp hw).startBeside l, fun k hk => (hcontext k).trans (hothers k hk)⟩
  · exact (congrArg LaneContext.seq (hcontext l)).trans hseq
  · exact (congrArg LaneContext.active (hcontext l)).trans hactive
  · have hstate : ((Machine.startBeside l t).lane l).state = (t.lane l).state := congrArg LaneContext.state (hcontext l)
    rw [hstate, tally_startBeside, startBeside_seqs]
    exact houtcome

theorem Opened.of_exec {s : State} (l : Fin 16) {q : Seq} (m : BitVec 16) (c n : Byte) (d : BitVec 32) (htaking : s.taking = true)
    (hq : q ≠ 0) :
    ∃ t, exec (.itemOpen l q m c n d) s = .next t ∧ Opened l q (closeAll l (countIntakeIn s)) t :=
  ⟨_, by rw [exec_itemOpen htaking, takeItemOpen_of_ne_zero hq], (Opened.of_admission l q m c n d _).startBeside⟩

theorem exec_itemOpen_congr {s s' : State} {l : Fin 16} {q : Seq} (m : BitVec 16) (c n : Byte) (d : BitVec 32)
    (htaking : s.taking = true) (htaking' : s'.taking = true) (hq : q ≠ 0)
    (h : closeAll l (countIntakeIn s) = closeAll l (countIntakeIn s')) :
    exec (.itemOpen l q m c n d) s = exec (.itemOpen l q m c n d) s' := by
  rw [exec_itemOpen htaking, exec_itemOpen htaking', takeItemOpen_of_ne_zero hq, takeItemOpen_of_ne_zero hq, h]

/-- An ITEM_OPEN starts no record before the port's start at the end of its event. -/
theorem takeItemOpen_startsNone (l : Fin 16) (q : Seq) (m : BitVec 16) (c n : Byte) (d : BitVec 32) (s : State) :
    StartsNone (s.lane l) ((takeItemOpen l q m c n d s).lane l) := by
  have hclosed : StartsNone (s.lane l) ((closeAll l s).lane l) :=
    (startsNone_kept (s.lane l) l).closeAll (d := 0) (ow := false) l (.refl _)
  generalize hw : closeAll l s = w at hclosed
  by_cases hq : q = 0
  · rw [takeItemOpen, if_pos hq]
    exact (startsNone_kept (s.lane l) l).strayOn (d := 0) (ow := false) l (.refl _)
  · rw [takeItemOpen_of_ne_zero hq, hw]
    refine hclosed.trans ?_
    cases hcheck : checkAdmission w l q m c n with
    | admitted p fb =>
      rw [admission_of_admitted hcheck]
      generalize hi : freshItem q m c n d p (w.admission.profiles[p.val]).mask fb = i
      obtain ⟨paused, hlane⟩ := lane_admitItem_self l i w
      have hstamps : ((admitItem l i w).lane l).stamps = (w.lane l).stamps ++ [(q, .receiving)] := by
        rw [hlane, ← hi, Lane.stamps, Lane.stamps]
        exact List.map_append
      intro r hr
      simpa [hstamps] using hr
    | refused reason =>
      rw [admission_of_refused hcheck, lane_refuseItem_self]
      exact .refl _

/-- An ITEM_OPEN neither takes nor answers a request. -/
theorem takeItemOpen_nextRequest (l : Fin 16) (q : Seq) (m : BitVec 16) (c n : Byte) (d : BitVec 32) (s : State) :
    nextRequest? (takeItemOpen l q m c n d s) = nextRequest? s := by
  have hkept := nextRequest_kept (nextRequest? s)
  have hclosed : nextRequest? (closeAll l s) = nextRequest? s := hkept.closeAll (d := 0) (ow := false) l rfl
  by_cases hq : q = 0
  · rw [takeItemOpen, if_pos hq]; rfl
  · rw [takeItemOpen_of_ne_zero hq]
    generalize closeAll l s = w at hclosed
    cases hcheck : checkAdmission w l q m c n with
    | admitted p fb =>
      rw [admission_of_admitted hcheck]
      exact hkept.evalPaused (d := 0) (ow := false) l (s := w.modLane l _) hclosed
    | refused reason =>
      rw [admission_of_refused hcheck]
      exact hkept.refuseItem (d := 0) (ow := false) l q reason hclosed

/-- Settles O24: the closes come first and leave the lane IDLE, so the outcome is that of an IDLE lane. -/
theorem itemOpenClosesWhatWasOpen : Obligations.ItemOpenClosesWhatWasOpen := by
  refine ⟨fun s l q m c n d htaking hq => ?_, fun s l q o m c n d htaking hq ho => ⟨fun hstate hzero => ?_, fun hstate => ?_,
    fun hstate => ?_⟩, fun s t l q m c n d hreset hexec => ?_⟩
  · obtain ⟨t, ht, hseq, hactive, houtcome, hnot, hothers⟩ := Opened.of_exec l m c n d htaking hq
    have hseqs : ((closeAll l (countIntakeIn s)).lane l).seqs = (s.lane l).seqs :=
      (seqs_kept l _).closeAll (d := 0) (ow := false) l rfl
    rw [tally_closeAll, hseqs] at houtcome
    refine ⟨t, ht, hseq, hactive, houtcome.imp (fun h => h.2) id, fun hstate hp j hj => ?_, fun hstate heq hitem => ?_,
      fun k hk => (hothers k hk.symm).trans (closeAll_context_ne (s := countIntakeIn s) hk.symm)⟩
    · refine hnot (s.lane l).seq ?_ (closeAll_notReceiving (s := countIntakeIn s) hstate) j hj
      rw [hseqs]
      exact hp.imp_right Lane.item?_isSome_iff.mp
    · rcases houtcome with ⟨hnew, -⟩ | ⟨hdrain, -⟩
      · exact absurd (Lane.item?_isSome_iff.mp hitem) (heq ▸ hnew)
      · exact hdrain
  · have hside : ((matched l s).lane l).state = .side := by simpa using hstate
    refine ⟨closeSide l (matched l s), exec_sideClose_of_side htaking hstate ho hzero,
      exec_itemOpen_congr m c n d htaking ((closeSide_taking ..).trans htaking) hq ?_⟩
    rw [countIntakeIn_withIntakePort (closeSide_intakePort l (matched l s)), closeAll_closeSide hside, matched,
      closeSide_restartTimer, closeItem_restartTimer, closeAll_of_side (s := countIntakeIn s) hstate]
  · have hclosed : (checkComplete l o ((s.modItem l o fun i => { i with
          raised := if i.sides.length < i.sidesDeclared then i.raised ||| 0x2000 else i.raised
          state := .reducing }).modLane l fun k => { k with
        state := .idle, seq := 0, active := none, stallRunning := false, stallRemaining := 0 })) =
        checkComplete l o (itemClosed l o s) := by
      rw [itemClosed, funext closedItem_eq]; rfl
    rw [hclosed]
    refine exec_itemOpen_congr m c n d htaking ((checkComplete_taking ..).trans htaking) hq ?_
    rw [countIntakeIn_checkComplete, closeAll_of_opened (s := countIntakeIn s) hstate, closeItem_eq (s := countIntakeIn s) ho,
      closeAll_of_idle]
    · rfl
    · exact congrArg LaneContext.state ((congrArg (fun v : State => (v.lane l).context)
        (closeItem_eq (s := countIntakeIn s) ho).symm).trans (closeItem_context_self l (countIntakeIn s)))
  · refine exec_itemOpen_congr (s' := s.modLane l idleLane) m c n d htaking htaking hq ?_
    rw [closeAll_of_drain (s := countIntakeIn s) hstate, closeAll_of_idle]
    · rfl
    · exact congrArg Lane.state (State.lane_modLane_self (countIntakeIn s) l idleLane)
  · exact startsNoneOf_of_frame rfl (fun htaking => exec_itemOpen htaking l q m c n d)
      (takeItemOpen_startsNone l q m c n d (countIntakeIn s)) (takeItemOpen_nextRequest l q m c n d (countIntakeIn s)) hreset hexec

end Sys2Proof.Machine
end

