-- ==== Sys2Proof/Proofs/Stalls.lean ====
section
/-! The expiry of a lane's stall timer, and the millisecond in which timers count down (R90 to R92). -/

namespace Sys2Proof.Machine

/-! ### The expiry as a truncation and a close of the item -/

theorem canExpire_iff (c : Lane) :
    canExpire c = true ↔ c.stallRunning = true ∧ c.stallRemaining = 0 ∧ (c.state = .opened ∨ c.state = .side) := by
  simp [canExpire, and_assoc]

theorem exec_stallExpiry_of_due {s : State} {l : Fin 16} (h : canExpire (s.lane l) = true) :
    exec (.stallExpiry l) s = .next (startBeside l (expireStall l s)) := congrArg Host.Outcome.next (if_pos h)

theorem exec_stallExpiry_of_not_due {s : State} {l : Fin 16} (h : canExpire (s.lane l) = false) :
    exec (.stallExpiry l) s = .next s := congrArg Host.Outcome.next (if_neg (by simp [h]))

/-- The truncation of the active side of a lane, if its input is open (R91). -/
def stallTruncated (l : Fin 16) (s : State) : State :=
  match (s.lane l).active with
  | none => s
  | some f =>
    match s.side? ⟨l, (s.lane l).seq, f⟩ with
    | none => s
    | some x => if x.inputClosed then s else truncateSide ⟨l, (s.lane l).seq, f⟩ .stall condInputStall s

theorem stallTruncated_of_no_open_side {s : State} {l : Fin 16}
    (h : ∀ f x, (s.lane l).active = some f → s.side? ⟨l, (s.lane l).seq, f⟩ = some x → x.inputClosed = true) :
    stallTruncated l s = s := by
  unfold stallTruncated
  split
  · rfl
  next f hactive =>
    split
    · rfl
    next x hx => exact if_pos (h f x hactive hx)

theorem stallTruncated_of_open_side {s : State} {l : Fin 16} {f : Face} {x : Side} (hactive : (s.lane l).active = some f)
    (hx : s.side? ⟨l, (s.lane l).seq, f⟩ = some x) (hopen : x.inputClosed = false) :
    stallTruncated l s = truncateSide ⟨l, (s.lane l).seq, f⟩ .stall condInputStall s := by
  rw [stallTruncated, hactive]
  dsimp only
  rw [hx]
  exact if_neg (by rw [hopen]; exact Bool.false_ne_true)

/-- A lane has an active side whose input is open, or the expiry truncates none. -/
theorem open_side_or_not (l : Fin 16) (s : State) :
    (∀ f x, (s.lane l).active = some f → s.side? ⟨l, (s.lane l).seq, f⟩ = some x → x.inputClosed = true)
      ∨ ∃ f x, (s.lane l).active = some f ∧ s.side? ⟨l, (s.lane l).seq, f⟩ = some x ∧ x.inputClosed = false := by
  by_cases h : ∃ f x, (s.lane l).active = some f ∧ s.side? ⟨l, (s.lane l).seq, f⟩ = some x ∧ x.inputClosed = false
  · exact .inr h
  · refine .inl fun f x hactive hx => ?_
    by_contra hopen
    exact h ⟨f, x, hactive, hx, Bool.eq_false_iff.mpr hopen⟩

/-- What the truncation leaves: the contexts, the counters and the other lanes. -/
theorem stallTruncated_frame (l : Fin 16) (s : State) :
    (∀ k, ((stallTruncated l s).lane k).context = (s.lane k).context)
      ∧ (∀ k, ((stallTruncated l s).lane k).counters = (s.lane k).counters) := by
  rcases open_side_or_not l s with h | ⟨f, x, hactive, hx, hopen⟩
  · rw [stallTruncated_of_no_open_side h]
    exact ⟨fun _ => rfl, fun _ => rfl⟩
  · rw [stallTruncated_of_open_side hactive hx hopen]
    exact ⟨truncateSide_context _ _ _ s, (truncateSide_frame hx hopen .stall condInputStall).2.1⟩

/-- The active side of a lane after the truncation: its input closed, its rows as they were. -/
theorem stallTruncated_side {s : State} {l : Fin 16} {f : Face} {x : Side} (hactive : (s.lane l).active = some f)
    (hx : s.side? ⟨l, (s.lane l).seq, f⟩ = some x) :
    ∃ y, (stallTruncated l s).side? ⟨l, (s.lane l).seq, f⟩ = some y ∧ y.inputClosed = true ∧ y.rowsStored = x.rowsStored
      ∧ y.truncation = if x.inputClosed = true then x.truncation else some .stall := by
  cases hclosed : x.inputClosed with
  | true =>
    rw [stallTruncated_of_no_open_side fun g z hg hz => ?_]
    · exact ⟨x, hx, hclosed, rfl, rfl⟩
    · obtain rfl : f = g := Option.some.inj (hactive.symm.trans hg)
      obtain rfl : x = z := Option.some.inj (hx.symm.trans hz)
      exact hclosed
  | false =>
    obtain ⟨⟨y, hy, hfields⟩, -⟩ := truncateSide_frame hx hclosed .stall condInputStall
    rw [stallTruncated_of_open_side hactive hx hclosed]
    exact ⟨y, hy, congrArg (fun p => p.1) hfields, congrArg (fun p => p.2.2.2.1) hfields, congrArg (fun p => p.2.1) hfields⟩

theorem stallSide_eq (l : Fin 16) (s : State) :
    stallSide l s = stallTruncated l s ∨ stallSide l s = (stallTruncated l s).modLane l toOpened := by
  unfold stallSide stallTruncated
  cases (s.lane l).active with
  | none => exact .inl rfl
  | some f => exact .inr rfl

theorem itemClosed_toOpened (l : Fin 16) (q : Seq) (s : State) : itemClosed l q (s.modLane l toOpened) = itemClosed l q s := by
  simp only [itemClosed, State.modItem, State.modLane_modLane]
  rfl

/-- The lane after its stall: the sequence recorded, the stall counted (R91). -/
def stalledLane (q : Seq) (c : Lane) : Lane :=
  { c with lastTimedOut := some q, counters := { c.counters with stalls := bump c.counters.stalls } }

theorem stallSide_seq (l : Fin 16) (s : State) : ((stallSide l s).lane l).seq = (s.lane l).seq := by
  have hseq : ((stallTruncated l s).lane l).seq = (s.lane l).seq :=
    congrArg LaneContext.seq ((stallTruncated_frame l s).1 l)
  rcases stallSide_eq l s with e | e <;> rw [e]
  · exact hseq
  · rw [State.lane_modLane_self]; exact hseq

theorem closeItem_stallSide (l : Fin 16) (s : State) :
    closeItem l (stallSide l s) = checkComplete l (s.lane l).seq (itemClosed l (s.lane l).seq (stallTruncated l s)) := by
  rw [closeItem_eq (stallSide_seq l s)]
  rcases stallSide_eq l s with e | e <;> rw [e]
  rw [itemClosed_toOpened]

theorem expireStall_eq (l : Fin 16) (s : State) :
    expireStall l s = (checkComplete l (s.lane l).seq (itemClosed l (s.lane l).seq (stallTruncated l s))).modLane l
      (stalledLane (s.lane l).seq) := by
  rw [expireStall, closeItem_stallSide]
  rfl

/-! ### What the expiry leaves -/

/-- A change of an item record beside its sides. -/
theorem side?_modItem_of_sides {f : Item → Item} (hseq : ∀ i, (f i).seq = i.seq) (hsides : ∀ i face, (f i).side face = i.side face)
    (s : State) (l : Fin 16) (q : Seq) (r : SideRef) : (s.modItem l q f).side? r = s.side? r := by
  rw [State.side?, State.item?_modItem s l r.lane q r.seq fun i hi => (hseq i).trans hi, State.side?]
  split
  · cases s.item? r.lane r.seq with
    | none => rfl
    | some i => exact hsides i r.face
  · rfl

theorem side?_itemClosed (l : Fin 16) (q : Seq) (s : State) (r : SideRef) : (itemClosed l q s).side? r = s.side? r := by
  rw [itemClosed, side?_modLane (f := idleLane) _ fun _ => rfl]
  exact side?_modItem_of_sides (f := closedItem) (fun _ => rfl) (fun _ face => by cases face <;> rfl) s l q r

theorem side?_startBeside (l : Fin 16) (s : State) (r : SideRef) : (startBeside l s).side? r = s.side? r := by
  rcases startBeside_lanes l s with e | ⟨k, q, e⟩
  · rw [State.side?, State.item?, lane_congr e]; rfl
  · rw [State.side?, State.item?, lane_congr e]
    exact side?_modItem_of_sides (f := fun j => { j with state := .emitting }) (fun _ => rfl)
      (fun _ face => by cases face <;> rfl) s k q r

theorem expireStall_context (l k : Fin 16) (s : State) :
    ((expireStall l s).lane k).context =
      if l = k then { (s.lane l).context with
        state := .idle, seq := 0, active := none, stallRunning := false, stallRemaining := 0
        lastTimedOut := some (s.lane l).seq }
      else (s.lane k).context := by
  have htruncated := (stallTruncated_frame l s).1 k
  rw [expireStall_eq, State.lane_modLane]
  split
  next h =>
    subst h
    have hcontext (c : Lane) (q : Seq) : (stalledLane q c).context = { c.context with lastTimedOut := some q } := rfl
    have hidle (c : Lane) : (idleLane c).context = { c.context with
        state := .idle, seq := 0, active := none, stallRunning := false, stallRemaining := 0 } := rfl
    have hitem (c : Lane) (q : Seq) (f : Item → Item) : (c.modItem q f).context = c.context := rfl
    rw [hcontext, checkComplete_context, itemClosed, State.lane_modLane_self, hidle, State.modItem, State.lane_modLane_self,
      hitem, htruncated]
  next h => rw [checkComplete_context, lane_itemClosed_ne _ _ h, htruncated]

theorem expireStall_tally (l : Fin 16) (s : State) :
    ((expireStall l s).lane l).counters.stalls = bump (s.lane l).counters.stalls := by
  have htally : ((checkComplete l (s.lane l).seq (itemClosed l (s.lane l).seq (stallTruncated l s))).lane l).tally
      = (s.lane l).tally := by
    rw [tally_checkComplete, tally_itemClosed]
    exact congrArg LaneCounters.tally ((stallTruncated_frame l s).2 l)
  rw [expireStall_eq, State.lane_modLane_self]
  exact congrArg (fun k : Counter × Counter × Counter => bump k.2.2) htally

theorem expireStall_lasting (l : Fin 16) (s : State) : LastingKept (stallTruncated l s) (startBeside l (expireStall l s)) := by
  have hclosed : LastingKept (stallTruncated l s) (itemClosed l (s.lane l).seq (stallTruncated l s)) := fun r => by
    rw [side?_itemClosed]
  rw [expireStall_eq]
  refine (hclosed.trans (.checkComplete l (s.lane l).seq _)).trans (LastingKept.trans (fun r => ?_) (.startBeside l _))
  rw [side?_modLane (f := stalledLane _) _ fun _ => rfl]

theorem expireStall_notReceiving (l : Fin 16) (s : State) : NotReceiving (s.lane l).seq ((expireStall l s).lane l) := by
  have hclosed := NotReceiving.closeItem l (stallSide l s)
  rw [stallSide_seq] at hclosed
  rw [expireStall, State.lane_modLane_self]
  exact hclosed

/-! ### Frames that prevent the expiry (R92) -/

theorem takeSideOpen_timer {l : Fin 16} (face : Byte) (res w y : Nat) (s : State) :
    ((takeSideOpen l face res w y s).lane l).stallRemaining = (s.lane l).stallRemaining := by
  have hput (q : Seq) (f : Face) (x : Side) (v : State) : ((putSide l q f x v).lane l).stallRemaining = (v.lane l).stallRemaining := by
    rw [putSide, State.lane_modLane_self, State.modItem, State.lane_modLane_self]; rfl
  have hcount (f : LaneCounters → LaneCounters) (v : State) :
      ((v.countLane l f).lane l).stallRemaining = (v.lane l).stallRemaining := by rw [lane_countLane_self]
  have hgrant (r : SideRef) (n : Nat) (v : State) :
      ((grantAll (joinOpen r (takePages n v))).lane l).stallRemaining = (v.lane l).stallRemaining :=
    congrArg LaneContext.stallRemaining ((grantAll_context (joinOpen r (takePages n v)) l).trans (takePages_context n v l))
  have hopen (v : State) : ((openSide l face res w y v).lane l).stallRemaining = (v.lane l).stallRemaining := by
    unfold openSide
    split
    · split
      · unfold openRecord
        split
        · dsimp only
          split
          · rw [overrunOn, hcount, hput]
          · rw [hgrant, hput]
        · exact hput ..
      · exact hcount ..
    · exact hcount ..
    · exact hcount ..
  unfold takeSideOpen
  split
  · rfl
  · rfl
  · exact hopen s
  · rw [hopen, (closeSide_timer l s).2.2.2]

theorem takeSideData_timer {l : Fin 16} (first count : Nat) (rows : List Byte) (s : State) :
    ((takeSideData l first count rows s).lane l).stallRemaining = (s.lane l).stallRemaining := by
  unfold takeSideData
  split
  · rfl
  · rfl
  · rw [strayOn, lane_countLane_self]
  · split
    · rfl
    · split
      · rfl
      · exact congrArg LaneContext.stallRemaining (takeRows_context ..)

theorem takeSideClose_timer {l : Fin 16} (s : State) :
    ((takeSideClose l s).lane l).stallRemaining = (s.lane l).stallRemaining := by
  unfold takeSideClose
  split
  · rfl
  · rfl
  · rw [strayOn, lane_countLane_self]
  · exact (closeSide_timer l s).2.2.2

/-- A frame of the open item, with a stall setting, leaves a lane whose timer has not run out. -/
theorem not_due_of_frame {s t : State} {l : Fin 16} {q : Seq} {f : Instr} (htaking : s.taking = true)
    (hstate : (s.lane l).state = .opened ∨ (s.lane l).state = .side) (hseq : (s.lane l).seq = q) (hq : q ≠ 0)
    (hms : (s.lane l).stallMs ≠ 0)
    (hf : (∃ a r w h, f = .sideOpen l q a r w h) ∨ (∃ a b rows, f = .sideData l q a b rows ∧ rows.length ≤ 16380)
      ∨ f = .sideClose l q ∨ f = .itemClose l q) (ht : exec f s = .next t) : canExpire (t.lane l) = false := by
  have hrestarted : ((matched l s).lane l).stallRemaining ≠ 0 := by
    rw [lane_matched_self, restartTimer, if_neg hms]
    exact hms
  have hnot {v : State} (h : (v.lane l).stallRemaining = ((matched l s).lane l).stallRemaining) : canExpire (v.lane l) = false :=
    Bool.eq_false_iff.mpr fun hdue => hrestarted (h.symm.trans ((canExpire_iff _).mp hdue).2.1)
  have hmatch := withMatch_eq_matched hq hstate hseq
  rcases hf with ⟨a, r, w, h, rfl⟩ | ⟨a, b, rows, rfl, hrows⟩ | rfl | rfl
  · rw [exec_sideOpen htaking, hmatch] at ht
    obtain rfl := Host.Outcome.next.inj ht
    exact hnot (takeSideOpen_timer ..)
  · rw [exec_sideData htaking _ _ _ _ hrows, hmatch] at ht
    obtain rfl := Host.Outcome.next.inj ht
    exact hnot (takeSideData_timer ..)
  · rw [exec_sideClose htaking, hmatch] at ht
    obtain rfl := Host.Outcome.next.inj ht
    exact hnot (takeSideClose_timer _)
  · rw [exec_itemClose htaking, hmatch] at ht
    obtain rfl := Host.Outcome.next.inj ht
    have hidle : ((startBeside l (takeItemClose l (matched l s))).lane l).state = .idle :=
      (congrArg LaneContext.state (startBeside_context l _ l)).trans (closeAll_state l _)
    exact Bool.eq_false_iff.mpr fun hdue => by simpa [hidle] using ((canExpire_iff _).mp hdue).2.2

/-- The expiry of a lane whose active side is still open and was neither done nor not reduced: the item is not complete. -/
theorem expireStall_of_open_side {s : State} {l : Fin 16} {f : Face} {x : Side} (hactive : (s.lane l).active = some f)
    (hx : s.side? ⟨l, (s.lane l).seq, f⟩ = some x) (hopen : x.inputClosed = false) (hdone : x.state ≠ .done)
    (hreduced : x.state ≠ .notReduced) :
    expireStall l s = (itemClosed l (s.lane l).seq (stallTruncated l s)).modLane l (stalledLane (s.lane l).seq) := by
  obtain ⟨⟨y, hy, hfields⟩, -⟩ := truncateSide_frame hx hopen .stall condInputStall
  rw [← stallTruncated_of_open_side hactive hx hopen, ← side?_itemClosed l (s.lane l).seq] at hy
  obtain ⟨j, hj, hside⟩ := State.side?_eq_some.mp hy
  have hstate : y.state = x.state := by simpa using congrArg (fun p => p.2.2.2.2.2.2) hfields
  rw [expireStall_eq, checkComplete_of_not_complete hj (isComplete_eq_false (.inr ⟨f, y, hside, by rwa [hstate], by rwa [hstate]⟩))]

/-- Settles O34: the expiry truncates, closes, judges and records, in that order. -/
theorem stallExpiryClosesTheItem : Obligations.StallExpiryClosesTheItem := by
  refine ⟨fun s l hrunning hremaining hstate => ?_, fun s l h => exec_stallExpiry_of_not_due ?_,
    fun s t l q f htaking hstate hseq hq hms hf ht =>
      exec_stallExpiry_of_not_due (not_due_of_frame htaking hstate hseq hq hms hf ht),
    fun s l q v hrunning hremaining hstate hseq hv => ?_, fun s t l hreset hexec => ?_⟩
  · have hdue : canExpire (s.lane l) = true := (canExpire_iff _).mpr ⟨hrunning, hremaining, hstate⟩
    refine ⟨_, exec_stallExpiry_of_due hdue, ?_, ?_, fun f x _ hactive hx => ?_,
      fun f x _ hactive hx hopen hdone hreduced => ?_, (expireStall_notReceiving l s).startBeside l, fun k hk => ?_, ?_⟩
    · rw [startBeside_context, expireStall_context, if_pos rfl]
    · exact (congrArg (fun k : Counter × Counter × Counter => k.2.2) (tally_startBeside l _ l)).trans (expireStall_tally l s)
    · obtain ⟨y, hy, hclosed, hrows, hcause⟩ := stallTruncated_side hactive hx
      have hlasting := expireStall_lasting l s ⟨l, (s.lane l).seq, f⟩
      rw [hy] at hlasting
      obtain ⟨z, hz, hsame⟩ := Option.map_eq_some_iff.mp hlasting
      refine ⟨z, hz, ?_, ?_, ?_⟩
      · exact (congrArg (fun p => p.2.1) hsame).trans hclosed
      · exact (congrArg (fun p => p.2.2.1) hsame).trans hrows
      · exact (congrArg (fun p => p.2.2.2) hsame).trans hcause
    · have hside (r : SideRef) : (startBeside l (expireStall l s)).side? r = (stallTruncated l s).side? r := by
        rw [side?_startBeside, expireStall_of_open_side hactive hx hopen hdone hreduced,
          side?_modLane (f := stalledLane _) _ fun _ => rfl, side?_itemClosed]
      have hunit (u : Fin 4) : (startBeside l (expireStall l s)).unit u = (stallTruncated l s).unit u := by
        rw [State.unit, startBeside_reduction, expireStall_of_open_side hactive hx hopen hdone hreduced]
        rfl
      have htruncated := stallTruncated_of_open_side hactive hx hopen
      obtain ⟨⟨y, hy, hfields⟩, -⟩ := truncateSide_frame hx hopen .stall condInputStall
      have hraised : y.raised = x.raised ||| 0x0002 := congrArg (fun p => p.2.2.1) hfields
      have hstate' : y.state = x.state := congrArg (fun p => p.2.2.2.2.2.2) hfields
      refine ⟨y, by rw [hside, htruncated, hy], hraised, hstate', fun u b hu hb => ?_⟩
      rw [truncateSide_eq hx hopen, unitSeesClose_of_bound _ hu (by exact hb)] at hy htruncated
      refine ⟨?_, by rw [hunit, htruncated, unit_seenClosed]⟩
      rw [side?_seenClosed _ _ _ (State.side?_modSide_self _ hx)] at hy
      exact (congrArg Side.outHeight (Option.some.inj hy)).symm
    · rw [startBeside_context, expireStall_context, if_neg hk.symm]
    · simp
  · rw [Bool.eq_false_iff, ne_eq, canExpire_iff]
    rintro ⟨hrunning, hremaining, hstate⟩
    rcases h with h | h | h | h
    · simp [h] at hrunning
    · omega
    · simp [h] at hstate
    · simp [h] at hstate
  · subst hseq
    have htruncated : stallTruncated l s = v := by
      rcases hv with ⟨hnone, rfl⟩ | ⟨f, x, s₁, hactive, hx, hopen, rfl, hw⟩
      · exact stallTruncated_of_no_open_side hnone
      · rw [stallTruncated_of_open_side hactive hx hopen, truncateSide_eq hx hopen]
        exact unitSeesClose_eq hw
    rw [exec_stallExpiry_of_due ((canExpire_iff _).mpr ⟨hrunning, hremaining, hstate⟩), expireStall_eq, htruncated, itemClosed,
      funext closedItem_eq]
    rfl
  · cases hdue : canExpire (s.lane l) with
    | false =>
      obtain rfl := Host.Outcome.next.inj ((exec_stallExpiry_of_not_due hdue).symm.trans hexec)
      exact (startsNoneOf_iff l s s).mpr (.refl _)
    | true =>
      obtain rfl := Host.Outcome.next.inj ((exec_stallExpiry_of_due hdue).symm.trans hexec)
      exact (startsNoneOf_iff ..).mpr (startBeside_startsNone ((startsNone_kept _ l).expireStall (d := 0) (ow := false) l (.refl _))
        ((nextRequest_kept _).expireStall (d := 0) (ow := false) l rfl) hreset)

/-! ### One millisecond with no command waiting (logs 1 and 26) -/

theorem step_of_no_command {s : State} (h : s.pending = []) : step s = .next (countDown (expireAllDue s)) := by
  rw [step, h]; rfl

theorem expireDue_of_not_due {l : Fin 16} {s : State} (h : canExpire (s.lane l) = false) : expireDue l s = s :=
  if_neg (by simp [h])

theorem expireDue_of_due {l : Fin 16} {s : State} (h : canExpire (s.lane l) = true) :
    expireDue l s = startBeside l (expireStall l s) := if_pos h

theorem foldl_expireDue_of_not_due {ls : List (Fin 16)} {s : State} (h : ∀ k ∈ ls, canExpire (s.lane k) = false) :
    ls.foldl (fun t k => expireDue k t) s = s := by
  induction ls with
  | nil => rfl
  | cons k ls ih =>
    rw [List.foldl_cons, expireDue_of_not_due (h k List.mem_cons_self)]
    exact ih fun j hj => h j (List.mem_cons_of_mem k hj)

/-- The lanes below one and the lanes above it. -/
theorem allLanes_split (l : Fin 16) : ∃ as bs, allLanes = as ++ l :: bs := by
  exact List.append_of_mem (by revert l; decide)

/-- Settles O2: with one timer found run out, the expiries of the other lanes do nothing before and after its own. -/
theorem idleMillisecondCountsTimersDown : Obligations.IdleMillisecondCountsTimersDown := by
  have hleft {c : Lane} (h : c.stallRunning = true → 1 ≤ c.stallRemaining) : canExpire c = false :=
    Bool.eq_false_iff.mpr fun hdue => by
      obtain ⟨hrunning, hremaining, -⟩ := (canExpire_iff c).mp hdue
      have := h hrunning
      omega
  refine ⟨fun s hpending hnone => ?_, fun s l hpending hrunning hremaining hstate hothers => ?_⟩
  · have hexpired : expireAllDue s = s := foldl_expireDue_of_not_due fun k _ => hleft (hnone k)
    refine ⟨countDown s, by rw [step_of_no_command hpending, hexpired], rfl, fun l => ?_⟩
    rw [lane_countDown, tickLane]
  · have hdue : canExpire (s.lane l) = true := (canExpire_iff _).mpr ⟨hrunning, hremaining, hstate⟩
    refine ⟨startBeside l (expireStall l s), exec_stallExpiry_of_due hdue, ?_⟩
    have hcontext (k : Fin 16) := (startBeside_context l (expireStall l s) k).trans (expireStall_context l k s)
    have hself : canExpire ((startBeside l (expireStall l s)).lane l) = false := by
      have hstopped : ((startBeside l (expireStall l s)).lane l).stallRunning = false := by
        have := congrArg LaneContext.stallRunning (hcontext l)
        rwa [if_pos rfl] at this
      exact hleft (by simp [hstopped])
    have hafter (k : Fin 16) : canExpire ((startBeside l (expireStall l s)).lane k) = false := by
      by_cases hk : l = k
      · exact hk ▸ hself
      · have hsame := hcontext k
        rw [if_neg hk] at hsame
        have hleftK := hothers k (Ne.symm hk)
        exact hleft fun hrun => (hleftK ((congrArg LaneContext.stallRunning hsame).symm.trans hrun)).trans_eq
          (congrArg LaneContext.stallRemaining hsame).symm
    obtain ⟨as, bs, hsplit⟩ := allLanes_split l
    have hnodup : allLanes.Nodup := by decide
    have hbefore : ∀ k ∈ as, canExpire (s.lane k) = false := fun k hk => hleft (hothers k fun h => by
      rw [hsplit, List.nodup_append] at hnodup
      exact hnodup.2.2 k hk l List.mem_cons_self h)
    have hexpired : expireAllDue s = startBeside l (expireStall l s) := by
      rw [expireAllDue, hsplit, List.foldl_append, foldl_expireDue_of_not_due hbefore, List.foldl_cons, expireDue_of_due hdue]
      exact foldl_expireDue_of_not_due fun k _ => hafter k
    rw [step_of_no_command hpending, hexpired]
    rfl

end Sys2Proof.Machine
end

