-- ==== Sys2Proof/Proofs/SideOpens.lean ====
section
/-! SIDE_OPEN: a side record with its snapshot and reservation, one that is not reduced, or a stray frame (R81, R105 to R107). -/

namespace Sys2Proof.Machine

/-! ### The fields of a SIDE_OPEN (R81) -/

theorem faceOf_eq_some_iff {face : Byte} {f : Face} : faceOf face = some f ↔ (face = 1 ∧ f = .front) ∨ (face = 2 ∧ f = .back) := by
  unfold faceOf
  split
  next h => subst h; cases f <;> simp
  next h =>
    split
    next h' => subst h'; cases f <;> simp
    next h' => simp only [h, h', reduceCtorEq, false_and, or_self]

theorem sideFieldsGood_iff (res w h : Nat) :
    sideFieldsGood res w h = true ↔
      res ∈ [100, 120, 150, 200, 240, 300, 400] ∧ (64 ≤ w ∧ w ≤ 2560) ∧ (32 ≤ h ∧ h ≤ 1536) := by
  rw [sideFieldsGood, Bool.and_eq_true, Bool.and_eq_true, decide_eq_true_iff, decide_eq_true_iff, decide_eq_true_iff, and_assoc]
  rfl

theorem roomFor_iff (f : Face) (i : Item) : roomFor f i = true ↔ i.side f = none ∧ i.sides.length < i.sidesDeclared := by
  rw [roomFor, Bool.and_eq_true, Option.isNone_iff_eq_none, decide_eq_true_iff]
  rfl

/-- A SIDE_OPEN whose fields are good makes a record of its face. -/
theorem openSide_of_good {v : State} {l : Fin 16} {q : Seq} {face : Byte} {f : Face} {res w h : Nat} {i : Item}
    (hseq : (v.lane l).seq = q) (hi : v.item? l q = some i) (hface : faceOf face = some f)
    (hfields : sideFieldsGood res w h = true) (hroom : roomFor f i = true) :
    openSide l face res w h v =
      openRecord l q f (freshSide f res w h i.profileIndex) (v.admission.profiles[i.profileIndex.val]) v := by
  subst hseq
  rw [openSide, hface, hi]
  dsimp only
  rw [hfields, hroom, Lane.seq_of_item? hi]
  rfl

/-- Any other is stray. -/
theorem openSide_of_bad {v : State} {l : Fin 16} {q : Seq} {face : Byte} {res w h : Nat} {i : Item}
    (hseq : (v.lane l).seq = q) (hi : v.item? l q = some i)
    (hbad : ∀ f, faceOf face = some f → sideFieldsGood res w h = true → roomFor f i = false) :
    openSide l face res w h v = strayOn l v := by
  subst hseq
  unfold openSide
  rw [hi]
  split
  next f j hface hj =>
    obtain rfl : i = j := Option.some.inj hj
    have hboth : (sideFieldsGood res w h && roomFor f i) = false := by
      cases hfields : sideFieldsGood res w h with
      | false => rfl
      | true => exact hbad f hface hfields
    rw [hboth]
    rfl
  next => rfl
  next => rfl

/-! ### The record put in its item -/

section
variable {v : State} {l : Fin 16} {q : Seq} {i : Item} (f : Face) (x : Side)

theorem side?_putSide (hi : v.item? l q = some i) : (putSide l q f x v).side? ⟨l, q, f⟩ = some x := by
  have hitem : (putSide l q f x v).item? l q = some (i.setSide f (some x)) :=
    (State.item?_modLane (f := fun c => { c with state := .side, active := some f }) fun _ => rfl).trans
      (State.item?_modItem_self (f := fun j => j.setSide f (some x)) hi (Item.setSide_seq ..))
  exact State.side?_eq_some.mpr ⟨_, hitem, Item.side_setSide_self ..⟩

theorem lane_putSide_self : (putSide l q f x v).lane l =
    { (v.lane l).modItem q fun j => j.setSide f (some x) with state := .side, active := some f } := by
  rw [putSide, State.lane_modLane_self, State.modItem, State.lane_modLane_self]

theorem lane_putSide_ne {k : Fin 16} (h : l ≠ k) : (putSide l q f x v).lane k = v.lane k :=
  (State.lane_modLane_ne _ _ h).trans (State.lane_modItem_ne _ _ h)

end

/-- A record put in its item, and what the units then change: the rest of the state. -/
theorem putSide_frame {s : State} {l : Fin 16} {q : Seq} {i : Item} (hi : s.item? l q = some i) (f : Face) (x : Side) :
    (putSide l q f x (matched l s)).side? ⟨l, q, f⟩ = some x
      ∧ ((putSide l q f x (matched l s)).lane l).context =
          { (restartTimer (s.lane l)).context with state := .side, active := some f }
      ∧ ((putSide l q f x (matched l s)).lane l).counters = (s.lane l).counters
      ∧ ∀ k, k ≠ l → (putSide l q f x (matched l s)).lane k = s.lane k := by
  refine ⟨side?_putSide f x ((item?_matched ..).trans hi), ?_, ?_, fun k hk => ?_⟩
  · rw [lane_putSide_self, lane_matched_self]; rfl
  · rw [lane_putSide_self, lane_matched_self]; exact restartTimer_counters _
  · rw [lane_putSide_ne f x hk.symm, lane_matched_ne s hk.symm]

theorem exec_sideOpen_of_opened {s : State} {l : Fin 16} {q : Seq} (htaking : s.taking = true)
    (hstate : (s.lane l).state = .opened) (hseq : (s.lane l).seq = q) (hq : q ≠ 0) (face : Byte) (res w h : BitVec 16) :
    exec (.sideOpen l q face res w h) s = .next (openSide l face res.toNat w.toNat h.toNat (matched l s)) := by
  have hopened : ((matched l s).lane l).state = .opened := by simpa using hstate
  rw [exec_sideOpen htaking, withMatch_eq_matched hq (.inl hstate) hseq, takeSideOpen, hopened]

theorem exec_sideOpen_of_good {s : State} {l : Fin 16} {q : Seq} {face : Byte} {f : Face} {res w h : BitVec 16} {i : Item}
    {p : Profile} (htaking : s.taking = true) (hstate : (s.lane l).state = .opened) (hseq : (s.lane l).seq = q) (hq : q ≠ 0)
    (hi : s.item? l q = some i) (hface : (face = 1 ∧ f = .front) ∨ (face = 2 ∧ f = .back))
    (hres : res.toNat ∈ [100, 120, 150, 200, 240, 300, 400]) (hw : 64 ≤ w.toNat ∧ w.toNat ≤ 2560)
    (hh : 32 ≤ h.toNat ∧ h.toNat ≤ 1536) (hnone : i.side f = none) (hroom : i.sides.length < i.sidesDeclared)
    (hp : s.admission.profiles[i.profileIndex.val] = p) :
    exec (.sideOpen l q face res w h) s =
      .next (openRecord l q f (freshSide f res.toNat w.toNat h.toNat i.profileIndex) p (matched l s)) := by
  rw [exec_sideOpen_of_opened htaking hstate hseq hq, openSide_of_good (f := f) (i := i) (by simpa using hseq) (by simpa using hi)
    (faceOf_eq_some_iff.mpr hface) ((sideFieldsGood_iff ..).mpr ⟨hres, hw, hh⟩) ((roomFor_iff ..).mpr ⟨hnone, hroom⟩), ← hp]
  rfl

/-- Settles O27: a record that is not reduced is put in its item and nothing else changes; any other frame is stray. -/
theorem sideOpenThatIsNotReducedOrStray : Obligations.SideOpenThatIsNotReducedOrStray := by
  intro s l q face f res w h i p htaking hstate hseq hq hi hp hface
  refine ⟨fun hres hw hh hnone hroom => ?_, fun face' r' w' h' hbad => ?_⟩
  · have hexec := exec_sideOpen_of_good htaking hstate hseq hq hi hface hres hw hh hnone hroom hp
    generalize hx : freshSide f res.toNat w.toNat h.toNat i.profileIndex = x at hexec
    have hwithdrawn : raise condProfileWithdrawn 0 = 0x0010 := by decide
    have hoverrun : raise condInputOverrun 0 = 0x0001 := by decide
    refine ⟨fun hinvalid => ?_, fun hvalid hpages => ?_⟩
    · obtain ⟨hside, hcontext, hcounters, -⟩ := putSide_frame hi f (notReduced condProfileWithdrawn x)
      rw [openRecord, if_neg (by simp [hinvalid])] at hexec
      exact ⟨_, _, hexec, hside, by rw [← hx, notReduced, freshSide, hwithdrawn], hcontext, hcounters, rfl, rfl, rfl⟩
    · obtain ⟨hside, hcontext, hcounters, -⟩ := putSide_frame hi f (notReduced condInputOverrun { x with snapshot := some p })
      have hreservation : (matched l s).freePages < reservationOf p.budget := by
        rw [reservationOf, ceilDiv, Config.pageSize, Nat.add_sub_assoc (by decide)]
        exact hpages
      rw [openRecord, if_pos hvalid, if_pos hreservation] at hexec
      refine ⟨_, _, hexec, (side?_countLane ..).trans hside, by rw [← hx, notReduced, freshSide, hoverrun], ?_, ?_, rfl, rfl, rfl⟩
      · rw [overrunOn, lane_countLane_self]; exact hcontext
      · rw [overrunOn, lane_countLane_self, ← hcounters]
  · rw [exec_sideOpen_of_opened htaking hstate hseq hq, openSide_of_bad (i := i) (by simpa using hseq) (by simpa using hi),
      strayOn_matched]
    · rfl
    · intro g hg hfields
      obtain ⟨hres, hw, hh⟩ := (sideFieldsGood_iff ..).mp hfields
      rw [Bool.eq_false_iff, ne_eq, roomFor_iff]
      rintro ⟨hnone, hroom⟩
      rcases hbad with ⟨hone, htwo⟩ | hbad | hbad | hbad | hbad | hbad | ⟨rfl, hfront⟩ | ⟨rfl, hback⟩ | hbad
      · exact (faceOf_eq_some_iff.mp hg).elim (fun h => hone h.1) fun h => htwo h.1
      · exact hbad hres
      · omega
      · omega
      · omega
      · omega
      · obtain rfl : Face.front = g := Option.some.inj hg
        exact Option.isSome_iff_ne_none.mp hfront hnone
      · obtain rfl : Face.back = g := Option.some.inj hg
        exact Option.isSome_iff_ne_none.mp hback hnone
      · omega

/-! ### The reservation and the wait for a unit (R52, R64) -/

theorem takePages_eq_blocks (n : Nat) (s : State) :
    takePages n s = { s with
      freePages := s.freePages - n
      flow := if n = 0 then s.flow else (evalStop (s.withFree (s.freePages - n))).flow } := by
  unfold takePages
  split
  next h => subst h; rfl
  next => rw [setFree, evalStop_eq_blocks]; rfl

/-- A record with its pages reserved joins the tail of the open wait list. -/
def sideWaiting (l : Fin 16) (q : Seq) (f : Face) (x : Side) (n : Nat) (s : State) : State :=
  joinOpen ⟨l, q, f⟩ (takePages n (putSide l q f x (matched l s)))

theorem sideWaiting_eq_blocks (l : Fin 16) (q : Seq) (f : Face) (x : Side) (n : Nat) (s : State) :
    sideWaiting l q f x n s = { s with
      lanes := (putSide l q f x (matched l s)).lanes
      reduction := { s.reduction with openWait := s.reduction.openWait ++ [⟨l, q, f⟩] }
      freePages := s.freePages - n
      flow := if n = 0 then s.flow else (evalStop (s.withFree (s.freePages - n))).flow
      intakePort := { s.intakePort with framesIn := bump s.intakePort.framesIn } } := by
  rw [sideWaiting, takePages_eq_blocks, evalStop_eq_blocks, evalStop_eq_blocks]
  rfl

/-- The side waits while every unit is bound; with a unit FREE the lists were empty, and the side is bound at once (R54). -/
theorem grantAll_sideWaiting {s : State} {l : Fin 16} {q : Seq} {f : Face} {x : Side} {p : Profile} {i : Item} {n : Nat}
    (hsettled : ArbiterSettled s) (hi : s.item? l q = some i) (hp : x.snapshot = some p) (hstate : x.state = .storing) :
    (∀ u, s.unit u ≠ none) ∧ grantAll (sideWaiting l q f x n s) = sideWaiting l q f x n s
      ∨ ∃ u b, s.unit u = none ∧ s.reduction.openWait = [] ∧ s.reduction.reworkWait = []
        ∧ grantAll (sideWaiting l q f x n s) = ((sideWaiting l q f x n s).withReduction
            { units := s.reduction.units.set u.val (some b), openWait := [], reworkWait := [] }).modSide ⟨l, q, f⟩
              (boundSide u p b) := by
  have hblocks := sideWaiting_eq_blocks l q f x n s
  have hside : (sideWaiting l q f x n s).side? ⟨l, q, f⟩ = some x := by
    rw [hblocks]
    exact side?_putSide f x ((item?_matched ..).trans hi)
  have hunits (u : Fin 4) : (sideWaiting l q f x n s).unit u = s.unit u := by rw [hblocks]; rfl
  cases hfree : freeUnit? (sideWaiting l q f x n s) with
  | none =>
    have hbound : ∀ u, (sideWaiting l q f x n s).unit u ≠ none := freeUnit?_eq_none_iff.mp hfree
    exact .inl ⟨fun u => hunits u ▸ hbound u, grantAll_of_settled (.inl hbound)⟩
  | some u =>
    have hu : s.unit u = none := (hunits u).symm.trans (unit_of_freeUnit? hfree)
    obtain ⟨hopen, hrework⟩ := hsettled.resolve_left fun h => h u hu
    have hwait : (sideWaiting l q f x n s).reduction.reworkWait = [] ∧ (sideWaiting l q f x n s).reduction.openWait = [⟨l, q, f⟩] := by
      rw [hblocks]
      exact ⟨hrework, by rw [hopen]; rfl⟩
    obtain ⟨hhead, hpop⟩ := popWaiting_eq (rest := []) (.inr hwait)
    have hgrant := (grant_of_waiting hfree hhead).trans (bindSide_eq (u := u) ((side?_popWaiting ..).trans hside) hp)
    rw [if_neg (by rw [hstate]; nofun), hpop] at hgrant
    have hnot : ¬ ArbiterSettled (sideWaiting l q f x n s) := by
      rw [arbiterSettled_iff, hfree, hhead]
      simp
    refine .inr ⟨u, newBinding ⟨l, q, f⟩ x p, hu, hopen, hrework, ?_⟩
    rw [grantAll_of_not_settled hnot, hgrant, grantAll_of_settled]
    · have hsame : (sideWaiting l q f x n s).reduction.units = s.reduction.units := by rw [hblocks]
      simp only [hwait.1, if_true, ← hsame]
      rfl
    · exact .inr (by simp [hwait.1, State.setUnit])

/-- What a change of the units and of the side's own record leaves of the state in which the side waits. -/
theorem sideWaiting_frame {s : State} {l : Fin 16} {q : Seq} {i : Item} (hi : s.item? l q = some i) (f : Face) (x : Side) (n : Nat)
    (v : Reduction) (g : Side → Side) :
    (((sideWaiting l q f x n s).withReduction v).modSide ⟨l, q, f⟩ g).side? ⟨l, q, f⟩ = some (g x)
      ∧ ((((sideWaiting l q f x n s).withReduction v).modSide ⟨l, q, f⟩ g).lane l).context =
          { (restartTimer (s.lane l)).context with state := .side, active := some f }
      ∧ ((((sideWaiting l q f x n s).withReduction v).modSide ⟨l, q, f⟩ g).lane l).counters = (s.lane l).counters
      ∧ ∀ k, k ≠ l → (((sideWaiting l q f x n s).withReduction v).modSide ⟨l, q, f⟩ g).lane k = s.lane k := by
  obtain ⟨hside, hcontext, hcounters, hlanes⟩ := putSide_frame hi f x
  rw [sideWaiting_eq_blocks]
  exact ⟨State.side?_modSide_self g hside, (State.context_modSide ..).trans hcontext, (counters_modSide ..).trans hcounters,
    fun k hk => (State.lane_modSide_ne _ g (r := ⟨l, q, f⟩) hk.symm).trans (hlanes k hk)⟩

theorem modSide_id (s : State) (r : SideRef) : s.modSide r (fun y => y) = s :=
  State.modItem_of_fixed fun i _ => by simp [Item.modSide]

/-- Settles O26: the record joins its item, its pages are taken, and it waits or is bound. -/
theorem sideOpenCreatesTheSide : Obligations.SideOpenCreatesTheSide := by
  intro s l q face f res w h i p htaking hsettled hstate hseq hq hi hface hres hw hh hnone hroom hp hvalid hpages
  have hexec := exec_sideOpen_of_good htaking hstate hseq hq hi hface hres hw hh hnone hroom hp
  have hn : reservationOf p.budget = (p.budget + 65535) / 65536 := by
    rw [reservationOf, ceilDiv, Config.pageSize, Nat.add_sub_assoc (by decide)]
  rw [openRecord, if_pos hvalid] at hexec
  simp only [hn, if_neg (show ¬ (matched l s).freePages < (p.budget + 65535) / 65536 from Nat.not_lt.mpr hpages)] at hexec
  generalize (p.budget + 65535) / 65536 = n at hexec ⊢
  generalize hx : ({ freshSide f res.toNat w.toNat h.toNat i.profileIndex with snapshot := some p, outputPages := n } : Side) = x
    at hexec
  have hblocks := sideWaiting_eq_blocks l q f x n s
  rcases grantAll_sideWaiting (f := f) (n := n) (x := x) (p := p) hsettled hi (by rw [← hx]) (by rw [← hx]; rfl) with
    ⟨hbound, hgrants⟩ | ⟨u, b, hu, hopen, hrework, hgrants⟩
  · obtain ⟨hside, hcontext, hcounters, hlanes⟩ := sideWaiting_frame hi f x n (sideWaiting l q f x n s).reduction fun y => y
    rw [modSide_id] at hside hcontext hcounters hlanes
    refine ⟨sideWaiting l q f x n s, x, hexec.trans (congrArg _ hgrants), hside, ?_, ?_, ?_, hcontext, ?_, ?_,
      fun ⟨u, hu⟩ => absurd hu (hbound u), fun _ => ⟨?_, ?_, ?_, ?_⟩, ?_, hlanes, hcounters, ?_, ?_⟩
    · rw [← hx]; rfl
    · rw [← hx]; rfl
    · rw [← hx]; rfl
    · rw [hblocks]
    · rw [hblocks]
    · rw [← hx]; rfl
    · rw [← hx]; rfl
    · rw [hblocks]
    · rw [hblocks]
    · rw [hblocks]
    · rw [hblocks]
    · rw [hblocks]
  · obtain ⟨hside, hcontext, hcounters, hlanes⟩ := sideWaiting_frame hi f x n
      { units := s.reduction.units.set u.val (some b), openWait := [], reworkWait := [] } (boundSide u p b)
    refine ⟨_, boundSide u p b x, hexec.trans (congrArg _ hgrants), hside, ?_, ?_, ?_, hcontext, ?_, ?_,
      fun _ => ⟨rfl, ⟨u, rfl, hu⟩, rfl⟩, fun hbound => absurd hu (hbound u), ?_, hlanes, hcounters, ?_, ?_⟩
    · rw [← hx]; rfl
    · rw [← hx]; rfl
    · rw [← hx]; rfl
    · rw [hblocks]; rfl
    · rw [hblocks]; rfl
    · rw [hrework]; rfl
    · rw [hblocks]; rfl
    · rw [hblocks]; rfl

end Sys2Proof.Machine
end

