-- ==== Sys2Proof/Proofs/Holds.lean ====
section
/-! Completion of an item, and the hold of a lane (R58, R77, R118, R119). -/

namespace Sys2Proof.Machine

/-! ### Completion (R58, R118) -/

theorem isComplete_iff (i : Item) :
    isComplete i = true ↔ (i.state = .reducing ∨ i.state = .rework)
      ∧ ∀ x, (i.front = some x ∨ i.back = some x) → x.state = .done ∨ x.state = .notReduced := by
  simp only [isComplete, Bool.and_eq_true, decide_eq_true_iff, List.all_eq_true, Item.mem_sides, sideSettled]

theorem checkComplete_of_complete {s : State} {l : Fin 16} {q : Seq} {i : Item} (hi : s.item? l q = some i)
    (h : isComplete i = true) : checkComplete l q s = completeItem l q s := by
  rw [checkComplete, hi]
  exact if_pos h

/-! ### What a judgement makes of the stamps -/

/-- No event of a side changes the stamps of a lane's records. -/
theorem stamps_kept (k : Fin 16) (ps : List (Seq × ItemState)) : SideKept fun _ _ s => (s.lane k).stamps = ps where
  lane _ hstamps := (State.stamps_setLane hstamps k).trans
  reduction _ := id
  rebind _ _ := id
  granted _ := id
  owing := id
  flowFrame _ := id
  free _ h := by simpa using h

theorem stamps_replaceItem {s : State} {l : Fin 16} {old new : Item} :
    ((replaceItem l old new s).lane l).stamps = ((s.lane l).modItem old.seq fun _ => new).stamps := by
  have hmod : ((s.modItem l old.seq fun _ => new).lane l).stamps = ((s.lane l).modItem old.seq fun _ => new).stamps := by
    rw [State.modItem, State.lane_modLane_self]
  exact (stamps_kept l _).returnPages (d := 0) (ow := false) hmod

/-- An item evaluated is READY or in REWORK; no other record changes its sequence or its state. -/
theorem stamps_evaluate {s : State} {l : Fin 16} {q : Seq} {i : Item} (hi : s.item? l q = some i) :
    ∃ new : Item, new.seq = q ∧ (new.state = .ready ∨ new.state = .rework)
      ∧ ((evaluate l q s).lane l).stamps = ((s.lane l).modItem q fun _ => new).stamps := by
  obtain rfl : i.seq = q := Lane.seq_of_item? hi
  rw [evaluate, hi]
  dsimp only
  have hready {v : State} {new : Item} (hlane : v.lane l = s.lane l) (hseq : new.seq = i.seq) (hstate : new.state = .ready) :
      ∃ j : Item, j.seq = i.seq ∧ (j.state = .ready ∨ j.state = .rework)
        ∧ ((replaceItem l (formSets i) new v).lane l).stamps = ((s.lane l).modItem i.seq fun _ => j).stamps :=
    ⟨new, hseq, .inl hstate, by rw [stamps_replaceItem, hlane]; rfl⟩
  unfold dispatch
  split
  · exact hready rfl rfl rfl
  · exact hready rfl rfl rfl
  · exact hready rfl rfl rfl
  next f b _ =>
    refine ⟨reworkedItem s.disposition s.admission.profiles f b (formSets i), rfl, .inr rfl, ?_⟩
    have hkept := stamps_kept l ((s.lane l).modItem i.seq fun _ =>
      reworkedItem s.disposition s.admission.profiles f b (formSets i)).stamps
    have hjoin (n : Option Condition) (r : SideRef) {v : State}
        (hv : (v.lane l).stamps = ((s.lane l).modItem i.seq fun _ =>
          reworkedItem s.disposition s.admission.profiles f b (formSets i)).stamps) :
        ((joinReworkIf n r v).lane l).stamps = ((s.lane l).modItem i.seq fun _ =>
          reworkedItem s.disposition s.admission.profiles f b (formSets i)).stamps := by
      unfold joinReworkIf
      split
      · exact hv
      · exact hkept.countLane (d := 0) (ow := false) (s := v.withReduction _) r.lane _ hv
    exact hkept.grantAll (d := 0) (ow := false) (hjoin b _ (hjoin f _ stamps_replaceItem))
  · exact hready rfl rfl rfl

/-- The records of a lane that wait for the release of its hold are among those of some sequences. -/
def AwaitingAmong (qs : List Seq) (c : Lane) : Prop := c.seqs.Nodup ∧ ∀ p, (p, .awaitDispatch) ∈ c.stamps → p ∈ qs

theorem AwaitingAmong.evaluate {s : State} {l : Fin 16} {q : Seq} {qs : List Seq} (h : AwaitingAmong (q :: qs) (s.lane l)) :
    AwaitingAmong qs ((Machine.evaluate l q s).lane l) := by
  obtain ⟨hnodup, hamong⟩ := h
  refine ⟨by rw [evaluate_seqs]; exact hnodup, fun p hp => ?_⟩
  cases hi : s.item? l q with
  | none =>
    have hsame : Machine.evaluate l q s = s := by rw [Machine.evaluate, hi]
    rw [hsame] at hp
    refine (List.mem_cons.mp (hamong p hp)).resolve_left ?_
    rintro rfl
    obtain ⟨i, hmem, hseq, -⟩ := mem_stamps_iff.mp hp
    exact Lane.item?_eq_none_iff.mp hi (List.mem_map.mpr ⟨i, hmem, hseq⟩)
  | some i =>
    obtain ⟨new, hseq, hstate, hstamps⟩ := stamps_evaluate hi
    obtain ⟨hiseq, as, bs, hlist, hmod, -⟩ := Lane.item?_split hi
    have hne : ∀ j, j ∈ as ++ bs → j.seq ≠ q := by
      intro j hj hjq
      rw [Lane.seqs, hlist, List.map_append, List.map_cons, List.nodup_middle, List.nodup_cons, ← List.map_append] at hnodup
      exact hnodup.1 (hiseq ▸ hjq ▸ List.mem_map_of_mem hj)
    rw [hstamps] at hp
    obtain ⟨j, hj, rfl, hawait⟩ := mem_stamps_iff.mp hp
    rw [hmod] at hj
    have hother : j ∈ as ++ bs := by
      rcases List.mem_append.mp hj with hj | hj
      · exact List.mem_append_left _ hj
      · rcases List.mem_cons.mp hj with rfl | hj
        · rw [hawait] at hstate
          rcases hstate with h | h <;> cases h
        · exact List.mem_append_right _ hj
    have hold : (j.seq, .awaitDispatch) ∈ (s.lane l).stamps := by
      refine mem_stamps_iff.mpr ⟨j, ?_, rfl, hawait⟩
      rw [hlist]
      rcases List.mem_append.mp hother with hj | hj
      · exact List.mem_append_left _ hj
      · exact List.mem_append_right _ (List.mem_cons_of_mem _ hj)
    exact (List.mem_cons.mp (hamong _ hold)).resolve_left (hne j hother)

/-- The evaluations of a release, one after another, leave no record waiting. -/
theorem awaitingAmong_foldl_evaluate {l : Fin 16} {qs : List Seq} {s : State} (h : AwaitingAmong qs (s.lane l)) :
    AwaitingAmong [] ((qs.foldl (fun t q => evaluate l q t) s).lane l) := by
  induction qs generalizing s with
  | nil => exact h
  | cons q qs ih => exact ih h.evaluate

theorem foldl_evaluate_lane (l : Fin 16) (qs : List Seq) (s : State) :
    ((qs.foldl (fun t q => evaluate l q t) s).lane l).context = (s.lane l).context
      ∧ ((qs.foldl (fun t q => evaluate l q t) s).lane l).seqs = (s.lane l).seqs := by
  induction qs generalizing s with
  | nil => exact ⟨rfl, rfl⟩
  | cons q qs ih => exact ⟨(ih _).1.trans (evaluate_context ..), (ih _).2.trans (evaluate_seqs ..)⟩

/-- Settles O33: a complete item is judged or waits, and a release judges the waiting items in their order. -/
theorem completionWaitsForTheHold : Obligations.CompletionWaitsForTheHold := by
  refine ⟨fun s l q i hi => ⟨fun hcomplete => ?_, fun hnot => ?_⟩, fun s l => ?_⟩
  · have hitem : checkComplete l q s = completeItem l q s := checkComplete_of_complete hi ((isComplete_iff i).mpr hcomplete)
    rw [hitem, completeItem]
    exact ⟨fun hheld => if_pos hheld, fun hfree => if_neg (by rw [hfree]; nofun)⟩
  · refine checkComplete_of_not_complete hi (Bool.eq_false_iff.mpr fun hcomplete => ?_)
    obtain ⟨hstate, hsides⟩ := (isComplete_iff i).mp hcomplete
    rcases hnot with ⟨hreducing, hrework⟩ | ⟨x, hx, hdone, hreduced⟩
    · exact hstate.elim hreducing hrework
    · exact (hsides x hx).elim hdone hreduced
  · have hrelease (hheld : (s.lane l).held = true) : writeHeld l false s =
        (awaiting (s.lane l)).foldl (fun t q => evaluate l q t) (s.setLane l { s.lane l with held := false }) := by
      rw [writeHeld, if_neg (by rw [hheld]; nofun)]; rfl
    refine ⟨if_pos rfl, fun hfree => ?_, hrelease, fun hheld hnodup => ?_⟩
    · rw [writeHeld, if_neg (by rw [hfree]; nofun)]; rfl
    · have hlane := State.lane_setLane_self s l { s.lane l with held := false }
      have hstart : AwaitingAmong (awaiting (s.lane l)) ((s.setLane l { s.lane l with held := false }).lane l) := by
        rw [hlane]
        refine ⟨hnodup, fun p hp => ?_⟩
        obtain ⟨i, hmem, hseq, hstate⟩ := mem_stamps_iff.mp hp
        exact List.mem_map.mpr ⟨i, List.mem_filter.mpr ⟨hmem, decide_eq_true hstate⟩, hseq⟩
      obtain ⟨hcontext, hseqs⟩ := foldl_evaluate_lane l (awaiting (s.lane l)) (s.setLane l { s.lane l with held := false })
      rw [hrelease hheld]
      refine ⟨fun i hi hstate => ?_, ?_, ?_⟩
      · exact List.not_mem_nil ((awaitingAmong_foldl_evaluate hstart).2 i.seq (mem_stamps_iff.mpr ⟨i, hi, rfl, hstate⟩))
      · rw [hlane] at hcontext
        exact congrArg LaneContext.held hcontext
      · rw [hlane] at hseqs
        exact hseqs

end Sys2Proof.Machine
end

