-- ==== Sys2Proof/Proofs/Verdicts.lean ====
section
/-! The evaluation of an item: its sets, the walk through its potent conditions, the verdict (R110 to R123, R132). -/

namespace Sys2Proof.Machine

/-! ### The first entry of an ordered list that meets a test -/

theorem find?_eq_some_iff_of_sorted {P : Condition → Bool} {xs : List Condition} (hsorted : xs.Pairwise (· ≤ ·)) {n : Condition} :
    xs.find? P = some n ↔ n ∈ xs ∧ P n = true ∧ ∀ m ∈ xs, m < n → P m = false := by
  induction xs with
  | nil => simp
  | cons x xs ih =>
    obtain ⟨hx, hxs⟩ := List.pairwise_cons.mp hsorted
    cases hP : P x with
    | true =>
      rw [List.find?_cons, hP]
      constructor
      · rintro ⟨⟩
        refine ⟨List.mem_cons_self, hP, fun m hm hlt => absurd hlt ?_⟩
        rcases List.mem_cons.mp hm with rfl | hm
        · exact lt_irrefl _
        · exact (hx m hm).not_gt
      · rintro ⟨hn, -, hlow⟩
        rcases List.mem_cons.mp hn with rfl | hn
        · rfl
        · rcases (hx n hn).eq_or_lt with rfl | hlt
          · rfl
          · exact absurd hP (by simp [hlow x List.mem_cons_self hlt])
    | false =>
      rw [List.find?_cons, hP]
      refine (ih hxs).trans ⟨fun ⟨hn, hPn, hlow⟩ => ⟨List.mem_cons_of_mem x hn, hPn, fun m hm hlt => ?_⟩,
        fun ⟨hn, hPn, hlow⟩ => ⟨?_, hPn, fun m hm => hlow m (List.mem_cons_of_mem x hm)⟩⟩
      · rcases List.mem_cons.mp hm with rfl | hm
        · exact hP
        · exact hlow m hm hlt
      · refine (List.mem_cons.mp hn).resolve_left ?_
        rintro rfl
        simp [hPn] at hP

theorem mem_allConditions (n : Condition) : n ∈ allConditions := by revert n; decide

theorem allConditions_sorted : allConditions.Pairwise (· ≤ ·) := by decide

/-! ### The walk (R118) -/

/-- The entries of the walk for one condition. -/
def walkBlock (i : Item) (n : Condition) : List Condition :=
  (if sidePotent n i.front then [n] else []) ++ (if sidePotent n i.back then [n] else [])
    ++ (if holds i.potent n then [n] else [])

theorem mem_walkBlock {i : Item} {n m : Condition} : m ∈ walkBlock i n ↔ m = n ∧ isPotent i n = true := by
  simp only [walkBlock, isPotent, List.mem_append, List.mem_ite_nil_right, List.mem_singleton, Bool.or_eq_true]
  tauto

theorem mem_walk {i : Item} {n : Condition} : n ∈ walk i ↔ isPotent i n = true := by
  have hwalk : n ∈ walk i ↔ ∃ m ∈ allConditions, n ∈ walkBlock i m := List.mem_flatMap
  rw [hwalk]
  constructor
  · rintro ⟨m, -, hm⟩
    obtain ⟨rfl, hpotent⟩ := mem_walkBlock.mp hm
    exact hpotent
  · exact fun h => ⟨n, mem_allConditions n, mem_walkBlock.mpr ⟨rfl, h⟩⟩

theorem walk_sorted (i : Item) : (walk i).Pairwise (· ≤ ·) := by
  refine List.pairwise_flatMap.mpr ⟨fun n _ => ?_, allConditions_sorted.imp fun {n m} hle x hx y hy => ?_⟩
  · refine List.pairwise_iff_getElem.mpr fun j k hj hk _ => ?_
    rw [(mem_walkBlock (i := i).mp (List.getElem_mem hj)).1, (mem_walkBlock (i := i).mp (List.getElem_mem hk)).1]
  · rw [(mem_walkBlock.mp hx).1, (mem_walkBlock.mp hy).1]
    exact hle

theorem find?_walk_eq_some_iff {i : Item} {P : Condition → Bool} {n : Condition} :
    (walk i).find? P = some n ↔ isPotent i n = true ∧ P n = true ∧ ∀ m, m < n → isPotent i m = true → P m = false := by
  rw [find?_eq_some_iff_of_sorted (walk_sorted i)]
  simp only [mem_walk]
  exact ⟨fun ⟨hn, hP, hlow⟩ => ⟨hn, hP, fun m hlt hm => hlow m hm hlt⟩,
    fun ⟨hn, hP, hlow⟩ => ⟨hn, hP, fun m hm hlt => hlow m hlt hm⟩⟩

theorem find?_walk_eq_none_iff {i : Item} {P : Condition → Bool} :
    (walk i).find? P = none ↔ ∀ m, isPotent i m = true → P m = false := by
  simp only [List.find?_eq_none, mem_walk, Bool.not_eq_true]

/-! ### The chosen condition of a side (R122) -/

theorem hasClass_iff {d : DispositionUnit} {k : DescriptorClass} {n : Condition} :
    hasClass d k n = true ↔ (d.descriptors[n.val]).cls = k := decide_eq_true_iff

theorem hasClass_eq_false_iff {d : DispositionUnit} {k : DescriptorClass} {n : Condition} :
    hasClass d k n = false ↔ (d.descriptors[n.val]).cls ≠ k := decide_eq_false_iff_not

theorem chosen_none (d : DispositionUnit) : chosen d none = none := List.find?_eq_none.mpr fun _ _ => by simp [sidePotent]

theorem chosen_eq_some_iff {d : DispositionUnit} {x : Side} {n : Condition} :
    chosen d (some x) = some n ↔ holds x.potent n = true ∧ (d.descriptors[n.val]).cls = .rework
      ∧ ∀ m, m < n → holds x.potent m = true → (d.descriptors[m.val]).cls ≠ .rework := by
  rw [chosen, find?_eq_some_iff_of_sorted allConditions_sorted]
  simp only [mem_allConditions, sidePotent, Bool.and_eq_true, hasClass_iff, true_and, forall_const, Bool.and_eq_false_imp,
    hasClass_eq_false_iff, and_assoc]

theorem chosen_eq_none_iff {d : DispositionUnit} {x : Side} :
    chosen d (some x) = none ↔ ∀ m : Condition, holds x.potent m = true → (d.descriptors[m.val]).cls ≠ .rework := by
  simp only [chosen, List.find?_eq_none, mem_allConditions, sidePotent, Bool.and_eq_true, hasClass_iff, forall_const, not_and,
    ne_eq]

theorem isExhausted_iff (x : Side) : isExhausted x = true ↔ x.state = .notReduced ∨ 2 ≤ x.reworkCount := decide_eq_true_iff

theorem exhaustedChoice_eq_some_iff {d : DispositionUnit} {x : Option Side} {n : Condition} :
    exhaustedChoice d x = some n ↔ ∃ y, x = some y ∧ (y.state = .notReduced ∨ 2 ≤ y.reworkCount) ∧ chosen d (some y) = some n := by
  cases x with
  | none => simp [exhaustedChoice]
  | some y =>
    rw [exhaustedChoice]
    split
    next h => simp [(isExhausted_iff y).mp h]
    next h => simp [mt (isExhausted_iff y).mpr h]

theorem lowerOf_eq_some {a b : Option Condition} {n : Condition} (h : lowerOf a b = some n) :
    (a = some n ∨ b = some n) ∧ ∀ m, (a = some m ∨ b = some m) → n ≤ m := by
  cases a with
  | none =>
    obtain rfl : b = some n := h
    exact ⟨.inr rfl, fun m hm => by rcases hm with hm | hm <;> cases hm; exact le_refl _⟩
  | some k =>
    cases b with
    | none =>
      obtain rfl : k = n := Option.some.inj h
      exact ⟨.inl rfl, fun m hm => by rcases hm with hm | hm <;> cases hm; exact le_refl _⟩
    | some j =>
      simp only [lowerOf] at h
      split at h
      next hlt =>
        obtain rfl := Option.some.inj h
        refine ⟨.inr rfl, fun m hm => ?_⟩
        rcases hm with hm | hm <;> cases hm
        · exact hlt.le
        · exact le_refl _
      next hle =>
        obtain rfl := Option.some.inj h
        refine ⟨.inl rfl, fun m hm => ?_⟩
        rcases hm with hm | hm <;> cases hm
        · exact le_refl _
        · exact not_lt.mp hle

/-! ### The fault kinds (R117) -/

section
variable {d : DispositionUnit} {ps : Vector Profile 64} {n : Condition}

theorem faultOf_cases :
    (faultOf d ps n = .beyondExtent ↔ d.extent ≤ n.val)
      ∧ (faultOf d ps n = .notPresent ↔ n.val < d.extent ∧ (d.descriptors[n.val]).present = false)
      ∧ (faultOf d ps n = .reworkOnItem ↔
          n.val < d.extent ∧ (d.descriptors[n.val]).present = true ∧ (d.descriptors[n.val]).cls = .rework ∧ 13 ≤ n.val)
      ∧ (faultOf d ps n = .altProfileInvalid ↔
          n.val < d.extent ∧ (d.descriptors[n.val]).present = true ∧ (d.descriptors[n.val]).cls = .rework ∧ n.val < 13
            ∧ (ps[(d.descriptors[n.val]).alternate.val]).valid = false) := by
  unfold faultOf descriptorOf
  simp only [isItemCondition, decide_eq_true_iff]
  generalize (ps[(d.descriptors[n.val]).alternate.val]).valid = valid
  generalize (d.descriptors[n.val]).cls = cls
  generalize (d.descriptors[n.val]).present = present
  split_ifs <;> simp_all

/-- A condition of an item whose class is REWORK is a fault. -/
theorem faultOf_rework_on_item (hcls : (d.descriptors[n.val]).cls = .rework) (hitem : 13 ≤ n.val) : faultOf d ps n ≠ .none := by
  intro hnone
  obtain ⟨hbeyond, habsent, honItem, -⟩ := faultOf_cases (d := d) (ps := ps) (n := n)
  rw [hnone] at hbeyond habsent honItem
  have hextent : n.val < d.extent := Nat.lt_of_not_le fun h => FaultKind.noConfusion (hbeyond.mpr h)
  have hpresent : (d.descriptors[n.val]).present = true := by
    by_contra h
    exact FaultKind.noConfusion (habsent.mpr ⟨hextent, Bool.eq_false_iff.mpr h⟩)
  exact FaultKind.noConfusion (honItem.mpr ⟨hextent, hpresent, hcls, hitem⟩)

end

/-! ### The verdict (R118, R120 to R123) -/

section
variable (d : DispositionUnit) (ps : Vector Profile 64) (i : Item)

/-- No potent condition is a fault. -/
def NoFault : Prop := ∀ m, isPotent i m = true → faultOf d ps m = .none

theorem find?_fault_eq_none_iff : ((walk i).find? fun n => decide (faultOf d ps n ≠ .none)) = none ↔ NoFault d ps i := by
  rw [find?_walk_eq_none_iff]
  simp only [decide_eq_false_iff_not, not_not, NoFault]

/-- No potent condition has a descriptor of class DIVERT. -/
def NoDivert : Prop := ∀ m, isPotent i m = true → (d.descriptors[m.val]).cls ≠ .divert

theorem find?_divert_eq_none_iff : ((walk i).find? fun n => hasClass d .divert n) = none ↔ NoDivert d i := by
  rw [find?_walk_eq_none_iff]
  simp only [hasClass_eq_false_iff, NoDivert]

theorem find?_fault_eq_some_iff (n : Condition) :
    ((walk i).find? fun n => decide (faultOf d ps n ≠ .none)) = some n ↔ isPotent i n = true ∧ faultOf d ps n ≠ .none
      ∧ ∀ m, m < n → isPotent i m = true → faultOf d ps m = .none := by
  rw [find?_walk_eq_some_iff]
  simp only [decide_eq_true_iff, decide_eq_false_iff_not, not_not]

theorem find?_divert_eq_some_iff (n : Condition) :
    ((walk i).find? fun n => hasClass d .divert n) = some n ↔ isPotent i n = true ∧ (d.descriptors[n.val]).cls = .divert
      ∧ ∀ m, m < n → isPotent i m = true → (d.descriptors[m.val]).cls ≠ .divert := by
  rw [find?_walk_eq_some_iff]
  simp only [hasClass_iff, hasClass_eq_false_iff]

/-- The five verdicts, each with what decides for it. -/
inductive Judged : Verdict → Prop where
  | fault (n : Condition) (hpotent : isPotent i n = true) (hfault : faultOf d ps n ≠ .none)
      (hlow : ∀ m, m < n → isPotent i m = true → faultOf d ps m = .none) : Judged (.fault n (faultOf d ps n))
  | divert (n : Condition) (hnone : NoFault d ps i) (hpotent : isPotent i n = true)
      (hdivert : (d.descriptors[n.val]).cls = .divert)
      (hlow : ∀ m, m < n → isPotent i m = true → (d.descriptors[m.val]).cls ≠ .divert) : Judged (.divert n)
  | exhausted (n : Condition) (hnone : NoFault d ps i) (hdivert : NoDivert d i)
      (hlower : lowerOf (exhaustedChoice d i.front) (exhaustedChoice d i.back) = some n) : Judged (.exhausted n)
  | rework (hnone : NoFault d ps i) (hdivert : NoDivert d i)
      (hlower : exhaustedChoice d i.front = none ∧ exhaustedChoice d i.back = none)
      (hchosen : chosen d i.front ≠ none ∨ chosen d i.back ≠ none) : Judged (.rework (chosen d i.front) (chosen d i.back))
  | mark (hnone : NoFault d ps i) (hdivert : NoDivert d i) (hfront : chosen d i.front = none) (hback : chosen d i.back = none) :
      Judged .mark

theorem judged : Judged d ps i (judge d ps i) := by
  unfold judge
  split
  next n hn =>
    obtain ⟨hpotent, hfault, hlow⟩ := (find?_fault_eq_some_iff d ps i n).mp hn
    exact .fault n hpotent hfault hlow
  next hnone =>
    have hnone := (find?_fault_eq_none_iff d ps i).mp hnone
    split
    next n hn =>
      obtain ⟨hpotent, hdivert, hlow⟩ := (find?_divert_eq_some_iff d i n).mp hn
      exact .divert n hnone hpotent hdivert hlow
    next hdivert =>
      have hdivert := (find?_divert_eq_none_iff d i).mp hdivert
      split
      next n hn => exact .exhausted n hnone hdivert hn
      next hlower =>
        have hrework := Judged.rework hnone hdivert (lowerOf_eq_none_iff.mp hlower)
        split
        next hf hb => exact .mark hnone hdivert hf hb
        next f b hf => exact hf ▸ hrework (.inl (by rw [hf]; nofun))
        next b hf hb => exact hf ▸ hb ▸ hrework (.inr (by rw [hb]; nofun))

theorem judge_eq_fault_iff (n : Condition) (k : FaultKind) :
    judge d ps i = .fault n k ↔ isPotent i n = true ∧ faultOf d ps n = k ∧ k ≠ .none
      ∧ ∀ m, m < n → isPotent i m = true → faultOf d ps m = .none := by
  constructor
  · intro h
    have hjudged := judged d ps i
    rw [h] at hjudged
    cases hjudged with
    | fault _ hpotent hfault hlow => exact ⟨hpotent, rfl, hfault, hlow⟩
  · rintro ⟨hpotent, rfl, hfault, hlow⟩
    rw [judge, (find?_fault_eq_some_iff d ps i n).mpr ⟨hpotent, hfault, hlow⟩]

theorem judge_eq_divert_iff (n : Condition) :
    judge d ps i = .divert n ↔ isPotent i n = true ∧ (d.descriptors[n.val]).cls = .divert
      ∧ (∀ m, isPotent i m = true → faultOf d ps m = .none)
      ∧ ∀ m, m < n → isPotent i m = true → (d.descriptors[m.val]).cls ≠ .divert := by
  constructor
  · intro h
    have hjudged := judged d ps i
    rw [h] at hjudged
    cases hjudged with
    | divert _ hnone hpotent hdivert hlow => exact ⟨hpotent, hdivert, hnone, hlow⟩
  · rintro ⟨hpotent, hdivert, hnone, hlow⟩
    rw [judge, (find?_fault_eq_none_iff d ps i).mpr hnone, (find?_divert_eq_some_iff d i n).mpr ⟨hpotent, hdivert, hlow⟩]

theorem isPotent_of_side {x : Side} {m : Condition} (hx : i.front = some x ∨ i.back = some x) (hm : holds x.potent m = true) :
    isPotent i m = true := by
  rcases hx with hx | hx <;> simp [isPotent, hx, sidePotent, hm]

theorem chosen_eq_none_of_marks {x : Option Side} (hx : x = i.front ∨ x = i.back)
    (h : ∀ m, isPotent i m = true → (d.descriptors[m.val]).cls = .mark) : chosen d x = none := by
  cases hy : x with
  | none => exact chosen_none d
  | some y =>
    refine chosen_eq_none_iff.mpr fun m hm hrework => ?_
    have hmark := h m (isPotent_of_side i (hx.imp (fun e => e.symm.trans hy) fun e => e.symm.trans hy) hm)
    rw [hmark] at hrework
    cases hrework

/-- An evaluation marks exactly when every potent condition may be marked (R123). -/
theorem judge_eq_mark_iff (hitem : ∀ m : Condition, m.val < 13 → holds i.potent m = false) :
    judge d ps i = .mark ↔ ∀ m, isPotent i m = true → faultOf d ps m = .none ∧ (d.descriptors[m.val]).cls = .mark := by
  have hjudged := judged d ps i
  constructor
  · intro h m hm
    rw [h] at hjudged
    cases hjudged with
    | mark hnone hdivert hfront hback =>
      refine ⟨hnone m hm, ?_⟩
      have hside {x : Option Side} (hchosen : chosen d x = none) (hpotent : sidePotent m x = true) :
          (d.descriptors[m.val]).cls ≠ .rework := by
        cases hx : x with
        | none => simp [hx, sidePotent] at hpotent
        | some y =>
          rw [hx] at hchosen hpotent
          exact chosen_eq_none_iff.mp hchosen m hpotent
      have hrework : (d.descriptors[m.val]).cls ≠ .rework := by
        have hpotent := hm
        simp only [isPotent, Bool.or_eq_true] at hpotent
        rcases hpotent with (hpotent | hpotent) | hpotent
        · exact hside hfront hpotent
        · exact hside hback hpotent
        · intro hcls
          refine faultOf_rework_on_item hcls (Nat.le_of_not_lt fun hlt => ?_) (hnone m hm)
          rw [hitem m hlt] at hpotent
          cases hpotent
      have hdivert := hdivert m hm
      cases hcls : (d.descriptors[m.val]).cls with
      | mark => rfl
      | divert => exact absurd hcls hdivert
      | rework => exact absurd hcls hrework
  · intro h
    have hfront := chosen_eq_none_of_marks d i (.inl rfl) fun m hm => (h m hm).2
    have hback := chosen_eq_none_of_marks d i (.inr rfl) fun m hm => (h m hm).2
    generalize judge d ps i = v at hjudged
    cases hjudged with
    | fault n hpotent hfault _ => exact absurd (h n hpotent).1 hfault
    | divert n _ hpotent hdivert _ => rw [(h n hpotent).2] at hdivert; cases hdivert
    | exhausted n _ _ hlower =>
      obtain ⟨hchoice, -⟩ := lowerOf_eq_some hlower
      rcases hchoice with hchoice | hchoice <;> obtain ⟨y, hy, -, hchosen⟩ := exhaustedChoice_eq_some_iff.mp hchoice
      · rw [← hy, hfront] at hchosen; cases hchosen
      · rw [← hy, hback] at hchosen; cases hchosen
    | rework _ _ _ hchosen => exact absurd hchosen (by simp [hfront, hback])
    | mark => rfl

end

/-! ### The sets formed at an evaluation (R111 to R113) -/

theorem pairMismatch_iff (i : Item) :
    pairMismatch i = true ↔ ∃ f b p, i.front = some f ∧ i.back = some b ∧ f.snapshot = some p ∧ f.state = .done ∧ b.state = .done
      ∧ p.pairTolerance < max f.results.outWidth b.results.outWidth - min f.results.outWidth b.results.outWidth := by
  unfold pairMismatch pairTolerance
  cases i.front with
  | none => simp
  | some f =>
    cases i.back with
    | none => simp
    | some b => cases hp : f.snapshot <;> simp [hp]

theorem holds_raisedAnew_eq (i : Item) (n : Condition) :
    holds (raisedAnew i) n = if i.sidesDeclared = 2 ∧ n = 14 then pairMismatch i else holds i.raised n := by
  have hsame : condPairMismatch = n ↔ n = 14 := eq_comm
  unfold raisedAnew
  by_cases htwo : i.sidesDeclared = 2
  · by_cases hn : n = 14
    · cases hpair : pairMismatch i <;> simp [htwo, hn, holds_raise, holds_lower, condPairMismatch]
    · cases hpair : pairMismatch i <;> simp [htwo, hn, holds_raise, holds_lower, hsame]
  · simp [htwo]

theorem sideMask_eq (i : Item) (x : Side) : sideMask i x = (x.snapshot.map Profile.mask).getD i.mask := by
  unfold sideMask
  cases x.snapshot <;> rfl

theorem holds_potentUnder_iff (mask c : CondSet) (n : Condition) :
    holds (potentUnder mask c) n = true ↔ holds c n = true ∧ holds mask n = false := by
  rw [holds_potentUnder, Bool.and_eq_true, Bool.not_eq_true']

theorem side_formSets (i : Item) (face : Face) : (formSets i).side face = (i.side face).map (formSideSet i) := by
  cases face <;> rfl

/-- Settles O35: the verdict is the first of the five that the potent conditions, in ascending order, decide for. -/
theorem judgementFollowsTheSteps : Obligations.JudgementFollowsTheSteps := by
  refine ⟨fun i n => ⟨fun htwo => ?_, fun hn => ?_, holds_potentUnder_iff .., fun face x hx => ?_⟩,
    fun d ps i n k => ⟨judge_eq_fault_iff d ps i n k, faultOf_cases⟩,
    fun d ps i n => ⟨judge_eq_divert_iff d ps i n, judge_eq_mark_iff d ps i⟩,
    fun d ps i => ⟨fun f b h => ?_, fun n h => ?_⟩,
    fun d x => ⟨chosen_none d, fun n => chosen_eq_some_iff, chosen_eq_none_iff⟩⟩
  · rw [← pairMismatch_iff, formSets, holds_raisedAnew_eq, if_pos ⟨htwo, rfl⟩]
  · rw [formSets, holds_raisedAnew_eq, if_neg]
    exact fun h => hn.elim (fun h' => h' h.1) fun h' => h' h.2
  · refine ⟨formSideSet i x, by rw [side_formSets, hx]; rfl, rfl, ?_⟩
    rw [formSideSet, holds_potentUnder_iff, sideMask_eq]
  · have hjudged := judged d ps i
    rw [h] at hjudged
    cases hjudged with
    | rework _ _ hlower hchosen =>
      have hfit {x : Option Side} (hnone : exhaustedChoice d x = none) (y : Side) (hy : x = some y) (hne : chosen d x ≠ none) :
          y.state ≠ .notReduced ∧ y.reworkCount < 2 := by
        subst hy
        obtain ⟨n, hn⟩ := Option.ne_none_iff_exists'.mp hne
        have hnot : ¬ (y.state = .notReduced ∨ 2 ≤ y.reworkCount) := fun hex => by
          rw [exhaustedChoice_eq_some_iff.mpr ⟨y, rfl, hex, hn⟩] at hnone
          cases hnone
        exact ⟨fun hs => hnot (.inl hs), Nat.lt_of_not_le fun hs => hnot (.inr hs)⟩
      exact ⟨rfl, rfl, hchosen, hfit hlower.1, hfit hlower.2⟩
  · have hjudged := judged d ps i
    rw [h] at hjudged
    cases hjudged with
    | exhausted _ _ _ hlower =>
      obtain ⟨hchoice, hleast⟩ := lowerOf_eq_some hlower
      obtain ⟨x, hx, hexhausted, hchosen⟩ : ∃ x, (i.front = some x ∨ i.back = some x)
          ∧ (x.state = .notReduced ∨ 2 ≤ x.reworkCount) ∧ chosen d (some x) = some n := by
        rcases hchoice with hchoice | hchoice <;> obtain ⟨x, hx, hrest⟩ := exhaustedChoice_eq_some_iff.mp hchoice
        · exact ⟨x, .inl hx, hrest⟩
        · exact ⟨x, .inr hx, hrest⟩
      obtain ⟨hpotent, hcls, -⟩ := chosen_eq_some_iff.mp hchosen
      refine ⟨hcls, ⟨x, hx, hexhausted, hpotent, hchosen⟩, fun y m hy hex hm => hleast m ?_⟩
      exact hy.imp (fun e => exhaustedChoice_eq_some_iff.mpr ⟨y, e, hex, hm⟩)
        fun e => exhaustedChoice_eq_some_iff.mpr ⟨y, e, hex, hm⟩

end Sys2Proof.Machine
end

