-- ==== Sys2Proof/Proofs/Dispatches.lean ====
section
/-! What an evaluation makes of its item, by its verdict (R66, R67, R120 to R125, R130 to R134). -/

namespace Sys2Proof.Machine

/-! ### The verdicts after which a record is READY -/

/-- The record that a verdict makes of an item whose sets are formed, for the verdicts that send no side to rework. -/
def dispatchedItem (d : DispositionUnit) (i : Item) : Verdict → Item
  | .fault n k => divertedItem .dispatchFault n k 0 i
  | .divert n => divertedItem .condition n .none (descriptorOf d n).code i
  | .exhausted n => divertedItem .reworkExhausted n .none (descriptorOf d n).code i
  | .rework _ _ => i
  | .mark => markedItem d i

/-- What a verdict counts in the Disposition Unit (R127). -/
def countVerdict (d : DispositionUnit) : Verdict → DispositionUnit
  | .fault _ _ => { d with dispatchFaults := bump d.dispatchFaults }
  | .exhausted _ => { d with reworkExhausted := bump d.reworkExhausted }
  | .divert _ => d
  | .rework _ _ => d
  | .mark => d

/-- A verdict that sends no side to rework replaces the record and counts. -/
theorem evaluate_eq_replaceItem {s : State} {l : Fin 16} {q : Seq} {i : Item} (hi : s.item? l q = some i)
    (hnot : ∀ f b, judge s.disposition s.admission.profiles (formSets i) ≠ .rework f b) :
    evaluate l q s = replaceItem l (formSets i)
      (dispatchedItem s.disposition (formSets i) (judge s.disposition s.admission.profiles (formSets i)))
      (s.withDisposition (countVerdict s.disposition (judge s.disposition s.admission.profiles (formSets i)))) := by
  rw [evaluate, hi]
  dsimp only
  cases hv : judge s.disposition s.admission.profiles (formSets i) with
  | rework f b => exact absurd hv (hnot f b)
  | fault n k => rfl
  | divert n => rfl
  | exhausted n => rfl
  | mark => rfl

theorem dispatchedItem_seq (d : DispositionUnit) (i : Item) (v : Verdict) : (dispatchedItem d i v).seq = i.seq := by
  cases v <;> rfl

theorem pages_divertedItem (reason : ReasonKind) (n : Condition) (k : FaultKind) (code : Byte) (i : Item) :
    (divertedItem reason n k code i).pages = 0 := by
  have hnone (x : Option Side) : optPages (x.map dropPages) = 0 := by cases x <;> rfl
  show optPages (i.front.map dropPages) + optPages (i.back.map dropPages) = 0
  rw [hnone, hnone]

theorem pages_dispatchedItem_le (d : DispositionUnit) (i : Item) (v : Verdict) : (dispatchedItem d i v).pages ≤ i.pages := by
  cases v with
  | fault n k => exact (pages_divertedItem ..).trans_le (Nat.zero_le _)
  | divert n => exact (pages_divertedItem ..).trans_le (Nat.zero_le _)
  | exhausted n => exact (pages_divertedItem ..).trans_le (Nat.zero_le _)
  | rework f b => exact le_refl _
  | mark => exact mapSides_pages_le dropInput_pages_le i

theorem returnPages_eq_blocks (n : Nat) (s : State) :
    returnPages n s = { s with
      freePages := s.freePages + n
      flow := if n = 0 then s.flow else (evalStop (s.withFree (s.freePages + n))).flow } := by
  unfold returnPages
  split
  next h => subst h; rfl
  next => rw [setFree, evalStop_eq_blocks]; rfl

/-- A record replaced: the record, the pages that return, and the rest. -/
theorem replaceItem_frame {s : State} {l : Fin 16} {old new i : Item} (hi : s.item? l old.seq = some i) (hseq : new.seq = old.seq) :
    (replaceItem l old new s).item? l old.seq = some new
      ∧ (replaceItem l old new s).freePages = s.freePages + (old.pages - new.pages)
      ∧ (replaceItem l old new s).flow =
          if old.pages - new.pages = 0 then s.flow
          else (evalStop (s.withFree (s.freePages + (old.pages - new.pages)))).flow := by
  have hitem := State.item?_modItem_self (f := fun _ => new) hi (hseq.trans (Lane.seq_of_item? hi).symm)
  rw [replaceItem, returnPages_eq_blocks]
  refine ⟨hitem, rfl, ?_⟩
  dsimp only
  split
  · rfl
  · rw [evalStop_eq_blocks, evalStop_eq_blocks]; rfl

/-- What an evaluation leaves whose verdict sends no side to rework. -/
theorem evaluate_frame {s : State} {l : Fin 16} {q : Seq} {i : Item} {v : Verdict} (hi : s.item? l q = some i)
    (hv : judge s.disposition s.admission.profiles (formSets i) = v) (hnot : ∀ f b, v ≠ .rework f b) :
    (evaluate l q s).item? l q = some (dispatchedItem s.disposition (formSets i) v)
      ∧ (evaluate l q s).freePages + (dispatchedItem s.disposition (formSets i) v).pages = s.freePages + i.pages
      ∧ (evaluate l q s).disposition = countVerdict s.disposition v
      ∧ (evaluate l q s).flow =
          if (evaluate l q s).freePages = s.freePages then s.flow
          else (evalStop (s.withFree (evaluate l q s).freePages)).flow := by
  obtain rfl : i.seq = q := Lane.seq_of_item? hi
  have heval := evaluate_eq_replaceItem hi (by rwa [hv])
  rw [hv] at heval
  obtain ⟨hitem, hfree, hflow⟩ := replaceItem_frame (s := s.withDisposition (countVerdict s.disposition v)) (old := formSets i) hi
    (dispatchedItem_seq s.disposition (formSets i) v)
  have hle := pages_dispatchedItem_le s.disposition (formSets i) v
  rw [formSets_pages] at hle hfree hflow
  rw [← heval] at hitem hfree hflow
  have hfree' : (evaluate l i.seq s).freePages = s.freePages + (i.pages - (dispatchedItem s.disposition (formSets i) v).pages) := hfree
  refine ⟨hitem, by omega, by rw [heval, replaceItem_disposition]; rfl, ?_⟩
  rw [hflow, ← hfree]
  split
  next hzero => rw [if_pos (by omega)]; rfl
  next hsome =>
    rw [if_neg (by omega), evalStop_eq_blocks, evalStop_eq_blocks]
    rfl

/-! ### Sides sent to rework (R53, R125, R130 to R134) -/

/-- The sides that join the rework wait list, in face order (R130). -/
def reworkRefs (l : Fin 16) (q : Seq) (f b : Option Condition) : List SideRef :=
  (if f.isSome = true then [⟨l, q, .front⟩] else []) ++ (if b.isSome = true then [⟨l, q, .back⟩] else [])

/-- The reworks counter with one more for each side that joins (R94). -/
def countReworks (f b : Option Condition) (k : LaneCounters) : LaneCounters :=
  { k with reworks := if f.isSome = true ∧ b.isSome = true then bump (bump k.reworks) else bump k.reworks }

theorem joinRework_joinRework (l : Fin 16) (q : Seq) (f b : Option Condition) (hsome : f ≠ none ∨ b ≠ none) (s : State) :
    joinReworkIf b ⟨l, q, .back⟩ (joinReworkIf f ⟨l, q, .front⟩ s) =
      (s.withReduction { s.reduction with
        reworkWait := s.reduction.reworkWait ++ reworkRefs l q f b }).countLane l (countReworks f b) := by
  cases f with
  | none =>
    cases b with
    | none => simp at hsome
    | some b => rfl
  | some f =>
    cases b with
    | none => rfl
    | some b =>
      have hlist : s.reduction.reworkWait ++ reworkRefs l q (some f) (some b)
          = s.reduction.reworkWait ++ [⟨l, q, .front⟩] ++ [⟨l, q, .back⟩] := (List.append_assoc ..).symm
      have hlane (v : State) : (v.countLane l fun k => { k with reworks := bump k.reworks }).countLane l
          (fun k => { k with reworks := bump k.reworks }) = v.countLane l (countReworks (some f) (some b)) := by
        rw [State.countLane, State.countLane, State.modLane_modLane]; rfl
      rw [hlist, ← hlane]
      rfl

theorem pages_reworkedItem (d : DispositionUnit) (ps : Vector Profile 64) (f b : Option Condition) (i : Item) :
    (reworkedItem d ps f b i).pages = i.pages := by
  have hside (n : Option Condition) (x : Option Side) : optPages (reworkIf d ps n x) = optPages x := by
    cases n <;> cases x <;> rfl
  show optPages (reworkIf d ps f i.front) + optPages (reworkIf d ps b i.back) = _
  rw [hside, hside]; rfl

/-- An evaluation that sends sides to rework: the record, the wait list, the counter, then the grants (R54, R130, R134). -/
theorem evaluate_of_rework {s : State} {l : Fin 16} {q : Seq} {i : Item} {f b : Option Condition} (hi : s.item? l q = some i)
    (hv : judge s.disposition s.admission.profiles (formSets i) = .rework f b) :
    evaluate l q s = grantAll (((s.modItem l q fun _ => reworkedItem s.disposition s.admission.profiles f b (formSets i)).withReduction
      { s.reduction with reworkWait := s.reduction.reworkWait ++ reworkRefs l q f b }).countLane l (countReworks f b)) := by
  obtain rfl : i.seq = q := Lane.seq_of_item? hi
  have hsome : f ≠ none ∨ b ≠ none := by
    have hjudged := judged s.disposition s.admission.profiles (formSets i)
    rw [hv] at hjudged
    cases hjudged with
    | rework _ _ _ hchosen => exact hchosen
  rw [evaluate, hi]
  dsimp only
  rw [hv, dispatch, joinRework_joinRework _ _ _ _ hsome, replaceItem, pages_reworkedItem, Nat.sub_self, returnPages, if_pos rfl]
  rfl

/-- A side of an item sent to rework under its chosen condition. -/
theorem side_reworkedItem {d : DispositionUnit} {ps : Vector Profile 64} {f b : Option Condition} {i : Item} {face : Face}
    {n : Condition} (h : face = .front ∧ f = some n ∨ face = .back ∧ b = some n) :
    (reworkedItem d ps f b i).side face = (i.side face).map (reworkSide d ps n) := by
  rcases h with ⟨rfl, rfl⟩ | ⟨rfl, rfl⟩ <;> rfl

/-! ### The record in its place in the list -/

theorem modifyFirst_append {α : Type} {p : α → Bool} {as bs : List α} {x : α} (f : α → α) (has : ∀ a ∈ as, p a = false)
    (hx : p x = true) : modifyFirst p f (as ++ x :: bs) = as ++ f x :: bs := by
  induction as with
  | nil => simp [modifyFirst, hx]
  | cons a as ih =>
    have ha : p a = false := has a List.mem_cons_self
    simp [modifyFirst, ha, ih fun b hb => has b (List.mem_cons_of_mem a hb)]

theorem item?_of_split {c : Lane} {i : Item} {before behind : List Item} (hlist : c.list = before ++ i :: behind)
    (hbefore : ∀ x ∈ before, x.seq ≠ i.seq) :
    c.item? i.seq = some i ∧ ∀ f, (c.modItem i.seq f).list = before ++ f i :: behind := by
  have hnot : ∀ x ∈ before, (x.seq == i.seq) = false := fun x hx => beq_eq_false_iff_ne.mpr (hbefore x hx)
  have hself : (i.seq == i.seq) = true := beq_self_eq_true _
  refine ⟨?_, fun f => ?_⟩
  · rw [Lane.item?, hlist, List.find?_append, List.find?_eq_none.mpr fun x hx => by simp [hnot x hx], Option.none_or,
      List.find?_cons, hself]
  · rw [Lane.modItem, hlist]
    exact modifyFirst_append f hnot hself

theorem mapSides_formSets (i : Item) (g : Side → Side) :
    (formSets i).mapSides g = { formSets i with
      front := i.front.map fun x => g { x with potent := x.raised &&& ~~~((x.snapshot.map Profile.mask).getD i.mask) }
      back := i.back.map fun x => g { x with potent := x.raised &&& ~~~((x.snapshot.map Profile.mask).getD i.mask) } } := by
  have hside (x : Option Side) : (x.map (formSideSet i)).map g
      = x.map fun x => g { x with potent := x.raised &&& ~~~((x.snapshot.map Profile.mask).getD i.mask) } := by
    rw [Option.map_map]
    congr 1
    funext x
    rw [Function.comp_apply, formSideSet, sideMask_eq]
    rfl
  simp only [Item.mapSides, formSets, hside]

/-- A marked or diverted record, and the counters, from the verdict. -/
theorem dispatchedItem_eq {s : State} {i : Item} {d : DispositionUnit} {g : Side → Side} {r : Dispatch}
    (h : (judge s.disposition s.admission.profiles (formSets i) = .mark ∧ d = s.disposition
          ∧ g = (fun x => { x with inputPages := 0, input := [] })
          ∧ r = ⟨.mark, .none, none, .none, 0, (allConditions.filter fun n => isPotent (formSets i) n).map
              fun n => (s.disposition.descriptors[n.val]).code⟩)
        ∨ ((∃ n, judge s.disposition s.admission.profiles (formSets i) = .divert n ∧ d = s.disposition
              ∧ r = ⟨.diverted, .condition, some n, .none, (s.disposition.descriptors[n.val]).code, []⟩)
            ∨ (∃ n k, judge s.disposition s.admission.profiles (formSets i) = .fault n k
              ∧ d = { s.disposition with dispatchFaults := bump s.disposition.dispatchFaults }
              ∧ r = ⟨.diverted, .dispatchFault, some n, k, 0, []⟩)
            ∨ ∃ n, judge s.disposition s.admission.profiles (formSets i) = .exhausted n
              ∧ d = { s.disposition with reworkExhausted := bump s.disposition.reworkExhausted }
              ∧ r = ⟨.diverted, .reworkExhausted, some n, .none, (s.disposition.descriptors[n.val]).code, []⟩)
          ∧ g = fun x => { x with inputPages := 0, input := [], outputPages := 0, body := [] }) :
    ∃ v, judge s.disposition s.admission.profiles (formSets i) = v ∧ (∀ f b, v ≠ .rework f b) ∧ countVerdict s.disposition v = d
      ∧ dispatchedItem s.disposition (formSets i) v = { (formSets i).mapSides g with state := .ready, dispatch := r } := by
  rcases h with ⟨hv, rfl, rfl, rfl⟩ | ⟨⟨n, hv, rfl, rfl⟩ | ⟨n, k, hv, rfl, rfl⟩ | ⟨n, hv, rfl, rfl⟩, rfl⟩ <;>
    exact ⟨_, hv, nofun, rfl, rfl⟩

/-- Settles O36: an evaluation replaces the record and returns pages, or joins the wait list and grants. -/
theorem evaluationDispatchesTheItem : Obligations.EvaluationDispatchesTheItem := by
  refine ⟨fun s l q i hi => ⟨fun hv => ?_, fun n hv => ?_, fun n k hv => ?_, fun n hv => ?_⟩,
    fun s l q i f b hi hbound hv => ?_, fun s l q i hi hnot => (evaluate_frame hi rfl hnot).2.2.2,
    fun s l q i f b hi hv => ?_, fun s u l i j before behind d g r hlist hbefore hverdict hj hu => ?_⟩
  · obtain ⟨hitem, hfree, hdisposition, -⟩ := evaluate_frame hi hv nofun
    refine ⟨_, hitem, rfl, rfl, rfl, fun x hx => ?_, fun face => by cases face <;> rfl, hfree, hdisposition⟩
    rcases hx with hx | hx <;> obtain ⟨y, -, rfl⟩ := Option.map_eq_some_iff.mp hx <;> rfl
  · obtain ⟨hitem, hfree, hdisposition, -⟩ := evaluate_frame hi hv nofun
    exact ⟨_, hitem, rfl, pages_divertedItem .., rfl, by rwa [dispatchedItem, pages_divertedItem] at hfree, hdisposition⟩
  · obtain ⟨hitem, hfree, hdisposition, -⟩ := evaluate_frame hi hv nofun
    exact ⟨_, hitem, rfl, pages_divertedItem .., rfl, by rwa [dispatchedItem, pages_divertedItem] at hfree, hdisposition⟩
  · obtain ⟨hitem, hfree, hdisposition, -⟩ := evaluate_frame hi hv nofun
    exact ⟨_, hitem, rfl, pages_divertedItem .., rfl, by rwa [dispatchedItem, pages_divertedItem] at hfree, hdisposition⟩
  · have heval := (evaluate_of_rework hi hv).trans (grantAll_of_settled (by exact .inl hbound))
    obtain rfl : i.seq = q := Lane.seq_of_item? hi
    rw [heval]
    have hitem := State.item?_modItem_self (f := fun _ => reworkedItem s.disposition s.admission.profiles f b (formSets i)) hi rfl
    refine ⟨_, ((State.item?_modLane (f := fun c => { c with counters := countReworks f b c.counters }) fun _ => rfl).trans hitem), rfl, rfl, rfl, rfl, rfl, rfl,
      (pages_reworkedItem ..).trans (formSets_pages i), fun face n h => side_reworkedItem h, ?_, ?_, ?_, ?_, rfl, rfl⟩
    · rintro rfl; rfl
    · rintro rfl; rfl
    · exact (List.append_assoc ..).symm
    · rw [lane_countLane_self]
      show (countReworks f b ((s.modItem l i.seq _).lane l).counters).reworks = _
      rw [State.modItem, State.lane_modLane_self]
      rfl
  · obtain rfl : i.seq = q := Lane.seq_of_item? hi
    refine ⟨_, _, evaluate_of_rework hi hv, ?_, rfl, fun face n h => side_reworkedItem h, ?_, ?_⟩
    · rw [List.append_assoc]; rfl
    · rintro rfl; rfl
    · rintro rfl; rfl
  · obtain ⟨hi, hmod⟩ := item?_of_split hlist hbefore
    obtain ⟨v, hv, hnot, hd, hitem⟩ := dispatchedItem_eq hverdict
    have hj' : dispatchedItem s.disposition (formSets i) v = j := by rw [hitem, mapSides_formSets, hj]; rfl
    have hseq : (formSets i).seq = i.seq := rfl
    have hset : (s.withDisposition d).modItem l i.seq (fun _ => j) = u := by
      rw [hu, ← hmod fun _ => j]
      rfl
    have hle := pages_dispatchedItem_le s.disposition (formSets i) v
    rw [evaluate_eq_replaceItem (s := s) (l := l) hi (by rwa [hv]), hv, hd, hj', replaceItem, hseq, hset, formSets_pages]
    rw [hj', formSets_pages] at hle
    have hfree : u.freePages = s.freePages := by rw [hu]
    unfold returnPages
    by_cases hpages : i.pages = j.pages
    · rw [if_pos (by omega), if_pos hpages]
    · rw [if_neg (by omega), if_neg hpages, setFree, hfree]

end Sys2Proof.Machine
end

