-- ==== Sys2Proof/Proofs/Emissions.lean ====
section
/-! The start of a record, the order of its frames, and their layouts (R141 to R150, R183, R185). -/

namespace Sys2Proof.Machine

/-! ### The next READY head (R143) -/

theorem allLanes_eq_finRange : allLanes = List.finRange 16 := rfl

/-- The lane that the next start takes is the first one from the round-robin position whose head is READY. -/
theorem nextReadyLane?_eq_some_iff {s : State} {l : Fin 16} :
    nextReadyLane? s = some l ↔ headReady s l = true
      ∧ ∃ k, l = s.egress.roundRobin + k ∧ ∀ k', k' < k → headReady s (s.egress.roundRobin + k') = false := by
  simp only [nextReadyLane?, lanesFrom, allLanes_eq_finRange, List.find?_eq_some_iff_getElem, List.getElem_map,
    List.getElem_finRange, List.length_map, List.length_finRange, Bool.not_eq_true']
  refine and_congr_right fun _ => ⟨?_, ?_⟩
  · rintro ⟨i, hi, hl, hbefore⟩
    exact ⟨⟨i, hi⟩, hl.symm, fun k' hk' => hbefore k'.val hk'⟩
  · rintro ⟨k, hl, hbefore⟩
    exact ⟨k.val, k.isLt, hl.symm, fun j hj => hbefore ⟨j, by omega⟩ hj⟩

theorem headReady_of_list {s : State} {l : Fin 16} {i : Item} {rest : List Item} (hlist : (s.lane l).list = i :: rest) :
    headReady s l = decide (i.state = .ready) := by
  rw [headReady, hlist]

/-- The start of a record writes the head of its lane's list and the egress state. -/
theorem startRecordOn_eq {s : State} {l : Fin 16} {i : Item} {rest : List Item} (hlist : (s.lane l).list = i :: rest) :
    startRecordOn l i s = { s.setLane l { s.lane l with list := { i with state := .emitting } :: rest } with
      egress := { s.egress with
        roundRobin := l + 1
        emission := some ⟨l, i.seq, firstPoint i⟩
        inProgress := some (frameAt l i (firstPoint i)) } } := by
  have hmod := (item?_of_split (before := []) hlist (by simp)).2 fun j => { j with state := .emitting }
  rw [List.nil_append] at hmod
  rw [← hmod]
  rfl

/-- Settles O37: the next READY head is the first from the round-robin position, and the start writes its list's head. -/
theorem recordStartTakesTheNextReadyLane : Obligations.RecordStartTakesTheNextReadyLane := by
  intro s k l i rest hemission hprogress hhalted hreplies hl hbefore hlist hready
  have hnext : nextReadyLane? s = some l :=
    nextReadyLane?_eq_some_iff.mpr ⟨by rw [headReady_of_list hlist, hready]; rfl, k, hl, hbefore⟩
  have hhead : headItem? s l = some i := by rw [headItem?, hlist, List.head?_cons]
  have hstart : exec .recordStart s = .next (startRecordOn l i s) := by
    show Host.Outcome.next (startRecord s) = _
    rw [startRecord, if_neg (by simp [hemission, hprogress, hhalted, hreplies]), hnext]
    dsimp only
    rw [hhead]
  rw [hstart, startRecordOn_eq hlist, firstPoint]
  split <;> rfl

/-! ### The frames of a record (R145 to R150) -/

/-- With a record in EMITTING, an idle link that is not halted starts the record's next frame. -/
theorem startExchange_of_emission {s : State} {e : Emission} {i : Item} (hhalted : s.egress.halted = false)
    (hidle : s.egress.inProgress = none) (hemission : s.egress.emission = some e) (hi : s.item? e.lane e.seq = some i) :
    startExchange s = { s with egress := { s.egress with inProgress := some (frameAt e.lane i e.next) } } := by
  rw [startExchange, if_neg (by simp [hhalted, hidle]), hemission]
  dsimp only
  rw [startEmissionFrame, hi]
  rfl

theorem startExchange_of_busy {s : State} (h : s.egress.halted = true ∨ s.egress.inProgress.isSome = true) : startExchange s = s :=
  if_pos h.symm

/-- An inner frame sent: the emission moves on, and the next frame starts. -/
theorem exec_exchangeFrameSent_of_inner {s : State} {e : Emission} {i : Item} {f : Frame} (hf : s.egress.inProgress = some f)
    (he : s.egress.emission = some e) (hi : s.item? e.lane e.seq = some i) (hinner : isInnerFrame f.type = true) :
    exec .exchangeFrameSent s = .next (startAfterFrame (advanceEmission e i (frameGone s))) := by
  show Host.Outcome.next (innerFrameSent s) = _
  rw [innerFrameSent, hf, he]
  dsimp only
  rw [if_pos hinner, hi]

theorem afterFace_front (i : Item) : afterFace i .front = if i.back = none then .itemEnd else .sideHead .back := by
  rw [afterFace]
  cases i.back <;> rfl

theorem nextPoint_sideHead {i : Item} {face : Face} {x : Side} (hx : i.side face = some x) :
    nextPoint i (.sideHead face) = if 0 < x.bodyLen then .sideBody face 0 else afterFace i face := by
  rw [nextPoint, hx]; rfl

theorem nextPoint_sideBody {i : Item} {face : Face} {x : Side} (hx : i.side face = some x) (off : Nat) :
    nextPoint i (.sideBody face off) =
      if off + 8192 < x.bodyLen then .sideBody face (off + 8192) else afterFace i face := by
  rw [nextPoint, hx]; rfl

/-- What follows everything about a face follows its head when the body is empty, and its last body frame. -/
theorem nextPoint_eq_afterFace {i : Item} {face : Face} {x : Side} (hx : i.side face = some x) {p : EmitPoint}
    (hp : p = .sideHead face ∧ x.bodyLen = 0 ∨ ∃ off, p = .sideBody face off ∧ x.bodyLen ≤ off + 8192) :
    nextPoint i p = afterFace i face := by
  rcases hp with ⟨rfl, hempty⟩ | ⟨off, rfl, hlast⟩
  · rw [nextPoint_sideHead hx, if_neg (by omega)]
  · rw [nextPoint_sideBody hx, if_neg (by omega)]

theorem sum_bodyLen_sides (i : Item) : (i.sides.map Side.bodyLen).sum = optBodyLen i.front + optBodyLen i.back := by
  have hside (x : Option Side) : (x.toList.map Side.bodyLen).sum = optBodyLen x := by cases x <;> simp [optBodyLen]
  rw [Item.sides, List.map_append, List.sum_append, hside, hside]

/-- The payload of a SIDE_HEAD, its scaling results read through the flag that says they were discarded (R185; log 11). -/
theorem sideHeadPayload_eq {x : Side} {r : ScalingResults}
    (hr : r = if x.resultsDiscarded = true then ⟨0, false, 0, 0⟩
      else (⟨x.outRes, x.resClamped, x.outWidth, x.outHeight⟩ : ScalingResults)) :
    sideHeadPayload x =
      [if x.face = .front then 1 else 2] ++ num16 x.inRes ++ num16 r.outRes ++ [if r.resClamped then 1 else 0]
        ++ num16 r.outWidth ++ num16 r.outHeight
        ++ [BitVec.ofNat 8 x.reworkCount, BitVec.ofNat 8 x.profileUsed.val]
        ++ be16 x.raised ++ be16 x.potent ++ num16 x.blackPermille ++ [BitVec.ofNat 8 x.meanGrey]
        ++ num16 x.streakColumns ++ num24 x.fullLen ++ num24 x.bodyLen := by
  obtain rfl : x.results = r := hr.symm
  have hface : faceCode x.face = if x.face = .front then 1 else 2 := by cases x.face <;> rfl
  have hflag : flagByte x.results.resClamped = if x.results.resClamped then 1 else 0 := by cases x.results.resClamped <;> rfl
  rw [sideHeadPayload, hface, hflag]
  rfl

theorem length_sideHeadPayload (x : Side) : (sideHeadPayload x).length = 27 := by
  simp [sideHeadPayload, num16, num24]

theorem length_itemHeadPayload (l : Fin 16) (i : Item) : (itemHeadPayload l i).length = 19 + i.dispatch.markList.length := by
  simp only [itemHeadPayload, List.cons_append, List.length_cons, List.length_append, length_be32, length_be16, List.length_nil]
  omega

/-- The type code of each frame the part sends, as R183 lists them. -/
theorem code_of_mem {t : FrameType} {c : Byte}
    (h : (t, c) ∈ [(.mgmtReply, 0x21), (.pause, 0x30), (.resume, 0x31), (.stopAll, 0x32), (.startAll, 0x33),
      (.refusal, 0x34), (.itemHead, 0x50), (.sideHead, 0x51), (.sideBody, 0x52), (.itemEnd, 0x53),
      (.itemNotice, (0x54 : Byte))]) : t.code = c := by
  revert c
  cases t <;> simp [FrameType.code]

/-- Settles O38: the next frame by the table of frames, and each frame's layout from its payload's definition. -/
theorem nextFrameOfTheRecordFollows : Obligations.NextFrameOfTheRecordFollows := by
  refine ⟨fun s e i f hf he hi htype => ?_, fun i => ⟨fun x hx => ⟨?_, ?_, ?_, ?_⟩, fun hnone => ?_, fun x hx => ⟨?_, ?_, ?_⟩⟩,
    fun l i p => ⟨?_, ?_, ?_, ?_, ?_, ?_, ?_⟩, fun s f c hc => ⟨?_, ?_, ?_⟩⟩
  · have hinner : isInnerFrame f.type = true := by rcases htype with h | h | h <;> rw [h] <;> rfl
    have hreset : engineResetNext (advanceEmission e i (frameGone s)) = engineResetNext s := rfl
    rw [exec_exchangeFrameSent_of_inner hf he hi hinner, startAfterFrame, hreset]
    cases engineResetNext s with
    | true => rw [if_pos rfl, if_pos (.inr rfl)]; rfl
    | false =>
      rw [if_neg (by decide)]
      cases hhalted : s.egress.halted with
      | true =>
        rw [startExchange_of_busy (s := advanceEmission e i (frameGone s)) (.inl hhalted), if_pos (.inl rfl)]
        rfl
      | false =>
        rw [startExchange_of_emission (s := advanceEmission e i (frameGone s)) hhalted rfl rfl hi, if_neg (by simp)]
        rfl
  · rw [nextPoint, hx]; rfl
  · intro hbody
    rw [nextPoint_sideHead (face := .front) hx, if_pos hbody]
  · intro off hmore
    rw [nextPoint_sideBody (face := .front) hx, if_pos hmore]
  · exact fun p hp => (nextPoint_eq_afterFace (face := .front) hx hp).trans (afterFace_front i)
  · rw [nextPoint, hnone, ← afterFace_front]; rfl
  · intro hbody
    rw [nextPoint_sideHead (face := .back) hx, if_pos hbody]
  · intro off hmore
    rw [nextPoint_sideBody (face := .back) hx, if_pos hmore]
  · exact fun p hp => nextPoint_eq_afterFace (face := .back) hx hp
  · cases p <;> rfl
  · cases p <;> rfl
  · rintro rfl
    exact ⟨rfl, rfl, length_itemHeadPayload l i⟩
  · rintro face x r rfl hx hr
    have hpayload : (frameAt l i (.sideHead face)).payload = sideHeadPayload x := by rw [frameAt, hx]; rfl
    rw [hpayload]
    exact ⟨rfl, sideHeadPayload_eq hr, length_sideHeadPayload x⟩
  · rintro face x off rfl hx
    exact ⟨rfl, by rw [frameAt, hx]; rfl⟩
  · rintro rfl
    exact ⟨rfl, by rw [sum_bodyLen_sides]; rfl⟩
  · rintro rfl
    refine ⟨rfl, ?_⟩
    show itemNoticePayload i = _
    rw [itemNoticePayload]
    cases i.dispatch.cited <;> rfl
  · rw [Frame.bytes, Frame.header, code_of_mem hc]
  · intro hf
    rw [State.exchangeLink, hf]; rfl
  · intro k hf
    rw [State.intakeLink, hf]; rfl

/-! ### The body, by chunks (R148) -/

/-- The first chunks of a list, joined, are its beginning. -/
theorem flatMap_chunks {α : Type} (xs : List α) (n k : Nat) :
    ((List.range k).flatMap fun m => (xs.drop (n * m)).take n) = xs.take (n * k) := by
  induction k with
  | zero => simp
  | succ k ih => rw [List.range_succ, List.flatMap_append, ih, List.flatMap_singleton, Nat.mul_succ, List.take_add]

theorem sideBodyPayload_eq (x : Side) (off : Nat) :
    sideBodyPayload x off = ((x.body.take x.bodyLen).drop off).take 8192 := by
  rw [sideBodyPayload, List.drop_take, List.take_take, Config.bodyChunk]

/-- Settles O39: a SIDE_BODY payload is a chunk of 8192 of the body, and the chunks reach its end. -/
theorem bodyFramesCarryTheBody : Obligations.BodyFramesCarryTheBody := by
  intro x hlen
  simp only [sideBodyPayload_eq]
  refine ⟨?_, fun m hm => ?_⟩
  · rw [flatMap_chunks]
    exact List.take_of_length_le (by rw [List.length_take]; omega)
  · simp only [List.length_take, List.length_drop]
    omega

end Sys2Proof.Machine
end

