-- ==== Sys2Proof/Proofs/Leaves.lean ====
section
/-! The last frame of a record, and what the Exchange Port starts (R142, R143, R145, R149 to R153, R155, R179). -/

namespace Sys2Proof.Machine

/-! ### A record leaves (R67, R149, R150, R156, R179) -/

/-- A lane's context without a record, with its counters changed. -/
def leftLane (q : Seq) (count : LaneCounters → LaneCounters) (c : Lane) : Lane :=
  { c with list := dropFirst (fun j => j.seq == q) c.list, counters := count c.counters }

/-- The state when a record has left its list: its pages returned, a counter raised, the emission over (R67, R149, R150). -/
def recordLeft (l : Fin 16) (i : Item) (count : LaneCounters → LaneCounters) (s : State) : State :=
  let t := returnPages i.pages (s.modLane l (leftLane i.seq count))
  t.withEgress { t.egress with emission := none }

theorem recordLeaves_eq (l : Fin 16) (i : Item) (count : LaneCounters → LaneCounters) (s : State) :
    recordLeaves l i count s = watchService (evalPaused l (recordLeft l i count s)) := rfl

theorem listsEmpty_iff (s : State) : listsEmpty s = true ↔ ∀ l, (s.lane l).list = [] := by
  simp only [listsEmpty, List.all_eq_true, Vector.mem_toList_iff, List.isEmpty_iff]
  constructor
  · exact fun h l => h _ (Vector.getElem_mem l.isLt)
  · intro h c hc
    obtain ⟨k, hk, rfl⟩ := Vector.mem_iff_getElem.mp hc
    exact h ⟨k, hk⟩

theorem watchService_eq (s : State) : watchService s = { s with
    mgmt := { s.mgmt with
      service := if s.mgmt.service = .draining ∧ ∀ l, (s.lane l).list = [] then .standby else s.mgmt.service } } := by
  simp only [watchService, listsEmpty_iff]
  split <;> rfl

/-- What a leaving head leaves behind: the rest of its list, its pages in the pool, a free link. -/
theorem recordLeft_frame {s : State} {l : Fin 16} {i : Item} {rest : List Item} (hlist : (s.lane l).list = i :: rest)
    (count : LaneCounters → LaneCounters) :
    (recordLeft l i count s).lane l = { s.lane l with list := rest, counters := count (s.lane l).counters }
      ∧ (∀ k, k ≠ l → (recordLeft l i count s).lane k = s.lane k)
      ∧ (recordLeft l i count s).freePages = s.freePages + i.pages
      ∧ (recordLeft l i count s).flow =
          (if i.pages = 0 then s.flow else (evalStop (s.withFree (s.freePages + i.pages))).flow)
      ∧ (recordLeft l i count s).egress = { s.egress with emission := none }
      ∧ ((recordLeft l i count s).intakePort, (recordLeft l i count s).admission, (recordLeft l i count s).reduction,
          (recordLeft l i count s).disposition, (recordLeft l i count s).mgmt) =
          (s.intakePort, s.admission, s.reduction, s.disposition, s.mgmt) := by
  have hdrop : dropFirst (fun j => j.seq == i.seq) (s.lane l).list = rest := by simp [hlist, dropFirst]
  rw [recordLeft, returnPages_eq_blocks]
  have hlane (k : Fin 16) := State.lane_modLane s l k (leftLane i.seq count)
  refine ⟨(hlane l).trans ?_, fun k hk => (hlane k).trans (if_neg (Ne.symm hk)), rfl, ?_, rfl, rfl⟩
  · rw [if_pos rfl, leftLane, hdrop]
  · dsimp only [State.withEgress]
    split
    · rfl
    · rw [evalStop_eq_blocks, evalStop_eq_blocks]; rfl

/-- The service state after a head has left: STANDBY when it was DRAINING and no other record stands in a list (R179). -/
theorem watchService_recordLeft_mgmt {s u : State} {l : Fin 16} {rest : List Item} (hself : (u.lane l).list = rest)
    (hother : ∀ k, k ≠ l → u.lane k = s.lane k) (hmgmt : u.mgmt = s.mgmt) :
    (watchService (evalPaused l u)).mgmt = { s.mgmt with
      service := if s.mgmt.service = .draining ∧ rest = [] ∧ ∀ k, k ≠ l → (s.lane k).list = [] then .standby
        else s.mgmt.service } := by
  have hempty : (∀ k, ((evalPaused l u).lane k).list = []) ↔ rest = [] ∧ ∀ k, k ≠ l → (s.lane k).list = [] := by
    have hlane (k : Fin 16) : ((evalPaused l u).lane k).list = if k = l then rest else (s.lane k).list := by
      split
      next h => rw [h, lane_evalPaused_self, ← hself]
      next h => rw [lane_evalPaused_ne u (Ne.symm h), hother k h]
    simp only [hlane]
    constructor
    · exact fun h => ⟨by simpa using h l, fun k hk => by simpa [hk] using h k⟩
    · rintro ⟨hrest, hlists⟩ k
      split
      · exact hrest
      next hk => exact hlists k hk
  have hkept : (evalPaused l u).mgmt = s.mgmt := (by simp : (evalPaused l u).mgmt = u.mgmt).trans hmgmt
  rw [watchService_eq]
  dsimp only
  rw [hkept]
  simp only [hempty]

/-- The last frame of the record at the head of its lane's list has been sent. -/
theorem lastFrameSent_of_last {last : FrameType} {count : Item → LaneCounters → LaneCounters} {s : State} {e : Emission}
    {i : Item} {f : Frame} (hf : s.egress.inProgress = some f) (he : s.egress.emission = some e) (htype : f.type = last)
    (hi : s.item? e.lane e.seq = some i) :
    lastFrameSent last count s = startAfterLast e.lane (recordLeaves e.lane i (count i) (frameGone s)) := by
  rw [lastFrameSent, hf, he]
  dsimp only
  rw [if_pos htype, hi]

/-- What the end of a record's last frame does: nothing, or the record leaves and the port starts what it can. -/
theorem lastFrameSent_cases (last : FrameType) (count : Item → LaneCounters → LaneCounters) (s : State) :
    lastFrameSent last count s = s ∨ ∃ e i, s.egress.emission = some e
      ∧ lastFrameSent last count s = startAfterLast e.lane (recordLeaves e.lane i (count i) (frameGone s)) := by
  unfold lastFrameSent
  split
  next f e hf he =>
    split
    · split
      · exact .inl rfl
      next i hi => exact .inr ⟨e, i, he, rfl⟩
    · exact .inl rfl
  next => exact .inl rfl
  next => exact .inl rfl

theorem recordLeaves_nextRequest (l : Fin 16) (i : Item) (count : LaneCounters → LaneCounters) (s : State) :
    nextRequest? (recordLeaves l i count s) = nextRequest? s := by
  have h := nextRequest_kept (nextRequest? s)
  exact h.watchService (d := 0) (ow := false) (h.evalPaused (d := 0) (ow := false) _ (h.returnPages (d := 0) (ow := false) rfl))

theorem recordLeaves_inProgress (l : Fin 16) (i : Item) (count : LaneCounters → LaneCounters) (s : State) :
    (recordLeaves l i count s).egress.inProgress = s.egress.inProgress := by
  simp [recordLeaves]

theorem dropFirst_sublist {α : Type} (p : α → Bool) (xs : List α) : (dropFirst p xs).Sublist xs := by
  induction xs with
  | nil => exact .refl _
  | cons x xs ih =>
    rw [dropFirst]
    split
    · exact List.sublist_cons_self ..
    · exact ih.cons_cons x

/-- A record that leaves starts no record of its lane. -/
theorem recordLeaves_startsNone (l : Fin 16) (i : Item) (count : LaneCounters → LaneCounters) (s : State) :
    StartsNone (s.lane l) ((recordLeaves l i count s).lane l) := by
  have h := startsNone_kept (s.lane l) l
  have hleft : StartsNone (s.lane l) ((s.modLane l (leftLane i.seq count)).lane l) := by
    rw [State.lane_modLane_self]
    exact fun q hq => ((dropFirst_sublist ..).map Item.stamp).mem hq
  exact h.watchService (d := 0) (ow := false) (h.evalPaused (d := 0) (ow := false) _ (h.returnPages (d := 0) (ow := false) hleft))

/-- The end of a record's last frame, with the record at the head of its lane's list: the record leaves, and then the port starts
what it can. -/
theorem lastFrameSent_frame {last : FrameType} {count : Item → LaneCounters → LaneCounters} {s : State} {l : Fin 16} {i : Item}
    {rest : List Item} {pt : EmitPoint} {f : Frame} (hf : s.egress.inProgress = some f)
    (hemission : s.egress.emission = some ⟨l, i.seq, pt⟩) (hlist : (s.lane l).list = i :: rest) (htype : f.type = last) :
    ∃ t u, lastFrameSent last count s = startAfterLast l t ∧ t = watchService (evalPaused l u)
      ∧ t.mgmt = { s.mgmt with
          service := if s.mgmt.service = .draining ∧ rest = [] ∧ ∀ k, k ≠ l → (s.lane k).list = [] then .standby
            else s.mgmt.service }
      ∧ u.lane l = { s.lane l with list := rest, counters := count i (s.lane l).counters }
      ∧ (∀ k, k ≠ l → u.lane k = s.lane k) ∧ u.freePages = s.freePages + i.pages
      ∧ u.flow = (if i.pages = 0 then s.flow else (evalStop (s.withFree (s.freePages + i.pages))).flow)
      ∧ u.egress = { s.egress with
          emission := none, inProgress := none
          port := { s.egress.port with framesOut := bump s.egress.port.framesOut } }
      ∧ (u.intakePort, u.admission, u.reduction, u.disposition, u.mgmt) =
          (s.intakePort, s.admission, s.reduction, s.disposition, s.mgmt) := by
  have hi : s.item? l i.seq = some i := (item?_of_split (before := []) hlist (by simp)).1
  obtain ⟨hself, hother, hfree, hflow, hegress, hrest⟩ := recordLeft_frame (s := frameGone s) hlist (count i)
  have hflow' : (recordLeft l i (count i) (frameGone s)).flow =
      (if i.pages = 0 then s.flow else (evalStop (s.withFree (s.freePages + i.pages))).flow) := by
    rw [hflow, evalStop_eq_blocks, evalStop_eq_blocks]; rfl
  have hmgmt : (recordLeft l i (count i) (frameGone s)).mgmt = s.mgmt := by
    simp only [Prod.mk.injEq] at hrest
    exact hrest.2.2.2.2
  refine ⟨_, _, lastFrameSent_of_last hf hemission htype hi, recordLeaves_eq .., ?_, hself, hother, hfree, hflow', hegress, hrest⟩
  exact watchService_recordLeft_mgmt (congrArg Lane.list hself) hother hmgmt

/-- Settles O40: the record leaves by `recordLeft`, and a reset taken next holds back the start after it. -/
theorem recordLeavesAfterItsLastFrame : Obligations.RecordLeavesAfterItsLastFrame := by
  refine ⟨fun s l i rest pt f hf hemission hlist => ⟨fun htype => ?_, fun htype => ?_⟩, watchService_eq,
    fun s t l q pt hemission ht => ?_⟩
  · obtain ⟨t, u, hlast, hrest⟩ := lastFrameSent_frame (count := countEmitted) hf hemission hlist htype
    exact ⟨t, u, congrArg Host.Outcome.next hlast, hrest⟩
  · obtain ⟨t, u, hlast, hrest⟩ := lastFrameSent_frame (count := countNotice) hf hemission hlist htype
    exact ⟨t, u, congrArg Host.Outcome.next hlast, hrest⟩
  · obtain ⟨last, count, rfl⟩ : ∃ last count, t = lastFrameSent last count s := by
      rcases ht with ht | ht
      · exact ⟨_, _, (Host.Outcome.next.inj ht).symm⟩
      · exact ⟨_, _, (Host.Outcome.next.inj ht).symm⟩
    rcases lastFrameSent_cases last count s with hsame | ⟨e, i, he, hleaves⟩
    · rw [hsame]
      exact ⟨fun _ => (startsNoneOf_iff ..).mpr (.refl _), fun _ hne => absurd rfl hne⟩
    · obtain rfl : ⟨l, q, pt⟩ = e := Option.some.inj (hemission.symm.trans he)
      have hnext := recordLeaves_nextRequest l i (count i) (frameGone s)
      rw [hleaves]
      refine ⟨fun hreset => (startsNoneOf_iff ..).mpr ?_, fun hreset _ => ?_⟩
      · rw [startAfterLast_lane_of_reset ((laneResetNext_congr hnext).trans hreset)]
        exact recordLeaves_startsNone l i (count i) (frameGone s)
      · rw [startAfterLast, if_pos ((engineResetNext_congr hnext).trans hreset)]
        exact recordLeaves_inProgress l i (count i) (frameGone s)

/-! ### What the port starts, and the reset that holds it back (R143, R151, R152; logs 32 and 33) -/

theorem startExchange_of_reply {s : State} {p : List Byte} {rest : List (List Byte)} (hhalted : s.egress.halted = false)
    (hidle : s.egress.inProgress = none) (hemission : s.egress.emission = none) (hreplies : s.egress.replies = p :: rest) :
    startExchange s = { s with
      egress := { s.egress with inProgress := some { type := .mgmtReply, lane := 255, seq := 0, payload := p } } } := by
  rw [startExchange, if_neg (by simp [hhalted, hidle]), hemission, hreplies]
  rfl

theorem startExchange_of_no_reply {s : State} (hhalted : s.egress.halted = false) (hidle : s.egress.inProgress = none)
    (hemission : s.egress.emission = none) (hreplies : s.egress.replies = []) : startExchange s = startRecord s := by
  rw [startExchange, if_neg (by simp [hhalted, hidle]), hemission, hreplies]

/-- A reply sent whole leaves its queue; the waiting requests are taken before the port starts (R151, R167; log 20). -/
theorem exec_exchangeReplySent_of_reply {s : State} {f : Frame} {p : List Byte} {rest : List (List Byte)}
    (hf : s.egress.inProgress = some f) (htype : f.type = .mgmtReply) (hreplies : s.egress.replies = p :: rest) :
    exec .exchangeReplySent s = .next (startAfterFrame (takeRequests { s with
      egress := { s.egress with
        inProgress := none
        replies := rest
        port := { s.egress.port with framesOut := bump s.egress.port.framesOut } } })) := by
  have hreply : replyInProgress s = true := by rw [replyInProgress, hf]; exact decide_eq_true htype
  have htail : rest = s.egress.replies.tail := by rw [hreplies, List.tail_cons]
  show Host.Outcome.next (if replyInProgress s then _ else _) = _
  rw [if_pos hreply, htail]
  rfl

theorem wouldStart_iff {l : Fin 16} {s : State} : wouldStart l s = true ↔
    s.egress.emission = none ∧ s.egress.replies = [] ∧ headReady s l = true
      ∧ ∃ k, l = s.egress.roundRobin + k ∧ ∀ k', k' < k → headReady s (s.egress.roundRobin + k') = false := by
  rw [wouldStart, decide_eq_true_iff, nextReadyLane?_eq_some_iff]

theorem startBeside_of_held {l : Fin 16} {s : State} (hreset : laneResetNext l s = true) (hwould : wouldStart l s = true) :
    startBeside l s = s := by
  rw [startBeside, hreset, hwould]; rfl

theorem startBeside_of_not_held {l : Fin 16} {s : State} (h : laneResetNext l s = false ∨ wouldStart l s = false) :
    startBeside l s = startExchange s := by
  have hnot : (laneResetNext l s && wouldStart l s) = false := Bool.and_eq_false_iff.mpr h
  rw [startBeside, hnot]; rfl

theorem nextRequest?_eq_some_iff {s : State} {r : Request} : nextRequest? s = some r ↔
    s.taking = true ∧ s.mgmt.requests = [] ∧ s.flow.replies.length < 8
      ∧ ∃ c rest, s.pending = c :: rest ∧ intakeRequest? c = some r := by
  have hcapacity : Config.replyCapacity = 8 := rfl
  have hhead : s.pending.head?.bind intakeRequest? = some r ↔ ∃ c rest, s.pending = c :: rest ∧ intakeRequest? c = some r := by
    cases s.pending <;> simp
  rw [nextRequest?, hcapacity]
  split
  next h =>
    obtain ⟨htaking, hrequests, hroom⟩ := h
    rw [hhead]
    simp only [htaking, hrequests, hroom, true_and]
  next h =>
    refine ⟨nofun, fun ⟨htaking, hrequests, hroom, _⟩ => absurd ⟨htaking, hrequests, hroom⟩ h⟩

theorem requestOf?_eq_some_iff {payload : List Byte} {r : Request} :
    intakeRequest?.requestOf? payload = some r ↔ ∃ g, parseRequest payload = .request g r := by
  rw [intakeRequest?.requestOf?]
  cases parseRequest payload with
  | request g r' => simp
  | bad e => simp

/-- Settles O41: the port's start by its three cases, and each reset by the request that is taken next. -/
theorem exchangePortStartsInItsOrder : Obligations.ExchangePortStartsInItsOrder := by
  refine ⟨fun s => ⟨startExchange_of_busy, fun hhalted hidle => ⟨fun e i => startExchange_of_emission hhalted hidle,
    fun p rest => startExchange_of_reply hhalted hidle, fun hemission hreplies => ?_⟩⟩,
    fun s f p rest hf htype hreplies hrequests => ?_, fun s f p rest hf htype hreplies => ?_,
    fun s l k hl hreset hemission hreplies hready hbefore => ?_, fun s l => ⟨fun h => ?_, rfl, rfl, ?_, ?_⟩,
    fun tag lane payload r => ⟨rfl, rfl, requestOf?_eq_some_iff, rfl, rfl, rfl⟩⟩
  · rw [startExchange_of_no_reply hhalted hidle hemission hreplies]; rfl
  · rw [exec_exchangeReplySent_of_reply hf htype hreplies, takeRequests_of_nil (by exact hrequests)]
  · exact exec_exchangeReplySent_of_reply hf htype hreplies
  · exact startBeside_of_held hreset (wouldStart_iff.mpr ⟨hemission, hreplies, hready, k, hl, hbefore⟩)
  · refine startBeside_of_not_held ?_
    rw [← Bool.not_eq_true (wouldStart l s), wouldStart_iff]
    rcases h with hreset | hemission | hreplies | hready | ⟨k, k', hl, hk, hready⟩
    · exact .inl hreset
    · exact .inr fun ⟨he, _⟩ => hemission he
    · exact .inr fun ⟨_, hr, _⟩ => hreplies hr
    · exact .inr fun ⟨_, _, hh, _⟩ => by simp [hready] at hh
    · refine .inr fun ⟨_, _, _, m, hm, hbefore⟩ => ?_
      obtain rfl : k = m := add_left_cancel (hl.symm.trans hm)
      simp [hbefore k' hk] at hready
  · rw [laneResetNext, decide_eq_true_iff, nextRequest?_eq_some_iff]
  · rw [engineResetNext, decide_eq_true_iff, nextRequest?_eq_some_iff]

end Sys2Proof.Machine
end

