-- ==== Sys2Proof/Proofs/Requests.lean ====
section
/-! The arrival of a request and its carrying out, and the queue in which requests wait (R166 to R170). -/

namespace Sys2Proof.Machine

/-! ### A request carried out in its event (R167 to R169; log 2) -/

/-- The state with an answer's reply queued for the link of arrival, and what the Exchange Port then starts. -/
def answered (p : Port) (tag : BitVec 16) (a : Answer × State) : State :=
  startExchange (queueReply p (replyPayload tag a.1) a.2)

/-- OK where the value is stored as carried, CLAMPED where it is not. -/
theorem answered_okOr (p : Port) (tag : BitVec 16) {clamped : Bool} {asCarried : Prop} [Decidable asCarried]
    (h : clamped = true ↔ ¬ asCarried) (data : List Byte) (s : State) :
    answered p tag (okOr clamped data, s) = replied p tag (if asCarried then 0x00 else 0x01) data s := by
  cases clamped with
  | true => rw [if_neg (h.mp rfl)]; rfl
  | false => rw [if_pos (not_not.mp (mt h.mpr Bool.false_ne_true))]; rfl

theorem answerRequest_payload (p : Port) (tag : BitVec 16) (r : Request) (s : State) :
    answerRequest ⟨p, r.payload tag⟩ s = queueReply p (replyPayload tag (carryOut p r s).1) (carryOut p r s).2 := by
  rw [answerRequest, parseRequest_payload]

theorem receiveNamed_of_ready {p : Port} {s : State} (h : ReadyFor p s) (tag : BitVec 16) (r : Request) :
    receiveNamed p tag r s = answered p tag (carryOut p r (countIn p s)) := by
  rw [receiveNamed, receiveRequest_ready p _ s h (r.payload_length_le tag), answerRequest_payload]; rfl

theorem carryOut_intake (r : Request) (s : State) : carryOut .intake r s = serve r s := if_neg fun h => nomatch h.1

theorem carryOut_of_isRead (p : Port) {r : Request} (h : r.isRead = true) (s : State) : carryOut p r s = serve r s :=
  if_neg fun hnot => by simp [h] at hnot

theorem carryOut_exchange_of_not_isRead {r : Request} (h : r.isRead = false) (s : State) :
    carryOut .exchange r s = (.refused .notPermitted, s) := if_pos ⟨rfl, h⟩

/-- A read, from either link. -/
theorem next_of_read {p : Port} {s : State} (h : ReadyFor p s) (tag : BitVec 16) {r : Request} {a : Answer × State}
    (hread : r.isRead = true) (ha : serve r (countIn p s) = a) :
    (.next (receiveNamed p tag r s) : Result) = .next (answered p tag a) := by
  rw [receiveNamed_of_ready h, carryOut_of_isRead p hread, ha]

/-- Any request from the intake link. -/
theorem next_of_intake {s : State} (h : ReadyFor .intake s) (tag : BitVec 16) {r : Request} {a : Answer × State}
    (ha : serve r (countIntakeIn s) = a) :
    (.next (receiveNamed .intake tag r s) : Result) = .next (answered .intake tag a) := by
  rw [receiveNamed_of_ready h, carryOut_intake]
  exact congrArg (fun a => Host.Outcome.next (answered .intake tag a)) ha

/-! ### Payloads that fail checks 1 to 3 (R168) -/

/-- The tag to echo of a bad payload: its own when it holds a whole request header, else 0. -/
theorem tag_of_parseRequest_bad {payload : List Byte} {tag : BitVec 16} (h : parseRequest payload = .bad tag) :
    (∀ c t1 t0 ops, payload = c :: t1 :: t0 :: ops → tag = word16 t1 t0) ∧ (payload.length < 3 → tag = 0) := by
  constructor
  · rintro c t1 t0 ops rfl
    rw [parseRequest] at h
    cases hops : parseOperands c ops with
    | none => rw [hops] at h; exact (Parsed.bad.inj h).symm
    | some r => rw [hops] at h; cases h
  · intro hshort
    match payload, hshort with
    | [], _ | [_], _ | [_, _], _ => exact (Parsed.bad.inj h).symm

theorem isBadPayload_iff (payload : List Byte) : isBadPayload payload = true ↔ ∃ tag, parseRequest payload = .bad tag := by
  rw [isBadPayload]
  cases parseRequest payload <;> simp

/-- A payload fails checks 1 to 3 exactly when it is no request's payload. -/
theorem isBadPayload_iff_ne (payload : List Byte) :
    isBadPayload payload = true ↔ ∀ (tag : BitVec 16) (r : Request), payload ≠ r.payload tag := by
  rw [isBadPayload_iff]
  constructor
  · rintro ⟨tag, hbad⟩ tag' r rfl
    rw [parseRequest_payload] at hbad
    cases hbad
  · intro hnone
    cases hparse : parseRequest payload with
    | bad tag => exact ⟨tag, rfl⟩
    | request tag r => exact absurd (payload_of_parseRequest hparse) (hnone tag r)

theorem answerRequest_of_bad {p : Port} {payload : List Byte} {tag : BitVec 16} (h : parseRequest payload = .bad tag) (s : State) :
    answerRequest ⟨p, payload⟩ s = queueReply p (be16 tag ++ [0x02, 0x01]) s := by
  rw [answerRequest, h]; rfl

theorem isRead_eq_false {r : Request} (hmember : ∀ i, r ≠ .readMember i) (hprofile : ∀ i, r ≠ .readProfile i)
    (hdisposition : ∀ i, r ≠ .readDisposition i) (hfield : ∀ l f, r ≠ .readLaneField l f) (hsetting : ∀ n, r ≠ .readSetting n)
    (hcounters : ∀ g l, r ≠ .readCounters g l 0) (hidentity : r ≠ .readIdentity) : r.isRead = false := by
  cases r with
  | readMember i => exact absurd rfl (hmember i)
  | readProfile i => exact absurd rfl (hprofile i)
  | readDisposition i => exact absurd rfl (hdisposition i)
  | readLaneField l f => exact absurd rfl (hfield l f)
  | readSetting n => exact absurd rfl (hsetting n)
  | readIdentity => exact absurd rfl hidentity
  | readCounters g l c =>
    refine beq_eq_false_iff_ne.mpr ?_
    rintro rfl
    exact hcounters g l rfl
  | _ => rfl

/-- Settles O45: a ready part answers in the event of the arrival; the exchange link is refused what is not a read. -/
theorem requestIsCarriedOutWhenItArrives : Obligations.RequestIsCarriedOutWhenItArrives := by
  refine ⟨fun p s h => ⟨fun tag r => congrArg Host.Outcome.next (receiveNamed_of_ready h tag r), fun payload hlength hbad => ?_⟩,
    fun tag r s h hmember hprofile hdisposition hfield hsetting hcounters hidentity => ?_, isBadPayload_iff_ne⟩
  · obtain ⟨tag, hparse⟩ := (isBadPayload_iff payload).mp hbad
    refine ⟨tag, congrArg Host.Outcome.next ?_, tag_of_parseRequest_bad hparse⟩
    rw [receiveRequest_ready p payload s h hlength, answerRequest_of_bad hparse]
    rfl
  · have hread : r.isRead = false := isRead_eq_false hmember hprofile hdisposition hfield hsetting hcounters hidentity
    refine congrArg Host.Outcome.next ((receiveNamed_of_ready h tag r).trans ?_)
    rw [carryOut_exchange_of_not_isRead hread]
    rfl

/-! ### The request queue (R166, R167) -/

/-- The fuel of the taking does not matter once it covers the waiting requests. -/
theorem takeUpTo_eq_of_le {n m : Nat} {s : State} (hn : s.mgmt.requests.length ≤ n) (hm : s.mgmt.requests.length ≤ m) :
    takeUpTo n s = takeUpTo m s := by
  induction n generalizing s m with
  | zero =>
    have hnil : s.mgmt.requests = [] := List.length_eq_zero_iff.mp (Nat.le_zero.mp hn)
    cases m with
    | zero => rfl
    | succ m => rw [takeUpTo, takeUpTo, hnil]
  | succ n ih =>
    cases m with
    | zero =>
      have hnil : s.mgmt.requests = [] := List.length_eq_zero_iff.mp (Nat.le_zero.mp hm)
      rw [takeUpTo, takeUpTo, hnil]
    | succ m =>
      rw [takeUpTo, takeUpTo]
      cases hrequests : s.mgmt.requests with
      | nil => rfl
      | cons e rest =>
        dsimp only
        rw [hrequests, List.length_cons, Nat.succ_le_succ_iff] at hn hm
        split
        · exact ih (answerRequest_requests_le hn) (answerRequest_requests_le hm)
        · rfl

theorem takeRequests_of_waiting {s : State} {e : RequestEntry} {rest : List RequestEntry} (hrequests : s.mgmt.requests = e :: rest)
    (hfull : replyRoom e.port s = false) : takeRequests s = s := by
  rw [takeRequests, hrequests, List.length_cons, takeUpTo, hrequests]
  dsimp only
  rw [if_neg (by simp [hfull])]

/-- A head whose link has a free reply place is carried out on the state without it, and those behind it follow. -/
theorem takeRequests_of_room {s : State} {e : RequestEntry} {rest : List RequestEntry} (hrequests : s.mgmt.requests = e :: rest)
    (hroom : replyRoom e.port s = true) :
    takeRequests s = takeRequests (answerRequest e (s.withMgmt { s.mgmt with requests := rest })) := by
  rw [takeRequests, hrequests, List.length_cons, takeUpTo, hrequests]
  dsimp only
  rw [if_pos hroom]
  exact takeUpTo_eq_of_le (answerRequest_requests_le (le_refl _)) (le_refl _)

theorem replyRoom_eq_false_iff {p : Port} {s : State} : replyRoom p s = false ↔ 8 ≤ (repliesOf p s).length := by
  rw [← Bool.not_eq_true, replyRoom_iff]
  omega

/-- A head that finds no reply place leaves every request waiting. -/
theorem takeRequests_of_settled {s : State} (h : RequestsSettled s) : takeRequests s = s := by
  cases hrequests : s.mgmt.requests with
  | nil => exact takeRequests_of_nil hrequests
  | cons e rest => exact takeRequests_of_waiting hrequests (h e rest hrequests)

/-- An arrival that leaves the exchange link and the records as they were starts nothing when nothing was left to start. -/
theorem startExchange_of_settled {s t : State} (h : ExchangeSettled s) (hprogress : t.egress.inProgress = s.egress.inProgress)
    (hhalted : t.egress.halted = s.egress.halted) (hemission : t.egress.emission = s.egress.emission)
    (hreplies : t.egress.replies = s.egress.replies) (hlanes : t.lanes = s.lanes) : startExchange t = t := by
  refine startExchange_of_nothing ?_
  have hnothing := ((exchangeSettled_iff s).mp h).2
  have hready (l : Fin 16) : headReady t l = headReady s l := by rw [headReady_eq, headReady_eq, lane_congr hlanes]
  simpa only [NothingToStart, hprogress, hhalted, hemission, hreplies, hready] using hnothing

/-- A request that has to wait changes nothing but the Management Unit, and the exchange link has nothing to start. -/
theorem exec_mgmtRequest_of_waiting {p : Port} {payload : List Byte} {s : State} {m : Mgmt} (htaking : s.taking = true)
    (hlength : payload.length ≤ 16384) (hexchange : ExchangeSettled s)
    (hjoin : joinRequests ⟨p, payload⟩ (countIn p s) = (countIn p s).withMgmt m)
    (hwaits : HeadWaits m.requests s.flow.replies s.egress.replies) :
    exec (.mgmtRequest p payload) s = .next ((countIn p s).withMgmt m) := by
  have hsettled : RequestsSettled ((countIn p s).withMgmt m) := by
    rw [requestsSettled_iff]
    cases p <;> exact hwaits
  have hstart : startExchange ((countIn p s).withMgmt m) = (countIn p s).withMgmt m := by
    cases p <;> exact startExchange_of_settled hexchange rfl rfl rfl rfl rfl
  rw [exec_mgmtRequest_of_length p hlength, whenTaking_of_taking htaking, handRequest, hjoin, takeRequests_of_settled hsettled, hstart]

theorem headWaits_append {requests : List RequestEntry} {intake exchange : List (List Byte)} {e : RequestEntry}
    (h : HeadWaits requests intake exchange)
    (he : requests = [] → 8 ≤ (if e.port = .intake then intake else exchange).length) :
    HeadWaits (requests ++ [e]) intake exchange := by
  intro head rest hcons
  cases requests with
  | nil =>
    obtain ⟨rfl, -⟩ := List.cons.inj hcons
    exact he rfl
  | cons first tail =>
    obtain ⟨rfl, -⟩ := List.cons.inj hcons
    exact h _ _ rfl

/-- Settles O46: a queue whose head waits is left as it is, and a head that does not is answered on the state without it. -/
theorem requestWaitsOrOverflows : Obligations.RequestWaitsOrOverflows := by
  refine ⟨fun p payload s htaking hlength hsettled hexchange => ⟨fun hroom hwaits => ?_, fun hfull => ?_⟩,
    fun s => ⟨takeRequests_of_nil, fun p payload rest u hrequests hu => ⟨fun hfull => ?_, fun hroom => ⟨?_, ?_⟩⟩⟩,
    fun payload s => ⟨rfl, rfl⟩⟩
  · have hheads := (requestsSettled_iff s).mp hsettled
    refine exec_mgmtRequest_of_waiting htaking hlength hexchange ?_ (headWaits_append hheads fun hnil => ?_)
    · rw [joinRequests, if_pos (by rw [countIn_mgmt]; exact hroom), countIn_mgmt]
    · have hplaces := hwaits.resolve_left (not_not.mpr hnil)
      cases p <;> exact hplaces
  · refine exec_mgmtRequest_of_waiting htaking hlength hexchange ?_ ((requestsSettled_iff s).mp hsettled)
    rw [joinRequests, if_neg (by rw [countIn_mgmt]; exact Nat.not_lt.mpr hfull), countIn_mgmt]
  · exact takeRequests_of_waiting hrequests (replyRoom_eq_false_iff.mpr hfull)
  · rintro tag r rfl
    rw [takeRequests_of_room hrequests ((replyRoom_iff p s).mpr (by omega)), answerRequest_payload, hu]
  · intro hbad
    obtain ⟨tag, hparse⟩ := (isBadPayload_iff payload).mp hbad
    refine ⟨tag, ?_, tag_of_parseRequest_bad hparse⟩
    rw [takeRequests_of_room hrequests ((replyRoom_iff p s).mpr (by omega)), answerRequest_of_bad hparse, hu]

end Sys2Proof.Machine
end

