-- ==== Sys2Proof/Proofs/Reads.lean ====
section
/-! What the reads return, and the counters that a read clears (R75, R104, R115, R168 to R175, R187). -/

namespace Sys2Proof.Machine

/-! ### Indices that name an entry -/

theorem memberIndex?_of_lt {i : BitVec 16} (h : i.toNat < 1024) : memberIndex? i = some ⟨i.toNat, h⟩ := dif_pos h
theorem memberIndex?_of_not_lt {i : BitVec 16} (h : ¬ i.toNat < 1024) : memberIndex? i = none := dif_neg h
theorem profileIndex?_of_lt {i : Byte} (h : i.toNat < 64) : profileIndex? i = some ⟨i.toNat, h⟩ := dif_pos h
theorem profileIndex?_of_not_lt {i : Byte} (h : ¬ i.toNat < 64) : profileIndex? i = none := dif_neg h
theorem descriptorIndex?_of_lt {i : Byte} (h : i.toNat < 16) : descriptorIndex? i = some ⟨i.toNat, h⟩ := dif_pos h
theorem descriptorIndex?_of_not_lt {i : Byte} (h : ¬ i.toNat < 16) : descriptorIndex? i = none := dif_neg h

/-! ### What is read (R75, R174, R187) -/

theorem laneField?_countIn (p : Port) (s : State) (l : Fin 16) (field : Byte) :
    laneField? (countIn p s) l field = laneField? s l field := by cases p <;> rfl

theorem listPages_eq_sum (is : List Item) : listPages is = (is.map Item.pages).sum := by
  induction is with
  | nil => rfl
  | cons i is ih => rw [listPages, ih, List.map_cons, List.sum_cons]

/-- A number above 13 names no lane field. -/
theorem laneField?_eq_none {s : State} {l : Fin 16} {field : Byte} (h : 13 < field.toNat) : laneField? s l field = none := by
  unfold laneField?
  dsimp only
  split
  case h_15 => rfl
  all_goals omega

theorem identityData_eq : identityData = [0x17, 0xE8, 0x01, 0x10, 0x04, 0x08, 0x00, 0x00, 0x01, 0x00, 0x00] := by decide

theorem length_profileData (p : Profile) : (profileData p).length = 32 := rfl

/-- The operand that a record's 32 bytes are. -/
def operandOf (p : Profile) : ProfileOperand :=
  { valid := flagByte p.valid, outRes := BitVec.ofNat 16 p.outRes, initialBackground := byteOf p.initialBackground,
    tq := byteOf p.tq, darkLimit := byteOf p.darkLimit, lightLimit := byteOf p.lightLimit, attackShift := byteOf p.attackShift,
    decayShift := byteOf p.decayShift, widthMin := BitVec.ofNat 16 p.widthMin, widthMax := BitVec.ofNat 16 p.widthMax,
    heightMin := BitVec.ofNat 16 p.heightMin, heightMax := BitVec.ofNat 16 p.heightMax, blackMin := BitVec.ofNat 16 p.blackMin,
    blackMax := BitVec.ofNat 16 p.blackMax, brightMin := byteOf p.brightMin, brightMax := byteOf p.brightMax,
    streakPermille := BitVec.ofNat 16 p.streakPermille, streakLimit := byteOf p.streakLimit, budget := BitVec.ofNat 24 p.budget,
    pairTolerance := byteOf p.pairTolerance, mask := p.mask }

theorem profileBytes_operandOf (p : Profile) : profileBytes (operandOf p) = profileData p := rfl

theorem flagOf_flagByte (b : Bool) : flagOf (flagByte b) = some b := by cases b <;> rfl

theorem toNat_byteOf {n : Nat} (h : n ≤ 255) : (byteOf n).toNat = n := by
  rw [byteOf, BitVec.toNat_ofNat]
  omega

theorem toNat_ofNat16 {n : Nat} (h : n ≤ 4095) : (BitVec.ofNat 16 n).toNat = n := by
  rw [BitVec.toNat_ofNat]
  omega

/-- A record in range is read back from its 32 bytes. -/
theorem rawProfile?_operandOf {p : Profile} (h : ProfileInRange p) : rawProfile? (operandOf p) = some p := by
  obtain ⟨hres, hinitial, htq, hdark, hlight, hattack, hdecay, hwidth, hheight, hblack, hbright, hpermille, hlimit, hbudget,
    htolerance⟩ := h
  have hout : p.outRes ≤ 4095 := by
    simp only [List.mem_cons, List.not_mem_nil, or_false] at hres
    omega
  have hbytes : (BitVec.ofNat 24 p.budget).toNat = p.budget := by
    rw [BitVec.toNat_ofNat]
    omega
  rw [rawProfile?, operandOf, flagOf_flagByte]
  simp only [Option.map_some]
  rw [toNat_ofNat16 hout, toNat_byteOf hinitial, toNat_byteOf (n := p.tq) (by omega), toNat_byteOf (n := p.darkLimit) (by omega),
    toNat_byteOf (n := p.lightLimit) (by omega), toNat_byteOf (n := p.attackShift) (by omega),
    toNat_byteOf (n := p.decayShift) (by omega), toNat_ofNat16 (n := p.widthMin) (by omega),
    toNat_ofNat16 (n := p.widthMax) (by omega), toNat_ofNat16 (n := p.heightMin) (by omega),
    toNat_ofNat16 (n := p.heightMax) (by omega), toNat_ofNat16 (n := p.blackMin) (by omega),
    toNat_ofNat16 (n := p.blackMax) (by omega), toNat_byteOf (n := p.brightMin) (by omega),
    toNat_byteOf (n := p.brightMax) (by omega), toNat_ofNat16 (n := p.streakPermille) (by omega),
    toNat_byteOf (n := p.streakLimit) (by omega), hbytes, toNat_byteOf htolerance]

theorem group?_lane (l : Fin 16) : group? 0 (BitVec.ofNat 8 l.val) = some (.lane l) := by
  rw [group?, if_pos rfl, lane?_ofNat]; rfl

theorem group?_of_bad_lane {lane : Byte} (h : 15 < lane.toNat) : group? 0 lane = none := by
  rw [group?, if_pos rfl, (lane?_eq_none_iff lane).mpr h]; rfl

theorem group?_of_gt {g lane : Byte} (h : 3 < g.toNat) : group? g lane = none := by
  have hne {k : Byte} (hk : k.toNat ≤ 3) : g ≠ k := fun heq => by subst heq; omega
  rw [group?, if_neg (hne (by decide)), if_neg (hne (by decide)), if_neg (hne (by decide)), if_neg (hne (by decide))]

/-- Settles O47: each read from its index or its number, and the field and counter tables by their definitions. -/
theorem readsReturnWhatIsStored : Obligations.ReadsReturnWhatIsStored := by
  refine ⟨fun p tag s h => ⟨fun i => ?_, fun i => ?_, fun i => ?_, fun lane field => ?_, fun n => ?_, fun g lane => ?_, ?_⟩,
    fun s l => ⟨?_, rfl, rfl, rfl, rfl, rfl, rfl, rfl, rfl, rfl, rfl, rfl, ?_, ?_, fun field => laneField?_eq_none⟩,
    fun g lane => ⟨?_, ?_, ?_, ?_, group?_of_gt⟩, fun s l => ⟨rfl, rfl, rfl, rfl⟩,
    fun p => ⟨rfl, length_profileData p, fun hp => ⟨operandOf p, ?_, rawProfile?_operandOf hp⟩⟩⟩
  · by_cases hi : i.toNat < 1024
    · have hserve : serve (.readMember i) (countIn p s) = (.ok (memberData s.admission.members[i.toNat]), countIn p s) := by
        simp [serve, serveReadMember, memberIndex?_of_lt hi]
      rw [Vector.getElem?_eq_getElem hi]
      exact next_of_read h tag rfl hserve
    · have hserve : serve (.readMember i) (countIn p s) = (.refused .badIndex, countIn p s) := by
        simp [serve, serveReadMember, memberIndex?_of_not_lt hi]
      rw [Vector.getElem?_eq_none (by omega)]
      exact next_of_read h tag rfl hserve
  · by_cases hi : i.toNat < 64
    · have hserve : serve (.readProfile i) (countIn p s) = (.ok (profileData s.admission.profiles[i.toNat]), countIn p s) := by
        simp [serve, serveReadProfile, profileIndex?_of_lt hi]
      rw [Vector.getElem?_eq_getElem hi]
      exact next_of_read h tag rfl hserve
    · have hserve : serve (.readProfile i) (countIn p s) = (.refused .badIndex, countIn p s) := by
        simp [serve, serveReadProfile, profileIndex?_of_not_lt hi]
      rw [Vector.getElem?_eq_none (by omega)]
      exact next_of_read h tag rfl hserve
  · by_cases hi : i.toNat < 16
    · have hserve : serve (.readDisposition i) (countIn p s) =
          (.ok (descriptorData s.disposition.descriptors[i.toNat]), countIn p s) := by
        simp [serve, serveReadDisposition, descriptorIndex?_of_lt hi]
      rw [Vector.getElem?_eq_getElem hi]
      exact next_of_read h tag rfl hserve
    · have hserve : serve (.readDisposition i) (countIn p s) = (.refused .badIndex, countIn p s) := by
        simp [serve, serveReadDisposition, descriptorIndex?_of_not_lt hi]
      rw [Vector.getElem?_eq_none (by omega)]
      exact next_of_read h tag rfl hserve
  · cases hl : lane? lane with
    | none =>
      have hserve : serve (.readLaneField lane field) (countIn p s) = (.refused .badIndex, countIn p s) := by
        simp [serve, serveReadLaneField, hl]
      exact next_of_read h tag rfl hserve
    | some l =>
      cases hv : laneField? s l field with
      | none =>
        have hserve : serve (.readLaneField lane field) (countIn p s) = (.refused .badField, countIn p s) := by
          simp [serve, serveReadLaneField, hl, laneField?_countIn, hv]
        dsimp only
        rw [hv]
        exact next_of_read h tag rfl hserve
      | some v =>
        have hserve : serve (.readLaneField lane field) (countIn p s) = (.ok (be32 v), countIn p s) := by
          simp [serve, serveReadLaneField, hl, laneField?_countIn, hv]
        dsimp only
        rw [hv]
        exact next_of_read h tag rfl hserve
  · have hserve : serve (.readSetting n) (countIn p s) =
        (if n = 0 then .ok (num16 s.disposition.extent)
          else if n = 1 then .ok (num16 s.mgmt.pageReserve)
          else if n = 2 then .ok (num16 s.mgmt.resumeMargin)
          else .refused .badIndex, countIn p s) := by
      simp only [serve, serveReadSetting, settingExtent, settingReserve, settingMargin, countIn_disposition, countIn_mgmt]
      split_ifs <;> rfl
    refine (next_of_read h tag rfl hserve).trans (congrArg Host.Outcome.next ?_)
    split_ifs <;> rfl
  · cases hg : group? g lane with
    | none =>
      have hserve : serve (.readCounters g lane 0) (countIn p s) = (.refused .badIndex, countIn p s) := by
        simp [serve, serveReadCounters, hg]
      exact next_of_read h tag rfl hserve
    | some k =>
      have hserve : serve (.readCounters g lane 0) (countIn p s) =
          (.ok (g :: lane :: (groupCounters (countIn p s) k).flatMap be32), countIn p s) := by
        simp [serve, serveReadCounters, hg, flagOf]
      exact next_of_read h tag rfl hserve
  · have hserve : serve .readIdentity (countIn p s) =
        (.ok [0x17, 0xE8, 0x01, 0x10, 0x04, 0x08, 0x00, 0x00, 0x01, 0x00, 0x00], countIn p s) := by
      rw [serve, identityData_eq]
    exact next_of_read h tag rfl hserve
  · show some (BitVec.ofNat 32 (laneStateCode (s.lane l).state)) = _
    cases (s.lane l).state <;> rfl
  · show some (BitVec.ofNat 32 (headStateCode (s.lane l))) = _
    rw [headStateCode]
    cases (s.lane l).list with
    | nil => rfl
    | cons i rest => simp only [List.head?_cons, Option.map_some]; cases i.state <;> rfl
  · rw [← listPages_eq_sum]; rfl
  · rintro rfl
    refine ⟨?_, group?_of_bad_lane⟩
    rintro l rfl
    exact group?_lane l
  · rintro rfl; rfl
  · rintro rfl; rfl
  · rintro rfl; rfl
  · rw [← profileBytes_operandOf, profileOperand?_profileBytes]

/-! ### Counters cleared by a read (R174) -/

/-- Clearing a group leaves every counter of it 0. -/
theorem groupCounters_clearGroup_self (s : State) (k : CounterGroup) : ∀ c ∈ groupCounters (clearGroup k s) k, c = 0 := by
  cases k with
  | lane l =>
    have hlane : groupCounters (clearGroup (.lane l) s) (.lane l) = laneCounterList LaneCounters.zero := by
      simp only [groupCounters, clearGroup, lane_countLane_self]
    rw [hlane]
    simp [laneCounterList, LaneCounters.zero]
  | intakePort => simp [groupCounters, clearGroup, portCounterList, PortCounters.zero]
  | exchangePort => simp [groupCounters, clearGroup, portCounterList, PortCounters.zero, modExchangePort]
  | engine => simp [groupCounters, clearGroup, engineCounterList]

/-- Clearing a group leaves the counters of the other groups. -/
theorem groupCounters_clearGroup_ne (s : State) {j k : CounterGroup} (h : j ≠ k) :
    groupCounters (clearGroup k s) j = groupCounters s j := by
  cases k with
  | lane l =>
    cases j with
    | lane m =>
      have hne : l ≠ m := fun e => h (e ▸ rfl)
      simp only [groupCounters, clearGroup, lane_countLane_ne _ _ hne]
    | intakePort => rfl
    | exchangePort => rfl
    | engine => rfl
  | intakePort =>
    cases j with
    | intakePort => exact absurd rfl h
    | lane m => rfl
    | exchangePort => rfl
    | engine => rfl
  | exchangePort =>
    cases j with
    | exchangePort => exact absurd rfl h
    | lane m => rfl
    | intakePort => rfl
    | engine => rfl
  | engine =>
    cases j with
    | engine => exact absurd rfl h
    | lane m => rfl
    | intakePort => rfl
    | exchangePort => rfl

/-- Settles O50: the counters are read before the group is cleared. -/
theorem clearAfterReadZeroesTheGroup : Obligations.ClearAfterReadZeroesTheGroup := by
  refine fun tag g lane s h => ⟨fun k hk => ⟨?_, groupCounters_clearGroup_self s k, fun j => groupCounters_clearGroup_ne s,
    fun c h0 h1 => ?_⟩, fun hk c => ?_⟩
  · have hserve : serve (.readCounters g lane 1) (countIntakeIn s) =
        (.ok (g :: lane :: (groupCounters (countIntakeIn s) k).flatMap be32), clearGroup k (countIntakeIn s)) := by
      simp [serve, serveReadCounters, hk, flagOf]
    exact next_of_intake h tag hserve
  · have hserve : serve (.readCounters g lane c) (countIntakeIn s) = (.refused .badField, countIntakeIn s) := by
      have hflag : flagOf c = none := by rw [flagOf, if_neg h1, if_neg h0]
      simp [serve, serveReadCounters, hk, hflag]
    exact next_of_intake h tag hserve
  · have hserve : serve (.readCounters g lane c) (countIntakeIn s) = (.refused .badIndex, countIntakeIn s) := by
      simp [serve, serveReadCounters, hk]
    exact next_of_intake h tag hserve

end Sys2Proof.Machine
end

