-- ==== Sys2Proof/Proofs/Writes.lean ====
section
/-! The writes of table entries: the operands that name them, and the clamping of a profile (R101 to R103, R115, R187). -/

namespace Sys2Proof.Machine

/-! ### Operand bytes and what they name (R187) -/

theorem flagOf_eq_none_iff (b : Byte) : flagOf b = none ↔ b ≠ 0 ∧ b ≠ 1 := by
  unfold flagOf
  split_ifs <;> simp_all

theorem eq_flagByte_of_flagOf {b : Byte} {v : Bool} (h : flagOf b = some v) : b = flagByte v := by
  unfold flagOf at h
  split_ifs at h <;> simp_all [flagByte]

theorem flagOf_eq_decide {b : Byte} {v : Bool} (h : flagOf b = some v) : v = decide (b = 1) := by
  obtain rfl := eq_flagByte_of_flagOf h
  cases v <;> rfl

theorem status?_eq_none_iff (b : Byte) : status? b = none ↔ b ≠ 0 ∧ b ≠ 1 := by
  unfold status?
  split_ifs <;> simp_all

theorem eq_statusByte_of_status? {b : Byte} {v : MemberStatus} (h : status? b = some v) : b = statusByte v := by
  unfold status? at h
  split_ifs at h <;> (obtain rfl := Option.some.inj h; assumption)

theorem profileIndex?_eq_none_iff (b : Byte) : profileIndex? b = none ↔ 63 < b.toNat := by
  unfold profileIndex?
  split <;> simp <;> omega

theorem toNat_of_profileIndex? {b : Byte} {i : Fin 64} (h : profileIndex? b = some i) : b.toNat = i.val := by
  unfold profileIndex? at h
  split at h
  · obtain rfl := Option.some.inj h; rfl
  · cases h

theorem eq_byteOf_of_profileIndex? {b : Byte} {i : Fin 64} (h : profileIndex? b = some i) : b = byteOf i.val := by
  rw [← toNat_of_profileIndex? h, byteOf, BitVec.ofNat_toNat, BitVec.setWidth_eq]

theorem mapEntry?_eq_none_iff (b : Byte) : mapEntry? b = none ↔ 63 < b.toNat ∧ b ≠ 255 := by
  unfold mapEntry?
  split
  next h => simp [h]
  next h => rw [Option.map_eq_none_iff, profileIndex?_eq_none_iff, and_iff_left h]

theorem eq_mapEntryByte_of_mapEntry? {b : Byte} {x : Option (Fin 64)} (h : mapEntry? b = some x) : b = mapEntryByte x := by
  unfold mapEntry? at h
  split at h
  next hnone => obtain rfl := Option.some.inj h; exact hnone
  next =>
    obtain ⟨i, hi, rfl⟩ := Option.map_eq_some_iff.mp h
    exact eq_byteOf_of_profileIndex? hi

/-! ### Class maps -/

theorem mapM_eq_none_iff {α β : Type} {f : α → Option β} {xs : List α} : xs.mapM f = none ↔ ∃ x ∈ xs, f x = none := by
  induction xs with
  | nil => simp
  | cons x xs ih =>
    rw [List.mapM_cons, List.exists_mem_cons_iff, ← ih]
    cases f x <;> cases xs.mapM f <;> simp

theorem mapM_eq_some {α β : Type} {f : α → Option β} {g : β → α} (h : ∀ x y, f x = some y → x = g y) {xs : List α} {ys : List β}
    (hxs : xs.mapM f = some ys) : xs = ys.map g := by
  induction xs generalizing ys with
  | nil => obtain rfl := Option.some.inj hxs; rfl
  | cons x xs ih =>
    rw [List.mapM_cons] at hxs
    cases hx : f x with
    | none => simp [hx] at hxs
    | some y =>
      cases hys : xs.mapM f with
      | none => simp [hx, hys] at hxs
      | some zs =>
        obtain rfl : y :: zs = ys := by simpa [hx, hys] using hxs
        rw [List.map_cons, ← h x y hx, ← ih hys]

theorem toList_classMap? (v : Vector Byte 8) : (classMap? v).map Vector.toList = v.toList.mapM mapEntry? := by
  have harray : Vector.toArray <$> v.mapM mapEntry? = v.toArray.mapM mapEntry? := Vector.toArray_mapM
  have hlist : Array.toList <$> v.toArray.mapM mapEntry? = v.toArray.toList.mapM mapEntry? := Array.toList_mapM
  rw [← harray] at hlist
  rw [classMap?]
  cases hv : v.mapM mapEntry? <;> (rw [hv] at hlist; exact hlist)

theorem classMap?_eq_none_iff (v : Vector Byte 8) :
    classMap? v = none ↔ ∃ c : Fin 8, 63 < (v[c.val]).toNat ∧ v[c.val] ≠ 255 := by
  rw [← Option.map_eq_none_iff (f := Vector.toList), toList_classMap?, mapM_eq_none_iff]
  simp only [mapEntry?_eq_none_iff, Vector.mem_toList_iff, Vector.mem_iff_getElem]
  constructor
  · rintro ⟨x, ⟨i, hi, rfl⟩, hbad⟩
    exact ⟨⟨i, hi⟩, hbad⟩
  · rintro ⟨c, hbad⟩
    exact ⟨_, ⟨c.val, c.isLt, rfl⟩, hbad⟩

theorem mapEntryByte_eq (x : Option (Fin 64)) : mapEntryByte x = (x.map fun p => BitVec.ofNat 8 p.val).getD 255 := by
  cases x <;> rfl

theorem toList_of_classMap? {v : Vector Byte 8} {m : Vector (Option (Fin 64)) 8} (h : classMap? v = some m) :
    v.toList = m.toList.map mapEntryByte := by
  have hlist := toList_classMap? v
  rw [h] at hlist
  exact mapM_eq_some (fun _ _ => eq_mapEntryByte_of_mapEntry?) hlist.symm

/-! ### Member entries and descriptors (R101, R115) -/

theorem memberOf?_eq_none_iff (o : MemberOperand) : memberOf? o = none ↔
    flagOf o.present = none ∨ status? o.status = none ∨ profileIndex? o.defaultProfile = none ∨ classMap? o.classMap = none := by
  unfold memberOf?
  split
  next hp hs hd hm => simp [hp, hs, hd, hm]
  next hnone =>
    simp only [true_iff]
    by_contra hall
    simp only [not_or, ← ne_eq, Option.ne_none_iff_exists'] at hall
    obtain ⟨⟨p, hp⟩, ⟨st, hs⟩, ⟨d, hd⟩, m, hm⟩ := hall
    exact hnone p st d m hp hs hd hm

theorem fields_of_memberOf? {o : MemberOperand} {e : MemberEntry} (h : memberOf? o = some e) :
    flagOf o.present = some e.present ∧ status? o.status = some e.status
      ∧ profileIndex? o.defaultProfile = some e.defaultProfile ∧ classMap? o.classMap = some e.classMap := by
  unfold memberOf? at h
  split at h
  next hp hs hd hm =>
    obtain rfl := Option.some.inj h
    exact ⟨hp, hs, hd, hm⟩
  next => cases h

/-- The entry that a write stores is given back by its bytes. -/
theorem memberData_of_memberOf? {o : MemberOperand} {e : MemberEntry} (h : memberOf? o = some e) :
    memberData e = o.present :: o.status :: o.defaultProfile :: o.classMap.toList := by
  obtain ⟨hpresent, hstatus, hdefault, hmap⟩ := fields_of_memberOf? h
  rw [eq_flagByte_of_flagOf hpresent, eq_statusByte_of_status? hstatus, eq_byteOf_of_profileIndex? hdefault,
    toList_of_classMap? hmap]
  rfl

theorem descriptorClass?_eq_none_iff (b : Byte) : descriptorClass? b = none ↔ 2 < b.toNat := by
  unfold descriptorClass?
  split_ifs with h0 h1 h2
  · simp [h0]
  · simp [h1]
  · simp [h2]
  · simp only [true_iff]
    bv_omega

theorem eq_descriptorClassByte {b : Byte} {c : DescriptorClass} (h : descriptorClass? b = some c) : b = descriptorClassByte c := by
  unfold descriptorClass? at h
  split_ifs at h <;> (obtain rfl := Option.some.inj h; assumption)

theorem descriptorOf?_eq_none_iff (o : DescriptorOperand) : descriptorOf? o = none ↔
    flagOf o.present = none ∨ descriptorClass? o.cls = none ∨ profileIndex? o.alternate = none := by
  unfold descriptorOf?
  split
  next hp hc ha => simp [hp, hc, ha]
  next hnone =>
    simp only [true_iff]
    by_contra hall
    simp only [not_or, ← ne_eq, Option.ne_none_iff_exists'] at hall
    obtain ⟨⟨p, hp⟩, ⟨k, hk⟩, a, ha⟩ := hall
    exact hnone p k a hp hk ha

theorem fields_of_descriptorOf? {o : DescriptorOperand} {d : Descriptor} (h : descriptorOf? o = some d) :
    flagOf o.present = some d.present ∧ descriptorClass? o.cls = some d.cls ∧ profileIndex? o.alternate = some d.alternate
      ∧ o.code = d.code := by
  unfold descriptorOf? at h
  split at h
  next hp hc ha =>
    obtain rfl := Option.some.inj h
    exact ⟨hp, hc, ha, rfl⟩
  next => cases h

/-- The descriptor that a write stores is given back by its bytes. -/
theorem descriptorData_of_descriptorOf? {o : DescriptorOperand} {d : Descriptor} (h : descriptorOf? o = some d) :
    descriptorData d = [o.present, o.cls, o.alternate, o.code] := by
  obtain ⟨hpresent, hcls, halternate, hcode⟩ := fields_of_descriptorOf? h
  rw [eq_flagByte_of_flagOf hpresent, eq_descriptorClassByte hcls, eq_byteOf_of_profileIndex? halternate, hcode]
  rfl

/-! ### The clamping of a profile (R103) -/

theorem clampTo_zero (hi v : Nat) : clampTo 0 hi v = min v hi := Nat.zero_max _

/-- Every field as the clamping stores it, the light limit giving way to the dark limit and a maximum to its minimum. -/
theorem clampProfile_eq (p : Profile) : clampProfile p = { p with
    initialBackground := min p.initialBackground 255
    tq := max 16 (min p.tq 63)
    darkLimit := min p.darkLimit 254
    lightLimit := max (min p.darkLimit 254 + 1) (min p.lightLimit 255)
    attackShift := max 1 (min p.attackShift 4)
    decayShift := max 3 (min p.decayShift 8)
    widthMin := min p.widthMin 4095
    widthMax := max (min p.widthMin 4095) (min p.widthMax 4095)
    heightMin := min p.heightMin 4095
    heightMax := max (min p.heightMin 4095) (min p.heightMax 4095)
    blackMin := min p.blackMin 1000
    blackMax := max (min p.blackMin 1000) (min p.blackMax 1000)
    brightMin := min p.brightMin 255
    brightMax := max (min p.brightMin 255) (min p.brightMax 255)
    streakPermille := max 500 (min p.streakPermille 1000)
    streakLimit := max 1 (min p.streakLimit 255)
    budget := max 1024 (min p.budget 262144)
    pairTolerance := min p.pairTolerance 255 } := by
  have hdark : min (min p.darkLimit 255) 254 = min p.darkLimit 254 := by omega
  have hlight : (if clampTo 1 255 p.lightLimit ≤ min p.darkLimit 254 then min p.darkLimit 254 + 1 else clampTo 1 255 p.lightLimit)
      = max (min p.darkLimit 254 + 1) (min p.lightLimit 255) := by
    rw [clampTo]
    split <;> omega
  simp only [clampProfile, clampPairs, clampLimits, clampRanges, clampTo_zero, hdark, hlight]
  rfl

theorem clampProfile_of_inRange {p : Profile} (h : ProfileInRange p) : clampProfile p = p := by
  obtain ⟨hres, hinitial, htq, hdark, hlight, hattack, hdecay, hwidth, hheight, hblack, hbright, hpermille, hlimit, hbudget,
    htolerance⟩ := h
  have hinside {lo hi v : Nat} (hv : lo ≤ v ∧ v ≤ hi) : max lo (min v hi) = v := by omega
  have hpair {hi a b : Nat} (hab : a ≤ b ∧ b ≤ hi) : min a hi = a ∧ max a (min b hi) = b := by omega
  have hlight' : max (min p.darkLimit 254 + 1) (min p.lightLimit 255) = p.lightLimit := by omega
  rw [clampProfile_eq, hlight', Nat.min_eq_left hinitial, hinside htq, Nat.min_eq_left hdark, hinside hattack, hinside hdecay,
    (hpair hwidth).1, (hpair hwidth).2, (hpair hheight).1, (hpair hheight).2, (hpair hblack).1, (hpair hblack).2, (hpair hbright).1,
    (hpair hbright).2, hinside hpermille, hinside hlimit, hinside hbudget, Nat.min_eq_left htolerance]

theorem rawProfile?_eq_none_iff (o : ProfileOperand) : rawProfile? o = none ↔ o.valid ≠ 0 ∧ o.valid ≠ 1 := by
  rw [rawProfile?, Option.map_eq_none_iff, flagOf_eq_none_iff]

/-- A record goes into the profile table whole and clamped, or is refused (R102). -/
theorem serve_writeProfile_of_lt {i : Byte} (hi : i.toNat < 64) (o : ProfileOperand) (s : State) :
    serve (.writeProfile i o) s =
      match rawProfile? o with
      | none => (.refused .badField, s)
      | some r =>
        if r.outRes ∈ [100, 120, 150, 200, 240] then
          (okOr (decide (clampProfile r ≠ r)) (profileData (clampProfile r)), putProfile ⟨i.toNat, hi⟩ (clampProfile r) s)
        else (.refused .badField, s) := by
  rw [serve, serveWriteProfile, storeProfile, profileIndex?_of_lt hi]
  rfl

/-- Settles O48: each write by its index and its operand, and the clamping field by field. -/
theorem tableWritesReplaceOneEntry : Obligations.TableWritesReplaceOneEntry := by
  refine ⟨fun tag s h => ⟨fun i o => ?_, fun i o => ?_, fun i o => ?_⟩,
    ⟨fun p => clampProfile_inRange, fun p => clampProfile_of_inRange, clampProfile_eq⟩, fun o => ⟨?_, fun e he => ?_⟩,
    fun o => ⟨?_, fun d hd => ?_⟩, fun o => ⟨rawProfile?_eq_none_iff o, fun p hp => ?_⟩⟩
  · by_cases hi : i.toNat < 1024
    · rw [dif_pos hi]
      cases he : memberOf? o with
      | none =>
        have hserve : serve (.writeMember i o) (countIntakeIn s) = (.refused .badField, countIntakeIn s) := by
          simp [serve, serveWriteMember, memberIndex?_of_lt hi, he]
        exact next_of_intake h tag hserve
      | some e =>
        have hserve : serve (.writeMember i o) (countIntakeIn s) =
            (.ok (o.present :: o.status :: o.defaultProfile :: o.classMap.toList), putMember ⟨i.toNat, hi⟩ e (countIntakeIn s)) := by
          simp [serve, serveWriteMember, memberIndex?_of_lt hi, he, memberData_of_memberOf? he]
        exact next_of_intake h tag hserve
    · have hserve : serve (.writeMember i o) (countIntakeIn s) = (.refused .badIndex, countIntakeIn s) := by
        simp [serve, serveWriteMember, memberIndex?_of_not_lt hi]
      rw [dif_neg hi]
      exact next_of_intake h tag hserve
  · by_cases hi : i.toNat < 16
    · rw [dif_pos hi]
      cases hd : descriptorOf? o with
      | none =>
        have hserve : serve (.writeDisposition i o) (countIntakeIn s) = (.refused .badField, countIntakeIn s) := by
          simp [serve, serveWriteDisposition, descriptorIndex?_of_lt hi, hd]
        exact next_of_intake h tag hserve
      | some d =>
        have hserve : serve (.writeDisposition i o) (countIntakeIn s) =
            (.ok [o.present, o.cls, o.alternate, o.code], putDescriptor ⟨i.toNat, hi⟩ d (countIntakeIn s)) := by
          simp [serve, serveWriteDisposition, descriptorIndex?_of_lt hi, hd, descriptorData_of_descriptorOf? hd]
        exact next_of_intake h tag hserve
    · have hserve : serve (.writeDisposition i o) (countIntakeIn s) = (.refused .badIndex, countIntakeIn s) := by
        simp [serve, serveWriteDisposition, descriptorIndex?_of_not_lt hi]
      rw [dif_neg hi]
      exact next_of_intake h tag hserve
  · by_cases hi : i.toNat < 64
    · rw [dif_pos hi]
      have hserve := serve_writeProfile_of_lt hi o (countIntakeIn s)
      cases hr : rawProfile? o with
      | none =>
        rw [hr] at hserve
        exact next_of_intake h tag hserve
      | some r =>
        rw [hr] at hserve
        dsimp only at hserve ⊢
        split
        next hres =>
          rw [if_pos hres] at hserve
          exact (next_of_intake h tag hserve).trans (congrArg Host.Outcome.next (answered_okOr .intake tag decide_eq_true_iff _ _))
        next hres =>
          rw [if_neg hres] at hserve
          exact next_of_intake h tag hserve
    · have hserve : serve (.writeProfile i o) (countIntakeIn s) = (.refused .badIndex, countIntakeIn s) := by
        simp [serve, serveWriteProfile, storeProfile, profileIndex?_of_not_lt hi]
      rw [dif_neg hi]
      exact next_of_intake h tag hserve
  · rw [memberOf?_eq_none_iff, flagOf_eq_none_iff, status?_eq_none_iff, profileIndex?_eq_none_iff, classMap?_eq_none_iff]
  · obtain ⟨hpresent, hstatus, hdefault, hmap⟩ := fields_of_memberOf? he
    refine ⟨eq_flagByte_of_flagOf hpresent, ?_, toNat_of_profileIndex? hdefault, fun c => ?_⟩
    · rw [eq_statusByte_of_status? hstatus]
      cases e.status <;> rfl
    · have hbytes : o.classMap = e.classMap.map mapEntryByte :=
        Vector.toList_inj.mp ((toList_of_classMap? hmap).trans Vector.toList_map.symm)
      rw [← mapEntryByte_eq, hbytes, Vector.getElem_map]
  · rw [descriptorOf?_eq_none_iff, flagOf_eq_none_iff, descriptorClass?_eq_none_iff, profileIndex?_eq_none_iff]
  · obtain ⟨hpresent, hcls, halternate, hcode⟩ := fields_of_descriptorOf? hd
    refine ⟨eq_flagByte_of_flagOf hpresent, ?_, toNat_of_profileIndex? halternate, hcode⟩
    rw [eq_descriptorClassByte hcls]
    cases d.cls <;> rfl
  · obtain ⟨v, hv, rfl⟩ := Option.map_eq_some_iff.mp hp
    rw [flagOf_eq_decide hv]

end Sys2Proof.Machine
end

