-- ==== Sys2Proof/Proofs/Fields.lean ====
section
/-! Writes of lane fields and settings, the service state, and the composites (R75, R158, R161, R172, R173, R176 to R179). -/

namespace Sys2Proof.Machine

/-! ### Lane fields (R75, R90, R119, R158, R172) -/

theorem serve_writeLaneField_of_lane {lane : Byte} {l : Fin 16} (hl : lane? lane = some l) (field : Byte) (v : BitVec 32) (s : State) :
    serve (.writeLaneField lane field v) s = storeLaneField l field v s := by
  rw [serve, serveWriteLaneField, hl]

theorem serve_writeLaneField_of_bad_lane {lane : Byte} (h : 15 < lane.toNat) (field : Byte) (v : BitVec 32) (s : State) :
    serve (.writeLaneField lane field v) s = (.refused .badIndex, s) := by
  rw [serve, serveWriteLaneField, (lane?_eq_none_iff lane).mpr h]

/-- A field with no row of its own is read-only, or no field. -/
theorem storeLaneField_of_no_row {field : Byte} (h : hasWriteRow field = false) (l : Fin 16) (v : BitVec 32) (s : State) :
    storeLaneField l field v s = (.refused (if 13 < field.toNat then .badField else .readOnlyField), s) := by
  have hrow : ¬ (5 ≤ field.toNat ∧ field.toNat ≤ 9) := of_decide_eq_false h
  have hne {k : Byte} (hk : 5 ≤ k.toNat ∧ k.toNat ≤ 9) : field ≠ k := fun e => hrow (e ▸ hk)
  rw [storeLaneField, if_neg (hne (by decide)), if_neg (hne (by decide)), if_neg (hne (by decide)), if_neg (hne (by decide)),
    if_neg (hne (by decide))]
  split
  next hle => rw [if_neg (by omega)]
  next hgt => rw [if_pos (by omega)]

theorem flagCarried?_of_flag {v : BitVec 32} (h : v = 0 ∨ v = 1) : flagCarried? v = some (decide (v = 1)) := by
  rcases h with rfl | rfl <;> rfl

theorem flagCarried?_of_not_flag {v : BitVec 32} (h0 : v ≠ 0) (h1 : v ≠ 1) : flagCarried? v = none := by
  rw [flagCarried?, if_neg h1, if_neg h0]

theorem storeHeld_of_flag {v : BitVec 32} (h : v = 0 ∨ v = 1) (l : Fin 16) (s : State) :
    storeHeld l v s = (.ok (be32 v), writeHeld l (decide (v = 1)) s) := by
  rw [storeHeld, flagCarried?_of_flag h]

theorem storeEnabled_of_flag {v : BitVec 32} (h : v = 0 ∨ v = 1) (l : Fin 16) (s : State) :
    storeEnabled l v s = (.ok (be32 v), s.setLane l { s.lane l with enabled := decide (v = 1) }) := by
  rw [storeEnabled, flagCarried?_of_flag h]; rfl

theorem storeHeld_of_not_flag {v : BitVec 32} (h0 : v ≠ 0) (h1 : v ≠ 1) (l : Fin 16) (s : State) :
    storeHeld l v s = (.refused .badField, s) := by
  rw [storeHeld, flagCarried?_of_not_flag h0 h1]

theorem storeEnabled_of_not_flag {v : BitVec 32} (h0 : v ≠ 0) (h1 : v ≠ 1) (l : Fin 16) (s : State) :
    storeEnabled l v s = (.refused .badField, s) := by
  rw [storeEnabled, flagCarried?_of_not_flag h0 h1]

/-- A stall setting stored: a setting of 0 stops the timer at once, and a running timer goes on under any other (R90). -/
theorem stallLane_eq (v : BitVec 32) (c : Lane) : stallLane (min v.toNat 60000) c =
    if v = 0 then { c with stallMs := 0, stallRunning := false, stallRemaining := 0 }
    else { c with stallMs := min v.toNat 60000 } := by
  by_cases h : v = 0
  · subst h; rfl
  · have hpos : min v.toNat 60000 ≠ 0 := fun hzero => h (BitVec.eq_of_toNat_eq (show v.toNat = 0 by omega))
    rw [stallLane, if_neg hpos, if_neg h]

theorem storeStallMs_eq (l : Fin 16) (v : BitVec 32) (s : State) : storeStallMs l v s =
    (okOr (decide (min v.toNat 60000 ≠ v.toNat)) (num32 (min v.toNat 60000)),
      s.setLane l (if v = 0 then { s.lane l with stallMs := 0, stallRunning := false, stallRemaining := 0 }
        else { s.lane l with stallMs := min v.toNat 60000 })) := by
  rw [storeStallMs, State.modLane, stallLane_eq]

theorem clamped_min_iff (v hi : Nat) : decide (min v hi ≠ v) = true ↔ ¬ v ≤ hi := by
  rw [decide_eq_true_iff]
  omega

/-- A field of a lane, written from the intake link. -/
theorem next_of_laneField {s : State} (h : ReadyFor .intake s) (tag : BitVec 16) (l : Fin 16) (field : Byte) {v : BitVec 32}
    {a : Answer × State} (ha : storeLaneField l field v (countIntakeIn s) = a) :
    (.next (receiveNamed .intake tag (.writeLaneField (BitVec.ofNat 8 l.val) field v) s) : Result) =
      .next (answered .intake tag a) :=
  next_of_intake h tag ((serve_writeLaneField_of_lane (lane?_ofNat l) ..).trans ha)

theorem next_of_stallMs {s : State} (h : ReadyFor .intake s) (tag : BitVec 16) (l : Fin 16) (v : BitVec 32) :
    (.next (receiveNamed .intake tag (.writeLaneField (BitVec.ofNat 8 l.val) fieldStallMs v) s) : Result) =
      .next (replied .intake tag (if v.toNat ≤ 60000 then 0x00 else 0x01) (num32 (min v.toNat 60000))
        ((countIntakeIn s).setLane l
          (if v = 0 then { s.lane l with stallMs := 0, stallRunning := false, stallRemaining := 0 }
            else { s.lane l with stallMs := min v.toNat 60000 }))) :=
  (next_of_laneField h tag l fieldStallMs (storeStallMs_eq l v (countIntakeIn s))).trans
    (congrArg Host.Outcome.next (answered_okOr .intake tag (clamped_min_iff ..) _ _))

/-- A setting, written from the intake link. -/
theorem next_of_setting {s : State} (h : ReadyFor .intake s) (tag : BitVec 16) {n : Byte} {v : BitVec 16} {clamped : Bool}
    {data : List Byte} {t : State} (ha : serveWriteSetting n v (countIntakeIn s) = (okOr clamped data, t)) {asCarried : Prop}
    [Decidable asCarried] (hclamped : clamped = true ↔ ¬ asCarried) :
    (.next (receiveNamed .intake tag (.writeSetting n v) s) : Result) =
      .next (replied .intake tag (if asCarried then 0x00 else 0x01) data t) :=
  (next_of_intake h tag (r := .writeSetting n v) ha).trans
    (congrArg Host.Outcome.next (answered_okOr .intake tag hclamped _ _))

theorem storeExtent_eq (v : Nat) (s : State) : storeExtent v s =
    (okOr (decide (min v 16 ≠ v)) (num16 (min v 16)), s.withDisposition { s.disposition with extent := min v 16 }) := by
  rw [storeExtent, clampTo_zero]

theorem storeReserve_eq (v : Nat) (s : State) : storeReserve v s =
    (okOr (decide (min v 1024 ≠ v)) (num16 (min v 1024)), evalStop (s.withMgmt { s.mgmt with pageReserve := min v 1024 })) := by
  rw [storeReserve, clampTo_zero]

/-- Settles O49: each field and setting by its own store, and the rows of their own by the field they name. -/
theorem laneFieldAndSettingWrites : Obligations.LaneFieldAndSettingWrites := by
  refine ⟨fun tag lane field v s h hrow => ?_, fun tag l v s h => ⟨fun hflag => ⟨?_, ?_⟩, fun h0 h1 => ⟨?_, ?_⟩, ?_⟩,
    fun tag l v s h => ⟨?_, ?_⟩, fun tag v s h => ⟨?_, ?_, ?_⟩, fun tag l v s h => ⟨fun hflag => ⟨?_, ?_⟩, ?_⟩,
    fun p tag lane v s => ⟨⟨_, rfl, rfl⟩, ⟨_, rfl, rfl⟩, ⟨_, rfl, rfl⟩, ⟨_, rfl, rfl⟩, ⟨_, rfl, rfl⟩⟩,
    fun tag lane v s c h hlane hc => ?_⟩
  · cases hl : lane? lane with
    | none =>
      have hbad := (lane?_eq_none_iff lane).mp hl
      rw [if_pos hbad]
      exact next_of_intake h tag (serve_writeLaneField_of_bad_lane hbad ..)
    | some l =>
      have hgood : ¬ 15 < lane.toNat := fun hbad => by simp [(lane?_eq_none_iff lane).mpr hbad] at hl
      have hstore := (serve_writeLaneField_of_lane hl field v (countIntakeIn s)).trans (storeLaneField_of_no_row hrow ..)
      refine (next_of_intake h tag hstore).trans (congrArg Host.Outcome.next ?_)
      rw [if_neg hgood]
      split <;> rfl
  · exact next_of_laneField h tag l fieldHeld (storeHeld_of_flag hflag l _)
  · exact next_of_laneField h tag l fieldEnabled (storeEnabled_of_flag hflag l _)
  · exact next_of_laneField h tag l fieldHeld (storeHeld_of_not_flag h0 h1 l _)
  · exact next_of_laneField h tag l fieldEnabled (storeEnabled_of_not_flag h0 h1 l _)
  · exact next_of_stallMs h tag l v
  · rintro xoff xon rfl rfl
    refine (next_of_laneField h tag l fieldXoff (v := v) rfl).trans
      (congrArg Host.Outcome.next (answered_okOr .intake tag ?_ _ _))
    rw [decide_eq_true_iff, ← not_and_or]
    rfl
  · rintro xon rfl
    refine (next_of_laneField h tag l fieldXon (v := v) rfl).trans
      (congrArg Host.Outcome.next (answered_okOr .intake tag decide_eq_true_iff _ _))
  · refine next_of_setting h tag (n := settingExtent) (v := v) (storeExtent_eq ..) (clamped_min_iff ..)
  · refine next_of_setting h tag (n := settingReserve) (v := v) (storeReserve_eq ..) (clamped_min_iff ..)
  · refine next_of_setting h tag (n := settingMargin) (v := v) rfl ?_
    rw [decide_eq_true_iff, clampTo]
    omega
  · exact next_of_laneField h tag l fieldHeld (storeHeld_of_flag hflag l _)
  · exact next_of_laneField h tag l fieldEnabled (storeEnabled_of_flag hflag l _)
  · exact next_of_stallMs h tag l v
  · have hbad (field : Byte) := next_of_intake h tag (serve_writeLaneField_of_bad_lane hlane field v (countIntakeIn s))
    simp only [List.mem_cons, List.not_mem_nil, or_false] at hc
    rcases hc with rfl | rfl | rfl | rfl | rfl
    · exact hbad fieldHeld
    · exact hbad fieldEnabled
    · exact hbad fieldXoff
    · exact hbad fieldXon
    · exact hbad fieldStallMs

end Sys2Proof.Machine
end

