-- ==== Sys2Proof/Proofs/Services.lean ====
section
/-! The service state, and the composites (R176 to R179). -/

namespace Sys2Proof.Machine

/-! ### The service state (R178, R179) -/

theorem service?_eq_none {b : Byte} (h : 2 < b.toNat) : service? b = none := by
  have hne {k : Byte} (hk : k.toNat ≤ 2) : b ≠ k := fun e => by subst e; omega
  rw [service?, if_neg (hne (by decide)), if_neg (hne (by decide)), if_neg (hne (by decide))]

theorem watchService_setService_of_ne {v : ServiceState} (h : v ≠ .draining) (s : State) :
    watchService (setService v s) = setService v s := if_neg fun hnot => h hnot.1

theorem watchService_setService_draining (s : State) : watchService (setService .draining s) =
    if listsEmpty s = true then setService .standby s else setService .draining s := by
  have hempty : listsEmpty (setService .draining s) = listsEmpty s := rfl
  rw [watchService, hempty]
  by_cases h : listsEmpty s = true
  · rw [if_pos ⟨rfl, h⟩, if_pos h]; rfl
  · rw [if_neg fun hnot => h hnot.2, if_neg h]

/-- A transition that the table does not have. -/
theorem serveService_of_none {b : Byte} {t : ServiceState} {s : State} (ht : service? b = some t)
    (hnone : serviceTarget s.mgmt.service t (listsEmpty s) = none) : serveService b s = (.refused .notInState, s) := by
  rw [serveService, ht]
  dsimp only
  rw [hnone]

/-- A transition of the table to a state that is not DRAINING. -/
theorem serveService_of_some {b : Byte} {t v : ServiceState} {s : State} (ht : service? b = some t)
    (hsome : serviceTarget s.mgmt.service t (listsEmpty s) = some v) (hv : v ≠ .draining) :
    serveService b s = (.ok [serviceCode v], setService v s) := by
  rw [serveService, ht]
  dsimp only
  rw [hsome]
  dsimp only
  rw [watchService_setService_of_ne hv]
  rfl

/-- A transition of the table to DRAINING, which becomes STANDBY at once when every list is empty (R179). -/
theorem serveService_of_draining {b : Byte} {t : ServiceState} {s : State} (ht : service? b = some t)
    (hsome : serviceTarget s.mgmt.service t (listsEmpty s) = some .draining) :
    serveService b s = if listsEmpty s = true then (.ok [0], setService .standby s) else (.ok [2], setService .draining s) := by
  rw [serveService, ht]
  dsimp only
  rw [hsome]
  dsimp only
  rw [watchService_setService_draining]
  split <;> rfl

theorem serviceTarget_inService (current : ServiceState) (empty : Bool) :
    serviceTarget current .inService empty = some .inService := by cases current <;> rfl

theorem serviceTarget_standby {current : ServiceState} {empty : Bool} :
    serviceTarget current .standby empty = if current = .standby ∨ empty = true then some .standby else none := by
  cases current <;> cases empty <;> rfl

theorem serviceTarget_draining {current : ServiceState} {empty : Bool} :
    serviceTarget current .draining empty = if current = .standby then none else some .draining := by
  cases current <;> rfl

/-- Settles O51: the transition table by its target, and the watch that follows a change. -/
theorem serviceStateFollowsTheTable : Obligations.ServiceStateFollowsTheTable := by
  intro tag target s h
  have hempty : listsEmpty (countIntakeIn s) = listsEmpty s := rfl
  have hservice : (countIntakeIn s).mgmt.service = s.mgmt.service := rfl
  have hserve : serve (.setServiceState target) (countIntakeIn s) = serveService target (countIntakeIn s) := rfl
  refine ⟨fun hbad => ?_, ?_, ?_, ?_, ?_, ?_, ?_⟩
  · have hnone : serveService target (countIntakeIn s) = (.refused .badField, countIntakeIn s) := by
      rw [serveService, service?_eq_none hbad]
    exact next_of_intake h tag (hserve.trans hnone)
  · rintro rfl
    exact next_of_intake h tag (hserve.trans (serveService_of_some (t := .inService) rfl (serviceTarget_inService ..) nofun))
  · rintro rfl hstandby
    refine next_of_intake h tag (hserve.trans (serveService_of_some (t := .standby) (v := .standby) rfl ?_ nofun))
    rw [serviceTarget_standby, hservice, hempty, if_pos hstandby]
  · rintro rfl hne hlists
    refine next_of_intake h tag (hserve.trans (serveService_of_none (t := .standby) rfl ?_))
    rw [serviceTarget_standby, hservice, hempty, hlists, if_neg (by simpa using hne)]
  · rintro rfl hstandby
    refine next_of_intake h tag (hserve.trans (serveService_of_none (t := .draining) rfl ?_))
    rw [serviceTarget_draining, hservice, if_pos hstandby]
  · rintro rfl hne hlists
    have hdraining := serveService_of_draining (b := 2) (t := .draining) (s := countIntakeIn s) rfl
      (by rw [serviceTarget_draining, if_neg (by exact hne)])
    rw [hempty, hlists] at hdraining
    exact next_of_intake h tag (hserve.trans hdraining)
  · rintro rfl hin hlists
    have hdraining := serveService_of_draining (b := 2) (t := .draining) (s := countIntakeIn s) rfl
      (by rw [serviceTarget_draining, if_neg (by rw [hservice, hin]; decide)])
    rw [hempty, hlists] at hdraining
    exact next_of_intake h tag (hserve.trans hdraining)

/-! ### Composites (R176, R177) -/

theorem twoSteps_of_ok {data : List Byte} {s t : State} {second : State → Answer × State} {a : Answer}
    (h : second s = (a, t)) : twoSteps (.ok data, s) second = (afterFirst false a, t) := by
  rw [twoSteps]
  dsimp only
  rw [h]

theorem profileIndex?_of_toNat {b : Byte} {i : Fin 64} (h : b.toNat = i.val) : profileIndex? b = some i := by
  rw [profileIndex?_of_lt (h ▸ i.isLt)]
  exact congrArg some (Fin.ext h)

theorem serveReadProfile_of_index {b : Byte} {i : Fin 64} (h : profileIndex? b = some i) (s : State) :
    serveReadProfile b s = (.ok (profileData s.admission.profiles[i.val]), s) := by
  rw [serveReadProfile, h]

/-- A record in range is stored as it is. -/
theorem storeProfile_of_inRange {b : Byte} {i : Fin 64} {p : Profile} (hb : profileIndex? b = some i) (hp : ProfileInRange p)
    (s : State) : storeProfile b (some p) s = (.ok (profileData p), putProfile i p s) := by
  have hres : p.outRes ∈ outputResolutions := hp.1
  rw [storeProfile, hb]
  dsimp only
  rw [if_pos hres, clampProfile_of_inRange hp]
  simp [okOr]

theorem profileAt?_of_index {b : Byte} {i : Fin 64} (h : profileIndex? b = some i) (s : State) :
    profileAt? s b = some s.admission.profiles[i.val] := by
  rw [profileAt?, h]; rfl

theorem memberIndex?_of_toNat {m : BitVec 16} {k : Fin 1024} (h : m.toNat = k.val) : memberIndex? m = some k := by
  rw [memberIndex?_of_lt (h ▸ k.isLt)]
  exact congrArg some (Fin.ext h)

theorem mapEntry?_of_admitted {p : Byte} (h : p.toNat ≤ 63 ∨ p = 255) :
    mapEntry? p = some (if hp : p.toNat < 64 then some ⟨p.toNat, hp⟩ else none) := by
  rw [mapEntry?]
  by_cases hnone : p = 255
  · subst hnone; rfl
  · have hlt : p.toNat < 64 := by have := h.resolve_right hnone; omega
    rw [if_neg hnone, profileIndex?_of_lt hlt, dif_pos hlt]
    rfl

theorem serveReadMember_of_index {m : BitVec 16} {k : Fin 1024} (h : memberIndex? m = some k) (s : State) :
    serveReadMember m s = (.ok (memberData s.admission.members[k.val]), s) := by
  rw [serveReadMember, h]

theorem movedEntry?_of_admitted {c p : Byte} {j : Fin 8} (hc : class? c = some j) (hp : p.toNat ≤ 63 ∨ p = 255) (e : MemberEntry) :
    movedEntry? e c p =
      some { e with classMap := e.classMap.set j.val (if h : p.toNat < 64 then some ⟨p.toNat, h⟩ else none) } := by
  rw [movedEntry?, hc, mapEntry?_of_admitted hp]

theorem movedEntry?_eq_none {c p : Byte} (h : 7 < c.toNat ∨ (63 < p.toNat ∧ p ≠ 255)) (e : MemberEntry) :
    movedEntry? e c p = none := by
  rw [movedEntry?]
  split
  next hc hp =>
    rcases h with hclass | hprofile
    · rw [class?_eq_none_iff.mpr hclass] at hc; cases hc
    · rw [(mapEntry?_eq_none_iff p).mpr hprofile] at hp; cases hp
  next => rfl

/-- The second step of MOVE_CLASS writes the moved entry, or is refused. -/
theorem storeMoved_of_some {m : BitVec 16} {k : Fin 1024} {c p : Byte} {s : State} {e : MemberEntry} (h : memberIndex? m = some k)
    (he : movedEntry? s.admission.members[k.val] c p = some e) : storeMoved m c p s = (.ok (memberData e), putMember k e s) := by
  rw [storeMoved, h]
  dsimp only
  rw [he]

theorem storeMoved_of_none {m : BitVec 16} {k : Fin 1024} {c p : Byte} {s : State} (h : memberIndex? m = some k)
    (he : movedEntry? s.admission.members[k.val] c p = none) : storeMoved m c p s = (.refused .badField, s) := by
  rw [storeMoved, h]
  dsimp only
  rw [he]

theorem setLane_of_held {s : State} {l : Fin 16} (h : (s.lane l).held = true) :
    { s.lane l with enabled := false } = { s.lane l with held := true, enabled := false } := by
  rw [← h]

/-- The two steps of QUIESCE_LANE leave the lane held and not enabled (R177). -/
theorem serveQuiesce_of_lane {lane : Byte} {l : Fin 16} (hl : lane? lane = some l) (s : State) :
    serveQuiesce lane s = (.ok [0, 0, 0, 0], s.setLane l { s.lane l with held := true, enabled := false }) := by
  have hfirst : serveWriteLaneField lane fieldHeld 1 s = (.ok (be32 1), writeHeld l true s) :=
    (serve_writeLaneField_of_lane hl fieldHeld 1 s).trans (storeHeld_of_flag (.inr rfl) l s)
  have hsecond (t : State) : serveWriteLaneField lane fieldEnabled 0 t =
      (.ok [0, 0, 0, 0], t.setLane l { t.lane l with enabled := false }) :=
    (serve_writeLaneField_of_lane hl fieldEnabled 0 t).trans (storeEnabled_of_flag (.inl rfl) l t)
  rw [serveQuiesce, hfirst, twoSteps_of_ok (hsecond _)]
  refine congrArg (Prod.mk (Answer.ok [0, 0, 0, 0])) ?_
  rw [writeHeld]
  split
  next hheld => rw [setLane_of_held hheld]
  next =>
    rw [if_pos rfl]
    exact State.modLane_modLane s l (fun c => { c with held := true }) fun c => { c with enabled := false }

/-- Settles O54: both steps by their own rules, or PARTIAL at the step that is refused. -/
theorem compositesStopAtARefusedStep : Obligations.CompositesStopAtARefusedStep := by
  refine fun tag s h => ⟨fun src dst a b hsrc hdst hrange => ?_, fun src dst hsrc => ?_, fun src dst hsrc hdst => ?_,
    fun m c p k j hm hc hp => ⟨_, rfl, ?_⟩, fun m c p hm => ?_, fun m c p hm hbad => ?_, fun l => ?_, fun lane hlane => ?_⟩
  · have hfirst := serveReadProfile_of_index (profileIndex?_of_toNat hsrc) (countIntakeIn s)
    have hsecond := storeProfile_of_inRange (profileIndex?_of_toNat hdst) hrange (countIntakeIn s)
    have hserve : serve (.copyProfile src dst) (countIntakeIn s) =
        (.ok (profileData s.admission.profiles[a.val]), putProfile b s.admission.profiles[a.val] (countIntakeIn s)) := by
      rw [serve, serveCopyProfile, hfirst, profileAt?_of_index (profileIndex?_of_toNat hsrc)]
      exact twoSteps_of_ok hsecond
    exact next_of_intake h tag hserve
  · have hserve : serve (.copyProfile src dst) (countIntakeIn s) = (.stopped 0 .badIndex, countIntakeIn s) := by
      rw [serve, serveCopyProfile, serveReadProfile, (profileIndex?_eq_none_iff src).mpr hsrc]
      rfl
    exact next_of_intake h tag hserve
  · have hsecond : storeProfile dst (profileAt? (countIntakeIn s) src) (countIntakeIn s) = (.refused .badIndex, countIntakeIn s) := by
      rw [storeProfile, (profileIndex?_eq_none_iff dst).mpr hdst]
    have hserve : serve (.copyProfile src dst) (countIntakeIn s) = (.stopped 1 .badIndex, countIntakeIn s) := by
      rw [serve, serveCopyProfile, serveReadProfile_of_index (profileIndex?_of_lt (by omega)), twoSteps_of_ok hsecond]
      rfl
    exact next_of_intake h tag hserve
  · have hmoved := storeMoved_of_some (s := countIntakeIn s) (memberIndex?_of_toNat hm)
      (movedEntry?_of_admitted (class?_eq_some_iff.mpr hc) hp _)
    have hserve : serve (.moveClass m c p) (countIntakeIn s) = (afterFirst false (storeMoved m c p (countIntakeIn s)).1,
        (storeMoved m c p (countIntakeIn s)).2) := by
      rw [serve, serveMoveClass, serveReadMember_of_index (memberIndex?_of_toNat hm)]
      rfl
    rw [hmoved] at hserve
    exact next_of_intake h tag hserve
  · have hserve : serve (.moveClass m c p) (countIntakeIn s) = (.stopped 0 .badIndex, countIntakeIn s) := by
      rw [serve, serveMoveClass, serveReadMember, memberIndex?_of_not_lt (by omega)]
      rfl
    exact next_of_intake h tag hserve
  · have hindex := memberIndex?_of_lt (i := m) (by omega)
    have hmoved := storeMoved_of_none (s := countIntakeIn s) hindex (movedEntry?_eq_none hbad _)
    have hserve : serve (.moveClass m c p) (countIntakeIn s) = (.stopped 1 .badField, countIntakeIn s) := by
      rw [serve, serveMoveClass, serveReadMember_of_index hindex, twoSteps_of_ok hmoved]
      rfl
    exact next_of_intake h tag hserve
  · exact next_of_intake h tag (r := .quiesceLane (BitVec.ofNat 8 l.val)) (serveQuiesce_of_lane (lane?_ofNat l) (countIntakeIn s))
  · have hserve : serve (.quiesceLane lane) (countIntakeIn s) = (.stopped 0 .badIndex, countIntakeIn s) := by
      rw [serve, serveQuiesce, serveWriteLaneField, (lane?_eq_none_iff lane).mpr hlane]
      rfl
    exact next_of_intake h tag hserve

end Sys2Proof.Machine
end

