-- ==== Sys2Proof/Proofs/Resets.lean ====
section
/-! What a reset of a lane and a reset of the engine leave (R59, R60, R68, R69, R95, R153, R165, R180, R181). -/

namespace Sys2Proof.Machine

/-! ### The grants that follow a cancellation leave the lane alone (R54, R59) -/

/-- A lane's context, and that no unit and no wait list holds a side of the lane. -/
structure LaneAbsent (l : Fin 16) (c : Lane) (s : State) : Prop where
  lane : s.lane l = c
  units : ∀ u b, s.unit u = some b → b.ref.lane ≠ l
  waits : ∀ r, r ∈ s.reduction.openWait ++ s.reduction.reworkWait → r.lane ≠ l

theorem LaneAbsent.congr {l : Fin 16} {c : Lane} {s t : State} (hlanes : t.lanes = s.lanes) (hreduction : t.reduction = s.reduction)
    (h : LaneAbsent l c s) : LaneAbsent l c t where
  lane := (lane_congr hlanes l).trans h.lane
  units u b hb := h.units u b (by rwa [State.unit, hreduction] at hb)
  waits r hr := h.waits r (hreduction ▸ hr)

theorem waitingSide?_mem {s : State} {r : SideRef} (h : waitingSide? s = some r) :
    r ∈ s.reduction.openWait ++ s.reduction.reworkWait := by
  unfold waitingSide? at h
  split at h
  next r' rest hrework =>
    obtain rfl := Option.some.inj h
    exact List.mem_append_right _ (hrework ▸ List.mem_cons_self)
  next => exact List.mem_append_left _ (List.mem_of_head? h)

theorem LaneAbsent.popWaiting {l : Fin 16} {c : Lane} {s : State} (h : LaneAbsent l c s) : LaneAbsent l c (popWaiting s) := by
  unfold Machine.popWaiting
  split
  next r rest hrework =>
    refine ⟨h.lane, h.units, fun q hq => h.waits q ?_⟩
    rcases List.mem_append.mp hq with hopen | htail
    · exact List.mem_append_left _ hopen
    · exact List.mem_append_right _ (hrework ▸ List.mem_cons_of_mem _ htail)
  next hrework =>
    refine ⟨h.lane, h.units, fun q hq => h.waits q ?_⟩
    rcases List.mem_append.mp hq with hopen | hnone
    · exact List.mem_append_left _ (List.mem_of_mem_tail hopen)
    · exact List.mem_append_right _ hnone

theorem LaneAbsent.bindSide {l : Fin 16} {c : Lane} {s : State} {r : SideRef} (u : Fin 4) (hr : r.lane ≠ l) (h : LaneAbsent l c s) :
    LaneAbsent l c (bindSide u r s) := by
  cases hx : s.side? r with
  | none => rw [Machine.bindSide, hx]; exact h
  | some x =>
    cases hp : x.snapshot with
    | none => rw [Machine.bindSide, hx]; dsimp only; rw [hp]; exact h
    | some p =>
      rw [bindSide_eq hx hp]
      obtain ⟨hunits, -, hlanes, -, hreduction, -⟩ := evalPausedIf_frame (x.state = .reworkWait) r.lane
        ((s.setUnit u (some (newBinding r x p))).modSide r (boundSide u p (newBinding r x p)))
      refine ⟨?_, fun w b hb => ?_, fun q hq => ?_⟩
      · rw [hlanes l hr.symm]
        exact (State.lane_modItem_ne _ _ hr).trans h.lane
      · rw [hunits] at hb
        by_cases hw : u = w
        · subst hw
          have hbound : (s.setUnit u (some (newBinding r x p))).unit u = some b := hb
          rw [State.unit_setUnit_self] at hbound
          obtain rfl := Option.some.inj hbound
          exact hr
        · exact h.units w b ((State.unit_setUnit_ne s _ hw).symm.trans hb)
      · rw [hreduction] at hq
        exact h.waits q hq

theorem LaneAbsent.grant {l : Fin 16} {c : Lane} {s : State} (h : LaneAbsent l c s) : LaneAbsent l c (grant s) := by
  unfold Machine.grant
  split
  · exact h
  · split
    · exact h
    next r hr => exact h.popWaiting.bindSide _ (h.waits r (waitingSide?_mem hr))

theorem LaneAbsent.grantAll {l : Fin 16} {c : Lane} {s : State} (h : LaneAbsent l c s) : LaneAbsent l c (grantAll s) := by
  have hup (n : Nat) : ∀ t, LaneAbsent l c t → LaneAbsent l c (grantUpTo n t) := by
    induction n with
    | zero => exact fun _ => id
    | succ n ih => exact fun t ht => ih _ ht.grant
  exact hup _ s h

/-! ### The lane, and the pages that return (R68, R95, R153, R180) -/

/-- The lane's context with its records withdrawn. -/
def withdrawnLane (c : Lane) : Lane := { c with list := withdrawList c.list }

/-- A lane reset up to the evaluation of the lane's paused flag. -/
def laneCleared (l : Fin 16) (s : State) : State :=
  (returnPages (releasedPages (s.lane l)) (grantAll (withdrawLane l s))).modLane l resetContext

theorem resetLane_eq (l : Fin 16) (s : State) : resetLane l s = evalPaused l (laneCleared l s) := rfl

theorem withdrawLane_absent (l : Fin 16) (s : State) : LaneAbsent l (withdrawnLane (s.lane l)) (withdrawLane l s) where
  lane := State.lane_modLane_self s l withdrawnLane
  units u b hb := by
    have hunit : (withdrawLane l s).unit u = (s.unit u).filter fun x => x.ref.lane != l := Vector.getElem_map ..
    rw [hunit] at hb
    simpa using (Option.filter_eq_some_iff.mp hb).2
  waits r hr := by
    rcases List.mem_append.mp hr with hopen | hrework
    · simpa using (List.mem_filter.mp hopen).2
    · simpa using (List.mem_filter.mp hrework).2

theorem laneCleared_absent (l : Fin 16) (s : State) :
    LaneAbsent l (resetContext (withdrawnLane (s.lane l))) (laneCleared l s) := by
  have hgranted : LaneAbsent l (withdrawnLane (s.lane l))
      (returnPages (releasedPages (s.lane l)) (grantAll (withdrawLane l s))) :=
    (withdrawLane_absent l s).grantAll.congr (by simp) (by simp)
  refine ⟨?_, hgranted.units, hgranted.waits⟩
  rw [laneCleared, State.lane_modLane_self, hgranted.lane]

theorem lane_resetLane (l : Fin 16) (s : State) :
    (resetLane l s).lane l =
      { resetContext (withdrawnLane (s.lane l)) with paused := pausedAfter l (laneCleared l s) } := by
  rw [resetLane_eq, lane_evalPaused_self, (laneCleared_absent l s).lane]

theorem reduction_resetLane (l : Fin 16) (s : State) : (resetLane l s).reduction = (laneCleared l s).reduction := by
  simp [resetLane_eq]

/-! ### The withdrawn records (R59, R68, R139, R153) -/

theorem cancelState_eq (st : SideState) :
    cancelState st = if st = .done ∨ st = .notReduced then st else .cancelled := by cases st <;> rfl

theorem mem_withdrawList_iff {is : List Item} {i : Item} :
    i ∈ withdrawList is ↔ ∃ j ∈ is, (if isWithdrawn j = true then withdrawItem j else j) = i := List.mem_map

theorem isWithdrawn_iff (i : Item) : isWithdrawn i = true ↔ i.state ≠ .emitting ∧ i.dispatch.disposition ≠ .withdrawn :=
  decide_eq_true_iff

theorem pages_withdrawItem (i : Item) : (withdrawItem i).pages = 0 := by
  have hside (x : Option Side) : optPages (x.map withdrawSide) = 0 := by cases x <;> rfl
  show optPages (i.front.map withdrawSide) + optPages (i.back.map withdrawSide) = 0
  rw [hside, hside]

/-- After a withdrawal every record is EMITTING or a WITHDRAWN notice. -/
theorem emitting_or_withdrawn {is : List Item} {i : Item} (hi : i ∈ withdrawList is) :
    i.state = .emitting ∨ i.dispatch.disposition = .withdrawn := by
  obtain ⟨j, -, rfl⟩ := mem_withdrawList_iff.mp hi
  split
  next => exact .inr rfl
  next hkept =>
    rw [isWithdrawn_iff, not_and_or, not_not, not_not] at hkept
    exact hkept

theorem mem_withdrawList_of_emitting {is : List Item} {i : Item} (hi : i ∈ is) (hstate : i.state = .emitting) :
    i ∈ withdrawList is := by
  refine mem_withdrawList_iff.mpr ⟨i, hi, if_neg fun hw => ?_⟩
  exact ((isWithdrawn_iff i).mp hw).1 hstate

/-- A record that the withdrawal has written is a notice without pages. -/
theorem notice_of_not_mem {is : List Item} {i : Item} (hi : i ∈ withdrawList is) (hnew : i ∉ is) :
    i.state = .ready ∧ i.pages = 0 ∧ i.dispatch = ⟨.withdrawn, .laneReset, none, .none, 0, []⟩ := by
  obtain ⟨j, hj, rfl⟩ := mem_withdrawList_iff.mp hi
  split at hnew
  next hw => rw [if_pos hw]; exact ⟨rfl, pages_withdrawItem j, rfl⟩
  next => exact absurd hj hnew

/-- The pages that return are those of the records withdrawn. -/
theorem listPages_eq_withdrawn (is : List Item) :
    listPages is = listPages (withdrawList is) + ((is.filter isWithdrawn).map Item.pages).sum := by
  induction is with
  | nil => rfl
  | cons i is ih =>
    rw [withdrawList, List.map_cons, ← withdrawList, listPages, listPages, ih]
    by_cases hw : isWithdrawn i = true
    · rw [if_pos hw, List.filter_cons_of_pos hw, pages_withdrawItem, List.map_cons, List.sum_cons]
      omega
    · rw [if_neg hw, List.filter_cons_of_neg hw]
      omega

theorem releasedPages_eq (c : Lane) : releasedPages c = ((c.list.filter isWithdrawn).map Item.pages).sum := by
  rw [releasedPages, listPages_eq_withdrawn c.list]
  omega

theorem freePages_resetLane (l : Fin 16) (s : State) :
    (resetLane l s).freePages = s.freePages + releasedPages (s.lane l) := by
  simp [resetLane_eq, laneCleared, returnPages_eq_blocks, withdrawLane]

/-- A withdrawn record keeps its other fields, and its side records theirs but for pages, results, unit and state. -/
theorem withdrawList_eq {w : Side → Side} (hw : w = fun x => { x with
      inputPages := 0, input := [], outputPages := 0, body := []
      resultsDiscarded := true
      boundUnit := none
      state := if x.state = .done ∨ x.state = .notReduced then x.state else .cancelled }) (is : List Item) :
    withdrawList is = is.map fun i =>
      if decide (i.state ≠ .emitting ∧ i.dispatch.disposition ≠ .withdrawn) = true then { i with
        front := i.front.map w
        back := i.back.map w
        state := .ready
        dispatch := ⟨.withdrawn, .laneReset, none, .none, 0, []⟩ }
      else i := by
  have hside : withdrawSide = w := by
    funext x
    rw [hw, withdrawSide, discardResults, cancelSide, cancelState_eq]
    rfl
  rw [← hside]
  rfl

/-- The lane and the units of a lane reset, as one change. -/
theorem withdrawLane_reset (l : Fin 16) (s : State) :
    (withdrawLane l s).modLane l resetContext = { s with
      lanes := s.lanes.set l.val { s.lane l with
        list := withdrawList (s.lane l).list
        state := .idle, seq := 0, active := none, held := false, stallRunning := false, stallRemaining := 0
        lastTimedOut := none }
      reduction :=
        { units := s.reduction.units.map fun b => b.filter fun x => x.ref.lane != l
          openWait := s.reduction.openWait.filter fun x => x.lane != l
          reworkWait := s.reduction.reworkWait.filter fun x => x.lane != l } } :=
  congrArg (fun t => t.withReduction (cancelLane l s.reduction)) (State.modLane_modLane s l withdrawnLane resetContext)

/-- The return of pages reads no lane. -/
theorem returnPages_modLane (n : Nat) (l : Fin 16) (f : Lane → Lane) (s : State) :
    (returnPages n s).modLane l f = returnPages n (s.modLane l f) := by
  unfold returnPages
  split
  · rfl
  · rw [setFree, setFree, evalStop_eq_blocks, evalStop_eq_blocks]; rfl

/-- With no side of another lane waiting, no grant is made, and the reset is one change, the pages' return and the evaluation
of the paused flag. -/
theorem resetLane_of_no_other_waiter {l : Fin 16} {s : State}
    (h : ∀ r, r ∈ s.reduction.openWait ++ s.reduction.reworkWait → r.lane = l) :
    resetLane l s = evalPaused l (returnPages (releasedPages (s.lane l)) ((withdrawLane l s).modLane l resetContext)) := by
  have hnone {rs : List SideRef} (hrs : ∀ r ∈ rs, r.lane = l) : rs.filter (fun x => x.lane != l) = [] :=
    List.filter_eq_nil_iff.mpr fun r hr => by simp [hrs r hr]
  have hsettled : ArbiterSettled (withdrawLane l s) :=
    .inr ⟨hnone fun r hr => h r (List.mem_append_left _ hr), hnone fun r hr => h r (List.mem_append_right _ hr)⟩
  rw [resetLane, grantAll_of_settled hsettled, returnPages_modLane]

/-! ### The paused flag after a lane reset (R156, R157, R165) -/

theorem backlog_eq_zero {s : State} {l : Fin 16} (h : ∀ i ∈ (s.lane l).list, ∀ x ∈ i.sides, x.state ≠ .storing ∧ x.state ≠ .bound) :
    s.backlog l = 0 := by
  rw [backlog_eq]
  refine List.sum_eq_zero fun n hn => ?_
  obtain ⟨x, hx, rfl⟩ := List.mem_map.mp hn
  obtain ⟨i, hi, hside⟩ := List.mem_flatMap.mp hx
  obtain ⟨hstoring, hbound⟩ := h i hi x hside
  rw [sideBacklog_eq, if_neg hstoring, if_neg hbound]

theorem cancelState_settled (st : SideState) : cancelState st ≠ .storing ∧ cancelState st ≠ .bound := by
  cases st <;> exact ⟨nofun, nofun⟩

theorem mem_sides_mapSides {i : Item} {g : Side → Side} {x : Side} (h : x ∈ (i.mapSides g).sides) : ∃ y, x = g y := by
  rcases List.mem_append.mp h with hx | hx <;> obtain ⟨y, -, rfl⟩ := Option.map_eq_some_iff.mp (Option.mem_toList.mp hx) <;>
    exact ⟨y, rfl⟩

/-- After a withdrawal no side counts in the backlog when none of a kept record does. -/
theorem withdrawList_settled {is : List Item}
    (h : ∀ i ∈ is, isWithdrawn i = false → ∀ x ∈ i.sides, x.state = .done ∨ x.state = .notReduced ∨ x.state = .cancelled) :
    ∀ i ∈ withdrawList is, ∀ x ∈ i.sides, x.state ≠ .storing ∧ x.state ≠ .bound := by
  intro i hi x hx
  obtain ⟨j, hj, rfl⟩ := mem_withdrawList_iff.mp hi
  split at hx
  next hw =>
    obtain ⟨y, rfl⟩ := mem_sides_mapSides (i := j) hx
    exact cancelState_settled y.state
  next hkept =>
    rcases h j hj (by simpa using hkept) x hx with hs | hs | hs <;> rw [hs] <;> exact ⟨nofun, nofun⟩

theorem paused_resetLane {l : Fin 16} {s : State} (hbacklog : (laneCleared l s).backlog l = 0)
    (hmarks : (s.lane l).xon + 16 ≤ (s.lane l).xoff) (hlength : (s.lane l).list.length ≤ 8) :
    ((resetLane l s).lane l).paused = decide ((s.lane l).list.length = 8) := by
  have hlist : (withdrawList (s.lane l).list).length = (s.lane l).list.length := List.length_map ..
  rw [lane_resetLane]
  show pausedAfter l (laneCleared l s) = _
  rw [pausedAfter, (laneCleared_absent l s).lane, hbacklog]
  show pausedBy _ 0 (withdrawList (s.lane l).list).length = _
  rw [hlist]
  by_cases hfull : (s.lane l).list.length = 8
  · rw [pausedBy_set (.inr hfull), decide_eq_true hfull]
  · rw [pausedBy_clear (by exact hmarks) (Nat.zero_le _) (by omega), decide_eq_false hfull]

/-! ### The statements -/

theorem serve_resetLane {l : Fin 16} {s : State} {c : Lane} (hc : s.lane l = c) :
    serve (.resetLane (BitVec.ofNat 8 l.val)) s =
      (.ok [BitVec.ofNat 8 l.val,
        BitVec.ofNat 8 (c.list.countP fun i => decide (i.state ≠ .emitting ∧ i.dispatch.disposition ≠ .withdrawn)),
        if c.list.any (fun i => decide (i.state = .emitting)) then 1 else 0], resetLane l s) := by
  rw [serve, serveResetLane, lane?_ofNat]
  dsimp only
  rw [hc, List.countP_eq_length_filter]
  rfl

theorem exec_resetLane {l : Fin 16} {s : State} (h : ReadyFor .intake s) (tag : BitVec 16) :
    exec (.resetLane .intake tag (BitVec.ofNat 8 l.val)) s =
      .next (replied .intake tag 0x00
        [BitVec.ofNat 8 l.val,
          BitVec.ofNat 8 ((s.lane l).list.countP fun i => decide (i.state ≠ .emitting ∧ i.dispatch.disposition ≠ .withdrawn)),
          if (s.lane l).list.any (fun i => decide (i.state = .emitting)) then 1 else 0] (resetLane l (countIntakeIn s))) := by
  have hserve := serve_resetLane (l := l) (s := countIntakeIn s) (c := s.lane l) rfl
  have hnext := next_of_intake h tag hserve
  exact hnext

theorem blocks_resetLane (l : Fin 16) (s : State) :
    ((resetLane l s).admission, (resetLane l s).disposition, (resetLane l s).egress, (resetLane l s).mgmt) =
      (s.admission, s.disposition, s.egress, s.mgmt) := by simp

theorem context_resetLane_ne {l k : Fin 16} (h : k ≠ l) (s : State) : ((resetLane l s).lane k).context = (s.lane k).context := by
  rw [resetLane_eq, evalPaused_context, laneCleared, State.lane_modLane_ne _ _ h.symm, returnPages_context, grantAll_context]
  exact congrArg Lane.context (State.lane_modLane_ne s withdrawnLane h.symm)

/-- Settles O52: the records by the withdrawal, the units and wait lists by `LaneAbsent`, the flag by an empty backlog. -/
theorem laneResetWithdrawsTheRecords : Obligations.LaneResetWithdrawsTheRecords := by
  refine ⟨fun tag l s t h ht => ?_, fun l s t withdrawn w n s₁ ht hwithdrawn hw hn hs₁ => ?_, fun x => rfl,
    fun tag lane s h hlane => ?_⟩
  · subst ht
    have hlane := lane_resetLane l (countIntakeIn s)
    have hlist : ((resetLane l (countIntakeIn s)).lane l).list = withdrawList (s.lane l).list := congrArg Lane.list hlane
    have habsent := laneCleared_absent l (countIntakeIn s)
    have hreduction := reduction_resetLane l (countIntakeIn s)
    rw [hlist]
    refine ⟨exec_resetLane h tag, withdrawList_seqs _, fun i => emitting_or_withdrawn,
      fun i => mem_withdrawList_of_emitting, fun i => notice_of_not_mem, ?_, ?_, fun k hk => context_resetLane_ne hk _,
      fun u b hb => ?_, fun r hr => ?_, blocks_resetLane ..⟩
    · rw [hlane]; rfl
    · rw [hlane]; rfl
    · exact habsent.units u b (by rwa [State.unit, hreduction] at hb)
    · exact habsent.waits r (hreduction ▸ hr)
  · subst ht hwithdrawn hn
    have hcleared : (withdrawLane l s).modLane l resetContext = s₁ := by
      rw [hs₁, ← withdrawList_eq hw]
      exact withdrawLane_reset l s
    have hlist : ((resetLane l s).lane l).list = withdrawList (s.lane l).list := congrArg Lane.list (lane_resetLane l s)
    refine ⟨?_, ?_, fun hwaits => ?_, fun hsides hmarks hlength => ?_⟩
    · rw [hlist, ← hcleared, State.lane_modLane_self]
      exact (congrArg Lane.list (withdrawLane_absent l s).lane).symm
    · rw [freePages_resetLane, releasedPages_eq]
      rfl
    · have hfree : s₁.freePages = s.freePages := by rw [hs₁]
      rw [resetLane_of_no_other_waiter hwaits, hcleared, releasedPages_eq, returnPages, setFree, hfree]
      rfl
    · have hsettled := withdrawList_settled hsides
      have hbefore : (laneCleared l s).backlog l = 0 := backlog_eq_zero (by rw [(laneCleared_absent l s).lane]; exact hsettled)
      exact ⟨backlog_eq_zero (by rw [hlist]; exact hsettled), paused_resetLane hbefore hmarks hlength⟩
  · have hserve : serve (.resetLane lane) (countIntakeIn s) = (.refused .badIndex, countIntakeIn s) := by
      rw [serve, serveResetLane, (lane?_eq_none_iff lane).mpr hlane]
    exact next_of_intake h tag hserve

/-! ### The engine reset (R60, R69, R73, R94, R155, R165, R181) -/

/-- After an engine reset, with its reply queued for the intake link, nothing is left to start on the exchange link. -/
theorem startExchange_resetEngine (reply : List Byte) (s : State) :
    startExchange (queueReply .intake reply (resetEngine s)) = queueReply .intake reply (resetEngine s) := by
  refine startExchange_of_nothing (.inr (.inr ⟨rfl, rfl, fun l => ?_⟩))
  have hlane : (queueReply .intake reply (resetEngine s)).lane l = engineLane (s.lane l) := Vector.getElem_map ..
  rw [headReady, hlane]
  rfl

theorem answerRequest_resetEngine (tag : BitVec 16) (s : State) :
    answerRequest ⟨.intake, Request.resetEngine.payload tag⟩ s = queueReply .intake (be16 tag ++ [0x00]) (resetEngine s) := by
  rw [answerRequest_payload, carryOut_intake]
  rfl

/-- Settles O53: the reset by its definition; the exchange link is idle after it, and no request waits. -/
theorem engineResetKeepsTheTables : Obligations.EngineResetKeepsTheTables := by
  rintro tag s t rfl
  refine ⟨fun h => ?_, fun rest hrequests hroom => ?_⟩
  · have hnext := next_of_intake h tag (r := .resetEngine) (a := (.ok [], resetEngine (countIntakeIn s))) rfl
    have hanswered : answered .intake tag (.ok [], resetEngine (countIntakeIn s)) =
        queueReply .intake (be16 tag ++ [0x00]) (resetEngine (countIntakeIn s)) := startExchange_resetEngine _ _
    rw [hanswered] at hnext
    exact hnext
  · rw [takeRequests_of_room hrequests ((replyRoom_iff .intake s).mpr (Nat.lt_succ_iff.mp hroom)), answerRequest_resetEngine,
      takeRequests_of_nil rfl]
    rfl

end Sys2Proof.Machine
end
